-- ==== Sys2Proof/Word.lean ====
section
/-! DEFINITION. The word types of the I2C bus engine: the byte every access moves (spec R7, R70), the 7-bit
bus address (R60) and the 16-bit word of the register helpers (R68). -/

namespace Sys2Proof

/-- The unit of every transfer: 8 bits (R7 `BYTE`, R70). -/
abbrev Byte := BitVec 8

/-- A 7-bit target address (R60). -/
abbrev Addr := BitVec 7

/-- A 16-bit register word (R68). -/
abbrev Half := BitVec 16

end Sys2Proof
end

