-- ==== Sys2Proof/Config.lean ====
section
/-! DEFINITION. The implementation parameters of spec R7 and the free values of the model.
A parameter the spec leaves OPEN is a field of `Params`; every statement about states quantifies over them, since a
state carries its `Params`. The values a reset machine has for them are constants with no body (log entry 2), except
the transport (log entry 1). -/

namespace Sys2Proof

/-- R7 `BACKEND`: "one of three interchangeable backends ... Exactly one is active per build target." -/
inductive Backend where
  | bitBang
  | peripheral
  | simulated
  deriving DecidableEq, Repr

/-- The implementation parameters (R7). No step changes them.
`ADDR_WIDTH` 7, `BYTE` 8, `PTR_WIDTH` 8, `RW_READ` 1, most significant bit first, and `STRETCH_TIMEOUT` none are fixed
by the spec and stand in the types and definitions that use them. -/
structure Params where
  /-- `BACKEND` (D36). -/
  backend : Backend
  /-- `F_TICK`, the platform clock in hertz (D11). -/
  fTick : Nat
  /-- `OVH_HALF`, ticks (D11). -/
  ovhHalf : Nat
  /-- `OVH_QUARTER`, ticks (D11). -/
  ovhQuarter : Nat
  /-- `N_SAMPLES`, at least 1 (D10). -/
  nSamples : Nat
  /-- Whether the board has a pull-up resistor on SCL (R164, U22); log entry 24. -/
  pullUp : Bool
  /-- `BAUD_100K` (D16). -/
  baud100k : Nat
  /-- `BAUD_400K` (D16). -/
  baud400k : Nat
  /-- `TGT_ADDR` (D22), none in a build that holds no responder (R331); log entry 17. -/
  tgtAddr : Option Addr
  /-- `OOB_READ_BYTE` (D19). -/
  oobReadByte : Byte
  /-- `TGT_NACK_ON_WRITE_ERR`, false by decision D20; kept as a parameter as R243 and U10 do. -/
  nackOnWriteErr : Bool
  deriving DecidableEq, Repr

/-! Free values: constants nothing in Lean can evaluate (log entries 2, 5, 24, 27). -/

/-- `F_TICK` of the reset machine (OPEN). -/
opaque Config.fTick : Nat
/-- `OVH_HALF` of the reset machine (OPEN). -/
opaque Config.ovhHalf : Nat
/-- `OVH_QUARTER` of the reset machine (OPEN). -/
opaque Config.ovhQuarter : Nat
/-- `N_SAMPLES` of the reset machine less one (OPEN, at least 1). -/
opaque Config.nSamplesLess1 : Nat
/-- Whether the reset machine's board has a pull-up on SCL. -/
opaque Config.pullUp : Bool
/-- `BAUD_100K` of the reset machine (OPEN). -/
opaque Config.baud100k : Nat
/-- `BAUD_400K` of the reset machine (OPEN). -/
opaque Config.baud400k : Nat
/-- `TGT_ADDR` of the reset machine (OPEN). -/
opaque Config.tgtAddr : Option Addr
/-- `OOB_READ_BYTE` of the reset machine (OPEN). -/
opaque Config.oobReadByte : Byte
/-- `N` of the reset machine's register file less one (OPEN, at least 1). -/
opaque Config.fileLenLess1 : Nat
/-- `PTR` at reset: unspecified, "one draw at reset, then kept" (R41, U9). -/
opaque Config.ptrAtReset : Byte
/-- The level at which a clock line that nothing drives and nothing pulls up floats at reset: "any value per sample"
(U22; log entry 24). -/
opaque Config.floatAtReset : Bool
/-- The `k`-th byte that a device of unknown inner behaviour answers once its script is used up (R226). -/
opaque Config.deviceByte : Nat → Byte

/-- The parameters of the reset machine (log entries 1, 2). The transport is fixed so that a program can be run from
reset; no statement about all states rests on it. -/
def Params.reset : Params where
  backend := .bitBang
  fTick := Config.fTick
  ovhHalf := Config.ovhHalf
  ovhQuarter := Config.ovhQuarter
  nSamples := Config.nSamplesLess1 + 1
  pullUp := Config.pullUp
  baud100k := Config.baud100k
  baud400k := Config.baud400k
  tgtAddr := Config.tgtAddr
  oobReadByte := Config.oobReadByte
  nackOnWriteErr := false

end Sys2Proof
end

