-- ==== Sys2Proof/Syntax.lean ====
section
/-! DEFINITION. The operations of the hardware: one constructor of `Instr` per row of spec/opcode_table.json (R110),
with its operands already taken apart (R90 to R104, R122). -/

namespace Sys2Proof

/-- The direction of a message or of an address match: bit 0 of the flag byte and of the address byte (R92, R97, R101). -/
inductive Dir where
  | write
  | read
  deriving DecidableEq, Repr

/-- `STANDARD_100K` (code 0) and `FAST_400K` (code 1) (R95). -/
inductive Mode where
  | standard100k
  | fast400k
  deriving DecidableEq, Repr

/-- The field of `EV_TXREQ`: the controller's answer to the byte last sent (R101). -/
inductive Prev where
  | first
  | acked
  | nacked
  deriving DecidableEq, Repr

/-- What a message moves: the bytes of a write message, or the number of bytes of a read message (R91). -/
inductive MsgBody where
  | write (buf : List Byte)
  | read (len : Nat)
  deriving DecidableEq, Repr

/-- One message: the flags `RESTART` and `STOP`, and its direction with its buffer (R91, R92). -/
structure Msg where
  restart : Bool
  stop : Bool
  body : MsgBody
  deriving DecidableEq, Repr

/-- `len`, the number of bytes of a message (R91). -/
def Msg.len (m : Msg) : Nat :=
  match m.body with
  | .write buf => buf.length
  | .read len => len

/-- Whether the message's `READ` flag is set (R92). -/
def Msg.isRead (m : Msg) : Bool :=
  match m.body with
  | .write _ => false
  | .read _ => true

/-- The operations (R110). -/
inductive Instr where
  -- CMD: host commands (R96)
  | configure (mode : Mode)
  | transfer (addr : Addr) (msgs : List Msg)
  -- MSG: one message of a transfer (R91, R92)
  | msgWrite (restart stop : Bool) (buf : List Byte)
  | msgRead (restart stop : Bool) (len : Nat)
  -- ADDR: the address byte of a transfer (R97)
  | addrW (a : Addr)
  | addrR (a : Addr)
  -- WIRE: primitives of the bit-banged transport (R104)
  | setClock (v : Bool)
  | setData (v : Bool)
  | readData
  | readClock
  | delayQ
  | delayH
  | start
  | rstart
  | stop
  | writeBit (b : Bool)
  | readBit
  | sendByte (b : Byte)
  | recvByte (ack : Bool)
  -- SRP: commands to the shift-register peripheral (R103)
  | pStart
  | pWrite (b : Byte)
  | pRead (ack : Bool)
  | pStop
  -- EVT: responder events (R101)
  | evAddr (dir : Dir)
  | evStop
  | evRxByte (b : Byte)
  | evTxReq (prev : Prev)
  | evBusErr
  | evColl
  -- CB: register-file callbacks (R102)
  | readRegister (index : Byte)
  | writeRegister (index byte : Byte)
  -- HELP: register access helpers (R122)
  | detect (addr : Addr)
  | write (addr : Addr) (bytes : List Byte)
  | read (addr : Addr) (count : Nat)
  | writeThenRead (addr : Addr) (bytes : List Byte) (count : Nat)
  | regRead8 (addr : Addr) (reg : Byte)
  | regWrite8 (addr : Addr) (reg val : Byte)
  | regRead16Be (addr : Addr) (reg : Byte)
  | regRead16Le (addr : Addr) (reg : Byte)
  | regWrite16Be (addr : Addr) (reg : Byte) (word : Half)
  | regWrite16Le (addr : Addr) (reg : Byte) (word : Half)
  | updateMasked (addr : Addr) (reg mask value : Byte)
  deriving DecidableEq, Repr

/-- A message as the operation that runs it (R110: `MSG.WRITE` for flag bit 0 = 0, `MSG.READ` for flag bit 0 = 1). -/
def Msg.toInstr (m : Msg) : Instr :=
  match m.body with
  | .write buf => .msgWrite m.restart m.stop buf
  | .read len => .msgRead m.restart m.stop len

/-- The operations of format `EVT` (R90, R101): what the responder's front end raises. -/
def Instr.isEvent : Instr → Bool
  | .evAddr _ | .evStop | .evRxByte _ | .evTxReq _ | .evBusErr | .evColl => true
  | .configure _ | .transfer _ _ | .msgWrite _ _ _ | .msgRead _ _ _ | .addrW _ | .addrR _ => false
  | .setClock _ | .setData _ | .readData | .readClock | .delayQ | .delayH | .start | .rstart | .stop => false
  | .writeBit _ | .readBit | .sendByte _ | .recvByte _ | .pStart | .pWrite _ | .pRead _ | .pStop => false
  | .readRegister _ | .writeRegister _ _ | .detect _ | .write _ _ | .read _ _ | .writeThenRead _ _ _ => false
  | .regRead8 _ _ | .regWrite8 _ _ _ | .regRead16Be _ _ | .regRead16Le _ _ | .regWrite16Be _ _ _ => false
  | .regWrite16Le _ _ _ | .updateMasked _ _ _ _ => false

/-- The operations of the event-handling path: the events and the register file's callbacks (R250, R255, R330). -/
def Instr.onEventPath : Instr → Bool
  | .evAddr _ | .evStop | .evRxByte _ | .evTxReq _ | .evBusErr | .evColl => true
  | .readRegister _ | .writeRegister _ _ => true
  | .configure _ | .transfer _ _ | .msgWrite _ _ _ | .msgRead _ _ _ | .addrW _ | .addrR _ => false
  | .setClock _ | .setData _ | .readData | .readClock | .delayQ | .delayH | .start | .rstart | .stop => false
  | .writeBit _ | .readBit | .sendByte _ | .recvByte _ | .pStart | .pWrite _ | .pRead _ | .pStop => false
  | .detect _ | .write _ _ | .read _ _ | .writeThenRead _ _ _ => false
  | .regRead8 _ _ | .regWrite8 _ _ _ | .regRead16Be _ _ | .regRead16Le _ _ | .regWrite16Be _ _ _ => false
  | .regWrite16Le _ _ _ | .updateMasked _ _ _ _ => false

/-- Where an operation's words stand, which selects the formats a word is read in (log entry 10): a call of the host
or an event (`CMD`, `WIRE`, `SRP`, `EVT`, `CB`, `HELP`, one shared 8-bit code), a message record of a transfer (`MSG`),
or the byte after a start condition (`ADDR`) (R90, R94, R97). -/
inductive Ctx where
  | host
  | message
  | address
  deriving DecidableEq, Repr

/-- The context in which an operation's words stand. -/
def Instr.ctx : Instr → Ctx
  | .msgWrite _ _ _ | .msgRead _ _ _ => .message
  | .addrW _ | .addrR _ => .address
  | .configure _ | .transfer _ _ => .host
  | .setClock _ | .setData _ | .readData | .readClock | .delayQ | .delayH | .start | .rstart | .stop => .host
  | .writeBit _ | .readBit | .sendByte _ | .recvByte _ | .pStart | .pWrite _ | .pRead _ | .pStop => .host
  | .evAddr _ | .evStop | .evRxByte _ | .evTxReq _ | .evBusErr | .evColl => .host
  | .readRegister _ | .writeRegister _ _ | .detect _ | .write _ _ | .read _ _ | .writeThenRead _ _ _ => .host
  | .regRead8 _ _ | .regWrite8 _ _ _ | .regRead16Be _ _ | .regRead16Le _ _ | .regWrite16Be _ _ _ => .host
  | .regWrite16Le _ _ _ | .updateMasked _ _ _ _ => .host

end Sys2Proof
end

