-- ==== Sys2Proof/WellFormed.lean ====
section
/-! DEFINITION. Which operations have a serialized form. Addresses, flags, modes, levels and fields are right by type;
what is left are the bounds `LEN_MAX` and `MSG_MAX`: 255 each in the serialized form, unbounded in the abstract one
(spec R7, R94, D38). The machine runs any `Instr`; only the encoding needs these bounds. -/

namespace Sys2Proof

/-- A message record holds one length byte (R94). -/
def Msg.wellFormed (m : Msg) : Bool := decide (m.len ≤ 255)

/-- The operation's words exist: every count fits its byte (R94). -/
def Instr.wellFormed : Instr → Bool
  | .transfer _ msgs => decide (msgs.length ≤ 255) && msgs.all Msg.wellFormed
  | .msgWrite _ _ buf => decide (buf.length ≤ 255)
  | .msgRead _ _ len => decide (len ≤ 255)
  | .write _ bytes => decide (bytes.length ≤ 255)
  | .read _ count => decide (count ≤ 255)
  | .writeThenRead _ bytes count => decide (bytes.length ≤ 255) && decide (count ≤ 255)
  | .configure _ | .addrW _ | .addrR _ => true
  | .setClock _ | .setData _ | .readData | .readClock | .delayQ | .delayH | .start | .rstart | .stop => true
  | .writeBit _ | .readBit | .sendByte _ | .recvByte _ | .pStart | .pWrite _ | .pRead _ | .pStop => true
  | .evAddr _ | .evStop | .evRxByte _ | .evTxReq _ | .evBusErr | .evColl => true
  | .readRegister _ | .writeRegister _ _ | .detect _ => true
  | .regRead8 _ _ | .regWrite8 _ _ _ | .regRead16Be _ _ | .regRead16Le _ _ | .regWrite16Be _ _ _ => true
  | .regWrite16Le _ _ _ | .updateMasked _ _ _ _ => true

end Sys2Proof
end

