-- ==== Sys2Proof/Decode.lean ====
section
/-! DEFINITION. The decoder, total on any bytes and rejecting by name, and after it the encoder.
Source encodings: the flag byte (spec R92), the serialized transfer TPF (R94), mode codes (R95), host commands (R96),
the address byte (R97), events (R101), callbacks (R102), peripheral commands (R103), wire primitives (R104), helpers
(R122). The bytes after a code of formats `WIRE`, `SRP`, `EVT`, `CB` and `HELP` are the model's own serialization of
the operands the opcode table names (log entry 9). -/

namespace Sys2Proof

/-- Why a byte string spells no operation (R118, R94, U3, U19). -/
inductive DecodeErr where
  /-- The code is none of the table's. -/
  | unknownCode
  /-- Bytes are missing (R94). -/
  | truncated
  /-- Bytes are left over (R94: "The whole string must be consumed exactly"). -/
  | trailing
  /-- A mode code other than 0 or 1 (R95, R118). -/
  | badMode
  /-- Bit 7 of an address byte of a call is set (R94, R118). -/
  | addressNot7Bit
  /-- A flag byte with any of bits 7:3 set (R92, R118, U3). -/
  | reservedFlag
  /-- A one-bit operand, direction or `prev` field outside its values. -/
  | badOperand
  deriving DecidableEq, Repr

/-- What a parser of one piece answers: the piece and the bytes after it. -/
abbrev Parse (α : Type) := Except DecodeErr (α × List Byte)

/-- The next byte. -/
def parseByte : List Byte → Parse Byte
  | [] => .error .truncated
  | b :: r => .ok (b, r)

/-- A one-bit operand: 0 or 1. -/
def parseBool : List Byte → Parse Bool
  | [] => .error .truncated
  | b :: r => if b = 0 then .ok (false, r) else if b = 1 then .ok (true, r) else .error .badOperand

/-- A mode byte (R95). -/
def parseMode : List Byte → Parse Mode
  | [] => .error .truncated
  | b :: r => if b = 0 then .ok (.standard100k, r) else if b = 1 then .ok (.fast400k, r) else .error .badMode

/-- The direction field of `EV_ADDR`: 0 the controller will write, 1 it will read (R101). -/
def parseDir : List Byte → Parse Dir
  | [] => .error .truncated
  | b :: r => if b = 0 then .ok (.write, r) else if b = 1 then .ok (.read, r) else .error .badOperand

/-- The `prev` field of `EV_TXREQ`: `First` 0, `Acked` 1, `Nacked` 2 (R101; numbers of vector T-PG-3). -/
def parsePrev : List Byte → Parse Prev
  | [] => .error .truncated
  | b :: r =>
    if b = 0 then .ok (.first, r) else if b = 1 then .ok (.acked, r) else if b = 2 then .ok (.nacked, r)
    else .error .badOperand

/-- An address operand: one byte `0 a6 .. a0` (R94). -/
def parseAddr : List Byte → Parse Addr
  | [] => .error .truncated
  | b :: r => if b.getLsbD 7 then .error .addressNot7Bit else .ok (b.setWidth 7, r)

/-- Exactly `n` bytes. -/
def parseTake (n : Nat) (bs : List Byte) : Parse (List Byte) :=
  if n ≤ bs.length then .ok (bs.take n, bs.drop n) else .error .truncated

/-- A count byte and that many bytes. -/
def parseCounted (bs : List Byte) : Parse (List Byte) :=
  (parseByte bs).bind fun (n, r) => parseTake n.toNat r

/-- A 16-bit operand, most significant byte first (log entry 9). -/
def parseHalf (bs : List Byte) : Parse Half :=
  (parseByte bs).bind fun (hi, r) => (parseByte r).bind fun (lo, r) => .ok (hi ++ lo, r)

/-- One message record: flag byte, length byte, and the data of a write message (R92, R94). -/
def parseMsg (bs : List Byte) : Parse Msg :=
  (parseByte bs).bind fun (f, r) =>
    if f.extractLsb' 3 5 ≠ 0 then .error .reservedFlag
    else
      (parseByte r).bind fun (len, r) =>
        if f.getLsbD 0 then .ok (⟨f.getLsbD 2, f.getLsbD 1, .read len.toNat⟩, r)
        else (parseTake len.toNat r).bind fun (data, r) => .ok (⟨f.getLsbD 2, f.getLsbD 1, .write data⟩, r)

/-- `n` message records (R94). -/
def parseMsgs : Nat → List Byte → Parse (List Msg)
  | 0, r => .ok ([], r)
  | n + 1, r => (parseMsg r).bind fun (m, r) => (parseMsgs n r).bind fun (ms, r) => .ok (m :: ms, r)

/-- The serialized transfer program TPF: address, message count, records (R94). -/
def parseTpf (bs : List Byte) : Parse (Addr × List Msg) :=
  (parseAddr bs).bind fun (a, r) =>
    (parseByte r).bind fun (n, r) => (parseMsgs n.toNat r).bind fun (ms, r) => .ok ((a, ms), r)

/-- An address and a register byte: the head of the register helpers' operands. -/
def parseAddrReg (bs : List Byte) : Parse (Addr × Byte) :=
  (parseAddr bs).bind fun (a, r) => (parseByte r).bind fun (reg, r) => .ok ((a, reg), r)

/-- The operands after an 8-bit code of the host context (R96, R101 to R104, R122). -/
def parseHost (code : Nat) (r : List Byte) : Parse Instr :=
  match code with
  | 0x00 => (parseMode r).bind fun (m, r) => .ok (.configure m, r)
  | 0x01 => (parseTpf r).bind fun ((a, ms), r) => .ok (.transfer a ms, r)
  | 0x10 => (parseAddr r).bind fun (a, r) => .ok (.detect a, r)
  | 0x11 => (parseAddr r).bind fun (a, r) => (parseCounted r).bind fun (bs, r) => .ok (.write a bs, r)
  | 0x12 => (parseAddr r).bind fun (a, r) => (parseByte r).bind fun (n, r) => .ok (.read a n.toNat, r)
  | 0x13 => (parseAddr r).bind fun (a, r) => (parseCounted r).bind fun (bs, r) => (parseByte r).bind fun (n, r) =>
      .ok (.writeThenRead a bs n.toNat, r)
  | 0x14 => (parseAddrReg r).bind fun ((a, reg), r) => .ok (.regRead8 a reg, r)
  | 0x15 => (parseAddrReg r).bind fun ((a, reg), r) => (parseByte r).bind fun (v, r) => .ok (.regWrite8 a reg v, r)
  | 0x16 => (parseAddrReg r).bind fun ((a, reg), r) => .ok (.regRead16Be a reg, r)
  | 0x17 => (parseAddrReg r).bind fun ((a, reg), r) => .ok (.regRead16Le a reg, r)
  | 0x18 => (parseAddrReg r).bind fun ((a, reg), r) => (parseHalf r).bind fun (w, r) => .ok (.regWrite16Be a reg w, r)
  | 0x19 => (parseAddrReg r).bind fun ((a, reg), r) => (parseHalf r).bind fun (w, r) => .ok (.regWrite16Le a reg w, r)
  | 0x1A => (parseAddrReg r).bind fun ((a, reg), r) => (parseByte r).bind fun (m, r) => (parseByte r).bind fun (v, r) =>
      .ok (.updateMasked a reg m v, r)
  | 0x20 => (parseBool r).bind fun (v, r) => .ok (.setClock v, r)
  | 0x21 => (parseBool r).bind fun (v, r) => .ok (.setData v, r)
  | 0x22 => .ok (.readData, r)
  | 0x23 => .ok (.readClock, r)
  | 0x24 => .ok (.delayQ, r)
  | 0x25 => .ok (.delayH, r)
  | 0x26 => .ok (.start, r)
  | 0x27 => .ok (.rstart, r)
  | 0x28 => .ok (.stop, r)
  | 0x29 => (parseBool r).bind fun (b, r) => .ok (.writeBit b, r)
  | 0x2A => .ok (.readBit, r)
  | 0x2B => (parseByte r).bind fun (b, r) => .ok (.sendByte b, r)
  | 0x2C => (parseBool r).bind fun (a, r) => .ok (.recvByte a, r)
  | 0x30 => .ok (.pStart, r)
  | 0x31 => (parseByte r).bind fun (b, r) => .ok (.pWrite b, r)
  | 0x32 => (parseBool r).bind fun (a, r) => .ok (.pRead a, r)
  | 0x33 => .ok (.pStop, r)
  | 0x40 => (parseDir r).bind fun (d, r) => .ok (.evAddr d, r)
  | 0x41 => .ok (.evStop, r)
  | 0x42 => (parseByte r).bind fun (b, r) => .ok (.evRxByte b, r)
  | 0x43 => (parsePrev r).bind fun (p, r) => .ok (.evTxReq p, r)
  | 0x44 => .ok (.evBusErr, r)
  | 0x45 => .ok (.evColl, r)
  | 0x50 => (parseByte r).bind fun (i, r) => .ok (.readRegister i, r)
  | 0x51 => (parseByte r).bind fun (i, r) => (parseByte r).bind fun (b, r) => .ok (.writeRegister i b, r)
  | _ => .error .unknownCode

/-- The address byte on the wire: bits 7:1 the address, bit 0 the direction (R97). -/
def parseAddrByte (bs : List Byte) : Parse Instr :=
  (parseByte bs).bind fun (b, r) =>
    .ok (if b.getLsbD 0 then .addrR (b.extractLsb' 1 7) else .addrW (b.extractLsb' 1 7), r)

/-- The operation at the head of a byte string, in the context where the string stands, and the bytes after it. -/
def decodePrefix (c : Ctx) (bs : List Byte) : Parse Instr :=
  match c with
  | .host => (parseByte bs).bind fun (code, r) => parseHost code.toNat r
  | .message => (parseMsg bs).bind fun (m, r) => .ok (m.toInstr, r)
  | .address => parseAddrByte bs

/-- The operation a byte string spells: the whole string is consumed exactly (R94). -/
def decode (c : Ctx) (bs : List Byte) : Except DecodeErr Instr :=
  match decodePrefix c bs with
  | .error e => .error e
  | .ok (i, []) => .ok i
  | .ok (_, _ :: _) => .error .trailing

/-! ## The opcode table's words -/

/-- The first `n` bytes of a word, the least significant first (bit 0 of the table is bit 0 of the first byte). -/
def wordBytes : Nat → Nat → List Byte
  | 0, _ => []
  | n + 1, w => BitVec.ofNat 8 w :: wordBytes n (w / 256)

/-- A word of the opcode table, laid out in bytes, with zero bytes after it up to the longest operation it can begin. -/
def tableBytes (nbits w : Nat) : List Byte := wordBytes (nbits / 8) w ++ List.replicate 8 0

/-- The operation a table word stands for, the context it was found in and the bytes it takes. The table's formats
overlap (`CMD`, `MSG` and `ADDR` rows share bytes), and a bare word names no format: a code of the host context is read
as such, a byte that is none as a message's flag byte, and a byte that is neither as an address byte (log entry 10). -/
def tableLookup (bs : List Byte) : Option (Ctx × Instr × List Byte) :=
  match decodePrefix .host bs with
  | .ok (i, r) => some (.host, i, bs.take (bs.length - r.length))
  | .error .unknownCode =>
    match decodePrefix .message bs with
    | .ok (i, r) => some (.message, i, bs.take (bs.length - r.length))
    | .error _ =>
      match decodePrefix .address bs with
      | .ok (i, r) => some (.address, i, bs.take (bs.length - r.length))
      | .error _ => none
  | .error _ => none

/-- The instruction the decoder reads from a word of spec/opcode_table.json. -/
def decodeTableWord (nbits w : Nat) : Option Instr :=
  (tableLookup (tableBytes nbits w)).map fun x => x.2.1

/-! ## The encoder -/

/-- A one-bit operand as a byte. -/
def boolByte (b : Bool) : Byte := if b then 1 else 0

/-- A count as its byte. -/
def countByte (n : Nat) : Byte := BitVec.ofNat 8 n

/-- An address operand of a call: `0 a6 .. a0` (R94). -/
def addrOperand (a : Addr) : Byte := a.setWidth 8

/-- The flag bits `RESTART STOP READ` at bits 2, 1, 0 (R92). -/
def flagBits (restart stop read : Bool) : BitVec 3 :=
  BitVec.ofBool restart ++ BitVec.ofBool stop ++ BitVec.ofBool read

/-- The flag byte of a message: bits 7:3 are 0 (R92). -/
def flagByte (restart stop read : Bool) : Byte := (0 : BitVec 5) ++ flagBits restart stop read

/-- A counted byte list. -/
def encodeCounted (bs : List Byte) : List Byte := countByte bs.length :: bs

/-- A 16-bit operand, most significant byte first (log entry 9). -/
def encodeHalf (w : Half) : List Byte := [w.extractLsb' 8 8, w.extractLsb' 0 8]

/-- One message record (R94). -/
def encodeMsg (m : Msg) : List Byte :=
  match m.body with
  | .write buf => flagByte m.restart m.stop false :: encodeCounted buf
  | .read len => [flagByte m.restart m.stop true, countByte len]

/-- Message records in order (R94). -/
def encodeMsgs : List Msg → List Byte
  | [] => []
  | m :: ms => encodeMsg m ++ encodeMsgs ms

/-- The serialized transfer program (R94). -/
def encodeTpf (a : Addr) (ms : List Msg) : List Byte := addrOperand a :: countByte ms.length :: encodeMsgs ms

/-- A mode byte (R95). -/
def encodeMode : Mode → Byte
  | .standard100k => 0
  | .fast400k => 1

/-- A direction field (R101). -/
def encodeDir : Dir → Byte
  | .write => 0
  | .read => 1

/-- A `prev` field (R101). -/
def encodePrev : Prev → Byte
  | .first => 0
  | .acked => 1
  | .nacked => 2

/-- The address byte put on the wire: the address, then the direction bit (R97). -/
def wireAddrByte (a : Addr) (read : Bool) : Byte := a ++ BitVec.ofBool read

/-- The words of an operation, in its own context. -/
def encode : Instr → List Byte
  | .configure m => [0x00, encodeMode m]
  | .transfer a ms => 0x01 :: encodeTpf a ms
  | .msgWrite rs st buf => encodeMsg ⟨rs, st, .write buf⟩
  | .msgRead rs st len => encodeMsg ⟨rs, st, .read len⟩
  | .addrW a => [wireAddrByte a false]
  | .addrR a => [wireAddrByte a true]
  | .setClock v => [0x20, boolByte v]
  | .setData v => [0x21, boolByte v]
  | .readData => [0x22]
  | .readClock => [0x23]
  | .delayQ => [0x24]
  | .delayH => [0x25]
  | .start => [0x26]
  | .rstart => [0x27]
  | .stop => [0x28]
  | .writeBit b => [0x29, boolByte b]
  | .readBit => [0x2A]
  | .sendByte b => [0x2B, b]
  | .recvByte a => [0x2C, boolByte a]
  | .pStart => [0x30]
  | .pWrite b => [0x31, b]
  | .pRead a => [0x32, boolByte a]
  | .pStop => [0x33]
  | .evAddr d => [0x40, encodeDir d]
  | .evStop => [0x41]
  | .evRxByte b => [0x42, b]
  | .evTxReq p => [0x43, encodePrev p]
  | .evBusErr => [0x44]
  | .evColl => [0x45]
  | .readRegister i => [0x50, i]
  | .writeRegister i b => [0x51, i, b]
  | .detect a => [0x10, addrOperand a]
  | .write a bs => 0x11 :: addrOperand a :: encodeCounted bs
  | .read a n => [0x12, addrOperand a, countByte n]
  | .writeThenRead a bs n => 0x13 :: addrOperand a :: (encodeCounted bs ++ [countByte n])
  | .regRead8 a r => [0x14, addrOperand a, r]
  | .regWrite8 a r v => [0x15, addrOperand a, r, v]
  | .regRead16Be a r => [0x16, addrOperand a, r]
  | .regRead16Le a r => [0x17, addrOperand a, r]
  | .regWrite16Be a r w => 0x18 :: addrOperand a :: r :: encodeHalf w
  | .regWrite16Le a r w => 0x19 :: addrOperand a :: r :: encodeHalf w
  | .updateMasked a r m v => [0x1A, addrOperand a, r, m, v]

/-! ## The opcode table as data -/

/-- The mask and match of an operation's row in spec/opcode_table.json. -/
def tableRow : Instr → Byte × Byte
  | .configure _ => (0xFF, 0x00)
  | .transfer _ _ => (0xFF, 0x01)
  | .msgWrite _ _ _ => (0xF9, 0x00)
  | .msgRead _ _ _ => (0xF9, 0x01)
  | .addrW _ => (0x01, 0x00)
  | .addrR _ => (0x01, 0x01)
  | .setClock _ => (0xFF, 0x20)
  | .setData _ => (0xFF, 0x21)
  | .readData => (0xFF, 0x22)
  | .readClock => (0xFF, 0x23)
  | .delayQ => (0xFF, 0x24)
  | .delayH => (0xFF, 0x25)
  | .start => (0xFF, 0x26)
  | .rstart => (0xFF, 0x27)
  | .stop => (0xFF, 0x28)
  | .writeBit _ => (0xFF, 0x29)
  | .readBit => (0xFF, 0x2A)
  | .sendByte _ => (0xFF, 0x2B)
  | .recvByte _ => (0xFF, 0x2C)
  | .pStart => (0xFF, 0x30)
  | .pWrite _ => (0xFF, 0x31)
  | .pRead _ => (0xFF, 0x32)
  | .pStop => (0xFF, 0x33)
  | .evAddr _ => (0xFF, 0x40)
  | .evStop => (0xFF, 0x41)
  | .evRxByte _ => (0xFF, 0x42)
  | .evTxReq _ => (0xFF, 0x43)
  | .evBusErr => (0xFF, 0x44)
  | .evColl => (0xFF, 0x45)
  | .readRegister _ => (0xFF, 0x50)
  | .writeRegister _ _ => (0xFF, 0x51)
  | .detect _ => (0xFF, 0x10)
  | .write _ _ => (0xFF, 0x11)
  | .read _ _ => (0xFF, 0x12)
  | .writeThenRead _ _ _ => (0xFF, 0x13)
  | .regRead8 _ _ => (0xFF, 0x14)
  | .regWrite8 _ _ _ => (0xFF, 0x15)
  | .regRead16Be _ _ => (0xFF, 0x16)
  | .regRead16Le _ _ => (0xFF, 0x17)
  | .regWrite16Be _ _ _ => (0xFF, 0x18)
  | .regWrite16Le _ _ _ => (0xFF, 0x19)
  | .updateMasked _ _ _ _ => (0xFF, 0x1A)

end Sys2Proof
end

