-- ==== Sys2Proof/Machine/State.lean ====
section
/-! DEFINITION. The state of the engine, plain data: every cell spec file 10_state.md names, the environment's coming
choices, and the cells of the model's own that INVENTORY.md lists. Then the reasons a step can stop, and reset (R45). -/

namespace Sys2Proof.Machine

open Sys2Proof

/-- The error taxonomy (R99, R310). `NotPresent` is a second name of `deviceNotFound` (conflict C7). The engine
produces only the first three; `deviceNotFound` belongs to presence checks above it, the rest to the driver layer. -/
inductive BusError where
  | notConfigured
  | nack
  | arbitrationLost
  | deviceNotFound
  | invalidRail
  | invalidVoltage
  | invalidScale
  | notSupported
  deriving DecidableEq, Repr

/-- What the last operation of the host returned (R13, R28): nothing yet or never, `Ok` with its value, or an error. -/
inductive Ret where
  | none
  | ok
  | okLevel (v : Bool)
  | okByte (b : Byte)
  | okWord (w : Half)
  | okBytes (bs : List Byte)
  | err (e : BusError)
  deriving DecidableEq, Repr

/-- `BUS` (R23). -/
inductive BusState where
  | idle
  | midTransaction
  deriving DecidableEq, Repr

/-- The phases of the sequencer (R30); `failStop` carries the error being reported. -/
inductive Phase where
  | idle
  | check
  | preStop
  | loadFlags
  | cond
  | addr
  | dataWr
  | dataRd
  | finalStop
  | failStop (e : BusError)
  | done
  deriving DecidableEq, Repr

/-- `k`, the bit slot inside a byte: 7 down to 0, then the ninth clock (R26, R30). -/
inductive Slot where
  | bit (n : Fin 8)
  | ack
  deriving DecidableEq, Repr

/-- `SEQ = (phase, i, j, k)` (R30). -/
structure Seq where
  phase : Phase
  i : Nat
  j : Nat
  k : Slot
  deriving DecidableEq, Repr

/-- The arguments of the running `transfer` (R181). -/
structure Call where
  addr : Addr
  msgs : List Msg
  deriving DecidableEq, Repr

/-- A store into a read buffer: `msgs[msg].buf[idx] <- val` (R62, R188). -/
structure BufCell where
  msg : Nat
  idx : Nat
  val : Byte
  deriving DecidableEq, Repr

/-- The symbols of the condition trace (R10): `S`, `Sr`, `P`, `TX(b, a)`, `RX(b, a)`. -/
inductive Sym where
  | start
  | rstart
  | stop
  | tx (b : Byte) (a : Bool)
  | rx (b : Byte) (a : Bool)
  deriving DecidableEq, Repr

/-- The unbounded waits of the engine (R131, R211, R315). -/
inductive Wait where
  /-- `SET_CLOCK(1)` polls a line that a target holds low. -/
  | sclRelease
  /-- `wait_done()` polls a status flag the peripheral does not raise. -/
  | peripheralDone
  deriving DecidableEq, Repr

/-- The controller engine (R21 to R30, R33). -/
structure Engine where
  configured : Bool
  mode : Mode
  bus : BusState
  flg : BitVec 3
  acked : Bool
  arbLost : Bool
  sr : Byte
  seq : Seq
  call : Option Call
  buf : List BufCell
  trace : List Sym
  irqSaved : Bool
  /-- The wait the running operation has not left (log entry 12). -/
  waiting : Option Wait
  deriving DecidableEq, Repr

/-- `DRIVE` (R33). -/
inductive Drive where
  | pushPull
  | openDrain
  deriving DecidableEq, Repr

/-- What the outside does to the two lines at an instant (R35): `scl`, `sda` are 1 when no external device pulls the
line low; `flt` is the level a clock line reads that nothing drives and nothing pulls up (U22); `other` says that a
second controller takes part (U15). -/
structure Ext where
  scl : Bool
  sda : Bool
  flt : Bool
  other : Bool
  deriving DecidableEq, Repr

/-- A sample `(SCL, SDA)` of the lines (R98). -/
structure Level where
  scl : Bool
  sda : Bool
  deriving DecidableEq, Repr

/-- The bit-banged transport and its lines (R32, R33, R35). -/
structure Line where
  tHalf : Nat
  tQuarter : Nat
  drive : Drive
  sclOut : Bool
  sdaOut : Bool
  ext : Ext
  /-- The outside's coming moves: one entry for each instant, the changes of the instant in order (log entries 7,
  25). -/
  env : List (List Ext)
  /-- The line-level trace (R10). -/
  lines : List Level
  deriving DecidableEq, Repr

/-- The peripheral's commands (R103). -/
inductive SrpCmd where
  | start
  | write (b : Byte)
  | read (ack : Bool)
  | stop
  deriving DecidableEq, Repr

/-- What the peripheral hardware reports when it raises `DONE` (R34, U13). `rxAck` is the level of the acknowledge bit
it saw: 0 ACK, 1 NACK. -/
structure SrpAnswer where
  rxAck : Bool
  arbLost : Bool
  data : Byte
  deriving DecidableEq, Repr

/-- The shift-register transport (R34). -/
structure Srp where
  baud : Nat
  enable : Bool
  data : Byte
  done : Bool
  rxAck : Bool
  arbLost : Bool
  lctlOpen : Bool
  ackNext : Bool
  /-- No byte has been commanded since the last start, so that `ARBLOST` has not been cleared since (R217; log entry
  19). -/
  afterStart : Bool
  /-- The commands issued, oldest first (log entry 20). -/
  cmds : List SrpCmd
  /-- The peripheral's coming answers (log entry 7). -/
  env : List SrpAnswer
  deriving DecidableEq, Repr

/-- A memory: entries in rising order of address, none equal to what an unlisted address reads as. -/
abbrev Memory := List Host.Cell

/-- A register file with its owner's choices (R42, R74): its length `N`, the read-only indices, the entries. -/
structure RegFile where
  n : Nat
  ro : List Nat
  mem : Memory
  deriving DecidableEq, Repr

/-- The inner behaviour of a simulated device: the reference device's register file (R225), or a device of any other
inner behaviour, known by what its `read_register` answers (R226): first the script, then free values. -/
inductive DevBody where
  | file (f : RegFile)
  | scripted (reads : List Byte) (drawn : Nat)
  deriving DecidableEq, Repr

/-- A device on the simulated bus: its address, `SIM.PTR`, `SIM.FIRST` and its body (R36, R225). -/
structure SimDev where
  addr : Addr
  ptr : Byte
  first : Bool
  body : DevBody
  deriving DecidableEq, Repr

/-- The simulated transport (R36, R225). -/
structure Sim where
  dev : List SimDev
  cur : Option Addr
  dir : Dir
  awaitAddr : Bool
  deriving DecidableEq, Repr

/-- `TSTATE` (R40). -/
inductive TState where
  | idle
  | newTransaction
  | receivedAddress
  | receivedData
  | sentData
  deriving DecidableEq, Repr

/-- The responder's events (R101). -/
inductive Event where
  | addr (dir : Dir)
  | stop
  | rxByte (b : Byte)
  | txReq (prev : Prev)
  | busErr
  | coll
  deriving DecidableEq, Repr

/-- What the handler answers the front end (R102): `ACT_ACK`, `ACT_NACK`, `ACT_SEND(b)`, `ACT_END`. -/
inductive Action where
  | ack
  | nack
  | send (b : Byte)
  | finish
  deriving DecidableEq, Repr

/-- What a callback returned (R250, R251; the error is `OutOfBounds`, R74). -/
inductive CbRet where
  | byte (b : Byte)
  | ok
  | outOfBounds
  deriving DecidableEq, Repr

/-- The responder and its register file (R40 to R44). -/
structure Target where
  tstate : TState
  ptr : Byte
  file : RegFile
  /-- Events raised and not yet handled (R44, R325). -/
  pending : List Event
  /-- The action of the last handled event. -/
  action : Option Action
  /-- The return value of the last callback. -/
  cb : Option CbRet
  deriving DecidableEq, Repr

/-- What reaches the machine (log entry 8). -/
inductive Arrival where
  /-- The words of an operation: the host's, or the front end's for an event or a callback. -/
  | word (bs : List Byte)
  /-- The events the front end raises together (R326). -/
  | together (es : List Event)
  /-- The host disables its interrupts (a critical section of its own begins) or enables them again (R255, R325). -/
  | mask (en : Bool)
  /-- The host's normal flow reads one entry of the register file (R43, R72, R352; log entry 39). -/
  | readReg (index : Nat)
  /-- The host's normal flow writes one entry of the register file: what a program does that breaks the rule of R43, that
  only the event-handling path writes it (R352, "what the hardware does when the constraint is broken"; log entry 39). -/
  | writeReg (index : Nat) (byte : Byte)
  deriving DecidableEq, Repr

/-- The host's side: what is to reach the machine (log entry 8), its interrupt enable (R44 (d)), the result of its last
operation (R28) or of its last access to the register file (log entry 39), the condition traces of its finished transfers, and the calls of other callers to land inside its next
read-modify-writes (R350). -/
structure HostSide where
  input : List Arrival
  irqEn : Bool
  result : Ret
  past : List (List Sym)
  /-- One entry for each coming `UPDATE_MASKED` that makes both its transfers: the calls that other callers, who accept
  the race, make between the two (R350; log entry 30). -/
  race : List (List Call)
  deriving DecidableEq, Repr

/-- The whole machine. -/
structure State where
  cfg : Params
  host : HostSide
  eng : Engine
  line : Line
  srp : Srp
  sim : Sim
  tgt : Target
  deriving DecidableEq, Repr

/-- Why the machine stops with a fault. No operation of the spec does: "There is no process-fatal error in this core"
(R317). -/
inductive Fault where
  /-- Raised by a step inside a call whose sequencer position points at no message. No run reaches such a state; the
  spec gives it no meaning. Safe: the machine stops. -/
  | sequencer
  deriving DecidableEq, Repr

/-- Why the machine gives an operation no meaning. Every one is safe: the model stops. -/
inductive Refusal where
  /-- An instruction that has no meaning yet. Safe. -/
  | notModelled (mnemonic : String)
  /-- Raised by a step whose input spells no operation (R118, R94, U3, U19). Safe. -/
  | illegal (e : DecodeErr)
  /-- Raised by CONFIGURE when `CONFIGURED` is 1 (R180, U1). Safe. -/
  | secondConfigure
  /-- Raised by TRANSFER and the helpers when a call is running (R77, U2). Safe. -/
  | concurrentCall
  /-- Raised by TRANSFER and the helpers for the device's own `TGT_ADDR` (R331, U21). Safe. -/
  | ownAddress
  /-- Raised by an action on the lines when a push-pull clock is driven high against a device that pulls it low (U12).
  Safe. -/
  | pushPullContention
  /-- Raised by an action on the lines, and by CONFIGURE of a bit-banged build, when a second controller takes part on
  the bus (R5, U15). Safe. -/
  | secondController
  /-- Raised by the event handler for a pair of state and event the source gives no transition (R249, U8). Safe. -/
  | eventOutOfState
  /-- Raised by WIRE operations on a build that is not bit-banged and by SRP operations on a build that is not the
  peripheral's (R130, R9; "Exactly one is active per build target", R2). Safe. -/
  | otherTransport
  /-- Raised by MSG and ADDR operations when no call stands at a message or at an address byte (R181). Safe. -/
  | outsideTransfer
  deriving DecidableEq, Repr

/-- How a sequence of engine primitives ends: it completes with a value, it waits for ever, or it has no meaning. -/
inductive Run (α : Type) where
  | done (a : α) (s : State)
  | hang (s : State)
  | refuse (r : Refusal)
  deriving DecidableEq, Repr

/-- No call running: `SEQ` at reset (R45). -/
def Seq.reset : Seq where
  phase := .idle
  i := 0
  j := 0
  k := .bit 7

/-- The engine at reset (R45; log entry 3). -/
def Engine.reset : Engine where
  configured := false
  mode := .standard100k
  bus := .idle
  flg := 0
  acked := false
  arbLost := false
  sr := 0
  seq := Seq.reset
  call := none
  buf := []
  trace := []
  irqSaved := false
  waiting := none

/-- No external device pulls a line, and a clock line that nothing drives reads high. -/
def Ext.released : Ext where
  scl := true
  sda := true
  flt := true
  other := false

/-- The outside at reset: no external device pulls a line (log entry 7), and a clock line that nothing drives and
nothing pulls up floats at a free level (log entry 24). -/
def Ext.reset : Ext := { Ext.released with flt := Config.floatAtReset }

/-- The bit-banged transport at reset (R45; log entries 3, 7). -/
def Line.reset : Line where
  tHalf := 0
  tQuarter := 0
  drive := .pushPull
  sclOut := true
  sdaOut := true
  ext := Ext.reset
  env := []
  lines := [⟨true, true⟩]

/-- The shift-register transport at reset (R45; log entry 4). -/
def Srp.reset : Srp where
  baud := 0
  enable := false
  data := 0
  done := false
  rxAck := false
  arbLost := false
  lctlOpen := false
  ackNext := false
  afterStart := false
  cmds := []
  env := []

/-- The simulated transport at reset: the test installs the devices (R36; log entry 27). -/
def Sim.reset : Sim where
  dev := []
  cur := none
  dir := .write
  awaitAddr := false

/-- The responder's register file at reset: the owner's (R42; log entries 2, 6). -/
def RegFile.reset : RegFile where
  n := Config.fileLenLess1 + 1
  ro := []
  mem := []

/-- The responder at reset (R45; log entries 5, 6, 13). -/
def Target.reset : Target where
  tstate := .idle
  ptr := Config.ptrAtReset
  file := RegFile.reset
  pending := []
  action := none
  cb := none

/-- The machine right after reset (R45, R340). -/
def State.reset : State where
  cfg := Params.reset
  host := { input := [], irqEn := true, result := .none, past := [], race := [] }
  eng := Engine.reset
  line := Line.reset
  srp := Srp.reset
  sim := Sim.reset
  tgt := Target.reset

end Sys2Proof.Machine
end

