-- ==== Sys2Proof/Machine/Flags.lean ====
section
/-! DEFINITION. The running flag word `FLG` (spec R24, R183 to R186), and the numbers of results, responder states and
modes (R95, R99, R100). -/

namespace Sys2Proof.Machine

open Sys2Proof

/-- `RESTART` = 0x04 (R92). -/
def flagRestart : BitVec 3 := 4

/-- `STOP` = 0x02 (R92). -/
def flagStop : BitVec 3 := 2

/-- `READ` = 0x01 (R92). -/
def flagRead : BitVec 3 := 1

/-- The flags of a message (R91, R92). -/
def msgFlags (m : Msg) : BitVec 3 := flagBits m.restart m.stop m.isRead

/-- Step 3b: "Reset flags to only the restart-pending bit, then OR in the current message's flags" (R185). -/
def effectiveFlags (flg : BitVec 3) (m : Msg) : BitVec 3 := (flg &&& flagRestart) ||| msgFlags m

/-- Step 3c: `FLG <- FLG & ~RESTART` (R186). -/
def clearRestart (flg : BitVec 3) : BitVec 3 := flg &&& ~~~flagRestart

/-- `FLG & RESTART` (R186). -/
def hasRestart (flg : BitVec 3) : Bool := flg.getLsbD 2

/-- `FLG & STOP` (R184). -/
def hasStop (flg : BitVec 3) : Bool := flg.getLsbD 1

/-- `FLG & READ` (R181). -/
def hasRead (flg : BitVec 3) : Bool := flg.getLsbD 0

/-- `ARBLOST` as the engine reads it: hard-wired 0 but on the peripheral transport (R25, R190). -/
def arbLostRead (s : State) : Bool :=
  match s.cfg.backend with
  | .peripheral => s.eng.arbLost
  | .bitBang | .simulated => false

/-- The error codes 1 to 8 (R99). -/
def errorCode : BusError → Nat
  | .notConfigured => 1
  | .nack => 2
  | .arbitrationLost => 3
  | .deviceNotFound => 4
  | .invalidRail => 5
  | .invalidVoltage => 6
  | .invalidScale => 7
  | .notSupported => 8

/-- The result code of an operation that returned: `Ok` 0, or the error's (R99). -/
def resultCode : Ret → Option Nat
  | .none => none
  | .ok | .okLevel _ | .okByte _ | .okWord _ | .okBytes _ => some 0
  | .err e => some (errorCode e)

/-- The responder state codes 0 to 4 (R100). -/
def tstateCode : TState → Nat
  | .idle => 0
  | .newTransaction => 1
  | .receivedAddress => 2
  | .receivedData => 3
  | .sentData => 4

/-- The bus clock of a mode in hertz (R22, R161). -/
def modeHz : Mode → Nat
  | .standard100k => 100000
  | .fast400k => 400000

end Sys2Proof.Machine
end

