-- ==== Sys2Proof/Machine/Operands.lean ====
section
/-! DEFINITION. How operands are assembled from others (spec R115), the tick counts of the timer engine (R161) and the
pointer's arithmetic (R252). -/

namespace Sys2Proof.Machine

open Sys2Proof

/-- The address byte `((address << 1) | rw) & 0xFF` (R66, R115 (a)). -/
def addrByte (a : Addr) (rw : Bool) : Byte := (a.setWidth 8 <<< 1) ||| (BitVec.ofBool rw).setWidth 8

/-- The acknowledge operand of `recv_byte`: `not (i = n-1 and j = len-1)` (R115 (b), R188, D40). -/
def recvAck (n i len j : Nat) : Bool := !(decide (i + 1 = n) && decide (j + 1 = len))

/-- Big-endian word `(b0 << 8) | b1` (R68, R115 (d)). -/
def wordBe (b0 b1 : Byte) : Half := (b0.setWidth 16 <<< 8) ||| b1.setWidth 16

/-- Little-endian word `(b1 << 8) | b0` (R68, R115 (d)). -/
def wordLe (b0 b1 : Byte) : Half := (b1.setWidth 16 <<< 8) ||| b0.setWidth 16

/-- `word[15:8]`. -/
def wordHi (w : Half) : Byte := w.extractLsb' 8 8

/-- `word[7:0]`. -/
def wordLo (w : Half) : Byte := w.extractLsb' 0 8

/-- Masked update `(old & ~mask) | (value & mask)` on 8 bits (R115 (e), R282). -/
def maskedUpdate (old mask value : Byte) : Byte := (old &&& ~~~mask) ||| (value &&& mask)

/-- The pointer's increment `(PTR + 1) mod 256` (R252). -/
def ptrNext (p : Byte) : Byte := p + 1

/-- `ceil(a / b)`. -/
def ceilDiv (a b : Nat) : Nat := (a + b - 1) / b

/-- `T_HALF` by the reference formula (R161). -/
def ticksHalf (cfg : Params) (m : Mode) : Nat := ceilDiv cfg.fTick (2 * modeHz m) - cfg.ovhHalf

/-- `T_QUARTER` by the reference formula (R161). -/
def ticksQuarter (cfg : Params) (m : Mode) : Nat := ceilDiv cfg.fTick (4 * modeHz m) - cfg.ovhQuarter

/-- The baud value of a mode (R180, D16). -/
def baudOf (cfg : Params) : Mode → Nat
  | .standard100k => cfg.baud100k
  | .fast400k => cfg.baud400k

end Sys2Proof.Machine
end

