-- ==== Sys2Proof/Machine/Ops.lean ====
section
/-! DEFINITION. The shared operations: sequencing of primitives, memory and register files, the lines and the wire
primitives of the bit-banged transport (spec 40_wire_primitives.md), the commands of the peripheral and the primitives
of the simulated bus (43_transports.md), the five primitives every transport supplies, and the failure path of a
transfer with the return from it (60_exceptions.md R320, R321). The meanings of the instructions are built from these. -/

namespace Sys2Proof.Machine

open Sys2Proof

/-! ## Sequencing -/

/-- Go on with the value of a completed primitive. -/
def Run.bind {α β : Type} (r : Run α) (f : α → State → Run β) : Run β :=
  match r with
  | .done a s => f a s
  | .hang s => .hang s
  | .refuse x => .refuse x

/-- Go on after a completed primitive that returns nothing. -/
def Run.andThen {β : Type} (r : Run Unit) (f : State → Run β) : Run β := r.bind fun _ s => f s

/-- The operation waits for ever: it has no result, and the machine stays where it is (R315). -/
def hangOn {α : Type} (w : Wait) (s : State) : Run α := .hang { s with eng := { s.eng with waiting := some w } }

/-- `RESULT` (R28). -/
def setResult (r : Ret) (s : State) : State := { s with host := { s.host with result := r } }

/-- An operation of the host as a step: a completed one leaves its result, one that waits leaves none. -/
def finishWith {α : Type} (ret : α → State → Ret) (r : Run α) : Host.Outcome State Fault Refusal :=
  match r with
  | .done a s => .next (setResult (ret a s) s)
  | .hang s => .next s
  | .refuse x => .refused x

/-- A sequence of primitives as a step: the results are already in the state. -/
def toOutcome (r : Run Unit) : Host.Outcome State Fault Refusal :=
  match r with
  | .done _ s => .next s
  | .hang s => .next s
  | .refuse x => .refused x

/-! ## Engine cells -/

/-- `emit(sym)` (R12). -/
def emit (y : Sym) (s : State) : State := { s with eng := { s.eng with trace := s.eng.trace ++ [y] } }

/-- `BUS <- b` (R23). -/
def setBus (b : BusState) (s : State) : State := { s with eng := { s.eng with bus := b } }

/-- `ACKED <- a` (R25). -/
def setAcked (a : Bool) (s : State) : State := { s with eng := { s.eng with acked := a } }

/-- `ARBLOST <- a` (R25). -/
def setArbLost (a : Bool) (s : State) : State := { s with eng := { s.eng with arbLost := a } }

/-- `SR <- b` (R26). -/
def setSr (b : Byte) (s : State) : State := { s with eng := { s.eng with sr := b } }

/-- `FLG <- f` (R24). -/
def setFlg (f : BitVec 3) (s : State) : State := { s with eng := { s.eng with flg := f } }

/-- `SEQ.phase <- p` (R30). -/
def setPhase (p : Phase) (s : State) : State := { s with eng := { s.eng with seq := { s.eng.seq with phase := p } } }

/-- `SEQ.k <- k` (R26, R30). -/
def setSlot (k : Slot) (s : State) : State := { s with eng := { s.eng with seq := { s.eng.seq with k := k } } }

/-- `j <- j + 1` (R193). -/
def nextByte (s : State) : State := { s with eng := { s.eng with seq := { s.eng.seq with j := s.eng.seq.j + 1 } } }

/-! ## Memory and register files -/

/-- What an unlisted entry of a memory reads as (log entry 6). -/
def Memory.blank : Byte := 0

/-- The byte at an address. -/
def Memory.read (m : Memory) (a : Nat) : Byte :=
  match m with
  | [] => Memory.blank
  | c :: r => if c.1 = a then c.2 else Memory.read r a

/-- Store a byte, keeping the entries in rising order and none of them blank. -/
def Memory.write (m : Memory) (a : Nat) (v : Byte) : Memory :=
  match m with
  | [] => if v = Memory.blank then [] else [(a, v)]
  | c :: r =>
    if a < c.1 then (if v = Memory.blank then c :: r else (a, v) :: c :: r)
    else if a = c.1 then (if v = Memory.blank then r else (a, v) :: r)
    else c :: Memory.write r a v

/-- The canonical form: addresses strictly rising, no entry blank. -/
def Memory.wf (m : Memory) : Bool :=
  match m with
  | [] => true
  | c :: r => decide (c.2 ≠ Memory.blank) && r.all (fun d => decide (c.1 < d.1)) && Memory.wf r

/-- `read_register(index)`: the entry, or `OOB_READ_BYTE` outside the file (R74, R250). -/
def RegFile.read (f : RegFile) (oob : Byte) (i : Nat) : Byte := if i < f.n then Memory.read f.mem i else oob

/-- `write_register(index, byte)` of the reference owner (R74, R251): an error outside the file, nothing at a read-only
entry, else the store. -/
def RegFile.write (f : RegFile) (i : Nat) (v : Byte) : RegFile × CbRet :=
  if f.n ≤ i then (f, .outOfBounds)
  else if i ∈ f.ro then (f, .ok)
  else ({ f with mem := Memory.write f.mem i v }, .ok)

/-- The owner's own store from the normal flow (R352): a read-only entry is read-only to the bus, not to its owner, and
there is no entry outside the file (DESIGN CHOICE, log entry 39). -/
def RegFile.put (f : RegFile) (i : Nat) (v : Byte) : RegFile :=
  if i < f.n then { f with mem := Memory.write f.mem i v } else f

/-- The file has at least one entry (D22), a canonical memory, and nothing stored outside it. -/
def RegFile.wf (f : RegFile) : Bool :=
  decide (1 ≤ f.n) && Memory.wf f.mem && f.mem.all fun c => decide (c.1 < f.n)

/-! ## The lines (R35) -/

/-- What a released clock line reads: low when an external device pulls it, high when a pull-up holds it, else
whatever it floats to (R35, R164, U22; log entry 24). -/
def Line.released (cfg : Params) (l : Line) : Bool := l.ext.scl && (cfg.pullUp || l.ext.flt)

/-- `SCL` (R35): in push-pull the level driven, in open-drain high only when released and read high. -/
def Line.scl (cfg : Params) (l : Line) : Bool :=
  match l.drive with
  | .pushPull => l.sclOut
  | .openDrain => l.sclOut && l.released cfg

/-- `SDA = SDA_OUT & e_sda` always (R35, D8). -/
def Line.sda (l : Line) : Bool := l.sdaOut && l.ext.sda

/-- The sample of the two lines. -/
def Line.level (cfg : Params) (l : Line) : Level := ⟨l.scl cfg, l.sda⟩

/-- Record the levels in the line trace when they differ from the last ones recorded (R10). -/
def Line.record (cfg : Params) (l : Line) : Line :=
  if l.lines.getLast? = some (l.level cfg) then l else { l with lines := l.lines ++ [l.level cfg] }

/-- The outside changes what it drives, one change after another, each of them a change of the levels of its own
(log entry 25). -/
def Line.play (cfg : Params) : List Ext → Line → Line
  | [], l => l
  | e :: es, l => Line.play cfg es (Line.record cfg { l with ext := e })

/-- Let one instant pass: the outside makes the next entry of its script, or nothing when the script is over. An instant
passes before every action of the engine on the lines, a write, a read, a poll or a sample of the detection; a write of
the engine is a level change of its own, recorded apart from the outside's (DESIGN CHOICE, log entry 25). -/
def Line.move (cfg : Params) (l : Line) : Line :=
  match l.env with
  | [] => l
  | es :: rest => Line.play cfg es { l with env := rest }

/-- `SDA_OUT <- v`: the engine's write is a level change of its own (log entry 25). -/
def Line.driveData (cfg : Params) (v : Bool) (l : Line) : Line := Line.record cfg { l with sdaOut := v }

/-- `SCL_OUT <- v`. -/
def Line.driveClock (cfg : Params) (v : Bool) (l : Line) : Line := Line.record cfg { l with sclOut := v }

/-- `wait_until(read_clock() = 1)` (R131): poll, an instant before each poll, until the line reads high or the outside's
script ends with the line still low. Answers whether the line was read high. -/
def Line.poll (cfg : Params) : List (List Ext) → Line → Line × Bool
  | [], l => ({ l with env := [] }, l.scl cfg)
  | es :: rest, l =>
    let l := Line.play cfg es { l with env := rest }
    if l.scl cfg then (l, true) else Line.poll cfg rest l

/-- A push-pull clock driven high is fought by what an external device asks of the line (U12). -/
def Line.fought (l : Line) (e : Ext) : Bool := decide (l.drive = .pushPull) && l.sclOut && !e.scl

/-- A second controller takes part on the bus, now or later in the script (U15). -/
def Line.foreign (l : Line) : Bool := (l.ext :: l.env.flatten).any Ext.other

/-! ## Wire primitives of the bit-banged transport -/

/-- The instant before an action of the engine on the lines. A run with a second controller has no meaning (R5, U15; log
entry 36), nor one in which a device pulls a push-pull clock low that is driven high, for however short a time (U12; log
entry 16). -/
def instant (s : State) : Run Unit :=
  if s.line.foreign then .refuse .secondController
  else if (s.line.ext :: s.line.env.headD []).any s.line.fought then .refuse .pushPullContention
  else .done () { s with line := Line.move s.cfg s.line }

/-- `set_data(v)` (R132). -/
def setData (v : Bool) (s : State) : Run Unit :=
  (instant s).andThen fun s => .done () { s with line := Line.driveData s.cfg v s.line }

/-- `set_clock(v)` (R131): drive or release, and in open-drain wait for the line to read high. -/
def setClock (v : Bool) (s : State) : Run Unit :=
  (instant s).andThen fun s =>
    let l := Line.driveClock s.cfg v s.line
    if l.fought l.ext then .refuse .pushPullContention
    else if v && decide (l.drive = .openDrain) then
      match Line.poll s.cfg l.env l with
      | (l, true) => .done () { s with line := l }
      | (l, false) => hangOn .sclRelease { s with line := l }
    else .done () { s with line := l }

/-- `read_data()` (R133). -/
def readData (s : State) : Run Bool := (instant s).andThen fun s => .done s.line.sda s

/-- `read_clock()` (R134). -/
def readClock (s : State) : Run Bool := (instant s).andThen fun s => .done (s.line.scl s.cfg) s

/-- `delay_q()`: a no-op in a model without time (R162, R167); what the outside does meanwhile stands in the instant
before the next action on the lines (log entry 25). -/
def delayQ (s : State) : Run Unit := .done () s

/-- `delay_h()` (R163, R167). -/
def delayH (s : State) : Run Unit := .done () s

/-- `start()` of the bit-banged transport (R135). -/
def wireStart (s : State) : Run Unit :=
  (setData false s).andThen fun s => (delayQ s).andThen fun s => (setClock false s).andThen fun s =>
  (delayQ s).andThen fun s => .done () (emit .start (setBus .midTransaction s))

/-- The symbol a repeated start emits: `Sr` in a transaction, `S` on an idle bus (R136, R212, R225). -/
def restartSym (b : BusState) : Sym :=
  match b with
  | .midTransaction => .rstart
  | .idle => .start

/-- `rstart()` of the bit-banged transport (R136). -/
def wireRstart (s : State) : Run Unit :=
  (setData true s).andThen fun s => (delayQ s).andThen fun s => (setClock true s).andThen fun s =>
  (delayQ s).andThen fun s => (setData false s).andThen fun s => (delayQ s).andThen fun s =>
  (setClock false s).andThen fun s => (delayQ s).andThen fun s =>
  .done () (setBus .midTransaction (emit (restartSym s.eng.bus) s))

/-- `stop()` of the bit-banged transport (R137). -/
def wireStop (s : State) : Run Unit :=
  (setClock false s).andThen fun s => (setData false s).andThen fun s => (delayQ s).andThen fun s =>
  (setClock true s).andThen fun s => (delayQ s).andThen fun s => (setData true s).andThen fun s =>
  (delayH s).andThen fun s => .done () (emit .stop (setBus .idle s))

/-- `write_bit(b)` (R138). -/
def writeBit (b : Bool) (s : State) : Run Unit :=
  (setData b s).andThen fun s => (delayQ s).andThen fun s => (setClock true s).andThen fun s =>
  (delayH s).andThen fun s => (setClock false s).andThen fun s => delayQ s

/-- `read_bit()` (R139): the bit is sampled at the end of the high half period. -/
def readBit (s : State) : Run Bool :=
  (setData true s).andThen fun s => (delayQ s).andThen fun s => (setClock true s).andThen fun s =>
  (delayH s).andThen fun s => (readData s).bind fun v s =>
    (setClock false s).andThen fun s => (delayQ s).andThen fun s => .done v s

/-- The data bits `n-1` down to 0 of a byte, written most significant first (R140, D4). -/
def writeBits (b : Byte) : Nat → State → Run Unit
  | 0, s => .done () s
  | n + 1, s => (writeBit (b.getLsbD n) (setSlot (.bit (Fin.ofNat 8 n)) s)).andThen fun s => writeBits b n s

/-- `send_byte(b)` of the bit-banged transport (R140). -/
def wireSendByte (b : Byte) (s : State) : Run Unit :=
  (writeBits b 8 (setSr b s)).andThen fun s =>
  (readBit (setSlot .ack s)).bind fun n s =>
    let a := !n
    .done () (emit (.tx b a) (setAcked a s))

/-- Bits `n-1` down to 0 of the byte being received, read into `SR` most significant first (R141, D4). -/
def readBits : Nat → State → Run Unit
  | 0, s => .done () s
  | n + 1, s =>
    (readBit (setSlot (.bit (Fin.ofNat 8 n)) s)).bind fun v s =>
      readBits n (setSr (s.eng.sr ||| ((BitVec.ofBool v).setWidth 8 <<< n)) s)

/-- `recv_byte(ack)` of the bit-banged transport (R141): the byte stands in `SR`. -/
def wireRecvByte (ack : Bool) (s : State) : Run Byte :=
  (readBits 8 (setSr 0 s)).andThen fun s =>
    let v := s.eng.sr
    (writeBit (!ack) (setSlot .ack s)).andThen fun s => .done v (emit (.rx v ack) s)

/-! ## Commands of the shift-register peripheral -/

/-- `command(c)`: the peripheral accepts one command (R103, R210). -/
def srpCommand (c : SrpCmd) (s : State) : State := { s with srp := { s.srp with cmds := s.srp.cmds ++ [c] } }

/-- `wait_done()` (R211): wait until `DONE` is 1, then clear it. The hardware raises it with its next answer, which
`latch` stores in the registers; when it never does the engine polls for ever. -/
def waitDone (latch : SrpAnswer → Srp → Srp) (s : State) : Run Unit :=
  if s.srp.done then .done () { s with srp := { s.srp with done := false } }
  else
    match s.srp.env with
    | [] => hangOn .peripheralDone s
    | a :: rest => .done () { s with srp := latch a { s.srp with env := rest, done := false } }

/-- `SRP.STATUS.ARBLOST` after a byte command (R217): the hardware's answer for this command, and at the first byte
after a start also the start's own, since `ARBLOST` "is not cleared in between" (log entry 19). -/
def arbAfterByte (a : SrpAnswer) (r : Srp) : Bool := a.arbLost || (r.afterStart && r.arbLost)

/-- `P_START` (R212): the status flag is the hardware's answer for this command (R217). -/
def srpStart (s : State) : Run Unit :=
  (waitDone (fun a r => { r with arbLost := a.arbLost }) (srpCommand .start s)).andThen fun s =>
    let s := setArbLost s.srp.arbLost s
    let s := emit (if s.srp.lctlOpen then .rstart else .start) s
    .done () (setBus .midTransaction { s with srp := { s.srp with lctlOpen := true, afterStart := true } })

/-- `P_WRITE(b)` (R213). -/
def srpWrite (b : Byte) (s : State) : Run Unit :=
  let s := { s with srp := { s.srp with data := b } }
  (waitDone (fun a r => { r with arbLost := arbAfterByte a r, rxAck := a.rxAck }) (srpCommand (.write b) s)).andThen
    fun s =>
      let s := { s with srp := { s.srp with afterStart := false } }
      let s := setArbLost s.srp.arbLost s
      let a := !s.srp.rxAck
      .done () (emit (.tx b a) (setAcked a s))

/-- `P_READ(ack)` (R214). -/
def srpRead (ack : Bool) (s : State) : Run Byte :=
  let s := { s with srp := { s.srp with ackNext := ack } }
  (waitDone (fun a r => { r with arbLost := arbAfterByte a r, data := a.data }) (srpCommand (.read ack) s)).andThen
    fun s =>
      let s := { s with srp := { s.srp with afterStart := false } }
      let s := setArbLost s.srp.arbLost s
      let v := s.srp.data
      .done v (emit (.rx v ack) s)

/-- `P_STOP` (R215): it leaves `SRP.STATUS.ARBLOST` alone (R217). -/
def srpStop (s : State) : Run Unit :=
  (waitDone (fun _ r => r) (srpCommand .stop s)).andThen fun s =>
    .done () (emit .stop (setBus .idle { s with srp := { s.srp with lctlOpen := false } }))

/-- `request_stop_no_wait()` (R216): no wait and no `P`. -/
def srpStopNoWait (s : State) : State :=
  let s := srpCommand .stop s
  setBus .idle { s with srp := { s.srp with lctlOpen := false } }

/-! ## The simulated bus (R225, R226) -/

/-- `SIM.DEV[a]`. -/
def Sim.find (a : Addr) (m : Sim) : Option SimDev := m.dev.find? fun d => decide (d.addr = a)

/-- Change the device at an address. -/
def Sim.update (a : Addr) (f : SimDev → SimDev) (m : Sim) : Sim :=
  { m with dev := m.dev.map fun d => if d.addr = a then f d else d }

/-- A device's `read_register(SIM.PTR)`, then the pointer's increment (R225). -/
def SimDev.readNext (oob : Byte) (d : SimDev) : Byte × SimDev :=
  match d.body with
  | .file f => (f.read oob d.ptr.toNat, { d with ptr := ptrNext d.ptr })
  | .scripted (b :: r) k => (b, { d with ptr := ptrNext d.ptr, body := .scripted r k })
  | .scripted [] k => (Config.deviceByte k, { d with ptr := ptrNext d.ptr, body := .scripted [] (k + 1) })

/-- A data byte written to a selected device: the pointer, or a write at the pointer (R225). The callback's result is
ignored. -/
def SimDev.writeNext (b : Byte) (d : SimDev) : SimDev :=
  if d.first then { d with ptr := b, first := false }
  else
    match d.body with
    | .file f => { d with ptr := ptrNext d.ptr, body := .file (f.write d.ptr.toNat b).1 }
    | .scripted _ _ => { d with ptr := ptrNext d.ptr }

/-- `start()` and `rstart()` of the simulated bus (R225). -/
def simStart (s : State) : Run Unit :=
  let s := setBus .midTransaction (emit (restartSym s.eng.bus) s)
  .done () { s with sim := { s.sim with cur := none, awaitAddr := true } }

/-- The simulated bus takes a byte and answers whether it is acknowledged (R225). -/
def Sim.take (b : Byte) (m : Sim) : Sim × Bool :=
  if m.awaitAddr then
    let a := b.extractLsb' 1 7
    match m.find a with
    | none => ({ m with awaitAddr := false }, false)
    | some _ =>
      if b.getLsbD 0 then ({ m with awaitAddr := false, cur := some a, dir := .read }, true)
      else
        (({ m with awaitAddr := false, cur := some a, dir := .write } : Sim).update a fun d => { d with first := true }, true)
  else
    match m.cur, m.dir with
    | some a, .write => (m.update a (SimDev.writeNext b), true)
    | some _, .read => (m, false)
    | none, _ => (m, false)

/-- `send_byte(b)` of the simulated bus (R225). -/
def simSendByte (b : Byte) (s : State) : Run Unit :=
  let r := s.sim.take b
  .done () (emit (.tx b r.2) (setAcked r.2 { s with sim := r.1 }))

/-- The simulated bus supplies a byte: a selected device's, or 0xFF from a released line (R225). -/
def Sim.give (oob : Byte) (m : Sim) : Byte × Sim :=
  match m.cur, m.dir with
  | some a, .read =>
    match m.find a with
    | some d => ((d.readNext oob).1, m.update a fun d => (d.readNext oob).2)
    | none => (0xFF, m)
  | some _, .write => (0xFF, m)
  | none, _ => (0xFF, m)

/-- `recv_byte(ack)` of the simulated bus (R225). -/
def simRecvByte (ack : Bool) (s : State) : Run Byte :=
  let r := s.sim.give s.cfg.oobReadByte
  .done r.1 (emit (.rx r.1 ack) { s with sim := r.2 })

/-- `stop()` of the simulated bus (R225). -/
def simStop (s : State) : Run Unit :=
  let s := setBus .idle (emit .stop s)
  .done () { s with sim := { s.sim with cur := none, awaitAddr := false } }

/-! ## The five primitives of the active transport (R196) -/

/-- `start()`. -/
def busStart (s : State) : Run Unit :=
  match s.cfg.backend with
  | .bitBang => wireStart s
  | .peripheral => srpStart s
  | .simulated => simStart s

/-- `rstart()`. -/
def busRstart (s : State) : Run Unit :=
  match s.cfg.backend with
  | .bitBang => wireRstart s
  | .peripheral => srpStart s
  | .simulated => simStart s

/-- `stop()`. -/
def busStop (s : State) : Run Unit :=
  match s.cfg.backend with
  | .bitBang => wireStop s
  | .peripheral => srpStop s
  | .simulated => simStop s

/-- `send_byte(b)`: the acknowledge result is in `ACKED`. -/
def busSendByte (b : Byte) (s : State) : Run Unit :=
  match s.cfg.backend with
  | .bitBang => wireSendByte b s
  | .peripheral => srpWrite b s
  | .simulated => simSendByte b s

/-- `recv_byte(ack)`. -/
def busRecvByte (ack : Bool) (s : State) : Run Byte :=
  match s.cfg.backend with
  | .bitBang => wireRecvByte ack s
  | .peripheral => srpRead ack s
  | .simulated => simRecvByte ack s

/-! ## A call's entry, the failure path and the return (R195, R320, R321) -/

/-- `enter()`: on the bit-banged transport save and disable the host's interrupt enable (R195). -/
def enter (s : State) : State :=
  match s.cfg.backend with
  | .bitBang =>
    { s with
      host := { s.host with irqEn := false }
      eng := { s.eng with irqSaved := s.host.irqEn } }
  | .peripheral | .simulated => s

/-- `leave()`: on the bit-banged transport restore it (R195). -/
def leave (s : State) : State :=
  match s.cfg.backend with
  | .bitBang => { s with host := { s.host with irqEn := s.eng.irqSaved } }
  | .peripheral | .simulated => s

/-- A call begins: its arguments are in force, its trace and read buffers are empty, its cells fresh (R27, R28, R193). -/
def beginCall (c : Call) (s : State) : State :=
  { s with
    host := { s.host with result := .none }
    eng := { s.eng with
      flg := 0, acked := false, arbLost := false, seq := { Seq.reset with phase := .check }, call := some c, buf := [],
      trace := [] }
    line := { s.line with lines := [s.line.level s.cfg] } }

/-- Taking a failure (R320): stop putting bytes on the wire, a stop condition (`Nack`) or a stop request that is not
waited for (`ArbitrationLost`), restore the interrupt enable, and report the error. Nothing is saved: there is no cause
register and no handler. -/
def takeFailure (e : BusError) (s : State) : Run Unit :=
  match e with
  | .arbitrationLost => .done () (setPhase .done (setResult (.err e) (leave (srpStopNoWait s))))
  | .notConfigured | .nack | .deviceNotFound | .invalidRail | .invalidVoltage | .invalidScale | .notSupported =>
    (busStop s).andThen fun s => .done () (setPhase .done (setResult (.err e) (leave s)))

/-- The call returns to its caller (R321): its cells are gone, nothing is latched, the result and the ghost record
stay (R28; log entry 15). -/
def returnCall (s : State) : State :=
  { s with
    host := { s.host with past := s.host.past ++ [s.eng.trace] }
    eng := { s.eng with
      flg := 0, acked := false, arbLost := false, sr := 0, seq := Seq.reset, call := none, irqSaved := false } }

end Sys2Proof.Machine
end

