-- ==== Sys2Proof/Machine/Callbacks.lean ====
section
/-! DEFINITION. The register file's callbacks as operations of its owner (spec R250, R251; log entry 34). -/

namespace Sys2Proof.Machine

open Sys2Proof

/-- `READ_REGISTER(index)` (R250). -/
def execReadRegister (index : Byte) (s : State) : Host.Outcome State Fault Refusal :=
  .next { s with tgt := { s.tgt with cb := some (.byte (s.tgt.file.read s.cfg.oobReadByte index.toNat)) } }

/-- `WRITE_REGISTER(index, byte)` (R251). -/
def execWriteRegister (index byte : Byte) (s : State) : Host.Outcome State Fault Refusal :=
  let r := s.tgt.file.write index.toNat byte
  .next { s with tgt := { s.tgt with file := r.1, cb := some r.2 } }

end Sys2Proof.Machine
end

