-- ==== Sys2Proof/Machine/Sequencer.lean ====
section
/-! DEFINITION. The transfer algorithm (spec 42_transfer_engine.md): one function per row of the small-step table R193,
the whole `transfer` built from them in the shape of R181, and the table itself as a step of the sequencer. -/

namespace Sys2Proof.Machine

open Sys2Proof

/-- `n`, the number of messages of the running call. -/
def msgCount (s : State) : Nat :=
  match s.eng.call with
  | none => 0
  | some c => c.msgs.length

/-- The data phase of the effective direction (R181, R193). -/
def dataPhase (flg : BitVec 3) : Phase := if hasRead flg then .dataRd else .dataWr

/-- Whether the call has met a failure (R193 `FAIL_STOP`). -/
def failed (s : State) : Bool :=
  match s.eng.seq.phase with
  | .failStop _ => true
  | .idle | .check | .preStop | .loadFlags | .cond | .addr | .dataWr | .dataRd | .finalStop | .done => false

/-- The sequencer goes to a phase of message `i` (R193: "`i <- 0`", "`i <- i + 1`"). -/
def seqAt (p : Phase) (i : Nat) (s : State) : State :=
  { s with eng := { s.eng with seq := { s.eng.seq with phase := p, i := i } } }

/-! ## The rows of R193 -/

/-- `CHECK` (R182): the configured check, the empty sequence, and otherwise `enter()` and the start of the loop. The
device's own address has no meaning (R331, U21; log entry 17). -/
def rowCheck (c : Call) (s : State) : Run Unit :=
  if !s.eng.configured then .done () (setPhase .done (setResult (.err .notConfigured) s))
  else if c.msgs.isEmpty then .done () (setPhase .done (setResult .ok s))
  else if s.cfg.tgtAddr = some c.addr then .refuse .ownAddress
  else .done () (seqAt .preStop 0 (setFlg flagRestart (enter s)))

/-- `PRE_STOP` (R184): the deferred stop of the message before. -/
def rowPreStop (s : State) : Run Unit :=
  (if hasStop s.eng.flg then busStop s else .done () s).andThen fun s => .done () (setPhase .loadFlags s)

/-- `LOAD_FLAGS` (R185): the effective flags, `j <- 0`, and the phase they lead to. -/
def rowLoadFlags (m : Msg) (s : State) : State :=
  let f := effectiveFlags s.eng.flg m
  let s := setFlg f s
  { s with eng := { s.eng with seq :=
    { s.eng.seq with phase := if hasRestart f then .cond else dataPhase f, j := 0, k := .bit 7 } } }

/-- `COND` (R186): `start()` for the first message, `rstart()` for every later one. -/
def rowCond (s : State) : Run Unit :=
  (if s.eng.seq.i = 0 then busStart s else busRstart s).andThen fun s => .done () (setPhase .addr s)

/-- `ADDR` (R186): the address byte; arbitration loss is looked at before the acknowledge (R190, R322). -/
def rowAddr (b : Byte) (s : State) : Run Unit :=
  (busSendByte b s).andThen fun s =>
    if arbLostRead s then .done () (setPhase (.failStop .arbitrationLost) s)
    else if !s.eng.acked then .done () (setPhase (.failStop .nack) s)
    else .done () (setPhase (dataPhase s.eng.flg) (setFlg (clearRestart s.eng.flg) s))

/-- `DATA_WR`, `j < len` (R187). -/
def rowSend (b : Byte) (s : State) : Run Unit :=
  (busSendByte b s).andThen fun s =>
    if arbLostRead s then .done () (setPhase (.failStop .arbitrationLost) (nextByte s))
    else if !s.eng.acked then .done () (setPhase (.failStop .nack) (nextByte s))
    else .done () (nextByte s)

/-- `DATA_RD`, `j < len` (R188): the byte is stored as soon as it is received (R194). -/
def rowRecv (len : Nat) (s : State) : Run Unit :=
  (busRecvByte (recvAck (msgCount s) s.eng.seq.i len s.eng.seq.j) s).bind fun v s =>
    let s := { s with eng := { s.eng with buf := s.eng.buf ++ [⟨s.eng.seq.i, s.eng.seq.j, v⟩] } }
    if arbLostRead s then .done () (setPhase (.failStop .arbitrationLost) (nextByte s))
    else .done () (nextByte s)

/-- `DATA_WR`, `DATA_RD`, `j = len`: the next message, or the final stop (R193). -/
def rowEndMsg (s : State) : State :=
  if s.eng.seq.i + 1 < msgCount s then seqAt .preStop (s.eng.seq.i + 1) s else setPhase .finalStop s

/-- `FINAL_STOP` (R189): the stop is unconditional. -/
def rowFinal (s : State) : Run Unit :=
  (busStop s).andThen fun s => .done () (setPhase .done (setResult .ok (leave s)))

/-! ## The whole transfer (R181) -/

/-- The bytes of a write message, until one fails (R187). -/
def sendAll : List Byte → State → Run Unit
  | [], s => .done () s
  | b :: bs, s => (rowSend b s).andThen fun s => if failed s then .done () s else sendAll bs s

/-- The last `n` bytes of a read message of `len` bytes, until one fails (R188). -/
def recvAll (len : Nat) : Nat → State → Run Unit
  | 0, s => .done () s
  | n + 1, s => (rowRecv len s).andThen fun s => if failed s then .done () s else recvAll len n s

/-- Step 3d for one message (R187, R188). -/
def runData (m : Msg) (s : State) : Run Unit :=
  match m.body with
  | .write buf => sendAll buf s
  | .read len => recvAll len len s

/-- Step 3c (R186). -/
def runAddr (a : Addr) (s : State) : Run Unit :=
  if hasRestart s.eng.flg then (rowCond s).andThen fun s => rowAddr (addrByte a (hasRead s.eng.flg)) s
  else .done () s

/-- Step 3 for one message of a call to address `a`: the sequencer stands at the next message, at the final stop, or
at the failure stop afterwards. -/
def runMsg (a : Addr) (m : Msg) (s : State) : Run Unit :=
  (rowPreStop s).andThen fun s => (runAddr a (rowLoadFlags m s)).andThen fun s =>
    if failed s then .done () s
    else (runData m s).andThen fun s => if failed s then .done () s else .done () (rowEndMsg s)

/-- Step 3: the messages in order, until one fails. -/
def runMsgs (a : Addr) : List Msg → State → Run Unit
  | [], s => .done () s
  | m :: ms, s => (runMsg a m s).andThen fun s => if failed s then .done () s else runMsgs a ms s

/-- Step 4, or the failure path, and the return (R189, R320, R321). -/
def finishCall (s : State) : Run Unit :=
  (match s.eng.seq.phase with
    | .failStop e => takeFailure e s
    | .idle | .check | .preStop | .loadFlags | .cond | .addr | .dataWr | .dataRd | .finalStop | .done =>
      rowFinal s).andThen fun s => .done () (returnCall s)

/-- `transfer(address, msgs)` (R181). A second call while one runs is refused (R77, U2). -/
def transfer (a : Addr) (msgs : List Msg) (s : State) : Run Unit :=
  if s.eng.seq.phase ≠ .idle then .refuse .concurrentCall
  else
    (rowCheck ⟨a, msgs⟩ (beginCall ⟨a, msgs⟩ s)).andThen fun s =>
      if s.eng.seq.phase = .done then .done () (returnCall s)
      else (runMsgs a msgs s).andThen fun s => finishCall s

/-! ## The small-step table (R193) -/

/-- One row of R193: what the sequencer does next inside a call. -/
def seqMove (s : State) : Host.Outcome State Fault Refusal :=
  match s.eng.call with
  | none => .fault .sequencer
  | some c =>
    match s.eng.seq.phase with
    | .idle => .next s
    | .check => toOutcome (rowCheck c s)
    | .preStop => toOutcome (rowPreStop s)
    | .loadFlags =>
      match c.msgs[s.eng.seq.i]? with
      | none => .fault .sequencer
      | some m => .next (rowLoadFlags m s)
    | .cond => toOutcome (rowCond s)
    | .addr => toOutcome (rowAddr (addrByte c.addr (hasRead s.eng.flg)) s)
    | .dataWr =>
      match c.msgs[s.eng.seq.i]? with
      | some ⟨_, _, .write buf⟩ =>
        match buf[s.eng.seq.j]? with
        | some b => toOutcome (rowSend b s)
        | none => .next (rowEndMsg s)
      | some ⟨_, _, .read _⟩ => .fault .sequencer
      | none => .fault .sequencer
    | .dataRd =>
      match c.msgs[s.eng.seq.i]? with
      | some ⟨_, _, .read len⟩ => if s.eng.seq.j < len then toOutcome (rowRecv len s) else .next (rowEndMsg s)
      | some ⟨_, _, .write _⟩ => .fault .sequencer
      | none => .fault .sequencer
    | .finalStop => toOutcome (rowFinal s)
    | .failStop e => toOutcome (takeFailure e s)
    | .done => .next (returnCall s)

/-- Up to `k` rows of R193, until the call has returned, waits for ever, or has no meaning. -/
def seqRun : Nat → State → Host.Outcome State Fault Refusal
  | 0, s => .next s
  | k + 1, s =>
    if s.eng.seq.phase = .idle ∨ s.eng.waiting.isSome then .next s
    else
      match seqMove s with
      | .next t => seqRun k t
      | .fault f => .fault f
      | .refused r => .refused r

end Sys2Proof.Machine
end

