-- ==== Sys2Proof/Machine/Timer.lean ====
section
/-! DEFINITION. The timer engine: the two delays and the drive-discipline detection (spec 41_timer_engine.md). -/

namespace Sys2Proof.Machine

open Sys2Proof

/-- An operation of one transport: it exists only in a build of that transport (R2, R130; log entry 22). Its result is
absent until it completes (R13). -/
def onBackend (b : Backend) (s : State) (k : State → Host.Outcome State Fault Refusal) :
    Host.Outcome State Fault Refusal :=
  if s.cfg.backend = b then k (setResult .none s) else .refused .otherTransport

/-- `DELAY_Q` (R162). -/
def execDelayQ (s : State) : Host.Outcome State Fault Refusal :=
  onBackend .bitBang s fun s => finishWith (fun _ _ => .ok) (delayQ s)

/-- `DELAY_H` (R163). -/
def execDelayH (s : State) : Host.Outcome State Fault Refusal :=
  onBackend .bitBang s fun s => finishWith (fun _ _ => .ok) (delayH s)

/-- `n` samples of the released clock line, an instant before each: whether every one was high (R164). -/
def sampleClock (cfg : Params) : Nat → Line → Line × Bool
  | 0, l => (l, true)
  | n + 1, l =>
    let l := Line.move cfg l
    let r := sampleClock cfg n l
    (r.1, l.released cfg && r.2)

/-- Drive-discipline detection (R164): release the clock, sample it `N_SAMPLES` times, conclude open-drain only if it
was high on every sample, else drive it high. While it is sampled the line is released, which is what open-drain drive
at level 1 is. R164 does not say whether the outside can move between the last sample and the final drive: that drive is
an action on the lines with an instant of its own before it, as every other write of the engine has (DESIGN CHOICE, log
entry 25), so a device that was low at the last sample may have let go by then, and one that was not may pull. Driving
the clock high against a device that does pull it low is not looked at here, for `configure` always returns `Ok` (R180):
the next action on the lines finds the contention (U12, R358; DESIGN CHOICE, log entry 16). -/
def detectDrive (cfg : Params) (l : Line) : Line :=
  let l := Line.move cfg l
  let r := sampleClock cfg cfg.nSamples (Line.record cfg { l with drive := .openDrain, sclOut := true })
  if r.2 then r.1 else Line.record cfg { Line.move cfg r.1 with drive := .pushPull }

end Sys2Proof.Machine
end

