-- ==== Sys2Proof/Machine/Command.lean ====
section
/-! DEFINITION. The host commands `configure` and `transfer` (spec R180, R181). -/

namespace Sys2Proof.Machine

open Sys2Proof

/-- The transport's own part of `configure` (R180). -/
def configureTransport (m : Mode) (s : State) : State :=
  match s.cfg.backend with
  | .bitBang =>
    let l : Line := { s.line with tHalf := ticksHalf s.cfg m, tQuarter := ticksQuarter s.cfg m }
    { s with line := detectDrive s.cfg (Line.driveData s.cfg true (Line.move s.cfg l)) }
  | .peripheral => { s with srp := { s.srp with baud := baudOf s.cfg m, enable := true, lctlOpen := false } }
  | .simulated => s

/-- `CONFIGURE mode` (R180): refused when already configured (D12, U1) and on a bit-banged bus with a second controller
(R5, U15), otherwise always `Ok` (D39). The condition trace is left empty (R166, R180), also when primitives have run
alone before. -/
def execConfigure (m : Mode) (s : State) : Host.Outcome State Fault Refusal :=
  if s.eng.configured then .refused .secondConfigure
  else if decide (s.cfg.backend = .bitBang) && s.line.foreign then .refused .secondController
  else
    let s := configureTransport m s
    .next (setResult .ok { s with eng := { s.eng with mode := m, bus := .idle, configured := true, trace := [] } })

/-- `TRANSFER addr, msgs` (R181). -/
def execTransfer (a : Addr) (msgs : List Msg) (s : State) : Host.Outcome State Fault Refusal :=
  toOutcome (transfer a msgs s)

end Sys2Proof.Machine
end

