-- ==== Sys2Proof/Machine/Helpers.lean ====
section
/-! DEFINITION. The register access helpers: pure compositions of `transfer` (spec 45_register_helpers.md). -/

namespace Sys2Proof.Machine

open Sys2Proof

/-- The bytes a call stored in its read buffers, first received first (R272, R274). -/
def readBytes (s : State) : List Byte := s.eng.buf.map BufCell.val

/-- Byte `k` of the bytes read. -/
def byteRead (s : State) (k : Nat) : Byte := (readBytes s).getD k 0

/-- A transfer whose `Ok` carries a value; an error is returned unchanged (R283). -/
def helper (a : Addr) (msgs : List Msg) (ret : State → Ret) (s : State) : Run Unit :=
  (transfer a msgs s).andThen fun s => .done () (if s.host.result = .ok then setResult (ret s) s else s)

/-- `{ w[bytes] p }` (R271). -/
def writePattern (bytes : List Byte) : List Msg := [⟨false, true, .write bytes⟩]

/-- `{ r(count) p }` (R272). -/
def readPattern (count : Nat) : List Msg := [⟨false, true, .read count⟩]

/-- `{ w[bytes] ; r(count) rs p }` (R274). -/
def writeReadPattern (bytes : List Byte) (count : Nat) : List Msg :=
  [⟨false, false, .write bytes⟩, ⟨true, true, .read count⟩]

/-- `REG_READ8` as a helper (R276). -/
def regRead8 (a : Addr) (reg : Byte) (s : State) : Run Unit :=
  helper a (writeReadPattern [reg] 1) (fun s => .okByte (byteRead s 0)) s

/-- `REG_WRITE8` as a helper (R277). -/
def regWrite8 (a : Addr) (reg val : Byte) (s : State) : Run Unit := transfer a (writePattern [reg, val]) s

/-- The transfers of other callers, one after another, each to its end (R350). -/
def otherCalls : List Call → State → Run Unit
  | [], s => .done () s
  | c :: cs, s => (transfer c.addr c.msgs s).andThen fun s => otherCalls cs s

/-- What other callers do between the two transfers of a read-modify-write: the next entry of the host's script, or
nothing when the caller excludes them (R350; log entry 30). -/
def raceCalls (s : State) : Run Unit :=
  match s.host.race with
  | [] => .done () s
  | cs :: rest => otherCalls cs { s with host := { s.host with race := rest } }

/-- `UPDATE_MASKED` as a helper (R282): one read, and a write only when the value changes. -/
def updateMasked (a : Addr) (reg mask value : Byte) (s : State) : Run Unit :=
  (regRead8 a reg s).andThen fun s =>
    match s.host.result with
    | .okByte old =>
      let new := maskedUpdate old mask value
      if new = old then .done () (setResult .ok s)
      else (raceCalls s).andThen fun s => regWrite8 a reg new s
    | .none | .ok | .okLevel _ | .okWord _ | .okBytes _ | .err _ => .done () s

/-- `DETECT addr` (R270): a zero-length write with `STOP`. -/
def execDetect (a : Addr) (s : State) : Host.Outcome State Fault Refusal := toOutcome (transfer a (writePattern []) s)

/-- `WRITE addr, bytes` (R271). -/
def execWrite (a : Addr) (bytes : List Byte) (s : State) : Host.Outcome State Fault Refusal :=
  toOutcome (transfer a (writePattern bytes) s)

/-- `READ addr, length` (R272). -/
def execRead (a : Addr) (count : Nat) (s : State) : Host.Outcome State Fault Refusal :=
  toOutcome (helper a (readPattern count) (fun s => .okBytes (readBytes s)) s)

/-- `WRITE_THEN_READ addr, write_bytes, read_length` (R274). -/
def execWriteThenRead (a : Addr) (bytes : List Byte) (count : Nat) (s : State) : Host.Outcome State Fault Refusal :=
  toOutcome (helper a (writeReadPattern bytes count) (fun s => .okBytes (readBytes s)) s)

/-- `REG_READ8 addr, reg` (R276). -/
def execRegRead8 (a : Addr) (reg : Byte) (s : State) : Host.Outcome State Fault Refusal := toOutcome (regRead8 a reg s)

/-- `REG_WRITE8 addr, reg, val` (R277). -/
def execRegWrite8 (a : Addr) (reg val : Byte) (s : State) : Host.Outcome State Fault Refusal :=
  toOutcome (regWrite8 a reg val s)

/-- `REG_READ16_BE addr, reg` (R278). -/
def execRegRead16Be (a : Addr) (reg : Byte) (s : State) : Host.Outcome State Fault Refusal :=
  toOutcome (helper a (writeReadPattern [reg] 2) (fun s => .okWord (wordBe (byteRead s 0) (byteRead s 1))) s)

/-- `REG_READ16_LE addr, reg` (R279). -/
def execRegRead16Le (a : Addr) (reg : Byte) (s : State) : Host.Outcome State Fault Refusal :=
  toOutcome (helper a (writeReadPattern [reg] 2) (fun s => .okWord (wordLe (byteRead s 0) (byteRead s 1))) s)

/-- `REG_WRITE16_BE addr, reg, word` (R280). -/
def execRegWrite16Be (a : Addr) (reg : Byte) (word : Half) (s : State) : Host.Outcome State Fault Refusal :=
  toOutcome (transfer a (writePattern [reg, wordHi word, wordLo word]) s)

/-- `REG_WRITE16_LE addr, reg, word` (R281). -/
def execRegWrite16Le (a : Addr) (reg : Byte) (word : Half) (s : State) : Host.Outcome State Fault Refusal :=
  toOutcome (transfer a (writePattern [reg, wordLo word, wordHi word]) s)

/-- `UPDATE_MASKED addr, reg, mask, value` (R282). -/
def execUpdateMasked (a : Addr) (reg mask value : Byte) (s : State) : Host.Outcome State Fault Refusal :=
  toOutcome (updateMasked a reg mask value s)

end Sys2Proof.Machine
end

