-- ==== Sys2Proof/Machine/Message.lean ====
section
/-! DEFINITION. The operations inside a running transfer: a message (spec R184 to R188) and the address byte (R186).
They exist only where a call stands at a message or at its address byte (log entry 23). -/

namespace Sys2Proof.Machine

open Sys2Proof

/-- The end of an operation inside a call: a failure is taken at once, otherwise the call stands at its next place. -/
def endInCall (s : State) : Run Unit := if failed s then finishCall s else .done () s

/-- One message of the running call: the deferred stop, the flags, the condition and address byte when due, the data
(steps 3a to 3d, R184 to R188). -/
def execMessage (m : Msg) (s : State) : Host.Outcome State Fault Refusal :=
  match s.eng.call with
  | none => .refused .outsideTransfer
  | some c =>
    if s.eng.seq.phase = .preStop then toOutcome ((runMsg c.addr m s).andThen endInCall)
    else .refused .outsideTransfer

/-- `MSG.WRITE` (R187). -/
def execMsgWrite (restart stop : Bool) (buf : List Byte) (s : State) : Host.Outcome State Fault Refusal :=
  execMessage ⟨restart, stop, .write buf⟩ s

/-- `MSG.READ` (R188). -/
def execMsgRead (restart stop : Bool) (len : Nat) (s : State) : Host.Outcome State Fault Refusal :=
  execMessage ⟨restart, stop, .read len⟩ s

/-- The address byte of the running call (R186). -/
def execAddress (b : Byte) (s : State) : Host.Outcome State Fault Refusal :=
  match s.eng.call with
  | none => .refused .outsideTransfer
  | some _ =>
    if s.eng.seq.phase = .addr then toOutcome ((rowAddr b s).andThen endInCall) else .refused .outsideTransfer

/-- `ADDR.W` (R186, R97). -/
def execAddrW (a : Addr) (s : State) : Host.Outcome State Fault Refusal := execAddress (addrByte a false) s

/-- `ADDR.R` (R186, R97). -/
def execAddrR (a : Addr) (s : State) : Host.Outcome State Fault Refusal := execAddress (addrByte a true) s

end Sys2Proof.Machine
end

