-- ==== Sys2Proof/Machine/Responder.lean ====
section
/-! DEFINITION. The target-mode responder: the handler (spec R240 to R249), the delivery of events (R325, R326, R330)
and the events as operations: the front end raising them. -/

namespace Sys2Proof.Machine

open Sys2Proof

/-- `ack_for(r)` (R243, D20). -/
def ackFor (cfg : Params) (r : CbRet) : Action :=
  match r with
  | .outOfBounds => if cfg.nackOnWriteErr then .nack else .ack
  | .ok => .ack
  | .byte _ => .ack

/-- A written data byte: the write callback at the pointer, then the pointer's increment (R242, R251, R252). -/
def storeByte (cfg : Params) (b : Byte) (t : Target) : Target :=
  let r := t.file.write t.ptr.toNat b
  { t with
    file := r.1, ptr := ptrNext t.ptr, tstate := .receivedData, action := some (ackFor cfg r.2), cb := some r.2 }

/-- A byte sent: the read callback at the pointer, then the pointer's increment (R244, R250, R252). -/
def fetchByte (cfg : Params) (t : Target) : Target :=
  let v := t.file.read cfg.oobReadByte t.ptr.toNat
  { t with ptr := ptrNext t.ptr, tstate := .sentData, action := some (.send v), cb := some (.byte v) }

/-- The end of a transaction (R246 to R248). -/
def endTransaction (t : Target) : Target := { t with tstate := .idle, action := some .finish }

/-- The handler: one event, one transition and one action, or no meaning (R249). -/
def handle (cfg : Params) (t : Target) (e : Event) : Option Target :=
  match e with
  | .addr _ => some { t with tstate := .newTransaction, action := some .ack }
  | .rxByte b =>
    match t.tstate with
    | .newTransaction => some { t with ptr := b, tstate := .receivedAddress, action := some .ack }
    | .receivedAddress | .receivedData => some (storeByte cfg b t)
    | .idle | .sentData => none
  | .txReq p =>
    match p, t.tstate with
    | .first, .newTransaction => some (fetchByte cfg t)
    | .acked, .sentData => some (fetchByte cfg t)
    | .nacked, .sentData => some (endTransaction t)
    | .first, .idle | .first, .receivedAddress | .first, .receivedData | .first, .sentData => none
    | .acked, .idle | .acked, .newTransaction | .acked, .receivedAddress | .acked, .receivedData => none
    | .nacked, .idle | .nacked, .newTransaction | .nacked, .receivedAddress | .nacked, .receivedData => none
  | .stop => some (endTransaction t)
  | .busErr => some (endTransaction t)
  | .coll => some (endTransaction t)

/-- The order in which events raised together are delivered: errors, then a stop, then the others (R326, D32). -/
def eventClass : Event → Nat
  | .busErr | .coll => 0
  | .stop => 1
  | .addr _ | .rxByte _ | .txReq _ => 2

/-- A raised event takes its place among the pending ones: after those of its own and of earlier classes (R326). Events
that are pending at the same time count as raised together (DESIGN CHOICE, log entry 13): the front end of the machine's
own steps holds the bus while an event is pending (R253 (f)), so that only what it raises at one instant comes
together. -/
def insertEvent (e : Event) : List Event → List Event
  | [] => [e]
  | d :: ds => if eventClass d ≤ eventClass e then d :: insertEvent e ds else e :: d :: ds

/-- The handler runs on the first pending event (R326): the action clears it (R325). -/
def deliver (s : State) : Host.Outcome State Fault Refusal :=
  match s.tgt.pending with
  | [] => .next s
  | e :: rest =>
    match handle s.cfg { s.tgt with pending := rest } e with
    | some t => .next { s with tgt := t }
    | none => .refused .eventOutOfState

/-- Raised events take their places among the pending ones. -/
def pend (es : List Event) (s : State) : State :=
  { s with tgt := { s.tgt with pending := es.foldl (fun ps e => insertEvent e ps) s.tgt.pending } }

/-- The front end raises events together (R253, R326): the handler preempts the normal flow at once unless interrupts are
masked, in which case the events wait (R195, R325, R330). The front end's three interrupt sources count as enabled from
reset on: the source gives them no enable (R343 (b), N18, N23; DESIGN CHOICE, log entry 37). -/
def raiseEvents (es : List Event) (s : State) : Host.Outcome State Fault Refusal :=
  let s := pend es s
  if s.host.irqEn then deliver s else .next s

/-- The front end raises one event. -/
def raiseEvent (e : Event) (s : State) : Host.Outcome State Fault Refusal := raiseEvents [e] s

/-- `EV_ADDR(dir)` (R241). -/
def execEvAddr (dir : Dir) (s : State) : Host.Outcome State Fault Refusal := raiseEvent (.addr dir) s

/-- `EV_STOP` (R246). -/
def execEvStop (s : State) : Host.Outcome State Fault Refusal := raiseEvent .stop s

/-- `EV_RXBYTE(b)` (R242). -/
def execEvRxByte (b : Byte) (s : State) : Host.Outcome State Fault Refusal := raiseEvent (.rxByte b) s

/-- `EV_TXREQ(prev)` (R244). -/
def execEvTxReq (prev : Prev) (s : State) : Host.Outcome State Fault Refusal := raiseEvent (.txReq prev) s

/-- `EV_BUSERR` (R247). -/
def execEvBusErr (s : State) : Host.Outcome State Fault Refusal := raiseEvent .busErr s

/-- `EV_COLL` (R248). -/
def execEvColl (s : State) : Host.Outcome State Fault Refusal := raiseEvent .coll s

end Sys2Proof.Machine
end

