-- ==== Sys2Proof/Machine/Shift.lean ====
section
/-! DEFINITION. The shift-register peripheral's commands as operations (spec 43_transports.md, R212 to R215). -/

namespace Sys2Proof.Machine

open Sys2Proof

/-- `P_START` (R212). -/
def execPStart (s : State) : Host.Outcome State Fault Refusal :=
  onBackend .peripheral s fun s => finishWith (fun _ _ => .ok) (srpStart s)

/-- `P_WRITE(b)` (R213): returns `acked`. -/
def execPWrite (b : Byte) (s : State) : Host.Outcome State Fault Refusal :=
  onBackend .peripheral s fun s => finishWith (fun _ s => .okLevel s.eng.acked) (srpWrite b s)

/-- `P_READ(ack)` (R214): returns the byte. -/
def execPRead (ack : Bool) (s : State) : Host.Outcome State Fault Refusal :=
  onBackend .peripheral s fun s => finishWith (fun v _ => .okByte v) (srpRead ack s)

/-- `P_STOP` (R215). -/
def execPStop (s : State) : Host.Outcome State Fault Refusal :=
  onBackend .peripheral s fun s => finishWith (fun _ _ => .ok) (srpStop s)

end Sys2Proof.Machine
end

