-- ==== Sys2Proof/Machine/Wire.lean ====
section
/-! DEFINITION. The wire primitives as operations (spec 40_wire_primitives.md, R131 to R141). -/

namespace Sys2Proof.Machine

open Sys2Proof

/-- `SET_CLOCK(v)` (R131). -/
def execSetClock (v : Bool) (s : State) : Host.Outcome State Fault Refusal :=
  onBackend .bitBang s fun s => finishWith (fun _ _ => .ok) (setClock v s)

/-- `SET_DATA(v)` (R132). -/
def execSetData (v : Bool) (s : State) : Host.Outcome State Fault Refusal :=
  onBackend .bitBang s fun s => finishWith (fun _ _ => .ok) (setData v s)

/-- `READ_DATA` (R133). -/
def execReadData (s : State) : Host.Outcome State Fault Refusal :=
  onBackend .bitBang s fun s => finishWith (fun v _ => .okLevel v) (readData s)

/-- `READ_CLOCK` (R134). -/
def execReadClock (s : State) : Host.Outcome State Fault Refusal :=
  onBackend .bitBang s fun s => finishWith (fun v _ => .okLevel v) (readClock s)

/-- `START` (R135). -/
def execStart (s : State) : Host.Outcome State Fault Refusal :=
  onBackend .bitBang s fun s => finishWith (fun _ _ => .ok) (wireStart s)

/-- `RSTART` (R136). -/
def execRstart (s : State) : Host.Outcome State Fault Refusal :=
  onBackend .bitBang s fun s => finishWith (fun _ _ => .ok) (wireRstart s)

/-- `STOP` (R137). -/
def execStop (s : State) : Host.Outcome State Fault Refusal :=
  onBackend .bitBang s fun s => finishWith (fun _ _ => .ok) (wireStop s)

/-- `WRITE_BIT(b)` (R138). -/
def execWriteBit (b : Bool) (s : State) : Host.Outcome State Fault Refusal :=
  onBackend .bitBang s fun s => finishWith (fun _ _ => .ok) (writeBit b s)

/-- `READ_BIT` (R139). -/
def execReadBit (s : State) : Host.Outcome State Fault Refusal :=
  onBackend .bitBang s fun s => finishWith (fun v _ => .okLevel v) (readBit s)

/-- `SEND_BYTE(b)` (R140): returns `acked`. -/
def execSendByte (b : Byte) (s : State) : Host.Outcome State Fault Refusal :=
  onBackend .bitBang s fun s => finishWith (fun _ s => .okLevel s.eng.acked) (wireSendByte b s)

/-- `RECV_BYTE(ack)` (R141): returns the byte. -/
def execRecvByte (ack : Bool) (s : State) : Host.Outcome State Fault Refusal :=
  onBackend .bitBang s fun s => finishWith (fun v _ => .okByte v) (wireRecvByte ack s)

end Sys2Proof.Machine
end

