-- ==== Sys2Proof/Machine/Dispatch.lean ====
section
/-! DEFINITION. The dispatch: one arm per operation, each one call of its meaning. -/

namespace Sys2Proof.Machine

open Sys2Proof

def exec (i : Instr) (s : State) : Host.Outcome State Fault Refusal :=
  match i with
  | .configure mode => Sys2Proof.Machine.execConfigure mode s
  | .transfer addr msgs => Sys2Proof.Machine.execTransfer addr msgs s
  | .msgWrite restart stop buf => Sys2Proof.Machine.execMsgWrite restart stop buf s
  | .msgRead restart stop len => Sys2Proof.Machine.execMsgRead restart stop len s
  | .addrW a => Sys2Proof.Machine.execAddrW a s
  | .addrR a => Sys2Proof.Machine.execAddrR a s
  | .setClock v => Sys2Proof.Machine.execSetClock v s
  | .setData v => Sys2Proof.Machine.execSetData v s
  | .readData => Sys2Proof.Machine.execReadData s
  | .readClock => Sys2Proof.Machine.execReadClock s
  | .delayQ => Sys2Proof.Machine.execDelayQ s
  | .delayH => Sys2Proof.Machine.execDelayH s
  | .start => Sys2Proof.Machine.execStart s
  | .rstart => Sys2Proof.Machine.execRstart s
  | .stop => Sys2Proof.Machine.execStop s
  | .writeBit b => Sys2Proof.Machine.execWriteBit b s
  | .readBit => Sys2Proof.Machine.execReadBit s
  | .sendByte b => Sys2Proof.Machine.execSendByte b s
  | .recvByte ack => Sys2Proof.Machine.execRecvByte ack s
  | .pStart => Sys2Proof.Machine.execPStart s
  | .pWrite b => Sys2Proof.Machine.execPWrite b s
  | .pRead ack => Sys2Proof.Machine.execPRead ack s
  | .pStop => Sys2Proof.Machine.execPStop s
  | .evAddr dir => Sys2Proof.Machine.execEvAddr dir s
  | .evStop => Sys2Proof.Machine.execEvStop s
  | .evRxByte b => Sys2Proof.Machine.execEvRxByte b s
  | .evTxReq prev => Sys2Proof.Machine.execEvTxReq prev s
  | .evBusErr => Sys2Proof.Machine.execEvBusErr s
  | .evColl => Sys2Proof.Machine.execEvColl s
  | .readRegister index => Sys2Proof.Machine.execReadRegister index s
  | .writeRegister index byte => Sys2Proof.Machine.execWriteRegister index byte s
  | .detect addr => Sys2Proof.Machine.execDetect addr s
  | .write addr bytes => Sys2Proof.Machine.execWrite addr bytes s
  | .read addr count => Sys2Proof.Machine.execRead addr count s
  | .writeThenRead addr bytes count => Sys2Proof.Machine.execWriteThenRead addr bytes count s
  | .regRead8 addr reg => Sys2Proof.Machine.execRegRead8 addr reg s
  | .regWrite8 addr reg val => Sys2Proof.Machine.execRegWrite8 addr reg val s
  | .regRead16Be addr reg => Sys2Proof.Machine.execRegRead16Be addr reg s
  | .regRead16Le addr reg => Sys2Proof.Machine.execRegRead16Le addr reg s
  | .regWrite16Be addr reg word => Sys2Proof.Machine.execRegWrite16Be addr reg word s
  | .regWrite16Le addr reg word => Sys2Proof.Machine.execRegWrite16Le addr reg word s
  | .updateMasked addr reg mask value => Sys2Proof.Machine.execUpdateMasked addr reg mask value s

end Sys2Proof.Machine
end

