-- ==== Sys2Proof/Machine/Fetch.lean ====
section
/-! DEFINITION. What the next step is: a pending event, the next operation of the host's input, or the next place of
the running call (spec R30, R193, R315, R330, R340); and how a word of the opcode table is placed to be run next. -/

namespace Sys2Proof.Machine

open Sys2Proof

/-- A pending event may be delivered: interrupts are not masked (R325, R330). -/
def deliverable (s : State) : Bool := s.host.irqEn && !s.tgt.pending.isEmpty

/-- An operation of the host is running: its call stands inside the algorithm, or it waits for ever. -/
def busy (s : State) : Bool := s.eng.waiting.isSome || decide (s.eng.seq.phase ≠ .idle)

/-- What is still to reach the machine. -/
def withInput (rest : List Arrival) (s : State) : State := { s with host := { s.host with input := rest } }

/-- Whether an entry of the input is of the event-handling path (events and callbacks, R250, R330) or the host's. -/
def Arrival.onEventPath : Arrival → Bool
  | .word bs =>
    match decode .host bs with
    | .ok i => i.onEventPath
    | .error _ => false
  | .together _ => true
  | .mask _ | .readReg _ | .writeReg _ _ => false

/-- Whether an entry of the input can reach the machine now. The front end raises nothing while an event is pending: it
holds the bus (R253 (f), R326). The callbacks run on the event-handling path only, so that they wait while interrupts
are masked (R250, R255, R330). The host starts an operation, begins or ends a critical section, and accesses the
register file only when none of its operations runs (R30, R255); it accesses the file inside a critical section too,
which is what a critical section is for (R352). -/
def Arrival.ready (s : State) : Arrival → Bool
  | .word bs =>
    match decode .host bs with
    | .ok i => if i.isEvent then s.tgt.pending.isEmpty else if i.onEventPath then s.host.irqEn else !busy s
    | .error _ => !busy s
  | .together _ => s.tgt.pending.isEmpty
  | .mask _ | .readReg _ | .writeReg _ _ => !busy s

/-- The first entry of the input that can reach the machine, and the input without it. The entries of the
event-handling path keep their order, and so do the host's: `event` and `host` say that no earlier entry of that side is
still held (log entry 8). -/
def nextArrival (s : State) : Bool → Bool → List Arrival → Option (Arrival × List Arrival)
  | _, _, [] => none
  | event, host, a :: rest =>
    if (if a.onEventPath then event else host) && a.ready s then some (a, rest)
    else
      match nextArrival s (event && !a.onEventPath) (host && a.onEventPath) rest with
      | none => none
      | some (b, r) => some (b, a :: r)

/-- A read of one entry of the register file from the host's normal flow: what the owner answers, left as the host's
result. Nothing keeps two reads together but the host's own interrupt mask (R72, R352). -/
def hostReadReg (i : Nat) (s : State) : State := setResult (.okByte (s.tgt.file.read s.cfg.oobReadByte i)) s

/-- A write of one entry of the register file from the host's normal flow. R43 and R330 forbid the program this: the
register file is written only from the event-handling path. Nothing in the hardware enforces that, and R352, one of the
hazards, says what the write does all the same: it lands, and a value of several entries "can be read half-updated by an
external controller" (log entry 39). -/
def hostWriteReg (i : Nat) (v : Byte) (s : State) : State :=
  setResult .ok { s with tgt := { s.tgt with file := s.tgt.file.put i v } }

/-- An entry of the input reaches the machine. -/
def arrive (a : Arrival) (s : State) : Host.Outcome State Fault Refusal :=
  match a with
  | .word bs =>
    match decode .host bs with
    | .ok i => exec i s
    | .error e => .refused (.illegal e)
  | .together es => raiseEvents es s
  | .mask en => .next { s with host := { s.host with irqEn := en } }
  | .readReg i => .next (hostReadReg i s)
  | .writeReg i v => .next (hostWriteReg i v s)

/-- The next place of the running call: a message and an address byte are operations of their own, every other place
is one row of R193. -/
def callStep (s : State) : Host.Outcome State Fault Refusal :=
  match s.eng.call, s.eng.seq.phase with
  | none, _ => .fault .sequencer
  | some c, .preStop =>
    match c.msgs[s.eng.seq.i]? with
    | some m => exec m.toInstr s
    | none => .fault .sequencer
  | some c, .addr => exec (if hasRead s.eng.flg then .addrR c.addr else .addrW c.addr) s
  | some _, .idle | some _, .check | some _, .loadFlags | some _, .cond | some _, .dataWr | some _, .dataRd
  | some _, .finalStop | some _, .failStop _ | some _, .done => seqMove s

/-- What the engine does when nothing new reaches it: a call goes on, an unbounded wait goes on waiting (R315), and an
idle engine does nothing (R340). -/
def engineStep (s : State) : Host.Outcome State Fault Refusal :=
  if s.eng.waiting.isSome then .next s
  else if s.eng.seq.phase = .idle then .next s
  else callStep s

/-- One step of the machine. The handler preempts the normal flow (R330); then comes what reaches the machine from
outside, and when nothing can, the engine goes on. -/
def machineStep (s : State) : Host.Outcome State Fault Refusal :=
  if deliverable s then deliver s
  else
    match nextArrival s true true s.host.input with
    | none => engineStep s
    | some (a, rest) => arrive a (withInput rest s)

/-! ## Placing a table word -/

/-- The transport whose builds hold an operation, where it is not the machine's own (log entry 10). -/
def buildFor (i : Instr) (b : Backend) : Backend :=
  match i with
  | .pStart | .pWrite _ | .pRead _ | .pStop => .peripheral
  | .setClock _ | .setData _ | .readData | .readClock | .delayQ | .delayH | .start | .rstart | .stop => .bitBang
  | .writeBit _ | .readBit | .sendByte _ | .recvByte _ => .bitBang
  | .configure _ | .transfer _ _ | .msgWrite _ _ _ | .msgRead _ _ _ | .addrW _ | .addrR _ => b
  | .evAddr _ | .evStop | .evRxByte _ | .evTxReq _ | .evBusErr | .evColl => b
  | .readRegister _ | .writeRegister _ _ | .detect _ | .write _ _ | .read _ _ | .writeThenRead _ _ _ => b
  | .regRead8 _ _ | .regWrite8 _ _ _ | .regRead16Be _ _ | .regRead16Le _ _ | .regWrite16Be _ _ _ => b
  | .regWrite16Le _ _ _ | .updateMasked _ _ _ _ => b

/-- A running call as a configured bus has it: its arguments are in force and `enter()` has run (R195). -/
def placeCall (c : Call) (s : State) : State :=
  enter (beginCall c { s with eng := { s.eng with configured := true } })

/-- The call of one message that a message word stands in, at the message. -/
def atMessage (i : Instr) (s : State) : State :=
  let m : Msg :=
    match i with
    | .msgRead rs st len => ⟨rs, st, .read len⟩
    | .msgWrite rs st buf => ⟨rs, st, .write buf⟩
    | _ => ⟨false, false, .write []⟩
  setPhase .preStop (setFlg flagRestart (placeCall ⟨0, [m]⟩ s))

/-- The call of one empty message that an address byte stands in, at the address byte. -/
def atAddress (i : Instr) (s : State) : State :=
  match i with
  | .addrR a => setPhase .addr (setFlg (flagRestart ||| flagRead) (placeCall ⟨a, [⟨false, false, .read 0⟩]⟩ s))
  | .addrW a => setPhase .addr (setFlg flagRestart (placeCall ⟨a, [⟨false, false, .write []⟩]⟩ s))
  | _ => s

/-- The machine with a table word where the next step finds its operation (log entries 8, 10). -/
def placeWord (nbits w : Nat) (s : State) : State :=
  match tableLookup (tableBytes nbits w) with
  | none => { s with host := { s.host with input := [.word (tableBytes nbits w)] } }
  | some (.host, i, bs) =>
    { s with
      cfg := { s.cfg with backend := buildFor i s.cfg.backend }
      host := { s.host with input := [.word bs] } }
  | some (.message, i, _) => atMessage i s
  | some (.address, i, _) => atAddress i s

end Sys2Proof.Machine
end

