-- ==== Sys2Proof/Machine/LineDecode.lean ====
section
/-! DEFINITION. Decoding a line trace into conditions and bytes (spec R150, from the wire framing R98). -/

namespace Sys2Proof.Machine

open Sys2Proof

/-- What the levels show: a start, a repeated start, a stop, or a byte with its acknowledge, without saying who drove
the byte (R150). -/
inductive LineSym where
  | start
  | rstart
  | stop
  | byte (b : Byte) (a : Bool)
  deriving DecidableEq, Repr

/-- The decoder's mark `open` and its bit buffer (R150). -/
structure LineDec where
  opened : Bool
  bits : List Bool
  deriving DecidableEq, Repr

/-- A byte from its bits, the first one most significant (R150, D4). -/
def bitsToByte (bs : List Bool) : Byte := bs.foldl (fun v b => (v <<< 1) ||| (BitVec.ofBool b).setWidth 8) 0

/-- One change of the levels (R150): an edge of SDA while SCL is 1 is a condition, a rising edge of SCL a bit. R150 does
not say what a sample shows in which both lines change at once: here an edge of SDA counts as one while SCL is 1 only when
SCL is 1 before and after it, and a rising SCL takes the level of SDA after the change (DESIGN CHOICE, log entry 26). -/
def decodeEdge (d : LineDec) (p q : Level) : LineDec × List LineSym :=
  if p.scl && q.scl && p.sda && !q.sda then (⟨true, []⟩, [if d.opened then .rstart else .start])
  else if p.scl && q.scl && !p.sda && q.sda then (⟨false, []⟩, [.stop])
  else if !p.scl && q.scl then
    let bits := d.bits ++ [q.sda]
    if bits.length = 9 then (⟨d.opened, []⟩, [.byte (bitsToByte (bits.take 8)) (!bits.getD 8 true)])
    else (⟨d.opened, bits⟩, [])
  else (d, [])

/-- The symbols of a line trace from a sample on. -/
def decodeFrom (d : LineDec) (p : Level) : List Level → List LineSym
  | [] => []
  | q :: qs => (decodeEdge d p q).2 ++ decodeFrom (decodeEdge d p q).1 q qs

/-- The symbols of a line trace (R150: `open` is false and the buffer empty at first). -/
def decodeLines : List Level → List LineSym
  | [] => []
  | p :: qs => decodeFrom ⟨false, []⟩ p qs

/-- The condition trace with `TX` and `RX` both read as a byte (R150). -/
def Sym.onLine : Sym → LineSym
  | .start => .start
  | .rstart => .rstart
  | .stop => .stop
  | .tx b a => .byte b a
  | .rx b a => .byte b a

end Sys2Proof.Machine
end

