-- ==== Sys2Proof/Machine/FrontEnd.lean ====
section
/-! DEFINITION. The responder's front end as the spec assumes it (R253): the events a controller's transaction raises,
given by its condition trace or by the levels of the lines; and the responder run over a list of events (R240, R254). -/

namespace Sys2Proof.Machine

open Sys2Proof

/-- What the front end remembers of the bus: its own address, whether the next byte is an address byte, the direction
of the open transaction while this device takes part in it, and whether the transaction was addressed to it. -/
structure Front where
  own : Addr
  awaiting : Bool
  sel : Option Dir
  addressed : Bool
  deriving DecidableEq, Repr

/-- The front end of a device at an address on an idle bus. -/
def frontIdle (own : Addr) : Front := ⟨own, false, none, false⟩

/-- The direction an address byte asks for (R101). -/
def byteDir (b : Byte) : Dir := if b.getLsbD 0 then .read else .write

/-- What the front end makes of one symbol on the bus (R253 (a) to (d)). A transaction that has addressed this device
counts as addressed to it up to its stop, which raises `EV_STOP`, also when a repeated start has since addressed another
device (DESIGN CHOICE, log entry 38). A device that is being read takes part up to the byte the controller does not
acknowledge: it sends none behind it, so that no `EV_TXREQ` is due until the next start (R253 (c), R244). A byte against
the direction of the transaction (U6) raises nothing (DESIGN CHOICE, log entry 38). -/
def frontSymbol (f : Front) (y : Sym) : Front × List Event :=
  match y with
  | .start | .rstart => ({ f with awaiting := true, sel := none }, [])
  | .stop => (frontIdle f.own, if f.addressed then [.stop] else [])
  | .tx b _ =>
    if f.awaiting then
      if b.extractLsb' 1 7 = f.own then
        ({ f with awaiting := false, sel := some (byteDir b), addressed := true },
          match byteDir b with
          | .write => [.addr .write]
          | .read => [.addr .read, .txReq .first])
      else ({ f with awaiting := false, sel := none }, [])
    else
      match f.sel with
      | some .write => (f, [.rxByte b])
      | some .read => (f, [])
      | none => (f, [])
  | .rx _ a =>
    match f.sel with
    | some .read => ({ f with sel := if a then some .read else none }, [.txReq (if a then .acked else .nacked)])
    | some .write => (f, [])
    | none => (f, [])

/-- The events of a trace, in the order they happen on the bus (R253 (f)). -/
def frontEvents : Front → List Sym → List Event
  | _, [] => []
  | f, y :: ys => (frontSymbol f y).2 ++ frontEvents (frontSymbol f y).1 ys

/-! ## On the lines -/

/-- The front end watching the lines: what it remembers of the bus, its decoder (R150), and the byte it is sending. -/
structure WireFront where
  front : Front
  dec : LineDec
  sending : Option Byte
  deriving DecidableEq, Repr

/-- The front end of a device at an address on an idle bus. -/
def wireIdle (own : Addr) : WireFront := ⟨frontIdle own, ⟨false, []⟩, none⟩

/-- A decoded symbol as this device takes it: a byte is one it receives, unless it is the sender. The levels do not show
who drove the byte (R150), so the direction of the transaction decides. -/
def frontSym (f : Front) : LineSym → Sym
  | .start => .start
  | .rstart => .rstart
  | .stop => .stop
  | .byte b a => if !f.awaiting && decide (f.sel = some .read) then .rx b a else .tx b a

/-- A condition, not a byte. -/
def LineSym.isCondition : LineSym → Bool
  | .start | .rstart | .stop => true
  | .byte _ _ => false

/-- An illegal condition (R253 (e)): one inside a byte of a transaction this device takes part in. One clock of the
buffer is the condition's own (log entry 38). -/
def illegalCondition (f : WireFront) (y : LineSym) : Bool :=
  f.front.sel.isSome && decide (2 ≤ f.dec.bits.length) && y.isCondition

/-- A bit this device sends is overridden (R253 (e)): it releases SDA and the line is low when the clock rises. -/
def overridden (f : WireFront) (p q : Level) : Bool :=
  match f.sending with
  | some b =>
    !p.scl && q.scl && decide (f.dec.bits.length < 8) && b.getLsbD (7 - f.dec.bits.length) && !q.sda
  | none => false

/-- What the front end makes of one change of the levels: the events it raises together (R253, R326). A device that has
lost a bit is out of the transaction but for its stop. R253 names no clock edge at which a received byte's event
(`EV_ADDR` with its `EV_TXREQ(First)`, `EV_RXBYTE`) is raised: here it is the ninth rising edge, where the decoder of
R150 has the byte whole, with its acknowledge bit. The action of the event decides that bit (R243), so the levels given
are those of a bus on which the action has already been put on the line (DESIGN CHOICE, log entry 38). -/
def frontEdge (f : WireFront) (p q : Level) : WireFront × List Event :=
  let d := decodeEdge f.dec p q
  if overridden f p q then (⟨{ f.front with sel := none }, d.1, none⟩, [.coll])
  else
    match d.2 with
    | [] => ({ f with dec := d.1 }, [])
    | y :: _ =>
      let r := frontSymbol f.front (frontSym f.front y)
      (⟨r.1, d.1, none⟩, (if illegalCondition f y then [.busErr] else []) ++ r.2)

/-! ## The responder behind it -/

/-- The handler over a list of events, with the actions it returned; none when it refuses one (R240, R249). -/
def handleAll (cfg : Params) : Target → List Event → Option (Target × List Action)
  | t, [] => some (t, [])
  | t, e :: es =>
    match handle cfg t e with
    | none => none
    | some t1 =>
      match handleAll cfg t1 es with
      | none => none
      | some (t2, as) => some (t2, t1.action.toList ++ as)

/-- The byte an action sends. -/
def Action.sends : Action → Option Byte
  | .send b => some b
  | .ack | .nack | .finish => none

/-- The responder behind its front end, over the levels of the lines from one on: the front end waits for the action of
each event and sends the byte it asks for (R253 (c), (f)). -/
def respond (cfg : Params) : WireFront → Target → Level → List Level → Option (Target × List Action)
  | _, t, _, [] => some (t, [])
  | f, t, p, q :: qs =>
    let r := frontEdge f p q
    match handleAll cfg t r.2 with
    | none => none
    | some (u, as) =>
      let g := if r.2.isEmpty then r.1 else { r.1 with sending := u.action.bind Action.sends }
      match respond cfg g u q qs with
      | none => none
      | some (w, bs) => some (w, as ++ bs)

end Sys2Proof.Machine
end

