-- ==== Sys2Proof/Safety.lean ====
section
/-! DEFINITION. What the statements call a legal state, a clean bus and a co-operating environment. -/

namespace Sys2Proof.Machine

open Sys2Proof

/-- A simulated device's register file, when it has one, is well formed. -/
def SimDev.wf (d : SimDev) : Bool :=
  match d.body with
  | .file f => f.wf
  | .scripted _ _ => true

/-- The simulated bus holds at most one device at an address (R36: "a mapping from address to ... an interface
instance"), each well formed. -/
def Sim.wf (m : Sim) : Bool := m.dev.all SimDev.wf && decide ((m.dev.map SimDev.addr).Nodup)

/-- Pending events stand in the order of delivery (R326). -/
def pendingSorted : List Event → Bool
  | [] => true
  | e :: es => es.all (fun d => decide (eventClass e ≤ eventClass d)) && pendingSorted es

/-- The message the sequencer stands at. -/
def currentMsg (s : State) : Option Msg := s.eng.call.bind fun c => c.msgs[s.eng.seq.i]?

/-- The sequencer stands at a place of its call (R30): a phase inside the loop has its message, and from the effective
flags on the direction bit of `FLG` is the message's. -/
def seqLegal (s : State) : Bool :=
  match s.eng.seq.phase with
  | .idle => true
  | .check | .finalStop | .failStop _ | .done => s.eng.call.isSome
  | .preStop | .loadFlags => (currentMsg s).isSome
  | .cond | .addr =>
    match currentMsg s with
    | some m => decide (hasRead s.eng.flg = m.isRead)
    | none => false
  | .dataWr =>
    match currentMsg s with
    | some m => !m.isRead
    | none => false
  | .dataRd =>
    match currentMsg s with
    | some m => m.isRead
    | none => false

/-- The phases between `enter()` and `leave()` (R195). -/
def insideLoop : Phase → Bool
  | .idle | .check | .done => false
  | .preStop | .loadFlags | .cond | .addr | .dataWr | .dataRd | .finalStop | .failStop _ => true

/-- The legal states: canonical memories inside their register files (R42, R74), one simulated device an address
(R36), pending events in their order (R326), at least one sample in the drive detection (R7), a sequencer that stands
at a place of its call (R30), `ARBLOST` 0 but on the peripheral transport (R25), and the host's interrupts off inside a
bit-banged call (R195, R351). -/
structure Inv (s : State) : Prop where
  file : s.tgt.file.wf = true
  sim : s.sim.wf = true
  pending : pendingSorted s.tgt.pending = true
  samples : 1 ≤ s.cfg.nSamples
  seq : seqLegal s = true
  arb : s.cfg.backend ≠ .peripheral → s.eng.arbLost = false
  masked : s.cfg.backend = .bitBang → insideLoop s.eng.seq.phase = true → s.host.irqEn = false

/-- A clean, stopped bus (R191): idle, and on the bit-banged transport both lines released. -/
def CleanBus (s : State) : Prop :=
  s.eng.bus = .idle ∧ (s.cfg.backend = .bitBang → s.line.sclOut = true ∧ s.line.sdaOut = true)

/-- The outside leaves the clock alone: no device pulls it low, it does not float low, no second controller drives it. -/
def Ext.free (e : Ext) : Prop := e.scl = true ∧ e.flt = true ∧ e.other = false

/-- Nothing outside holds or will hold the clock low, it does not float low, and there is no second controller. -/
def ClockFree (s : State) : Prop := s.line.ext.free ∧ ∀ es ∈ s.line.env, ∀ e ∈ es, e.free

/-- What the outside drives after `n` instants: the last change it has made by then (log entry 25). -/
def Line.extAt (l : Line) (n : Nat) : Ext := (l.env.take n).flatten.getLast?.getD l.ext

/-- No device pulls a push-pull clock low that is driven high, before the next action on the lines or during the
instant before it (U12). -/
def Unfought (s : State) : Prop :=
  s.line.drive = .pushPull → s.line.sclOut = true →
    s.line.ext.scl = true ∧ ∀ e ∈ s.line.env.headD [], e.scl = true

/-- No second controller takes part on the bus (R5, U15). -/
def OneController (s : State) : Prop := s.line.foreign = false

/-- The environment lets `k` commands of the active transport complete: no clock held low on the bit-banged transport,
an answer for each command on the peripheral, nothing on the simulated bus. -/
def Willing (k : Nat) (s : State) : Prop :=
  match s.cfg.backend with
  | .bitBang => ClockFree s
  | .peripheral => k ≤ s.srp.env.length
  | .simulated => True

/-- Commands a message can take: the deferred stop, the condition, the address byte, its bytes. -/
def msgCommands (m : Msg) : Nat := m.len + 3

/-- Commands a transfer can take: those of its messages and the final stop. -/
def callCommands : List Msg → Nat
  | [] => 1
  | m :: ms => msgCommands m + callCommands ms

/-- The host keeps the rule of R43 and R330: in what is to reach the machine, nothing writes the register file from the
host's normal flow. -/
def KeepsFileRule (s : State) : Prop := ∀ i v, Arrival.writeReg i v ∉ s.host.input

/-- The next step is one of the event-handling path (R330): the handler runs, or an event or a callback arrives. -/
def EventPathStep (s : State) : Prop :=
  deliverable s = true ∨ ∃ a rest, nextArrival s true true s.host.input = some (a, rest) ∧ a.onEventPath = true

/-- No operation of the host runs. -/
def Quiescent (s : State) : Prop := s.eng.seq.phase = .idle ∧ s.eng.waiting = none

/-- A transfer to this address has a meaning here (R331). -/
def MayCall (a : Addr) (s : State) : Prop := Quiescent s ∧ s.eng.configured = true ∧ s.cfg.tgtAddr ≠ some a

/-- `TRANSFER` and the helpers, to one address, with any operands. -/
def callsTo (a : Addr) : Instr → Bool
  | .transfer b _ | .detect b | .write b _ | .read b _ | .writeThenRead b _ _ => decide (b = a)
  | .regRead8 b _ | .regWrite8 b _ _ | .regRead16Be b _ | .regRead16Le b _ | .regWrite16Be b _ _ => decide (b = a)
  | .regWrite16Le b _ _ | .updateMasked b _ _ _ => decide (b = a)
  | .configure _ | .msgWrite _ _ _ | .msgRead _ _ _ | .addrW _ | .addrR _ => false
  | .setClock _ | .setData _ | .readData | .readClock | .delayQ | .delayH | .start | .rstart | .stop => false
  | .writeBit _ | .readBit | .sendByte _ | .recvByte _ | .pStart | .pWrite _ | .pRead _ | .pStop => false
  | .evAddr _ | .evStop | .evRxByte _ | .evTxReq _ | .evBusErr | .evColl => false
  | .readRegister _ | .writeRegister _ _ => false

/-- The operations that act on the lines (R131 to R141), the delays apart. -/
def actsOnLines : Instr → Bool
  | .setClock _ | .setData _ | .readData | .readClock | .start | .rstart | .stop => true
  | .writeBit _ | .readBit | .sendByte _ | .recvByte _ => true
  | .configure _ | .transfer _ _ | .msgWrite _ _ _ | .msgRead _ _ _ | .addrW _ | .addrR _ => false
  | .delayQ | .delayH | .pStart | .pWrite _ | .pRead _ | .pStop => false
  | .evAddr _ | .evStop | .evRxByte _ | .evTxReq _ | .evBusErr | .evColl => false
  | .readRegister _ | .writeRegister _ _ | .detect _ | .write _ _ | .read _ _ | .writeThenRead _ _ _ => false
  | .regRead8 _ _ | .regWrite8 _ _ _ | .regRead16Be _ _ | .regRead16Le _ _ | .regWrite16Be _ _ _ => false
  | .regWrite16Le _ _ _ | .updateMasked _ _ _ _ => false

/-- The errors the engine itself produces (R99, R310). -/
def engineError : BusError → Bool
  | .notConfigured | .nack | .arbitrationLost => true
  | .deviceNotFound | .invalidRail | .invalidVoltage | .invalidScale | .notSupported => false

/-- The bytes sent by a list of actions. -/
def sentBytes : List Action → List Byte
  | [] => []
  | .send b :: as => b :: sentBytes as
  | .ack :: as | .nack :: as | .finish :: as => sentBytes as

/-! ## What an operation leaves alone -/

/-- Left alone by the wire operations but for the lines, the trace, the result and the cells named beside it
(R131 to R141: "State written"). -/
structure WireFrame (s t : State) : Prop where
  cfg : t.cfg = s.cfg
  input : t.host.input = s.host.input
  irqEn : t.host.irqEn = s.host.irqEn
  past : t.host.past = s.host.past
  race : t.host.race = s.host.race
  srp : t.srp = s.srp
  sim : t.sim = s.sim
  tgt : t.tgt = s.tgt
  configured : t.eng.configured = s.eng.configured
  mode : t.eng.mode = s.eng.mode
  flg : t.eng.flg = s.eng.flg
  arbLost : t.eng.arbLost = s.eng.arbLost
  phase : t.eng.seq.phase = s.eng.seq.phase
  i : t.eng.seq.i = s.eng.seq.i
  j : t.eng.seq.j = s.eng.seq.j
  call : t.eng.call = s.eng.call
  buf : t.eng.buf = s.eng.buf
  irqSaved : t.eng.irqSaved = s.eng.irqSaved
  waiting : t.eng.waiting = s.eng.waiting
  tHalf : t.line.tHalf = s.line.tHalf
  tQuarter : t.line.tQuarter = s.line.tQuarter
  drive : t.line.drive = s.line.drive

/-- Left alone by the peripheral's commands but for the peripheral, the trace, the result and the cells named beside it
(R212 to R215: "State written"). -/
structure ShiftFrame (s t : State) : Prop where
  cfg : t.cfg = s.cfg
  input : t.host.input = s.host.input
  irqEn : t.host.irqEn = s.host.irqEn
  past : t.host.past = s.host.past
  race : t.host.race = s.host.race
  line : t.line = s.line
  sim : t.sim = s.sim
  tgt : t.tgt = s.tgt
  configured : t.eng.configured = s.eng.configured
  mode : t.eng.mode = s.eng.mode
  flg : t.eng.flg = s.eng.flg
  sr : t.eng.sr = s.eng.sr
  seq : t.eng.seq = s.eng.seq
  call : t.eng.call = s.eng.call
  buf : t.eng.buf = s.eng.buf
  irqSaved : t.eng.irqSaved = s.eng.irqSaved
  waiting : t.eng.waiting = s.eng.waiting
  baud : t.srp.baud = s.srp.baud
  enable : t.srp.enable = s.srp.enable

/-- Left alone by every operation on the bus: the parameters, the coming operations, the responder with its whole
register file, and what only `CONFIGURE` writes (R21, R22, R32 to R34, R160, R331). -/
structure BusFrame (s t : State) : Prop where
  cfg : t.cfg = s.cfg
  input : t.host.input = s.host.input
  tgt : t.tgt = s.tgt
  configured : t.eng.configured = s.eng.configured
  mode : t.eng.mode = s.eng.mode
  tHalf : t.line.tHalf = s.line.tHalf
  tQuarter : t.line.tQuarter = s.line.tQuarter
  drive : t.line.drive = s.line.drive
  baud : t.srp.baud = s.srp.baud
  enable : t.srp.enable = s.srp.enable
  line : s.cfg.backend ≠ .bitBang →
    t.line.sclOut = s.line.sclOut ∧ t.line.sdaOut = s.line.sdaOut ∧ t.line.ext = s.line.ext ∧ t.line.env = s.line.env
  srp : s.cfg.backend ≠ .peripheral → t.srp = s.srp
  sim : s.cfg.backend ≠ .simulated → t.sim = s.sim

/-- Left alone by every event and callback: all but the responder, and the shape of its register file (R331, R42). -/
structure TargetFrame (s t : State) : Prop where
  cfg : t.cfg = s.cfg
  host : t.host = s.host
  eng : t.eng = s.eng
  line : t.line = s.line
  srp : t.srp = s.srp
  sim : t.sim = s.sim
  n : t.tgt.file.n = s.tgt.file.n
  ro : t.tgt.file.ro = s.tgt.file.ro

/-- The operations that run on the bus in a call: `TRANSFER`, its messages and address bytes, and the helpers. -/
def runsOnBus : Instr → Bool
  | .transfer _ _ | .msgWrite _ _ _ | .msgRead _ _ _ | .addrW _ | .addrR _ => true
  | .detect _ | .write _ _ | .read _ _ | .writeThenRead _ _ _ => true
  | .regRead8 _ _ | .regWrite8 _ _ _ | .regRead16Be _ _ | .regRead16Le _ _ | .regWrite16Be _ _ _ => true
  | .regWrite16Le _ _ _ | .updateMasked _ _ _ _ => true
  | .configure _ => false
  | .setClock _ | .setData _ | .readData | .readClock | .delayQ | .delayH | .start | .rstart | .stop => false
  | .writeBit _ | .readBit | .sendByte _ | .recvByte _ | .pStart | .pWrite _ | .pRead _ | .pStop => false
  | .evAddr _ | .evStop | .evRxByte _ | .evTxReq _ | .evBusErr | .evColl => false
  | .readRegister _ | .writeRegister _ _ => false

/-- The operations on the bus whose messages are all read messages. -/
def readsOnly : Instr → Bool
  | .transfer _ msgs => msgs.all Msg.isRead
  | .msgRead _ _ _ | .read _ _ => true
  | .configure _ | .msgWrite _ _ _ | .addrW _ | .addrR _ => false
  | .setClock _ | .setData _ | .readData | .readClock | .delayQ | .delayH | .start | .rstart | .stop => false
  | .writeBit _ | .readBit | .sendByte _ | .recvByte _ | .pStart | .pWrite _ | .pRead _ | .pStop => false
  | .evAddr _ | .evStop | .evRxByte _ | .evTxReq _ | .evBusErr | .evColl => false
  | .readRegister _ | .writeRegister _ _ | .detect _ | .write _ _ | .writeThenRead _ _ _ => false
  | .regRead8 _ _ | .regWrite8 _ _ _ | .regRead16Be _ _ | .regRead16Le _ _ | .regWrite16Be _ _ _ => false
  | .regWrite16Le _ _ _ | .updateMasked _ _ _ _ => false

/-- The register file's callbacks. -/
def isCallback : Instr → Bool
  | .readRegister _ | .writeRegister _ _ => true
  | .configure _ | .transfer _ _ | .msgWrite _ _ _ | .msgRead _ _ _ | .addrW _ | .addrR _ => false
  | .setClock _ | .setData _ | .readData | .readClock | .delayQ | .delayH | .start | .rstart | .stop => false
  | .writeBit _ | .readBit | .sendByte _ | .recvByte _ | .pStart | .pWrite _ | .pRead _ | .pStop => false
  | .evAddr _ | .evStop | .evRxByte _ | .evTxReq _ | .evBusErr | .evColl => false
  | .detect _ | .write _ _ | .read _ _ | .writeThenRead _ _ _ => false
  | .regRead8 _ _ | .regWrite8 _ _ _ | .regRead16Be _ _ | .regRead16Le _ _ | .regWrite16Be _ _ _ => false
  | .regWrite16Le _ _ _ | .updateMasked _ _ _ _ => false

/-- The event an event operation raises (R101). -/
def eventOf : Instr → Option Event
  | .evAddr d => some (.addr d)
  | .evStop => some .stop
  | .evRxByte b => some (.rxByte b)
  | .evTxReq p => some (.txReq p)
  | .evBusErr => some .busErr
  | .evColl => some .coll
  | .configure _ | .transfer _ _ | .msgWrite _ _ _ | .msgRead _ _ _ | .addrW _ | .addrR _ => none
  | .setClock _ | .setData _ | .readData | .readClock | .delayQ | .delayH | .start | .rstart | .stop => none
  | .writeBit _ | .readBit | .sendByte _ | .recvByte _ | .pStart | .pWrite _ | .pRead _ | .pStop => none
  | .readRegister _ | .writeRegister _ _ | .detect _ | .write _ _ | .read _ _ | .writeThenRead _ _ _ => none
  | .regRead8 _ _ | .regWrite8 _ _ _ | .regRead16Be _ _ | .regRead16Le _ _ | .regWrite16Be _ _ _ => none
  | .regWrite16Le _ _ _ | .updateMasked _ _ _ _ => none

/-! ## Register files seen from outside -/

/-- The byte a register file holds at an index, whatever its length. -/
def RegFile.peek (f : RegFile) (i : Nat) : Byte := Memory.read f.mem i

/-- The byte the reference device at an address of the simulated bus holds at an index. -/
def Sim.peek (m : Sim) (a : Addr) (i : Nat) : Option Byte :=
  match m.find a with
  | none => none
  | some d =>
    match d.body with
    | .file f => some (f.peek i)
    | .scripted _ _ => none

/-- Bytes written one after another from a pointer on, each through `write_register`, the pointer going up by one
modulo 256 (R242, R251, R252). -/
def RegFile.writeFrom (f : RegFile) (p : Byte) : List Byte → RegFile
  | [] => f
  | b :: bs => RegFile.writeFrom (f.write p.toNat b).1 (ptrNext p) bs

/-- `n` bytes read one after another from a pointer on, each through `read_register` (R244, R250, R252). -/
def RegFile.readFrom (f : RegFile) (oob p : Byte) : Nat → List Byte
  | 0 => []
  | n + 1 => f.read oob p.toNat :: RegFile.readFrom f oob (ptrNext p) n

/-- The pointer after `n` accesses (R252). -/
def ptrAfter (p : Byte) (n : Nat) : Byte := p + BitVec.ofNat 8 n

/-- A device of the reference kind stands at the address, with this register file and pointer (R225). -/
def DeviceAt (a : Addr) (f : RegFile) (p : Byte) (s : State) : Prop :=
  ∃ d, s.sim.find a = some d ∧ d.ptr = p ∧ d.body = .file f

/-- The responder on an idle bus with a register file and a pointer (R40 to R42). -/
def Target.idleWith (f : RegFile) (p : Byte) : Target where
  tstate := .idle
  ptr := p
  file := f
  pending := []
  action := none
  cb := none

/-! ## The order of events -/

/-- The order R326 gives events that are raised together: an error before a stop, both before the data events. -/
def InOrder (es : List Event) : Prop :=
  es.Pairwise fun d e =>
    ((e = .busErr ∨ e = .coll) → d = .busErr ∨ d = .coll) ∧ (e = .stop → d = .busErr ∨ d = .coll ∨ d = .stop)

/-! ## The condition trace of a call (R192, R123) -/

/-- The symbols of read bytes: all acknowledged, but the last one answered with `last` (R188). -/
def rxSyms : List Byte → Bool → List Sym
  | [], _ => []
  | [b], last => [.rx b last]
  | b :: c :: bs, last => .rx b true :: rxSyms (c :: bs) last

/-- The symbols of written bytes, all acknowledged. -/
def txSyms (bs : List Byte) : List Sym := bs.map fun b => .tx b true

/-- The bytes a call stored in the buffer of message `i`. -/
def bufOf (cells : List BufCell) (i : Nat) : List Byte := (cells.filter fun c => c.msg = i).map BufCell.val

/-- The data symbols of message `i` of `n` (R187, R188): only the last byte of the last message is not acknowledged. -/
def dataSyms (cells : List BufCell) (n i : Nat) (m : Msg) : List Sym :=
  match m.body with
  | .write buf => txSyms buf
  | .read _ => rxSyms (bufOf cells i) (!decide (i + 1 = n))

/-- The symbols of the messages from index `i` on of a call of `n` messages to address `a`, none of which but the last
carries `STOP`: a repeated start and the address byte exactly before those that carry `RESTART` (R192). -/
def laterSyms (cells : List BufCell) (a : Addr) (n : Nat) : Nat → List Msg → List Sym
  | _, [] => []
  | i, m :: ms =>
    (if m.restart then [.rstart, .tx (addrByte a m.isRead) true] else []) ++ dataSyms cells n i m ++
      laterSyms cells a n (i + 1) ms

/-- The trace R192 gives a call of messages `m :: ms` to address `a`. -/
def callSyms (cells : List BufCell) (a : Addr) (m : Msg) (ms : List Msg) : List Sym :=
  [.start, .tx (addrByte a m.isRead) true] ++ dataSyms cells (ms.length + 1) 0 m ++
    laterSyms cells a (ms.length + 1) 1 ms ++ [.stop]

/-! ## Quiet lines -/

/-- Nothing outside moves the lines or pulls one low, and the levels now stand recorded. -/
def QuietLines (s : State) : Prop :=
  s.line.env = [] ∧ s.line.ext = Ext.released ∧ s.line.lines.getLast? = some (s.line.level s.cfg)

/-- Operations run one after another, each to its end: the state they leave and what they returned; none when one of
them waits for ever or has no meaning. -/
def runAll : List Instr → State → Option (State × List Ret)
  | [], s => some (s, [])
  | i :: is, s =>
    match exec i s with
    | .next t => if t.eng.waiting.isSome then none else (runAll is t).map fun r => (r.1, t.host.result :: r.2)
    | .fault _ => none
    | .refused _ => none

/-- Where the wire operations complete: the transport is bit-banged and nothing outside holds the clock low or competes
for the bus. -/
def WireReady (s : State) : Prop := s.cfg.backend = .bitBang ∧ ClockFree s

end Sys2Proof.Machine
end

