-- ==== Sys2Proof/Certificates/Slice0/Obligations.lean ====
section
/-! DEFINITION. The statements for the provers: what the spec's rules say of the machine. Each docstring names the rule
its statement formalises, or the log entry of a choice of the model's. -/

open Sys2Proof Sys2Proof.Machine

/-! ## Reset and the legal states -/

/-- R45, the cells with a value: unconfigured, bus idle, lines released, no call, peripheral disabled, responder idle;
and the reset state is legal. -/
def Obligations.ResetState : Prop :=
  State.reset.eng.configured = false ∧ State.reset.eng.bus = .idle ∧ State.reset.line.sclOut = true ∧
    State.reset.line.sdaOut = true ∧ State.reset.eng.seq.phase = .idle ∧ State.reset.srp.enable = false ∧
    State.reset.tgt.tstate = .idle ∧ State.reset.eng.trace = [] ∧ Inv State.reset

/-- Every step keeps a state legal: canonical register files that hold nothing outside their length, one simulated
device an address, pending events in order, a sequencer at a place of its call, `ARBLOST` hard-wired off the peripheral
transport (R25), interrupts off inside a bit-banged call (R195). -/
def Obligations.StepKeepsLegal : Prop := ∀ s t : State, Inv s → step s = .next t → Inv t

/-- No step of a legal state faults: the model's one fault is not reached (log entry 33; R317: "There is no
process-fatal error in this core"). -/
def Obligations.LegalStatesNeverFault : Prop := ∀ (s : State) (f : Fault), Inv s → step s ≠ .fault f

/-- R21, R160, R180: once `CONFIGURED` is 1 a further `CONFIGURE` is refused (D12), no step clears it, and no step
changes the mode, the tick counts, the drive discipline, the baud value or the enable again. -/
def Obligations.ConfiguredForLife : Prop :=
  ∀ s : State, s.eng.configured = true → (∀ m, exec (.configure m) s = .refused .secondConfigure) ∧
    ∀ t, step s = .next t → t.cfg = s.cfg ∧
    t.eng.configured = true ∧ t.eng.mode = s.eng.mode ∧ t.line.tHalf = s.line.tHalf ∧
      t.line.tQuarter = s.line.tQuarter ∧ t.line.drive = s.line.drive ∧ t.srp.baud = s.srp.baud ∧
      t.srp.enable = s.srp.enable

/-! ## Encodings -/

/-- Decoding the words of a well-formed operation gives it back, with every operand. -/
def Obligations.DecodeOfEncode : Prop := ∀ i : Instr, i.wellFormed = true → decode i.ctx (encode i) = .ok i

/-- Whatever decodes is the encoding of what it decodes to, in the context it was read in: no other bytes spell it. -/
def Obligations.EncodeOfDecode : Prop :=
  ∀ (c : Ctx) (bs : List Byte) (i : Instr), decode c bs = .ok i → encode i = bs ∧ i.ctx = c ∧ i.wellFormed = true

/-- Words written out from the spec's encodings: R94's example, T-PG-1's `configure fast`, R97, R92; the codes of R101,
R102, R103, R104, R122, whose operand bytes are the model's own serialization (DESIGN CHOICE, log entry 9); and the
address byte of R66, the address in bits 7 to 1 and the read bit in bit 0. -/
def Obligations.SampleWords : Prop :=
  decode .host [0x01, 0x48, 0x02, 0x00, 0x01, 0x01, 0x07, 0x02] =
      .ok (.transfer 0x48 [⟨false, false, .write [0x01]⟩, ⟨true, true, .read 2⟩]) ∧
    decode .host [0x00, 0x01] = .ok (.configure .fast400k) ∧
    decode .address [0x91] = .ok (.addrR 0x48) ∧
    decode .message [0x06, 0x01, 0xAA] = .ok (.msgWrite true true [0xAA]) ∧
    decode .host [0x42, 0x05] = .ok (.evRxByte 0x05) ∧
    decode .host [0x51, 0x05, 0xAA] = .ok (.writeRegister 0x05 0xAA) ∧
    decode .host [0x31, 0x90] = .ok (.pWrite 0x90) ∧
    decode .host [0x2B, 0x90] = .ok (.sendByte 0x90) ∧
    decode .host [0x1A, 0x48, 0x03, 0x20, 0x20] = .ok (.updateMasked 0x48 0x03 0x20 0x20) ∧
    ∀ (a : Addr) (rw : Bool), (addrByte a rw).extractLsb' 1 7 = a ∧ (addrByte a rw).getLsbD 0 = rw

/-- R118: a flag byte with a reserved bit, an address byte of a call with bit 7 and a mode code other than 0 or 1 spell
no operation, whatever follows them. For `TRANSFER`, code 0x01, that byte is the spec's (R94); for the helpers, codes
0x10 to 0x1A, that the address stands in the byte behind the code is the model's own serialization (DESIGN CHOICE, log
entry 9). -/
def Obligations.ReservedEncodingsRefused : Prop :=
  ∀ (b : Byte) (r : List Byte),
    (b.extractLsb' 3 5 ≠ 0 → decode .message (b :: r) = .error .reservedFlag) ∧
      (b.getLsbD 7 = true → ∀ code : Byte, (code = 0x01 ∨ 0x10 ≤ code ∧ code ≤ 0x1A) →
        decode .host (code :: b :: r) = .error .addressNot7Bit) ∧
      (b ≠ 0 → b ≠ 1 → decode .host (0x00 :: b :: r) = .error .badMode)

/-- The operations that have no meaning where they stand are refused by name: those of another transport's build (R130,
R9; log entry 22), a message or an address byte where no call stands at one (log entry 23), a second call while one
runs (R77; log entry 18), a call to the device's own address (R331; log entry 17), and, on the bit-banged transport, an
action on the lines, a `CONFIGURE` and a call where a second controller takes part (R5, U15; log entry 36), and an
action on the lines that finds a push-pull clock driven high against a device that pulls it low (U12; log entry 16). -/
def Obligations.OperationsWithoutMeaning : Prop :=
  ∀ (v : Bool) (b : Byte) (a : Addr) (m : Msg) (ms : List Msg) (s : State),
    (s.cfg.backend ≠ .bitBang → ∀ i,
        i ∈ [Instr.setClock v, .setData v, .readData, .readClock, .delayQ, .delayH, .start, .rstart, .stop, .writeBit v,
          .readBit, .sendByte b, .recvByte v] → exec i s = .refused .otherTransport) ∧
      (s.cfg.backend ≠ .peripheral → ∀ i, i ∈ [Instr.pStart, .pWrite b, .pRead v, .pStop] →
        exec i s = .refused .otherTransport) ∧
      (s.eng.call = none ∨ s.eng.seq.phase ≠ .preStop → exec m.toInstr s = .refused .outsideTransfer) ∧
      (s.eng.call = none ∨ s.eng.seq.phase ≠ .addr →
        exec (.addrW a) s = .refused .outsideTransfer ∧ exec (.addrR a) s = .refused .outsideTransfer) ∧
      (∀ i, callsTo a i = true →
        (s.eng.seq.phase ≠ .idle → exec i s = .refused .concurrentCall) ∧
          (s.eng.seq.phase = .idle → s.eng.configured = true → s.cfg.tgtAddr = some a → i ≠ .transfer a [] →
            exec i s = .refused .ownAddress)) ∧
      (s.cfg.backend = .bitBang → s.line.foreign = true →
        (∀ i, actsOnLines i = true → exec i s = .refused .secondController) ∧
          (∀ x, s.eng.configured = false → exec (.configure x) s = .refused .secondController) ∧
          (MayCall a s → exec (.transfer a (m :: ms)) s = .refused .secondController)) ∧
      (s.cfg.backend = .bitBang → OneController s → s.line.drive = .pushPull →
        (s.line.sclOut = true → (s.line.ext.scl = false ∨ ∃ e ∈ s.line.env.headD [], e.scl = false) →
          ∀ i, actsOnLines i = true → exec i s = .refused .pushPullContention) ∧
          ((s.line.extAt 1).scl = false → exec (.setClock true) s = .refused .pushPullContention))

/-! ## A step runs the decoded operation -/

/-- When no event is due and the first entry of the input spells an operation that can reach the machine, the step is
the execution of that operation, the entry taken away: an operation of the host when none runs, an event when none is
pending (R253 (f)), a callback while interrupts are not masked (R330). That what is to come stands in `host.input` as
byte strings, and that the host's operations wait while one runs, is the model's choice (log entries 8, 18). -/
def Obligations.StepRunsHostOperation : Prop :=
  ∀ (s : State) (w : List Byte) (rest : List Arrival) (i : Instr),
    deliverable s = false → s.host.input = .word w :: rest → decode .host w = .ok i →
      (i.isEvent = true → s.tgt.pending = []) → (isCallback i = true → s.host.irqEn = true) →
      (i.isEvent = false → isCallback i = false → busy s = false) → step s = exec i (withInput rest s)

/-- With nothing else due, the step of a call that stands at a message is that message's operation, and of one that
stands at its address byte the address operation of the effective direction. R186 to R188 give the operations their
effect; that one step at `PRE_STOP` runs the whole message, which R193 spreads over its rows, is the model's choice (log
entry 23). -/
def Obligations.StepRunsCallOperation : Prop :=
  ∀ (s : State) (c : Call),
    deliverable s = false → s.host.input = [] → s.eng.waiting = none → s.eng.call = some c →
      (∀ m, s.eng.seq.phase = .preStop → c.msgs[s.eng.seq.i]? = some m → step s = exec m.toInstr s) ∧
      (s.eng.seq.phase = .addr →
        step s = exec (if hasRead s.eng.flg then .addrR c.addr else .addrW c.addr) s)

/-- R340: the engine does nothing until the host calls it, and the responder nothing until an event arrives. -/
def Obligations.IdleMachineRests : Prop :=
  ∀ s : State, Quiescent s → s.host.input = [] → s.tgt.pending = [] → step s = .next s

/-- R315: an operation that waits for ever has no result and changes nothing of the engine; the only steps left are the
responder's. -/
def Obligations.HangIsForEver : Prop :=
  ∀ s t : State, s.eng.waiting ≠ none → step s = .next t →
    t.eng = s.eng ∧ t.line = s.line ∧ t.srp = s.srp ∧ t.sim = s.sim ∧ t.host.result = s.host.result ∧
      t.host.irqEn = s.host.irqEn

/-! ## Wire primitives -/

/-- R131: `SET_CLOCK(v)` writes `SCL_OUT` and nothing else. `SET_CLOCK(0)` never waits. In open-drain drive
`SET_CLOCK(1)` releases at once and returns exactly when the line comes to read high, at its first poll or a later one;
otherwise it never returns. In push-pull drive it does not poll, and the clock reads what is driven (for a device that
pulls the clock low against the driven 1 see `OperationsWithoutMeaning`). The level's byte is log entry 9's, the wait
without a result log entry 12's, the instants before the write and before each poll log entry 25's. -/
def Obligations.SetClock : Prop :=
  ∀ s : State, s.cfg.backend = .bitBang → OneController s → Unfought s →
    (encode (.setClock false) = [0x20, 0x00] ∧ encode (.setClock true) = [0x20, 0x01]) ∧
    (∃ t, exec (.setClock false) s = .next t ∧ t.line.sclOut = false ∧ t.line.sdaOut = s.line.sdaOut ∧
      t.host.result = .ok ∧ t.eng = s.eng ∧ WireFrame s t) ∧
    (s.line.drive = .openDrain →
      ∃ t, exec (.setClock true) s = .next t ∧ t.line.sclOut = true ∧ t.line.sdaOut = s.line.sdaOut ∧
        WireFrame s { t with eng := s.eng } ∧
        ((∃ k, (s.line.extAt (k + 2)).scl = true ∧ (s.cfg.pullUp = true ∨ (s.line.extAt (k + 2)).flt = true)) →
          t.host.result = .ok ∧ t.eng = s.eng ∧ t.line.scl s.cfg = true) ∧
        ((∀ k, ¬ ((s.line.extAt (k + 2)).scl = true ∧ (s.cfg.pullUp = true ∨ (s.line.extAt (k + 2)).flt = true))) →
          t.host.result = .none ∧ t.eng = { s.eng with waiting := some .sclRelease })) ∧
    (s.line.drive = .pushPull → (s.line.extAt 1).scl = true →
      ∃ t, exec (.setClock true) s = .next t ∧ t.line.sclOut = true ∧ t.line.sdaOut = s.line.sdaOut ∧
        t.line.scl s.cfg = true ∧ t.host.result = .ok ∧ t.eng = s.eng ∧ WireFrame s t)

/-- R132, whole: `SET_DATA(v)`, code 0x21, writes `SDA_OUT` and nothing else, with no wait and no read-back: it completes
whatever is on the lines, in either drive (for a second controller, and for a push-pull clock driven high against a
device that pulls it low, see `OperationsWithoutMeaning`; log entries 16, 36). -/
def Obligations.SetData : Prop :=
  ∀ (v : Bool) (s : State), s.cfg.backend = .bitBang → OneController s → Unfought s →
    (encode (.setData v)).head? = some 0x21 ∧
    ∃ t, exec (.setData v) s = .next t ∧ t.line.sdaOut = v ∧ t.line.sclOut = s.line.sclOut ∧ t.host.result = .ok ∧
      t.eng = s.eng ∧ WireFrame s t

/-- R133: `READ_DATA`, code 0x22, returns the level of SDA, 0 if the controller or any external device drives it low,
else 1, and writes nothing of the controller's. What the external devices drive is what the outside's script gives for
the instant before the read (log entry 25; log entries 16, 36 as for `SetData`). -/
def Obligations.ReadData : Prop :=
  encode .readData = [0x22] ∧
  ∀ s : State, s.cfg.backend = .bitBang → OneController s → Unfought s →
    ∃ t, exec .readData s = .next t ∧ t.line.ext = s.line.extAt 1 ∧
      t.host.result = .okLevel (s.line.sdaOut && t.line.ext.sda) ∧
      t.line.sdaOut = s.line.sdaOut ∧ t.line.sclOut = s.line.sclOut ∧ t.eng = s.eng ∧ WireFrame s t

/-- R134: `READ_CLOCK` returns the level of SCL, in open-drain that of a released line as log entry 24 reads R35, R164
and U22. R130, R145, R315: whatever is on the lines a wire operation of a single controller never fails: in open-drain
drive it returns, or it waits for ever for a clock that something holds low to the end of the outside's script; `START`,
reads, writes of the data line and falling clock edges never wait. In push-pull drive it returns, or meets the
contention without a meaning (U12, log entry 16). The delays of R162, R163 change nothing of a model without time (R167,
log entry 32). -/
def Obligations.WireOperationsEnd : Prop :=
  ∀ (i : Instr) (s : State), s.cfg.backend = .bitBang → OneController s → s.eng.waiting = none →
    (exec .delayQ s = .next (setResult .ok s) ∧ exec .delayH s = .next (setResult .ok s)) ∧
    (Unfought s → ∃ t, exec .readClock s = .next t ∧ t.line.ext = s.line.extAt 1 ∧ t.line.sclOut = s.line.sclOut ∧
      t.line.sdaOut = s.line.sdaOut ∧ t.eng = s.eng ∧ WireFrame s t ∧
      t.host.result = .okLevel
        (match s.line.drive with
          | .pushPull => s.line.sclOut
          | .openDrain => s.line.sclOut && t.line.ext.scl && (s.cfg.pullUp || t.line.ext.flt))) ∧
    (actsOnLines i = true →
      (s.line.drive = .openDrain → ∃ t, exec i s = .next t ∧
        (t.eng.waiting = none ∨
          (t.eng.waiting = some .sclRelease ∧ t.host.result = .none ∧ t.line.sclOut = true ∧
            t.line.scl s.cfg = false ∧ t.line.env = [])) ∧
        ((i ∈ [Instr.setClock false, .start, .readData, .readClock] ∨ ∃ v, i = .setData v) → t.eng.waiting = none)) ∧
      (s.line.drive = .pushPull →
        (∃ t, exec i s = .next t ∧ t.eng.waiting = none) ∨ exec i s = .refused .pushPullContention))

/-- R135: `START` leaves both lines driven low and the bus in a transaction, and emits `S`; on quiet idle lines they go
`(1,1) -> (1,0) -> (0,0)`. -/
def Obligations.Start : Prop :=
  ∀ s : State, WireReady s →
    ∃ t, exec .start s = .next t ∧ t.line.sclOut = false ∧ t.line.sdaOut = false ∧ t.eng.bus = .midTransaction ∧
      t.eng.trace = s.eng.trace ++ [.start] ∧ t.host.result = .ok ∧ t.eng.acked = s.eng.acked ∧
      t.eng.sr = s.eng.sr ∧ t.eng.seq = s.eng.seq ∧ WireFrame s t ∧
      (QuietLines s → s.line.level s.cfg = ⟨true, true⟩ →
        t.line.lines = s.line.lines ++ [⟨true, false⟩, ⟨false, false⟩])

/-- R136: `RSTART` leaves both lines driven low and the bus in a transaction, and emits `Sr` in a transaction, `S` on an
idle bus; on quiet lines it goes `(0,1) -> (1,1) -> (1,0) -> (0,0)` from `(0,0)`, and as `START` from `(1,1)`. -/
def Obligations.RepeatedStart : Prop :=
  ∀ s : State, WireReady s →
    ∃ t, exec .rstart s = .next t ∧ t.line.sclOut = false ∧ t.line.sdaOut = false ∧ t.eng.bus = .midTransaction ∧
      t.eng.trace = s.eng.trace ++ [if s.eng.bus = .midTransaction then .rstart else .start] ∧
      t.host.result = .ok ∧ t.eng.acked = s.eng.acked ∧ t.eng.sr = s.eng.sr ∧ t.eng.seq = s.eng.seq ∧ WireFrame s t ∧
      (QuietLines s → s.line.level s.cfg = ⟨false, false⟩ →
        t.line.lines = s.line.lines ++ [⟨false, true⟩, ⟨true, true⟩, ⟨true, false⟩, ⟨false, false⟩]) ∧
      (QuietLines s → s.line.level s.cfg = ⟨true, true⟩ →
        t.line.lines = s.line.lines ++ [⟨true, false⟩, ⟨false, false⟩])

/-- R137: `STOP` leaves both lines released and the bus idle, and emits `P`; on quiet lines it goes
`(0,0) -> (1,0) -> (1,1)` from `(0,1)`, and `(0,1) -> (0,0) -> (1,0) -> (1,1)` from an idle bus. -/
def Obligations.Stop : Prop :=
  ∀ s : State, WireReady s →
    ∃ t, exec .stop s = .next t ∧ t.line.sclOut = true ∧ t.line.sdaOut = true ∧ t.eng.bus = .idle ∧
      t.eng.trace = s.eng.trace ++ [.stop] ∧ t.host.result = .ok ∧ t.eng.acked = s.eng.acked ∧
      t.eng.sr = s.eng.sr ∧ t.eng.seq = s.eng.seq ∧ WireFrame s t ∧
      (QuietLines s → s.line.level s.cfg = ⟨false, true⟩ →
        t.line.lines = s.line.lines ++ [⟨false, false⟩, ⟨true, false⟩, ⟨true, true⟩]) ∧
      (QuietLines s → s.line.level s.cfg = ⟨true, true⟩ →
        t.line.lines = s.line.lines ++ [⟨false, true⟩, ⟨false, false⟩, ⟨true, false⟩, ⟨true, true⟩])

/-- R138, R139: `WRITE_BIT(b)` leaves `SDA_OUT = b` and `SCL_OUT = 0`; on quiet lines the bit is presented while SCL
is low and stands while it is high. `READ_BIT` releases SDA, returns the level of SDA while SCL is high, and leaves
`SCL_OUT = 0`. Each leaves the lines where the steps of its rule, run as operations of their own, leave them, and
`READ_BIT` returns what its `READ_DATA` returns. -/
def Obligations.BitSteps : Prop :=
  ∀ s : State, WireReady s →
    (∀ b, ∃ t, exec (.writeBit b) s = .next t ∧ t.line.sdaOut = b ∧ t.line.sclOut = false ∧ t.host.result = .ok ∧
      t.eng = s.eng ∧ WireFrame s t ∧
      (s.eng.waiting = none → ∃ u rs,
        runAll [.setData b, .delayQ, .setClock true, .delayH, .setClock false, .delayQ] s = some (u, rs) ∧
          t.line = u.line) ∧
      (QuietLines s → s.line.level s.cfg = ⟨false, !b⟩ →
        t.line.lines = s.line.lines ++ [⟨false, b⟩, ⟨true, b⟩, ⟨false, b⟩]) ∧
      (QuietLines s → s.line.level s.cfg = ⟨false, b⟩ →
        t.line.lines = s.line.lines ++ [⟨true, b⟩, ⟨false, b⟩])) ∧
    ∃ t, exec .readBit s = .next t ∧ t.line.sdaOut = true ∧ t.line.sclOut = false ∧ t.eng = s.eng ∧ WireFrame s t ∧
      (∃ v, t.host.result = .okLevel v) ∧
      (s.eng.waiting = none → ∃ u rs,
        runAll [.setData true, .delayQ, .setClock true, .delayH, .readData, .setClock false, .delayQ] s = some (u, rs) ∧
          t.line = u.line ∧ rs[4]? = some t.host.result)

/-- R140: `SEND_BYTE(b)` ends with SDA released and the clock low, `ACKED` is what it returns and what it emits with the
byte; on lines nothing moves it is the complement of what the outside drives on SDA. It leaves the lines where
`WRITE_BIT` of bits 7 down to 0 and a `READ_BIT` leave them, and `ACKED` is the complement of what that `READ_BIT`
returns. -/
def Obligations.SendByte : Prop :=
  ∀ (b : Byte) (s : State), WireReady s →
    ∃ t, exec (.sendByte b) s = .next t ∧ t.line.sdaOut = true ∧ t.line.sclOut = false ∧
      t.host.result = .okLevel t.eng.acked ∧ t.eng.trace = s.eng.trace ++ [.tx b t.eng.acked] ∧
      t.eng.sr = b ∧ t.eng.bus = s.eng.bus ∧ t.eng.seq.k = .ack ∧ WireFrame s t ∧
      (s.eng.waiting = none → ∃ u rs,
        runAll ([7, 6, 5, 4, 3, 2, 1, 0].map (fun k => .writeBit (b.getLsbD k)) ++ [.readBit]) s = some (u, rs) ∧
          t.line = u.line ∧ rs[8]? = some (.okLevel (!t.eng.acked))) ∧
      (s.line.env = [] → t.eng.acked = !s.line.ext.sda)

/-- R141: `RECV_BYTE(ack)` returns the byte it emits, ends with the clock low and SDA at the acknowledge level; with no
device driving SDA the byte is 0xFF. It leaves the lines where eight `READ_BIT`s and a `WRITE_BIT` of the complement of
`ack` leave them, and what the `READ_BIT`s return are the bits of the byte, bit 7 first (R65). -/
def Obligations.RecvByte : Prop :=
  ∀ (ack : Bool) (s : State), WireReady s →
    ∃ t v, exec (.recvByte ack) s = .next t ∧ t.host.result = .okByte v ∧
      t.eng.trace = s.eng.trace ++ [.rx v ack] ∧ t.line.sdaOut = !ack ∧ t.line.sclOut = false ∧
      t.eng.sr = v ∧ t.eng.bus = s.eng.bus ∧ t.eng.acked = s.eng.acked ∧ t.eng.seq.k = .ack ∧ WireFrame s t ∧
      (s.eng.waiting = none → ∃ u rs,
        runAll (List.replicate 8 .readBit ++ [.writeBit (!ack)]) s = some (u, rs) ∧ t.line = u.line ∧
          ∀ k < 8, rs[k]? = some (.okLevel (v.getLsbD (7 - k)))) ∧
      (s.line.env = [] → v = if s.line.ext.sda then 0xFF else 0x00)

/-- R135 to R141, R145: whatever the lines do meanwhile, a wire operation that returns has driven the lines, moved the
bus state, emitted and returned what its rule says, and has left everything else alone. A byte operation leaves the bit
slot at the ninth clock and the byte in `SR` (R26). -/
def Obligations.WireEffects : Prop :=
  ∀ (i : Instr) (s t : State), s.cfg.backend = .bitBang → exec i s = .next t → t.eng.waiting = none →
    (i = .start → t.line.sclOut = false ∧ t.line.sdaOut = false ∧ t.eng.bus = .midTransaction ∧
      t.eng.trace = s.eng.trace ++ [.start] ∧ t.host.result = .ok ∧ t.eng.acked = s.eng.acked ∧
      t.eng.sr = s.eng.sr ∧ t.eng.seq = s.eng.seq ∧ WireFrame s t) ∧
    (i = .rstart → t.line.sclOut = false ∧ t.line.sdaOut = false ∧ t.eng.bus = .midTransaction ∧
      t.eng.trace = s.eng.trace ++ [if s.eng.bus = .midTransaction then .rstart else .start] ∧ t.host.result = .ok ∧
      t.eng.acked = s.eng.acked ∧ t.eng.sr = s.eng.sr ∧ t.eng.seq = s.eng.seq ∧ WireFrame s t) ∧
    (i = .stop → t.line.sclOut = true ∧ t.line.sdaOut = true ∧ t.eng.bus = .idle ∧
      t.eng.trace = s.eng.trace ++ [.stop] ∧ t.host.result = .ok ∧ t.eng.acked = s.eng.acked ∧
      t.eng.sr = s.eng.sr ∧ t.eng.seq = s.eng.seq ∧ WireFrame s t) ∧
    (∀ b, i = .writeBit b → t.line.sclOut = false ∧ t.line.sdaOut = b ∧ t.host.result = .ok ∧ t.eng = s.eng ∧
      WireFrame s t) ∧
    (i = .readBit → t.line.sclOut = false ∧ t.line.sdaOut = true ∧ (∃ v, t.host.result = .okLevel v) ∧
      t.eng = s.eng ∧ WireFrame s t) ∧
    (∀ b, i = .sendByte b → t.line.sclOut = false ∧ t.line.sdaOut = true ∧ t.eng.sr = b ∧ t.eng.bus = s.eng.bus ∧
      t.eng.trace = s.eng.trace ++ [.tx b t.eng.acked] ∧ t.host.result = .okLevel t.eng.acked ∧
      t.eng.seq.k = .ack ∧ WireFrame s t) ∧
    (∀ ack, i = .recvByte ack → t.line.sclOut = false ∧ t.line.sdaOut = !ack ∧ t.eng.bus = s.eng.bus ∧
      t.eng.acked = s.eng.acked ∧ t.eng.trace = s.eng.trace ++ [.rx t.eng.sr ack] ∧
      t.host.result = .okByte t.eng.sr ∧ t.eng.seq.k = .ack ∧ WireFrame s t)

/-- R65, R98, R150: on quiet lines with the clock low, what `SEND_BYTE(b)` puts on the lines decodes to the byte `b`,
most significant bit first, with its ninth bit, in nine clocks and no condition. -/
def Obligations.ByteOnTheLines : Prop :=
  ∀ (b : Byte) (d : Bool) (s : State), WireReady s → QuietLines s → s.line.sclOut = false →
    ∃ t w, exec (.sendByte b) s = .next t ∧ t.line.lines = s.line.lines ++ w ∧
      decodeFrom ⟨d, []⟩ (s.line.level s.cfg) w = [.byte b false]

/-! ## Configure -/

/-- R180, R161, R166, R164 on the bit-banged transport: the mode, the tick counts of the reference formula with its
ceilings (the spec's decision D11), both lines asked high, the bus idle, `Ok`. The drive is concluded open-drain if and
only if the released clock reads high on every one of the `N_SAMPLES` samples. The condition trace is left empty, and
all else stays. The sample `k` is taken an instant after the one before, the first two instants being those before the
writes of SDA and SCL (log entry 25). -/
def Obligations.ConfigureBitBang : Prop :=
  ∀ (m : Mode) (s : State), s.eng.configured = false → s.cfg.backend = .bitBang → OneController s →
    let f := match m with
      | .standard100k => 100000
      | .fast400k => 400000
    ∃ t, exec (.configure m) s = .next t ∧ t.eng.configured = true ∧ t.eng.mode = m ∧ t.eng.bus = .idle ∧
      t.line.tHalf = (s.cfg.fTick + (2 * f - 1)) / (2 * f) - s.cfg.ovhHalf ∧
      t.line.tQuarter = (s.cfg.fTick + (4 * f - 1)) / (4 * f) - s.cfg.ovhQuarter ∧
      t.line.sclOut = true ∧ t.line.sdaOut = true ∧
      (t.line.drive = .openDrain ↔
        ∀ k < s.cfg.nSamples, (s.line.extAt (k + 3)).scl = true ∧
          (s.cfg.pullUp = true ∨ (s.line.extAt (k + 3)).flt = true)) ∧
      t.srp = s.srp ∧ t.sim = s.sim ∧
      t.eng.flg = s.eng.flg ∧ t.eng.acked = s.eng.acked ∧ t.eng.arbLost = s.eng.arbLost ∧ t.eng.sr = s.eng.sr ∧
      t.eng.seq = s.eng.seq ∧ t.eng.call = s.eng.call ∧ t.eng.buf = s.eng.buf ∧ t.eng.irqSaved = s.eng.irqSaved ∧
      t.eng.waiting = s.eng.waiting ∧ t.eng.trace = [] ∧ t.tgt = s.tgt ∧ t.cfg = s.cfg ∧
      t.host = { s.host with result := .ok }

/-- R180 on the other two transports: the peripheral's baud and enable registers, or nothing of a transport's own. The
condition trace is left empty, and all else stays. -/
def Obligations.ConfigureOthers : Prop :=
  ∀ (m : Mode) (s : State), s.eng.configured = false → s.cfg.backend ≠ .bitBang →
    ∃ t, exec (.configure m) s = .next t ∧ t.eng.configured = true ∧ t.eng.mode = m ∧ t.eng.bus = .idle ∧
      t.line = s.line ∧ t.sim = s.sim ∧
      (s.cfg.backend = .peripheral →
        t.srp.baud = (match m with
          | .standard100k => s.cfg.baud100k
          | .fast400k => s.cfg.baud400k) ∧
          t.srp.enable = true ∧ t.srp.lctlOpen = false ∧ t.srp.data = s.srp.data ∧ t.srp.done = s.srp.done ∧
          t.srp.rxAck = s.srp.rxAck ∧ t.srp.arbLost = s.srp.arbLost ∧ t.srp.ackNext = s.srp.ackNext ∧
          t.srp.afterStart = s.srp.afterStart ∧ t.srp.cmds = s.srp.cmds ∧ t.srp.env = s.srp.env) ∧
      (s.cfg.backend = .simulated → t.srp = s.srp) ∧
      t.eng.flg = s.eng.flg ∧ t.eng.acked = s.eng.acked ∧ t.eng.arbLost = s.eng.arbLost ∧ t.eng.sr = s.eng.sr ∧
      t.eng.seq = s.eng.seq ∧ t.eng.call = s.eng.call ∧ t.eng.buf = s.eng.buf ∧ t.eng.irqSaved = s.eng.irqSaved ∧
      t.eng.waiting = s.eng.waiting ∧ t.eng.trace = [] ∧ t.tgt = s.tgt ∧ t.cfg = s.cfg ∧
      t.host = { s.host with result := .ok }

/-! ## The peripheral's commands -/

/-- R212 to R215: with `DONE` low and an answer of the peripheral to come, each command completes: what it writes, what
it returns, what it emits, and `DONE` cleared again (R211). `SRP.STATUS.ARBLOST` is the answer's after every command
(R217) but for the first byte after a start, which keeps a 1 of the start (`arbAfterByte`; log entry 19), and a stop,
which leaves it alone. -/
def Obligations.ShiftCommands : Prop :=
  ∀ (s : State) (a : SrpAnswer) (rest : List SrpAnswer), s.cfg.backend = .peripheral → s.srp.done = false →
    s.srp.env = a :: rest →
      let lost := a.arbLost || (s.srp.afterStart && s.srp.arbLost)
      (∃ t, exec .pStart s = .next t ∧ t.eng.arbLost = a.arbLost ∧ t.srp.arbLost = a.arbLost ∧
        t.srp.afterStart = true ∧ t.srp.lctlOpen = true ∧ t.srp.env = rest ∧
        t.eng.bus = .midTransaction ∧ t.eng.trace = s.eng.trace ++ [if s.srp.lctlOpen then .rstart else .start] ∧
        t.srp.cmds = s.srp.cmds ++ [.start] ∧ t.host.result = .ok ∧ t.srp.done = false ∧ t.srp.data = s.srp.data ∧
        t.srp.rxAck = s.srp.rxAck ∧ t.srp.ackNext = s.srp.ackNext ∧ t.eng.acked = s.eng.acked ∧ ShiftFrame s t) ∧
      (∀ b, ∃ t, exec (.pWrite b) s = .next t ∧ t.srp.data = b ∧ t.eng.acked = (!a.rxAck) ∧ t.srp.rxAck = a.rxAck ∧
        t.eng.arbLost = lost ∧ t.srp.arbLost = lost ∧ t.srp.afterStart = false ∧ t.srp.env = rest ∧
        t.eng.trace = s.eng.trace ++ [.tx b (!a.rxAck)] ∧
        t.srp.cmds = s.srp.cmds ++ [.write b] ∧ t.host.result = .okLevel (!a.rxAck) ∧ t.srp.done = false ∧
        t.srp.lctlOpen = s.srp.lctlOpen ∧ t.srp.ackNext = s.srp.ackNext ∧ t.eng.bus = s.eng.bus ∧ ShiftFrame s t) ∧
      (∀ ack, ∃ t, exec (.pRead ack) s = .next t ∧ t.srp.ackNext = ack ∧ t.srp.data = a.data ∧
        t.eng.arbLost = lost ∧ t.srp.arbLost = lost ∧ t.srp.afterStart = false ∧ t.srp.env = rest ∧
        t.eng.trace = s.eng.trace ++ [.rx a.data ack] ∧
        t.srp.cmds = s.srp.cmds ++ [.read ack] ∧ t.host.result = .okByte a.data ∧ t.srp.done = false ∧
        t.srp.lctlOpen = s.srp.lctlOpen ∧ t.srp.rxAck = s.srp.rxAck ∧ t.eng.acked = s.eng.acked ∧
        t.eng.bus = s.eng.bus ∧ ShiftFrame s t) ∧
      (∃ t, exec .pStop s = .next t ∧ t.srp.lctlOpen = false ∧ t.eng.bus = .idle ∧ t.srp.arbLost = s.srp.arbLost ∧
        t.srp.afterStart = s.srp.afterStart ∧ t.srp.env = rest ∧
        t.eng.trace = s.eng.trace ++ [.stop] ∧ t.srp.cmds = s.srp.cmds ++ [.stop] ∧ t.host.result = .ok ∧
        t.srp.done = false ∧ t.srp.data = s.srp.data ∧ t.srp.rxAck = s.srp.rxAck ∧ t.srp.ackNext = s.srp.ackNext ∧
        t.eng.acked = s.eng.acked ∧ t.eng.arbLost = s.eng.arbLost ∧ ShiftFrame s t)

/-- R211, R315: with `DONE` low and no answer of the peripheral ever to come, a command is issued and never returns. -/
def Obligations.ShiftHang : Prop :=
  ∀ (b : Byte) (ack : Bool) (s : State), s.cfg.backend = .peripheral → s.srp.done = false → s.srp.env = [] →
    ∀ i c, (i, c) ∈ [(Instr.pStart, SrpCmd.start), (.pWrite b, .write b), (.pRead ack, .read ack), (.pStop, .stop)] →
      ∃ t, exec i s = .next t ∧ t.eng.waiting = some .peripheralDone ∧ t.host.result = .none ∧
        t.srp.cmds = s.srp.cmds ++ [c] ∧ t.eng.trace = s.eng.trace ∧ t.eng.bus = s.eng.bus

/-! ## Transfers -/

/-- R182, R311: before `CONFIGURE` every transfer, the empty one included, returns `NotConfigured`; on a configured bus
the empty sequence succeeds; both with no bus activity and no interrupt masked. R283, R311: before `CONFIGURE` every
helper returns `NotConfigured` after its one transfer, an empty trace. -/
def Obligations.EntryChecks : Prop :=
  ∀ (a : Addr) (i : Instr) (s : State), s.eng.seq.phase = .idle → callsTo a i = true →
    (s.eng.configured = false ∨ i = .transfer a []) →
    ∃ t, exec i s = .next t ∧
      t.host.result = (if s.eng.configured then .ok else .err .notConfigured) ∧ t.eng.trace = [] ∧
      t.host.past = s.host.past ++ [[]] ∧ t.eng.buf = [] ∧
      t.line.sclOut = s.line.sclOut ∧ t.line.sdaOut = s.line.sdaOut ∧ t.line.env = s.line.env ∧ t.srp = s.srp ∧
      t.sim = s.sim ∧ t.host.irqEn = s.host.irqEn ∧ t.host.race = s.host.race ∧ t.eng.bus = s.eng.bus ∧
      t.eng.seq.phase = .idle ∧ BusFrame s t

/-- R181, R189, R191, R310: a transfer of at least one message on a configured bus returns when the environment lets
its commands complete: `Ok`, `Nack` or, on the peripheral transport only, `ArbitrationLost`; the bus is idle again. -/
def Obligations.TransferReturns : Prop :=
  ∀ (a : Addr) (m : Msg) (ms : List Msg) (s : State), MayCall a s → Willing (callCommands (m :: ms)) s →
    ∃ t, exec (.transfer a (m :: ms)) s = .next t ∧ Quiescent t ∧ t.eng.bus = .idle ∧
      (t.host.result = .ok ∨ t.host.result = .err .nack ∨
        (s.cfg.backend = .peripheral ∧ t.host.result = .err .arbitrationLost)) ∧
      (t.host.result ≠ .err .arbitrationLost → t.eng.trace.getLast? = some .stop) ∧
      t.host.past = s.host.past ++ [t.eng.trace]

/-- R191: however a transfer returns, the bus is idle afterwards and on the bit-banged transport both lines are
released. -/
def Obligations.CleanBusAfterEveryTransfer : Prop :=
  ∀ (a : Addr) (msgs : List Msg) (s t : State), CleanBus s → s.eng.waiting = none →
    exec (.transfer a msgs) s = .next t → t.eng.waiting = none → CleanBus t

/-- R195: on the bit-banged transport the host's interrupt enable is back after every return, and off while a transfer
hangs; on the other transports it is never touched. -/
def Obligations.InterruptMasking : Prop :=
  ∀ (a : Addr) (msgs : List Msg) (s t : State), s.eng.waiting = none → exec (.transfer a msgs) s = .next t →
    (t.eng.waiting = none → t.host.irqEn = s.host.irqEn) ∧
      (s.cfg.backend = .bitBang → t.eng.waiting ≠ none → t.host.irqEn = false ∧ t.eng.irqSaved = s.host.irqEn) ∧
      (s.cfg.backend ≠ .bitBang → t.host.irqEn = s.host.irqEn)

/-- R192: a successful transfer from an idle bus in which no message but the last carries `STOP` has the trace `S`,
address byte, data, then `Sr` and address byte exactly before the later messages that carry `RESTART`, their data, and
one `P`; read bytes are answered as R188 says. Each read buffer holds its message's bytes. -/
def Obligations.TraceShape : Prop :=
  ∀ (a : Addr) (m : Msg) (ms : List Msg) (s t : State), s.eng.bus = .idle → s.srp.lctlOpen = false →
    (∀ x ∈ (m :: ms).dropLast, x.stop = false) → exec (.transfer a (m :: ms)) s = .next t → t.host.result = .ok →
      t.eng.trace = callSyms t.eng.buf a m ms ∧
        ∀ i x, (m :: ms)[i]? = some x → (bufOf t.eng.buf i).length = if x.isRead then x.len else 0

/-- R190, R322, R217: a transfer whose address byte, or the start before it, loses arbitration returns
`ArbitrationLost`, whatever the acknowledge bit says, with a stop requested and not waited for and no `P` recorded. -/
def Obligations.ArbitrationLostAtAddress : Prop :=
  ∀ (a : Addr) (m : Msg) (ms : List Msg) (s : State) (x y : SrpAnswer) (rest : List SrpAnswer), MayCall a s →
    s.cfg.backend = .peripheral → s.srp.done = false → s.srp.env = x :: y :: rest →
    (x.arbLost || y.arbLost) = true →
      ∃ t, exec (.transfer a (m :: ms)) s = .next t ∧ t.host.result = .err .arbitrationLost ∧ t.eng.bus = .idle ∧
        t.srp.lctlOpen = false ∧ t.srp.env = rest ∧
        t.srp.cmds = s.srp.cmds ++ [.start, .write (addrByte a m.isRead), .stop] ∧
        t.eng.trace =
          [if s.srp.lctlOpen then .rstart else .start, .tx (addrByte a m.isRead) (!y.rxAck)]

/-- R190, R194, R217 (T-SR-04): a transfer that loses arbitration at a data byte of its first message, everything before
it acknowledged and not lost, returns `ArbitrationLost`. The byte is recorded, and stored when it was received; then a
stop is requested and not waited for, no `P` is recorded, and nothing further goes out. -/
def Obligations.ArbitrationLostAtData : Prop :=
  ∀ (a : Addr) (rs st : Bool) (ms : List Msg) (s : State) (x y z : SrpAnswer) (zs rest : List SrpAnswer), MayCall a s →
    s.cfg.backend = .peripheral → s.srp.done = false → s.srp.env = x :: y :: (zs ++ z :: rest) →
    x.arbLost = false → y.arbLost = false → y.rxAck = false → (∀ w ∈ zs, w.arbLost = false) → z.arbLost = true →
      let first : Sym := if s.srp.lctlOpen then .rstart else .start
      (∀ buf, (∀ w ∈ zs, w.rxAck = false) → zs.length < buf.length →
        ∃ t, exec (.transfer a (⟨rs, st, .write buf⟩ :: ms)) s = .next t ∧ t.host.result = .err .arbitrationLost ∧
          t.eng.bus = .idle ∧ t.srp.lctlOpen = false ∧ t.srp.env = rest ∧
          t.srp.cmds = s.srp.cmds ++ [.start, .write (addrByte a false)] ++
            (buf.take (zs.length + 1)).map .write ++ [.stop] ∧
          t.eng.trace = [first, .tx (addrByte a false) true] ++ txSyms (buf.take zs.length) ++
            (buf[zs.length]?.toList.map fun b => .tx b (!z.rxAck))) ∧
      (∀ len, zs.length < len →
        let ack (k : Nat) : Bool := !(decide (ms = []) && decide (k + 1 = len))
        ∃ t, exec (.transfer a (⟨rs, st, .read len⟩ :: ms)) s = .next t ∧ t.host.result = .err .arbitrationLost ∧
          t.eng.bus = .idle ∧ t.srp.lctlOpen = false ∧ t.srp.env = rest ∧
          t.srp.cmds = s.srp.cmds ++ [.start, .write (addrByte a true)] ++
            (zs ++ [z]).mapIdx (fun k _ => .read (ack k)) ++ [.stop] ∧
          t.eng.buf = (zs ++ [z]).mapIdx (fun k w => ⟨0, k, w.data⟩) ∧
          t.eng.trace = [first, .tx (addrByte a true) true] ++
            (zs ++ [z]).mapIdx fun k w => .rx w.data (ack k))

/-- R99, R310, R313: no operation produces another error than `NotConfigured`, `Nack` and `ArbitrationLost`, and the
last only on the peripheral transport. -/
def Obligations.EngineErrors : Prop :=
  ∀ (i : Instr) (s t : State) (e : BusError), exec i s = .next t → t.host.result = .err e →
    t.host.result = s.host.result ∨
      (engineError e = true ∧ (e = .arbitrationLost → s.cfg.backend = .peripheral))

/-- R193: the small-step table, run from `CHECK`, ends where the whole transfer ends. -/
def Obligations.SmallStepsMakeTheTransfer : Prop :=
  ∀ (a : Addr) (msgs : List Msg) (s : State), Quiescent s →
    ∃ n, ∀ k, n ≤ k → seqRun k (beginCall ⟨a, msgs⟩ s) = exec (.transfer a msgs) s

/-- R184 to R188: a call that stands at a message runs it when the environment is willing. It has then returned with a
failure on an idle bus, or it stands before the next message, or at the final stop. Either way it put out the deferred
stop of the message before, a condition and the address byte exactly when a restart is due, and data. The condition is
`Sr` in an open transaction and `S` on an idle bus, and always `S` before the first message of a bit-banged call.
Completed, it has all its data on the bus; the flags are those of R185 with the restart bit cleared, the message's own
`READ` and `STOP`; the read buffer holds the bytes received, at their places, and nothing else is new in any.
Failed with `Nack` (R76 (d), R312, R320), one byte of this message was not acknowledged, the address byte or a written
one, those before it were, and behind it stands one `P` and nothing else; no byte is new in a buffer, and a read message
gives `Nack` at its address byte only. Failed with `ArbitrationLost` (R190), which is the peripheral's alone, the trace
ends with the byte at which it was lost, with no `P`; the bytes read so far, that one too, stay stored (R194). -/
def Obligations.MessagesRun : Prop :=
  ∀ (c : Call) (m : Msg) (s : State), s.eng.call = some c → s.eng.seq.phase = .preStop → s.eng.waiting = none →
    c.msgs[s.eng.seq.i]? = some m → Willing (msgCommands m + 1) s →
    let opened : Bool := !s.eng.flg.getLsbD 1 &&
      match s.cfg.backend with
      | .bitBang => decide (s.eng.bus = .midTransaction) && decide (s.eng.seq.i ≠ 0)
      | .peripheral => s.srp.lctlOpen
      | .simulated => decide (s.eng.bus = .midTransaction)
    let due : Bool := s.eng.flg.getLsbD 2 || m.restart
    let head : List Sym := s.eng.trace ++ (if s.eng.flg.getLsbD 1 then [.stop] else [])
    let addr : Bool → List Sym := fun k =>
      if due then [if opened then .rstart else .start, .tx (addrByte c.addr m.isRead) k] else []
    ∃ t, exec m.toInstr s = .next t ∧ t.eng.waiting = none ∧
      ((t.eng.seq.phase = .idle ∧ t.eng.call = none ∧ t.eng.bus = .idle ∧
          ((t.host.result = .err .nack ∧ t.eng.buf = s.eng.buf ∧
              ((due = true ∧ t.eng.trace = head ++ addr false ++ [.stop]) ∨
                ∃ pre b post, m.body = .write (pre ++ b :: post) ∧
                  t.eng.trace = head ++ addr true ++ txSyms pre ++ [.tx b false] ++ [.stop])) ∨
            (t.host.result = .err .arbitrationLost ∧ s.cfg.backend = .peripheral ∧
              ((due = true ∧ t.eng.buf = s.eng.buf ∧ ∃ k, t.eng.trace = head ++ addr k) ∨
                (∃ pre b post k, m.body = .write (pre ++ b :: post) ∧ t.eng.buf = s.eng.buf ∧
                  t.eng.trace = head ++ addr true ++ txSyms pre ++ [.tx b k]) ∨
                ∃ vs len, m.body = .read len ∧ vs ≠ [] ∧ vs.length ≤ len ∧
                  t.eng.buf = s.eng.buf ++ vs.mapIdx (fun k v => ⟨s.eng.seq.i, k, v⟩) ∧
                  t.eng.trace = head ++ addr true ++
                    vs.mapIdx (fun k v =>
                      .rx v (!(decide (s.eng.seq.i + 1 = c.msgs.length) && decide (k + 1 = len)))))))) ∨
        (t.eng.call = some c ∧ t.host.result = s.host.result ∧
          t.eng.flg.getLsbD 0 = m.isRead ∧ t.eng.flg.getLsbD 1 = m.stop ∧ t.eng.flg.getLsbD 2 = false ∧
          (if s.eng.seq.i + 1 < c.msgs.length then t.eng.seq.phase = .preStop ∧ t.eng.seq.i = s.eng.seq.i + 1
            else t.eng.seq.phase = .finalStop ∧ t.eng.seq.i = s.eng.seq.i) ∧
          ∃ vs : List Byte, vs.length = (if m.isRead then m.len else 0) ∧
            t.eng.buf = s.eng.buf ++ vs.mapIdx (fun k v => ⟨s.eng.seq.i, k, v⟩) ∧
            t.eng.trace = head ++ addr true ++
              (match m.body with
                | .write buf => txSyms buf
                | .read _ => rxSyms vs (!decide (s.eng.seq.i + 1 = c.msgs.length)))))

/-- R186, R190, R322: at its address byte a call sends the address with the direction bit. Arbitration loss, which only
the peripheral reports (R217), is looked at first: the call returns `ArbitrationLost`, whatever the acknowledge bit
says. Else, acknowledged, it clears the restart bit and goes to its data; not acknowledged, it returns `Nack`. A failed
call leaves an idle bus. -/
def Obligations.AddressBytes : Prop :=
  ∀ (a : Addr) (rd : Bool) (c : Call) (s : State), s.eng.call = some c → s.eng.seq.phase = .addr →
    s.eng.waiting = none → Willing 2 s →
    ∃ t b, exec (if rd then .addrR a else .addrW a) s = .next t ∧ t.eng.waiting = none ∧
      (s.eng.trace ++ [Sym.tx (addrByte a rd) b]) <+: t.eng.trace ∧
      (s.cfg.backend = .peripheral → t.srp.arbLost = true →
        t.eng.seq.phase = .idle ∧ t.eng.bus = .idle ∧ t.host.result = .err .arbitrationLost) ∧
      (¬ (s.cfg.backend = .peripheral ∧ t.srp.arbLost = true) →
        (b = true → t.eng.seq.phase = (if s.eng.flg.getLsbD 0 then .dataRd else .dataWr) ∧
          t.eng.flg.getLsbD 0 = s.eng.flg.getLsbD 0 ∧ t.eng.flg.getLsbD 1 = s.eng.flg.getLsbD 1 ∧
          t.eng.flg.getLsbD 2 = false ∧ t.host.result = s.host.result) ∧
        (b = false → t.eng.seq.phase = .idle ∧ t.eng.bus = .idle ∧ t.host.result = .err .nack)) ∧
      (s.cfg.backend = .peripheral → s.srp.done = false → ∃ x rest, s.srp.env = x :: rest ∧ b = (!x.rxAck) ∧
        t.srp.arbLost = (x.arbLost || (s.srp.afterStart && s.srp.arbLost)))

/-- R331, R160, R218, R60: no operation on the bus touches the responder, the parameters, what `CONFIGURE` wrote, or
another transport; a transfer reaches only the device at its address; one that only reads stores nothing in any; and all
but the read-modify-write leave the host's script of other callers alone (log entry 30). -/
def Obligations.BusOperationsFrame : Prop :=
  ∀ (i : Instr) (s t : State), runsOnBus i = true → exec i s = .next t →
    BusFrame s t ∧ (∀ a msgs, i = .transfer a msgs → ∀ b, b ≠ a → t.sim.find b = s.sim.find b) ∧
      (readsOnly i = true → ∀ b k, t.sim.peek b k = s.sim.peek b k) ∧
      ((∀ a reg mask v, i ≠ .updateMasked a reg mask v) → t.host.race = s.host.race)

/-- R28, R317: nothing of an earlier call is seen by a later one: its result, flags, trace, buffers and position are
forgotten when a transfer begins. -/
def Obligations.TransfersStartClean : Prop :=
  ∀ (a : Addr) (msgs : List Msg) (s : State) (r : Ret) (f : BitVec 3) (x y : Bool) (tr : List Sym)
    (b : List BufCell) (i j : Nat) (k : Slot),
    exec (.transfer a msgs)
        { s with
          host := { s.host with result := r },
          eng := { s.eng with
            flg := f, acked := x, arbLost := y, trace := tr, buf := b, seq := ⟨s.eng.seq.phase, i, j, k⟩ } } =
      exec (.transfer a msgs) s

/-! ## Register helpers -/

/-- R270 on the simulated bus: `DETECT` is one address byte between `S` and `P`, and returns `Ok` exactly when a device
stands at the address. -/
def Obligations.Detect : Prop :=
  ∀ (a : Addr) (s : State), MayCall a s → s.cfg.backend = .simulated → s.eng.bus = .idle →
    ∃ t, exec (.detect a) s = .next t ∧
      t.host.result = (if (s.sim.find a).isSome then .ok else .err .nack) ∧
      t.eng.trace = [.start, .tx (addrByte a false) (s.sim.find a).isSome, .stop] ∧
      ∀ b i, t.sim.peek b i = s.sim.peek b i

/-- R271, R277, R280, R281, R225: a helper that writes a register byte and data to a reference device stores the data
from that register on, leaves every other byte alone, and leaves the pointer behind them; words go out in the order of
the helper. -/
def Obligations.RegisterWrites : Prop :=
  ∀ (a : Addr) (f : RegFile) (p reg : Byte) (data : List Byte) (w : Half) (s : State), MayCall a s →
    s.cfg.backend = .simulated → s.eng.bus = .idle → DeviceAt a f p s →
    ∀ i, (i = .write a (reg :: data) ∨ (∃ v, i = .regWrite8 a reg v ∧ data = [v]) ∨
        (i = .regWrite16Be a reg w ∧ data = [w.extractLsb' 8 8, w.extractLsb' 0 8]) ∨
        (i = .regWrite16Le a reg w ∧ data = [w.extractLsb' 0 8, w.extractLsb' 8 8])) →
      ∃ t, exec i s = .next t ∧ t.host.result = .ok ∧
        t.eng.trace = .start :: txSyms (addrByte a false :: reg :: data) ++ [.stop] ∧
        DeviceAt a (f.writeFrom reg data) (ptrAfter reg data.length) t ∧
        (∀ b k, (b ≠ a ∨ ∀ j < data.length, k ≠ (ptrAfter reg j).toNat) → t.sim.peek b k = s.sim.peek b k)

/-- R272, R274, R188, R225: `READ` returns the bytes from the device's pointer on, `WRITE_THEN_READ` of a register byte
the bytes from that register on, with one `S`, one `Sr` and one `P`; all bytes but the last are acknowledged, the
pointer moves by their number, and nothing is stored. -/
def Obligations.BlockReads : Prop :=
  ∀ (a : Addr) (f : RegFile) (p reg : Byte) (n : Nat) (s : State), MayCall a s → s.cfg.backend = .simulated →
    s.eng.bus = .idle → DeviceAt a f p s →
      (∃ t, exec (.read a n) s = .next t ∧ t.host.result = .okBytes (f.readFrom s.cfg.oobReadByte p n) ∧
        t.eng.trace =
          [.start, .tx (addrByte a true) true] ++ rxSyms (f.readFrom s.cfg.oobReadByte p n) false ++ [.stop] ∧
        DeviceAt a f (ptrAfter p n) t ∧ ∀ b k, t.sim.peek b k = s.sim.peek b k) ∧
      ∃ t, exec (.writeThenRead a [reg] n) s = .next t ∧
        t.host.result = .okBytes (f.readFrom s.cfg.oobReadByte reg n) ∧
        t.eng.trace =
          [.start, .tx (addrByte a false) true, .tx reg true, .rstart, .tx (addrByte a true) true] ++
            rxSyms (f.readFrom s.cfg.oobReadByte reg n) false ++ [.stop] ∧
        DeviceAt a f (ptrAfter reg n) t ∧ ∀ b k, t.sim.peek b k = s.sim.peek b k

/-- R276, R278, R279: the register reads return the byte at the register, or the two bytes from it on as a word of the
helper's byte order. -/
def Obligations.RegisterReads : Prop :=
  ∀ (a : Addr) (f : RegFile) (p reg : Byte) (s : State), MayCall a s → s.cfg.backend = .simulated →
    s.eng.bus = .idle → DeviceAt a f p s →
    let b0 := f.read s.cfg.oobReadByte reg.toNat
    let b1 := f.read s.cfg.oobReadByte (reg + 1).toNat
    (∃ t, exec (.regRead8 a reg) s = .next t ∧ t.host.result = .okByte b0 ∧ DeviceAt a f (reg + 1) t ∧
      ∀ b k, t.sim.peek b k = s.sim.peek b k) ∧
    (∃ t, exec (.regRead16Be a reg) s = .next t ∧ t.host.result = .okWord (b0 ++ b1) ∧ DeviceAt a f (reg + 2) t ∧
      ∀ b k, t.sim.peek b k = s.sim.peek b k) ∧
    (∃ t, exec (.regRead16Le a reg) s = .next t ∧ t.host.result = .okWord (b1 ++ b0) ∧ DeviceAt a f (reg + 2) t ∧
      ∀ b k, t.sim.peek b k = s.sim.peek b k)

/-- R282, R283: `UPDATE_MASKED` computes `(old & ~mask) | (value & mask)` from one read; it makes no write at all when
the value would not change, and otherwise exactly one, of the new value; when the read fails it returns that error and
starts no write. R350: on every transport the calls of other callers that accept the race run between the two, each to
its end; that those calls stand in `host.race` is the model's choice (log entry 30). -/
def Obligations.UpdateMasked : Prop :=
  ∀ (a : Addr) (reg mask value : Byte) (s : State), MayCall a s →
    (s.cfg.backend = .simulated → s.eng.bus = .idle → s.host.race = [] →
      (∀ (f : RegFile) (p : Byte), DeviceAt a f p s →
        let old := f.read s.cfg.oobReadByte reg.toNat
        let new := (old &&& ~~~mask) ||| (value &&& mask)
        let readTrace : List Sym :=
          [.start, .tx (addrByte a false) true, .tx reg true, .rstart, .tx (addrByte a true) true, .rx old false, .stop]
        ∃ t, exec (.updateMasked a reg mask value) s = .next t ∧ t.host.result = .ok ∧
          (new = old → t.host.past = s.host.past ++ [readTrace] ∧ DeviceAt a f (reg + 1) t ∧
            ∀ b k, t.sim.peek b k = s.sim.peek b k) ∧
          (new ≠ old →
            t.host.past = s.host.past ++ [readTrace, .start :: txSyms [addrByte a false, reg, new] ++ [.stop]] ∧
            DeviceAt a (f.write reg.toNat new).1 (reg + 1) t ∧
            ∀ b k, (b ≠ a ∨ k ≠ reg.toNat) → t.sim.peek b k = s.sim.peek b k)) ∧
      (s.sim.find a = none →
        ∃ t, exec (.updateMasked a reg mask value) s = .next t ∧ t.host.result = .err .nack ∧
          t.host.past = s.host.past ++ [[.start, .tx (addrByte a false) false, .stop]] ∧ t.sim.dev = s.sim.dev)) ∧
    ∀ t u old rs, exec (.regRead8 a reg) s = .next t → t.host.result = .okByte old →
      let new := (old &&& ~~~mask) ||| (value &&& mask)
      new ≠ old →
      runAll ((s.host.race.headD []).map (fun c => .transfer c.addr c.msgs) ++ [.regWrite8 a reg new])
          { t with host := { t.host with race := s.host.race.tail } } = some (u, rs) →
        exec (.updateMasked a reg mask value) s = .next u

/-- R283, R270 to R282 on every transport: each helper completes when the environment lets its commands complete, with
its value or with an error of its transfer, never with the bus open. -/
def Obligations.HelpersReturn : Prop :=
  ∀ (a : Addr) (bytes : List Byte) (n : Nat) (reg v mask : Byte) (w : Half) (s : State), MayCall a s →
    ∀ i k, (i, k) ∈ [(Instr.detect a, 4), (.write a bytes, bytes.length + 4), (.read a n, n + 4),
        (.writeThenRead a bytes n, bytes.length + n + 7), (.regRead8 a reg, 9), (.regWrite8 a reg v, 6),
        (.regRead16Be a reg, 10), (.regRead16Le a reg, 10), (.regWrite16Be a reg w, 7), (.regWrite16Le a reg w, 7),
        (.updateMasked a reg mask v, 15)] →
      Willing k s → ((∃ x y z w, i = .updateMasked x y z w) → s.host.race = []) →
        ∃ t, exec i s = .next t ∧ Quiescent t ∧ t.eng.bus = .idle ∧
          (resultCode t.host.result = some 0 ∨ t.host.result = .err .nack ∨ t.host.result = .err .arbitrationLost)

/-! ## The responder -/

/-- R246, R247, R248, whole: in every state a stop, a bus error and a collision end the transaction. The pointer, the
whole register file and all else of the machine are kept. -/
def Obligations.EndingEvents : Prop :=
  (encode .evStop = [0x41] ∧ encode .evBusErr = [0x44] ∧ encode .evColl = [0x45]) ∧
  ∀ s : State, s.host.irqEn = true → s.tgt.pending = [] → ∀ i, i ∈ [Instr.evStop, .evBusErr, .evColl] →
    exec i s = .next { s with tgt := { s.tgt with tstate := .idle, action := some .finish } }

/-- R241, R242: an address match is acknowledged in every state, with the pointer kept (the spec's decision D26). The
first byte after it is the pointer, and calls no callback; every later one goes to `write_register` at the pointer,
which goes up by one modulo 256 whatever the callback did. The answer is an acknowledge but for an error of the callback
under `TGT_NACK_ON_WRITE_ERR` (R243, decision D20); in the states with no transition the byte is refused (D21). -/
def Obligations.ByteReceived : Prop :=
  ∀ (b : Byte) (s : State), s.host.irqEn = true → s.tgt.pending = [] → s.tgt.file.wf = true →
    encode (.evRxByte b) = [0x42, b] ∧
    (∀ d, exec (.evAddr d) s = .next { s with tgt := { s.tgt with tstate := .newTransaction, action := some .ack } }) ∧
    (s.tgt.tstate = .newTransaction →
      exec (.evRxByte b) s =
        .next { s with tgt := { s.tgt with ptr := b, tstate := .receivedAddress, action := some .ack } }) ∧
    (s.tgt.tstate = .receivedAddress ∨ s.tgt.tstate = .receivedData →
      ∃ t, exec (.evRxByte b) s = .next t ∧ t.tgt.tstate = .receivedData ∧ t.tgt.ptr = s.tgt.ptr + 1 ∧
        t.tgt.action =
          (if s.cfg.nackOnWriteErr = true ∧ s.tgt.file.n ≤ s.tgt.ptr.toNat then some .nack else some .ack) ∧
        t.tgt.pending = [] ∧ TargetFrame s t ∧
        t.tgt.file.peek s.tgt.ptr.toNat =
          (if s.tgt.ptr.toNat < s.tgt.file.n ∧ s.tgt.ptr.toNat ∉ s.tgt.file.ro then b
            else s.tgt.file.peek s.tgt.ptr.toNat) ∧
        ∀ k, k ≠ s.tgt.ptr.toNat → t.tgt.file.peek k = s.tgt.file.peek k) ∧
    (s.tgt.tstate = .idle ∨ s.tgt.tstate = .sentData → exec (.evRxByte b) s = .refused .eventOutOfState)

/-- R244: a read request sends the byte at the pointer, or `OOB_READ_BYTE` outside the file, and moves the
pointer; after a not-acknowledge the transaction ends with no callback and the pointer unchanged. Nothing is stored.
In every other state the event is refused (decision D21). -/
def Obligations.ByteRequested : Prop :=
  ∀ (p : Prev) (s : State), s.host.irqEn = true → s.tgt.pending = [] →
    (encode (.evTxReq p)).head? = some 0x43 ∧
    ((p = .first ∧ s.tgt.tstate = .newTransaction) ∨ (p = .acked ∧ s.tgt.tstate = .sentData) →
      ∃ t, exec (.evTxReq p) s = .next t ∧ t.tgt.tstate = .sentData ∧ t.tgt.ptr = s.tgt.ptr + 1 ∧
        t.tgt.action = some (.send (if s.tgt.ptr.toNat < s.tgt.file.n then s.tgt.file.peek s.tgt.ptr.toNat
          else s.cfg.oobReadByte)) ∧
        t.tgt.file = s.tgt.file ∧ t.tgt.pending = [] ∧ TargetFrame s t) ∧
    (p = .nacked → s.tgt.tstate = .sentData →
      exec (.evTxReq p) s = .next { s with tgt := { s.tgt with tstate := .idle, action := some .finish } }) ∧
    (¬ ((p = .first ∧ s.tgt.tstate = .newTransaction) ∨ (p ≠ .first ∧ s.tgt.tstate = .sentData)) →
      exec (.evTxReq p) s = .refused .eventOutOfState)

/-- R249: an event has a meaning in exactly the states its row of the table lists one for; every other pair of state
and event is refused (the spec's decision D21). -/
def Obligations.EventsOutOfState : Prop :=
  ∀ (i : Instr) (e : Event) (s : State), eventOf i = some e → s.host.irqEn = true → s.tgt.pending = [] →
    (exec i s = .refused .eventOutOfState ↔
      (∃ b, e = .rxByte b ∧ (s.tgt.tstate = .idle ∨ s.tgt.tstate = .sentData)) ∨
        (∃ p, e = .txReq p ∧
          ¬ ((p = .first ∧ s.tgt.tstate = .newTransaction) ∨ (p ≠ .first ∧ s.tgt.tstate = .sentData)))) ∧
      (exec i s ≠ .refused .eventOutOfState → ∃ t, exec i s = .next t ∧ TargetFrame s t)

/-- R195, R325, R330: while interrupts are masked an event is only held: it waits, and nothing else of the machine
changes. With interrupts enabled the step of the machine handles the first pending event, whatever else is due.
R253 (f), R326: while an event is held, no step raises another one, for the front end holds the bus. R255, R325: no step
with interrupts masked runs the handler, so that none writes the register file but the host's own write of an entry, and
a critical section of the host's own begins and ends between its operations (that its marks stand in `host.input` is log
entry 8's choice). R43, R72, R352: the host's normal flow reads and writes one entry of the register file a step, inside
a critical section as outside, and changes nothing else but its result; so entries read inside one section are of one
file. R43, R330: while the host keeps the rule of R43, only steps of the event-handling path change the register file, and
it keeps it from then on; a write of the host is that rule broken (R352). The form of these accesses, and that the owner writes a read-only entry and does nothing outside the file, are the
model's choice (log entry 39). -/
def Obligations.EventDelivery : Prop :=
  ∀ s : State,
    (∀ i e, eventOf i = some e → s.host.irqEn = false →
      exec i s = .next { s with tgt := { s.tgt with pending := insertEvent e s.tgt.pending } }) ∧
    (∀ e rest, s.host.irqEn = true → s.tgt.pending = e :: rest →
      step s =
        match handle s.cfg { s.tgt with pending := rest } e with
        | some g => .next { s with tgt := g }
        | none => .refused .eventOutOfState) ∧
    (KeepsFileRule s → ∀ t, step s = .next t →
      KeepsFileRule t ∧ (t.tgt.file ≠ s.tgt.file → EventPathStep s)) ∧
    (∀ t, s.host.irqEn = false → step s = .next t →
      (∃ file, t.tgt = { s.tgt with pending := t.tgt.pending, file := file } ∧
        (file = s.tgt.file ∨ ∃ i v, Arrival.writeReg i v ∈ s.host.input ∧ file = s.tgt.file.put i v)) ∧
        (s.tgt.pending ≠ [] → t.tgt.pending = s.tgt.pending ∧
          t.host.input.filter Arrival.onEventPath = s.host.input.filter Arrival.onEventPath)) ∧
    ∀ rest, deliverable s = false → busy s = false →
      (∀ en, s.host.input = .mask en :: rest →
        step s = .next { s with host := { s.host with input := rest, irqEn := en } }) ∧
      (∀ i v, s.host.input = .readReg i :: rest →
        v = (if i < s.tgt.file.n then s.tgt.file.peek i else s.cfg.oobReadByte) →
        step s = .next { s with host := { s.host with input := rest, result := .okByte v } }) ∧
      ∀ i v, s.host.input = .writeReg i v :: rest → s.tgt.file.wf = true →
        ∃ f, step s = .next { s with
            host := { s.host with input := rest, result := .ok }
            tgt := { s.tgt with file := f } } ∧
          f.n = s.tgt.file.n ∧ f.ro = s.tgt.file.ro ∧
          f.peek i = (if i < s.tgt.file.n then v else s.tgt.file.peek i) ∧ ∀ k, k ≠ i → f.peek k = s.tgt.file.peek k

/-- R326: events raised together are handled with the errors first, then a stop, then the others: in the order of
pending events no stop and no data event stands before an error, and no data event before a stop. A raised event goes
behind the earlier ones of its kind, and none is lost. That pending events count as raised together is the model's
choice (log entry 13). -/
def Obligations.EventPriority : Prop :=
  ∀ (e : Event) (es : List Event) (s : State),
    (InOrder es → InOrder (insertEvent e es) ∧ (insertEvent e es).Perm (e :: es) ∧
      (insertEvent e es).filter (fun d => decide (d = .busErr ∨ d = .coll)) =
        es.filter (fun d => decide (d = .busErr ∨ d = .coll)) ++ (if e = .busErr ∨ e = .coll then [e] else []) ∧
      (insertEvent e es).filter (fun d => decide (d = .stop)) =
        es.filter (fun d => decide (d = .stop)) ++ (if e = .stop then [e] else []) ∧
      (insertEvent e es).filter (fun d => decide (d ≠ .busErr ∧ d ≠ .coll ∧ d ≠ .stop)) =
        es.filter (fun d => decide (d ≠ .busErr ∧ d ≠ .coll ∧ d ≠ .stop)) ++
          (if e ≠ .busErr ∧ e ≠ .coll ∧ e ≠ .stop then [e] else [])) ∧
    (s.tgt.pending = [] → InOrder (pend es s).tgt.pending ∧ (pend es s).tgt.pending.Perm es)

/-- R253 (e), R247, R248: a condition inside a byte of a transaction addressed to this device is a bus error, raised
with the condition's own event and before it (R326); a bit this device sends as 1 and finds 0 is a collision, after
which it sends no more; anything else raises neither. Either way the handler ends the transaction, with the pointer and
the register file as they were. What counts as an illegal condition is the model's choice (log entry 38). -/
def Obligations.FrontEndFindsErrors : Prop :=
  ∀ (f : WireFront) (p q : Level) (cfg : Params) (g : Target),
    let condition := p.scl = true ∧ q.scl = true ∧ p.sda ≠ q.sda
    let illegal := condition ∧ f.front.sel ≠ none ∧ 2 ≤ f.dec.bits.length
    let lost := p.scl = false ∧ q.scl = true ∧ q.sda = false ∧
      ∃ b, f.sending = some b ∧ f.dec.bits.length < 8 ∧ b.getLsbD (7 - f.dec.bits.length) = true
    (illegal → (frontEdge f p q).2 = .busErr :: (if q.sda && f.front.addressed then [.stop] else [])) ∧
      (lost → (frontEdge f p q).2 = [.coll] ∧ (frontEdge f p q).1.front.sel = none ∧
        (frontEdge f p q).1.sending = none) ∧
      (¬ illegal → Event.busErr ∉ (frontEdge f p q).2) ∧ (¬ lost → Event.coll ∉ (frontEdge f p q).2) ∧
      (illegal ∨ lost → ∃ u acts, handleAll cfg g (frontEdge f p q).2 = some (u, acts) ∧ u.tstate = .idle ∧
        u.ptr = g.ptr ∧ u.file = g.file ∧ sentBytes acts = [])

/-- R254: the front end turns the trace of a write transaction to its address into the events of R253, and the
responder, in whatever state, stores the data from the pointer byte on and ends idle behind them; from the trace of a
pointer write and a read of `vs` behind a repeated start it sends the bytes from that pointer on, one for each byte
read, and leaves its register file as it was. Bytes clocked behind the one that is not acknowledged, with no condition
before them, raise nothing (R253 (c)). -/
def Obligations.TransactionsServed : Prop :=
  ∀ (own : Addr) (p : Byte) (data vs : List Byte) (cfg : Params) (g : Target),
    (∃ g' acts, handleAll cfg g
        (frontEvents (frontIdle own) (.start :: txSyms (addrByte own false :: p :: data) ++ [.stop])) =
          some (g', acts) ∧
      g'.tstate = .idle ∧ g'.ptr = ptrAfter p data.length ∧ g'.file = g.file.writeFrom p data ∧ sentBytes acts = []) ∧
    (∀ more : List Sym, vs ≠ [] → (∀ y ∈ more, ∃ b k, y = .tx b k ∨ y = .rx b k) → ∃ g' acts, handleAll cfg g
        (frontEvents (frontIdle own)
          ([.start, .tx (addrByte own false) true, .tx p true, .rstart, .tx (addrByte own true) true] ++
            rxSyms vs false ++ more ++ [.stop])) = some (g', acts) ∧
      sentBytes acts = g.file.readFrom cfg.oobReadByte p vs.length ∧ g'.tstate = .idle ∧
      g'.ptr = ptrAfter p vs.length ∧ g'.file = g.file)

/-- R275, R225, R254: the responder, shown the trace of a `WRITE_THEN_READ` to the reference device, does what that
device did: it sends the bytes the helper returned and ends with the same register file and pointer. -/
def Obligations.ResponderActsAsTheReferenceDevice : Prop :=
  ∀ (a : Addr) (f : RegFile) (p : Byte) (bytes : List Byte) (n : Nat) (s : State), MayCall a s →
    s.cfg.backend = .simulated → s.eng.bus = .idle → DeviceAt a f p s →
      ∃ t g acts, exec (.writeThenRead a bytes (n + 1)) s = .next t ∧
        handleAll s.cfg (Target.idleWith f p) (frontEvents (frontIdle a) t.eng.trace) = some (g, acts) ∧
        t.host.result = .okBytes (sentBytes acts) ∧ DeviceAt a g.file g.ptr t ∧ g.tstate = .idle

/-- R250, R251, R74: the callbacks answer for their own index: the entry or `OOB_READ_BYTE`; a store, nothing at a
read-only entry, or an error outside the file; every other entry and all else of the machine stays. R251 leaves the
result outside the file to the owner: the error is the reference owner's (R74, the spec's decision D19). That a callback
stands as an operation of its own, its value left in `tgt.cb`, is the model's choice (log entry 34). -/
def Obligations.Callbacks : Prop :=
  ∀ (i b : Byte) (s : State), s.tgt.file.wf = true →
    encode (.readRegister i) = [0x50, i] ∧ encode (.writeRegister i b) = [0x51, i, b] ∧
    (∀ v, v = (if i.toNat < s.tgt.file.n then s.tgt.file.peek i.toNat else s.cfg.oobReadByte) →
        exec (.readRegister i) s = .next { s with tgt := { s.tgt with cb := some (.byte v) } }) ∧
      ∃ t, exec (.writeRegister i b) s = .next t ∧ TargetFrame s t ∧ t.tgt.tstate = s.tgt.tstate ∧
        t.tgt.ptr = s.tgt.ptr ∧ t.tgt.pending = s.tgt.pending ∧ t.tgt.action = s.tgt.action ∧
        t.tgt.cb = some (if s.tgt.file.n ≤ i.toNat then .outOfBounds else .ok) ∧
        t.tgt.file.peek i.toNat =
          (if i.toNat < s.tgt.file.n ∧ i.toNat ∉ s.tgt.file.ro then b else s.tgt.file.peek i.toNat) ∧
        ∀ k, k ≠ i.toNat → t.tgt.file.peek k = s.tgt.file.peek k

/-- R331, R43: the engine and the responder share no state: no operation but an event or a callback reads or writes
anything of the responder. -/
def Obligations.EngineIgnoresResponder : Prop :=
  ∀ (i : Instr) (s t : State) (g : Target), i.isEvent = false → isCallback i = false → exec i s = .next t →
    t.tgt = s.tgt ∧ exec i { s with tgt := g } = .next { t with tgt := g }

/-- R331: no event and no callback reads or writes anything of the engine or of its transports. -/
def Obligations.ResponderIgnoresEngine : Prop :=
  ∀ (i : Instr) (s t : State) (e : Engine) (l : Line) (r : Srp) (m : Sim), (i.isEvent || isCallback i) = true →
    exec i s = .next t →
      TargetFrame s t ∧
        exec i { s with eng := e, line := l, srp := r, sim := m } =
          .next { t with eng := e, line := l, srp := r, sim := m }
end

