-- ==== Sys2Proof/Laws/Run.lean ====
section
/-! SUPPORT. What a sequence of primitives can end in, said once: `Run.Post r D H` says that a completed run satisfies
`D` and one that waits for ever satisfies `H`. The lemmas about the primitives are of this form and compose by
`Run.Post.bind`. -/

namespace Sys2Proof.Machine

open Sys2Proof

variable {α β : Type}

/-- A completed run satisfies `D`, a run that waits for ever satisfies `H`. -/
def Run.Post (r : Run α) (D : α → State → Prop) (H : State → Prop) : Prop :=
  match r with
  | .done a s => D a s
  | .hang s => H s
  | .refuse _ => True

@[simp] theorem Run.post_done (a : α) (s : State) (D : α → State → Prop) (H : State → Prop) :
    (Run.done a s).Post D H ↔ D a s := Iff.rfl

@[simp] theorem Run.post_hang (s : State) (D : α → State → Prop) (H : State → Prop) :
    (Run.hang s : Run α).Post D H ↔ H s := Iff.rfl

@[simp] theorem Run.post_refuse (x : Refusal) (D : α → State → Prop) (H : State → Prop) :
    (Run.refuse x : Run α).Post D H ↔ True := Iff.rfl

@[simp] theorem Run.bind_done (a : α) (s : State) (f : α → State → Run β) : (Run.done a s).bind f = f a s := rfl

@[simp] theorem Run.bind_hang (s : State) (f : α → State → Run β) : (Run.hang s).bind f = .hang s := rfl

@[simp] theorem Run.bind_refuse (x : Refusal) (f : α → State → Run β) : (Run.refuse x).bind f = .refuse x := rfl

@[simp] theorem Run.andThen_done (s : State) (f : State → Run β) : (Run.done () s).andThen f = f s := rfl

@[simp] theorem Run.andThen_hang (s : State) (f : State → Run β) : (Run.hang s).andThen f = .hang s := rfl

@[simp] theorem Run.andThen_refuse (x : Refusal) (f : State → Run β) : (Run.refuse x).andThen f = .refuse x := rfl

theorem Run.Post.bind {r : Run α} {f : α → State → Run β} {D : α → State → Prop} {D' : β → State → Prop}
    {H H' : State → Prop} (h : r.Post D H) (hH : ∀ s, H s → H' s) (hf : ∀ a s, D a s → (f a s).Post D' H') :
    (r.bind f).Post D' H' := by
  cases r with
  | done a s => exact hf a s h
  | hang s => exact hH s h
  | refuse x => trivial

theorem Run.Post.andThen {r : Run Unit} {f : State → Run β} {D : Unit → State → Prop} {D' : β → State → Prop}
    {H H' : State → Prop} (h : r.Post D H) (hH : ∀ s, H s → H' s) (hf : ∀ s, D () s → (f s).Post D' H') :
    (r.andThen f).Post D' H' := h.bind hH fun _ => hf

theorem Run.Post.mono {r : Run α} {D D' : α → State → Prop} {H H' : State → Prop} (h : r.Post D H)
    (hD : ∀ a s, D a s → D' a s) (hH : ∀ s, H s → H' s) : r.Post D' H' := by
  cases r with
  | done a s => exact hD a s h
  | hang s => exact hH s h
  | refuse x => trivial

/-- A run written as a step answers a next state only by completing or by waiting. -/
theorem toOutcome_next {r : Run Unit} {D : Unit → State → Prop} {H : State → Prop} {t : State}
    (h : r.Post D H) (ht : toOutcome r = .next t) : D () t ∨ H t := by
  cases r with
  | done a s => cases ht; exact .inl h
  | hang s => cases ht; exact .inr h
  | refuse x => cases ht

/-- The same for an operation with a result. -/
theorem finishWith_next {r : Run α} {D : α → State → Prop} {H : State → Prop} {ret : α → State → Ret} {t : State}
    (h : r.Post D H) (ht : finishWith ret r = .next t) :
    (∃ a s, D a s ∧ t = setResult (ret a s) s) ∨ H t := by
  cases r with
  | done a s => cases ht; exact .inl ⟨a, s, h, rfl⟩
  | hang s => cases ht; exact .inr h
  | refuse x => cases ht

theorem Run.bind_assoc {γ : Type} (r : Run α) (f : α → State → Run β) (g : β → State → Run γ) :
    (r.bind f).bind g = r.bind fun a s => (f a s).bind g := by
  cases r <;> rfl

theorem Run.andThen_assoc (r : Run Unit) (f : State → Run Unit) (g : State → Run β) :
    (r.andThen f).andThen g = r.andThen fun s => (f s).andThen g := by
  cases r <;> rfl

end Sys2Proof.Machine
end

