-- ==== Sys2Proof/Laws/State.lean ====
section
/-! SUPPORT. What each update of one cell does to each field of the state, so that no proof unfolds a record update. -/

namespace Sys2Proof.Machine

open Sys2Proof

variable (s : State)

/-! ### `emit` -/

@[simp] theorem emit_cfg (y : Sym) : (emit y s).cfg = s.cfg := rfl
@[simp] theorem emit_host (y : Sym) : (emit y s).host = s.host := rfl
@[simp] theorem emit_line (y : Sym) : (emit y s).line = s.line := rfl
@[simp] theorem emit_srp (y : Sym) : (emit y s).srp = s.srp := rfl
@[simp] theorem emit_sim (y : Sym) : (emit y s).sim = s.sim := rfl
@[simp] theorem emit_tgt (y : Sym) : (emit y s).tgt = s.tgt := rfl
@[simp] theorem emit_eng_configured (y : Sym) : (emit y s).eng.configured = s.eng.configured := rfl
@[simp] theorem emit_eng_mode (y : Sym) : (emit y s).eng.mode = s.eng.mode := rfl
@[simp] theorem emit_eng_bus (y : Sym) : (emit y s).eng.bus = s.eng.bus := rfl
@[simp] theorem emit_eng_flg (y : Sym) : (emit y s).eng.flg = s.eng.flg := rfl
@[simp] theorem emit_eng_acked (y : Sym) : (emit y s).eng.acked = s.eng.acked := rfl
@[simp] theorem emit_eng_arbLost (y : Sym) : (emit y s).eng.arbLost = s.eng.arbLost := rfl
@[simp] theorem emit_eng_sr (y : Sym) : (emit y s).eng.sr = s.eng.sr := rfl
@[simp] theorem emit_eng_seq (y : Sym) : (emit y s).eng.seq = s.eng.seq := rfl
@[simp] theorem emit_eng_call (y : Sym) : (emit y s).eng.call = s.eng.call := rfl
@[simp] theorem emit_eng_buf (y : Sym) : (emit y s).eng.buf = s.eng.buf := rfl
@[simp] theorem emit_eng_trace (y : Sym) : (emit y s).eng.trace = s.eng.trace ++ [y] := rfl
@[simp] theorem emit_eng_irqSaved (y : Sym) : (emit y s).eng.irqSaved = s.eng.irqSaved := rfl
@[simp] theorem emit_eng_waiting (y : Sym) : (emit y s).eng.waiting = s.eng.waiting := rfl

/-! ### `setBus` -/

@[simp] theorem setBus_cfg (b : BusState) : (setBus b s).cfg = s.cfg := rfl
@[simp] theorem setBus_host (b : BusState) : (setBus b s).host = s.host := rfl
@[simp] theorem setBus_line (b : BusState) : (setBus b s).line = s.line := rfl
@[simp] theorem setBus_srp (b : BusState) : (setBus b s).srp = s.srp := rfl
@[simp] theorem setBus_sim (b : BusState) : (setBus b s).sim = s.sim := rfl
@[simp] theorem setBus_tgt (b : BusState) : (setBus b s).tgt = s.tgt := rfl
@[simp] theorem setBus_eng_configured (b : BusState) : (setBus b s).eng.configured = s.eng.configured := rfl
@[simp] theorem setBus_eng_mode (b : BusState) : (setBus b s).eng.mode = s.eng.mode := rfl
@[simp] theorem setBus_eng_bus (b : BusState) : (setBus b s).eng.bus = b := rfl
@[simp] theorem setBus_eng_flg (b : BusState) : (setBus b s).eng.flg = s.eng.flg := rfl
@[simp] theorem setBus_eng_acked (b : BusState) : (setBus b s).eng.acked = s.eng.acked := rfl
@[simp] theorem setBus_eng_arbLost (b : BusState) : (setBus b s).eng.arbLost = s.eng.arbLost := rfl
@[simp] theorem setBus_eng_sr (b : BusState) : (setBus b s).eng.sr = s.eng.sr := rfl
@[simp] theorem setBus_eng_seq (b : BusState) : (setBus b s).eng.seq = s.eng.seq := rfl
@[simp] theorem setBus_eng_call (b : BusState) : (setBus b s).eng.call = s.eng.call := rfl
@[simp] theorem setBus_eng_buf (b : BusState) : (setBus b s).eng.buf = s.eng.buf := rfl
@[simp] theorem setBus_eng_trace (b : BusState) : (setBus b s).eng.trace = s.eng.trace := rfl
@[simp] theorem setBus_eng_irqSaved (b : BusState) : (setBus b s).eng.irqSaved = s.eng.irqSaved := rfl
@[simp] theorem setBus_eng_waiting (b : BusState) : (setBus b s).eng.waiting = s.eng.waiting := rfl

/-! ### `setAcked` -/

@[simp] theorem setAcked_cfg (a : Bool) : (setAcked a s).cfg = s.cfg := rfl
@[simp] theorem setAcked_host (a : Bool) : (setAcked a s).host = s.host := rfl
@[simp] theorem setAcked_line (a : Bool) : (setAcked a s).line = s.line := rfl
@[simp] theorem setAcked_srp (a : Bool) : (setAcked a s).srp = s.srp := rfl
@[simp] theorem setAcked_sim (a : Bool) : (setAcked a s).sim = s.sim := rfl
@[simp] theorem setAcked_tgt (a : Bool) : (setAcked a s).tgt = s.tgt := rfl
@[simp] theorem setAcked_eng_configured (a : Bool) : (setAcked a s).eng.configured = s.eng.configured := rfl
@[simp] theorem setAcked_eng_mode (a : Bool) : (setAcked a s).eng.mode = s.eng.mode := rfl
@[simp] theorem setAcked_eng_bus (a : Bool) : (setAcked a s).eng.bus = s.eng.bus := rfl
@[simp] theorem setAcked_eng_flg (a : Bool) : (setAcked a s).eng.flg = s.eng.flg := rfl
@[simp] theorem setAcked_eng_acked (a : Bool) : (setAcked a s).eng.acked = a := rfl
@[simp] theorem setAcked_eng_arbLost (a : Bool) : (setAcked a s).eng.arbLost = s.eng.arbLost := rfl
@[simp] theorem setAcked_eng_sr (a : Bool) : (setAcked a s).eng.sr = s.eng.sr := rfl
@[simp] theorem setAcked_eng_seq (a : Bool) : (setAcked a s).eng.seq = s.eng.seq := rfl
@[simp] theorem setAcked_eng_call (a : Bool) : (setAcked a s).eng.call = s.eng.call := rfl
@[simp] theorem setAcked_eng_buf (a : Bool) : (setAcked a s).eng.buf = s.eng.buf := rfl
@[simp] theorem setAcked_eng_trace (a : Bool) : (setAcked a s).eng.trace = s.eng.trace := rfl
@[simp] theorem setAcked_eng_irqSaved (a : Bool) : (setAcked a s).eng.irqSaved = s.eng.irqSaved := rfl
@[simp] theorem setAcked_eng_waiting (a : Bool) : (setAcked a s).eng.waiting = s.eng.waiting := rfl

/-! ### `setArbLost` -/

@[simp] theorem setArbLost_cfg (a : Bool) : (setArbLost a s).cfg = s.cfg := rfl
@[simp] theorem setArbLost_host (a : Bool) : (setArbLost a s).host = s.host := rfl
@[simp] theorem setArbLost_line (a : Bool) : (setArbLost a s).line = s.line := rfl
@[simp] theorem setArbLost_srp (a : Bool) : (setArbLost a s).srp = s.srp := rfl
@[simp] theorem setArbLost_sim (a : Bool) : (setArbLost a s).sim = s.sim := rfl
@[simp] theorem setArbLost_tgt (a : Bool) : (setArbLost a s).tgt = s.tgt := rfl
@[simp] theorem setArbLost_eng_configured (a : Bool) : (setArbLost a s).eng.configured = s.eng.configured := rfl
@[simp] theorem setArbLost_eng_mode (a : Bool) : (setArbLost a s).eng.mode = s.eng.mode := rfl
@[simp] theorem setArbLost_eng_bus (a : Bool) : (setArbLost a s).eng.bus = s.eng.bus := rfl
@[simp] theorem setArbLost_eng_flg (a : Bool) : (setArbLost a s).eng.flg = s.eng.flg := rfl
@[simp] theorem setArbLost_eng_acked (a : Bool) : (setArbLost a s).eng.acked = s.eng.acked := rfl
@[simp] theorem setArbLost_eng_arbLost (a : Bool) : (setArbLost a s).eng.arbLost = a := rfl
@[simp] theorem setArbLost_eng_sr (a : Bool) : (setArbLost a s).eng.sr = s.eng.sr := rfl
@[simp] theorem setArbLost_eng_seq (a : Bool) : (setArbLost a s).eng.seq = s.eng.seq := rfl
@[simp] theorem setArbLost_eng_call (a : Bool) : (setArbLost a s).eng.call = s.eng.call := rfl
@[simp] theorem setArbLost_eng_buf (a : Bool) : (setArbLost a s).eng.buf = s.eng.buf := rfl
@[simp] theorem setArbLost_eng_trace (a : Bool) : (setArbLost a s).eng.trace = s.eng.trace := rfl
@[simp] theorem setArbLost_eng_irqSaved (a : Bool) : (setArbLost a s).eng.irqSaved = s.eng.irqSaved := rfl
@[simp] theorem setArbLost_eng_waiting (a : Bool) : (setArbLost a s).eng.waiting = s.eng.waiting := rfl

/-! ### `setSr` -/

@[simp] theorem setSr_cfg (b : Byte) : (setSr b s).cfg = s.cfg := rfl
@[simp] theorem setSr_host (b : Byte) : (setSr b s).host = s.host := rfl
@[simp] theorem setSr_line (b : Byte) : (setSr b s).line = s.line := rfl
@[simp] theorem setSr_srp (b : Byte) : (setSr b s).srp = s.srp := rfl
@[simp] theorem setSr_sim (b : Byte) : (setSr b s).sim = s.sim := rfl
@[simp] theorem setSr_tgt (b : Byte) : (setSr b s).tgt = s.tgt := rfl
@[simp] theorem setSr_eng_configured (b : Byte) : (setSr b s).eng.configured = s.eng.configured := rfl
@[simp] theorem setSr_eng_mode (b : Byte) : (setSr b s).eng.mode = s.eng.mode := rfl
@[simp] theorem setSr_eng_bus (b : Byte) : (setSr b s).eng.bus = s.eng.bus := rfl
@[simp] theorem setSr_eng_flg (b : Byte) : (setSr b s).eng.flg = s.eng.flg := rfl
@[simp] theorem setSr_eng_acked (b : Byte) : (setSr b s).eng.acked = s.eng.acked := rfl
@[simp] theorem setSr_eng_arbLost (b : Byte) : (setSr b s).eng.arbLost = s.eng.arbLost := rfl
@[simp] theorem setSr_eng_sr (b : Byte) : (setSr b s).eng.sr = b := rfl
@[simp] theorem setSr_eng_seq (b : Byte) : (setSr b s).eng.seq = s.eng.seq := rfl
@[simp] theorem setSr_eng_call (b : Byte) : (setSr b s).eng.call = s.eng.call := rfl
@[simp] theorem setSr_eng_buf (b : Byte) : (setSr b s).eng.buf = s.eng.buf := rfl
@[simp] theorem setSr_eng_trace (b : Byte) : (setSr b s).eng.trace = s.eng.trace := rfl
@[simp] theorem setSr_eng_irqSaved (b : Byte) : (setSr b s).eng.irqSaved = s.eng.irqSaved := rfl
@[simp] theorem setSr_eng_waiting (b : Byte) : (setSr b s).eng.waiting = s.eng.waiting := rfl

/-! ### `setFlg` -/

@[simp] theorem setFlg_cfg (f : BitVec 3) : (setFlg f s).cfg = s.cfg := rfl
@[simp] theorem setFlg_host (f : BitVec 3) : (setFlg f s).host = s.host := rfl
@[simp] theorem setFlg_line (f : BitVec 3) : (setFlg f s).line = s.line := rfl
@[simp] theorem setFlg_srp (f : BitVec 3) : (setFlg f s).srp = s.srp := rfl
@[simp] theorem setFlg_sim (f : BitVec 3) : (setFlg f s).sim = s.sim := rfl
@[simp] theorem setFlg_tgt (f : BitVec 3) : (setFlg f s).tgt = s.tgt := rfl
@[simp] theorem setFlg_eng_configured (f : BitVec 3) : (setFlg f s).eng.configured = s.eng.configured := rfl
@[simp] theorem setFlg_eng_mode (f : BitVec 3) : (setFlg f s).eng.mode = s.eng.mode := rfl
@[simp] theorem setFlg_eng_bus (f : BitVec 3) : (setFlg f s).eng.bus = s.eng.bus := rfl
@[simp] theorem setFlg_eng_flg (f : BitVec 3) : (setFlg f s).eng.flg = f := rfl
@[simp] theorem setFlg_eng_acked (f : BitVec 3) : (setFlg f s).eng.acked = s.eng.acked := rfl
@[simp] theorem setFlg_eng_arbLost (f : BitVec 3) : (setFlg f s).eng.arbLost = s.eng.arbLost := rfl
@[simp] theorem setFlg_eng_sr (f : BitVec 3) : (setFlg f s).eng.sr = s.eng.sr := rfl
@[simp] theorem setFlg_eng_seq (f : BitVec 3) : (setFlg f s).eng.seq = s.eng.seq := rfl
@[simp] theorem setFlg_eng_call (f : BitVec 3) : (setFlg f s).eng.call = s.eng.call := rfl
@[simp] theorem setFlg_eng_buf (f : BitVec 3) : (setFlg f s).eng.buf = s.eng.buf := rfl
@[simp] theorem setFlg_eng_trace (f : BitVec 3) : (setFlg f s).eng.trace = s.eng.trace := rfl
@[simp] theorem setFlg_eng_irqSaved (f : BitVec 3) : (setFlg f s).eng.irqSaved = s.eng.irqSaved := rfl
@[simp] theorem setFlg_eng_waiting (f : BitVec 3) : (setFlg f s).eng.waiting = s.eng.waiting := rfl

/-! ### `setPhase` -/

@[simp] theorem setPhase_cfg (p : Phase) : (setPhase p s).cfg = s.cfg := rfl
@[simp] theorem setPhase_host (p : Phase) : (setPhase p s).host = s.host := rfl
@[simp] theorem setPhase_line (p : Phase) : (setPhase p s).line = s.line := rfl
@[simp] theorem setPhase_srp (p : Phase) : (setPhase p s).srp = s.srp := rfl
@[simp] theorem setPhase_sim (p : Phase) : (setPhase p s).sim = s.sim := rfl
@[simp] theorem setPhase_tgt (p : Phase) : (setPhase p s).tgt = s.tgt := rfl
@[simp] theorem setPhase_eng_configured (p : Phase) : (setPhase p s).eng.configured = s.eng.configured := rfl
@[simp] theorem setPhase_eng_mode (p : Phase) : (setPhase p s).eng.mode = s.eng.mode := rfl
@[simp] theorem setPhase_eng_bus (p : Phase) : (setPhase p s).eng.bus = s.eng.bus := rfl
@[simp] theorem setPhase_eng_flg (p : Phase) : (setPhase p s).eng.flg = s.eng.flg := rfl
@[simp] theorem setPhase_eng_acked (p : Phase) : (setPhase p s).eng.acked = s.eng.acked := rfl
@[simp] theorem setPhase_eng_arbLost (p : Phase) : (setPhase p s).eng.arbLost = s.eng.arbLost := rfl
@[simp] theorem setPhase_eng_sr (p : Phase) : (setPhase p s).eng.sr = s.eng.sr := rfl
@[simp] theorem setPhase_eng_seq (p : Phase) : (setPhase p s).eng.seq = { s.eng.seq with phase := p } := rfl
@[simp] theorem setPhase_eng_call (p : Phase) : (setPhase p s).eng.call = s.eng.call := rfl
@[simp] theorem setPhase_eng_buf (p : Phase) : (setPhase p s).eng.buf = s.eng.buf := rfl
@[simp] theorem setPhase_eng_trace (p : Phase) : (setPhase p s).eng.trace = s.eng.trace := rfl
@[simp] theorem setPhase_eng_irqSaved (p : Phase) : (setPhase p s).eng.irqSaved = s.eng.irqSaved := rfl
@[simp] theorem setPhase_eng_waiting (p : Phase) : (setPhase p s).eng.waiting = s.eng.waiting := rfl

/-! ### `setSlot` -/

@[simp] theorem setSlot_cfg (k : Slot) : (setSlot k s).cfg = s.cfg := rfl
@[simp] theorem setSlot_host (k : Slot) : (setSlot k s).host = s.host := rfl
@[simp] theorem setSlot_line (k : Slot) : (setSlot k s).line = s.line := rfl
@[simp] theorem setSlot_srp (k : Slot) : (setSlot k s).srp = s.srp := rfl
@[simp] theorem setSlot_sim (k : Slot) : (setSlot k s).sim = s.sim := rfl
@[simp] theorem setSlot_tgt (k : Slot) : (setSlot k s).tgt = s.tgt := rfl
@[simp] theorem setSlot_eng_configured (k : Slot) : (setSlot k s).eng.configured = s.eng.configured := rfl
@[simp] theorem setSlot_eng_mode (k : Slot) : (setSlot k s).eng.mode = s.eng.mode := rfl
@[simp] theorem setSlot_eng_bus (k : Slot) : (setSlot k s).eng.bus = s.eng.bus := rfl
@[simp] theorem setSlot_eng_flg (k : Slot) : (setSlot k s).eng.flg = s.eng.flg := rfl
@[simp] theorem setSlot_eng_acked (k : Slot) : (setSlot k s).eng.acked = s.eng.acked := rfl
@[simp] theorem setSlot_eng_arbLost (k : Slot) : (setSlot k s).eng.arbLost = s.eng.arbLost := rfl
@[simp] theorem setSlot_eng_sr (k : Slot) : (setSlot k s).eng.sr = s.eng.sr := rfl
@[simp] theorem setSlot_eng_seq (k : Slot) : (setSlot k s).eng.seq = { s.eng.seq with k := k } := rfl
@[simp] theorem setSlot_eng_call (k : Slot) : (setSlot k s).eng.call = s.eng.call := rfl
@[simp] theorem setSlot_eng_buf (k : Slot) : (setSlot k s).eng.buf = s.eng.buf := rfl
@[simp] theorem setSlot_eng_trace (k : Slot) : (setSlot k s).eng.trace = s.eng.trace := rfl
@[simp] theorem setSlot_eng_irqSaved (k : Slot) : (setSlot k s).eng.irqSaved = s.eng.irqSaved := rfl
@[simp] theorem setSlot_eng_waiting (k : Slot) : (setSlot k s).eng.waiting = s.eng.waiting := rfl

/-! ### `nextByte` -/

@[simp] theorem nextByte_cfg : (nextByte s).cfg = s.cfg := rfl
@[simp] theorem nextByte_host : (nextByte s).host = s.host := rfl
@[simp] theorem nextByte_line : (nextByte s).line = s.line := rfl
@[simp] theorem nextByte_srp : (nextByte s).srp = s.srp := rfl
@[simp] theorem nextByte_sim : (nextByte s).sim = s.sim := rfl
@[simp] theorem nextByte_tgt : (nextByte s).tgt = s.tgt := rfl
@[simp] theorem nextByte_eng_configured : (nextByte s).eng.configured = s.eng.configured := rfl
@[simp] theorem nextByte_eng_mode : (nextByte s).eng.mode = s.eng.mode := rfl
@[simp] theorem nextByte_eng_bus : (nextByte s).eng.bus = s.eng.bus := rfl
@[simp] theorem nextByte_eng_flg : (nextByte s).eng.flg = s.eng.flg := rfl
@[simp] theorem nextByte_eng_acked : (nextByte s).eng.acked = s.eng.acked := rfl
@[simp] theorem nextByte_eng_arbLost : (nextByte s).eng.arbLost = s.eng.arbLost := rfl
@[simp] theorem nextByte_eng_sr : (nextByte s).eng.sr = s.eng.sr := rfl
@[simp] theorem nextByte_eng_seq : (nextByte s).eng.seq = { s.eng.seq with j := s.eng.seq.j + 1 } := rfl
@[simp] theorem nextByte_eng_call : (nextByte s).eng.call = s.eng.call := rfl
@[simp] theorem nextByte_eng_buf : (nextByte s).eng.buf = s.eng.buf := rfl
@[simp] theorem nextByte_eng_trace : (nextByte s).eng.trace = s.eng.trace := rfl
@[simp] theorem nextByte_eng_irqSaved : (nextByte s).eng.irqSaved = s.eng.irqSaved := rfl
@[simp] theorem nextByte_eng_waiting : (nextByte s).eng.waiting = s.eng.waiting := rfl

/-! ### `setResult` -/

@[simp] theorem setResult_cfg (r : Ret) : (setResult r s).cfg = s.cfg := rfl
@[simp] theorem setResult_eng (r : Ret) : (setResult r s).eng = s.eng := rfl
@[simp] theorem setResult_line (r : Ret) : (setResult r s).line = s.line := rfl
@[simp] theorem setResult_srp (r : Ret) : (setResult r s).srp = s.srp := rfl
@[simp] theorem setResult_sim (r : Ret) : (setResult r s).sim = s.sim := rfl
@[simp] theorem setResult_tgt (r : Ret) : (setResult r s).tgt = s.tgt := rfl
@[simp] theorem setResult_host_input (r : Ret) : (setResult r s).host.input = s.host.input := rfl
@[simp] theorem setResult_host_irqEn (r : Ret) : (setResult r s).host.irqEn = s.host.irqEn := rfl
@[simp] theorem setResult_host_result (r : Ret) : (setResult r s).host.result = r := rfl
@[simp] theorem setResult_host_past (r : Ret) : (setResult r s).host.past = s.host.past := rfl
@[simp] theorem setResult_host_race (r : Ret) : (setResult r s).host.race = s.host.race := rfl

/-! ### `srpCommand` -/

@[simp] theorem srpCommand_cfg (c : SrpCmd) : (srpCommand c s).cfg = s.cfg := rfl
@[simp] theorem srpCommand_host (c : SrpCmd) : (srpCommand c s).host = s.host := rfl
@[simp] theorem srpCommand_eng (c : SrpCmd) : (srpCommand c s).eng = s.eng := rfl
@[simp] theorem srpCommand_line (c : SrpCmd) : (srpCommand c s).line = s.line := rfl
@[simp] theorem srpCommand_sim (c : SrpCmd) : (srpCommand c s).sim = s.sim := rfl
@[simp] theorem srpCommand_tgt (c : SrpCmd) : (srpCommand c s).tgt = s.tgt := rfl
@[simp] theorem srpCommand_srp_baud (c : SrpCmd) : (srpCommand c s).srp.baud = s.srp.baud := rfl
@[simp] theorem srpCommand_srp_enable (c : SrpCmd) : (srpCommand c s).srp.enable = s.srp.enable := rfl
@[simp] theorem srpCommand_srp_data (c : SrpCmd) : (srpCommand c s).srp.data = s.srp.data := rfl
@[simp] theorem srpCommand_srp_done (c : SrpCmd) : (srpCommand c s).srp.done = s.srp.done := rfl
@[simp] theorem srpCommand_srp_rxAck (c : SrpCmd) : (srpCommand c s).srp.rxAck = s.srp.rxAck := rfl
@[simp] theorem srpCommand_srp_arbLost (c : SrpCmd) : (srpCommand c s).srp.arbLost = s.srp.arbLost := rfl
@[simp] theorem srpCommand_srp_lctlOpen (c : SrpCmd) : (srpCommand c s).srp.lctlOpen = s.srp.lctlOpen := rfl
@[simp] theorem srpCommand_srp_ackNext (c : SrpCmd) : (srpCommand c s).srp.ackNext = s.srp.ackNext := rfl
@[simp] theorem srpCommand_srp_afterStart (c : SrpCmd) : (srpCommand c s).srp.afterStart = s.srp.afterStart := rfl
@[simp] theorem srpCommand_srp_cmds (c : SrpCmd) : (srpCommand c s).srp.cmds = s.srp.cmds ++ [c] := rfl
@[simp] theorem srpCommand_srp_env (c : SrpCmd) : (srpCommand c s).srp.env = s.srp.env := rfl

end Sys2Proof.Machine
end

