-- ==== Sys2Proof/Laws/Lines.lean ====
section
/-! SUPPORT. The lines: what letting an instant pass can change, and what the two line writes and the wire primitives do
where nothing outside holds the clock low (spec R131 to R141). -/

namespace Sys2Proof.Machine

open Sys2Proof

/-! ## One instant -/

/-- What an instant leaves alone: the controller's own side of the lines. -/
structure SameDrive (l m : Line) : Prop where
  sclOut : m.sclOut = l.sclOut
  sdaOut : m.sdaOut = l.sdaOut
  drive : m.drive = l.drive
  tHalf : m.tHalf = l.tHalf
  tQuarter : m.tQuarter = l.tQuarter

theorem SameDrive.refl (l : Line) : SameDrive l l := ⟨rfl, rfl, rfl, rfl, rfl⟩

theorem SameDrive.trans {a b c : Line} (h : SameDrive a b) (g : SameDrive b c) : SameDrive a c :=
  ⟨g.1.trans h.1, g.2.trans h.2, g.3.trans h.3, g.4.trans h.4, g.5.trans h.5⟩

/-- Recording changes nothing but the line trace. -/
theorem Line.record_eq (cfg : Params) (l : Line) :
    Line.record cfg l = { l with lines := (Line.record cfg l).lines } := by
  unfold Line.record
  split <;> rfl

theorem Line.record_drive (cfg : Params) (l : Line) : SameDrive l (Line.record cfg l) := by
  rw [Line.record_eq]
  exact ⟨rfl, rfl, rfl, rfl, rfl⟩

@[simp] theorem Line.record_ext (cfg : Params) (l : Line) : (Line.record cfg l).ext = l.ext := by
  rw [Line.record_eq]

@[simp] theorem Line.record_env (cfg : Params) (l : Line) : (Line.record cfg l).env = l.env := by
  rw [Line.record_eq]

@[simp] theorem Line.record_sclOut (cfg : Params) (l : Line) : (Line.record cfg l).sclOut = l.sclOut := by
  rw [Line.record_eq]

@[simp] theorem Line.record_sdaOut (cfg : Params) (l : Line) : (Line.record cfg l).sdaOut = l.sdaOut := by
  rw [Line.record_eq]

@[simp] theorem Line.record_drive' (cfg : Params) (l : Line) : (Line.record cfg l).drive = l.drive := by
  rw [Line.record_eq]

@[simp] theorem Line.record_tHalf (cfg : Params) (l : Line) : (Line.record cfg l).tHalf = l.tHalf := by
  rw [Line.record_eq]

@[simp] theorem Line.record_tQuarter (cfg : Params) (l : Line) : (Line.record cfg l).tQuarter = l.tQuarter := by
  rw [Line.record_eq]

/-- The levels do not depend on what is recorded. -/
@[simp] theorem Line.record_scl (cfg : Params) (l : Line) : (Line.record cfg l).scl cfg = l.scl cfg := by
  rw [Line.record_eq]
  rfl

@[simp] theorem Line.record_released (cfg : Params) (l : Line) : (Line.record cfg l).released cfg = l.released cfg := by
  rw [Line.record_eq]
  rfl

/-- The outside's moves end in its last one; the script and the controller's side stay. -/
theorem Line.play_spec (cfg : Params) (es : List Ext) (l : Line) :
    SameDrive l (Line.play cfg es l) ∧ (Line.play cfg es l).env = l.env ∧
      (Line.play cfg es l).ext = es.getLast?.getD l.ext := by
  induction es generalizing l with
  | nil => exact ⟨SameDrive.refl _, rfl, rfl⟩
  | cons e es ih =>
    obtain ⟨h1, h2, h3⟩ := ih (Line.record cfg { l with ext := e })
    have h0 := Line.record_drive cfg { l with ext := e }
    refine ⟨⟨h1.1.trans h0.1, h1.2.trans h0.2, h1.3.trans h0.3, h1.4.trans h0.4, h1.5.trans h0.5⟩, ?_, ?_⟩
    · rw [Line.play, h2]; simp
    · rw [Line.play, h3, Line.record_ext]
      cases es <;> simp [List.getLast?_cons]

/-- All that letting an instant pass can do: the script gives up its first entry and the outside's drive is that
entry's last, if it has one. -/
theorem Line.move_spec (cfg : Params) (l : Line) :
    SameDrive l (Line.move cfg l) ∧ (Line.move cfg l).env = l.env.tail ∧
      (Line.move cfg l).ext = (l.env.headD []).getLast?.getD l.ext := by
  unfold Line.move
  split
  · next h => exact ⟨SameDrive.refl _, by simp [h], by simp [h]⟩
  · next es rest h =>
    obtain ⟨h1, h2, h3⟩ := Line.play_spec cfg es { l with env := rest }
    exact ⟨⟨h1.1, h1.2, h1.3, h1.4, h1.5⟩, by rw [h2, h]; rfl, by rw [h3, h]; rfl⟩

/-- With the script over an instant changes nothing. -/
theorem Line.move_still (cfg : Params) {l : Line} (h : l.env = []) : Line.move cfg l = l := by
  unfold Line.move
  rw [h]

@[simp] theorem Line.move_sclOut (cfg : Params) (l : Line) : (Line.move cfg l).sclOut = l.sclOut :=
  (Line.move_spec cfg l).1.1

@[simp] theorem Line.move_sdaOut (cfg : Params) (l : Line) : (Line.move cfg l).sdaOut = l.sdaOut :=
  (Line.move_spec cfg l).1.2

@[simp] theorem Line.move_drive (cfg : Params) (l : Line) : (Line.move cfg l).drive = l.drive :=
  (Line.move_spec cfg l).1.3

@[simp] theorem Line.move_tHalf (cfg : Params) (l : Line) : (Line.move cfg l).tHalf = l.tHalf :=
  (Line.move_spec cfg l).1.4

@[simp] theorem Line.move_tQuarter (cfg : Params) (l : Line) : (Line.move cfg l).tQuarter = l.tQuarter :=
  (Line.move_spec cfg l).1.5

section
variable (cfg : Params) (v : Bool) (l : Line)

@[simp] theorem Line.driveData_sdaOut : (Line.driveData cfg v l).sdaOut = v := by simp [Line.driveData]
@[simp] theorem Line.driveData_sclOut : (Line.driveData cfg v l).sclOut = l.sclOut := by simp [Line.driveData]
@[simp] theorem Line.driveData_drive : (Line.driveData cfg v l).drive = l.drive := by simp [Line.driveData]
@[simp] theorem Line.driveData_tHalf : (Line.driveData cfg v l).tHalf = l.tHalf := by simp [Line.driveData]
@[simp] theorem Line.driveData_tQuarter : (Line.driveData cfg v l).tQuarter = l.tQuarter := by simp [Line.driveData]
@[simp] theorem Line.driveData_ext : (Line.driveData cfg v l).ext = l.ext := by simp [Line.driveData]
@[simp] theorem Line.driveData_env : (Line.driveData cfg v l).env = l.env := by simp [Line.driveData]
@[simp] theorem Line.driveClock_sdaOut : (Line.driveClock cfg v l).sdaOut = l.sdaOut := by simp [Line.driveClock]
@[simp] theorem Line.driveClock_sclOut : (Line.driveClock cfg v l).sclOut = v := by simp [Line.driveClock]
@[simp] theorem Line.driveClock_drive : (Line.driveClock cfg v l).drive = l.drive := by simp [Line.driveClock]
@[simp] theorem Line.driveClock_tHalf : (Line.driveClock cfg v l).tHalf = l.tHalf := by simp [Line.driveClock]
@[simp] theorem Line.driveClock_tQuarter : (Line.driveClock cfg v l).tQuarter = l.tQuarter := by simp [Line.driveClock]
@[simp] theorem Line.driveClock_ext : (Line.driveClock cfg v l).ext = l.ext := by simp [Line.driveClock]
@[simp] theorem Line.driveClock_env : (Line.driveClock cfg v l).env = l.env := by simp [Line.driveClock]

end

/-- All an instant can end in: it has passed, or the run has no meaning. -/
theorem instant_cases (s : State) :
    (s.line.foreign = true ∧ instant s = .refuse .secondController) ∨
      (s.line.foreign = false ∧ s.line.drive = .pushPull ∧ s.line.sclOut = true ∧
        instant s = .refuse .pushPullContention) ∨
      (s.line.foreign = false ∧ instant s = .done () { s with line := Line.move s.cfg s.line }) := by
  unfold instant
  cases hf : s.line.foreign with
  | true => exact .inl ⟨rfl, rfl⟩
  | false =>
    refine .inr ?_
    cases hc : (s.line.ext :: s.line.env.headD []).any s.line.fought with
    | false => exact .inr ⟨rfl, by simp⟩
    | true =>
      obtain ⟨e, -, he⟩ := List.any_eq_true.1 hc
      simp only [Line.fought, Bool.and_eq_true, decide_eq_true_eq] at he
      exact .inl ⟨rfl, he.1.1, he.1.2, by simp⟩

/-! ## Nothing holds the clock low -/

/-- `ClockFree` as a property of the lines. -/
def Line.free (l : Line) : Prop := l.ext.free ∧ ∀ es ∈ l.env, ∀ e ∈ es, e.free

theorem Line.move_free (cfg : Params) {l : Line} (h : l.free) : (Line.move cfg l).free := by
  obtain ⟨-, h2, h3⟩ := Line.move_spec cfg l
  obtain ⟨a, c⟩ := h
  have key : (Line.move cfg l).ext.free := by
    rw [h3]
    cases henv : l.env with
    | nil => simpa using a
    | cons es rest =>
      cases hl : es.getLast? with
      | none => simpa [hl] using a
      | some e =>
        have : e ∈ es := List.mem_of_getLast? hl
        simpa [hl] using c es (by rw [henv]; exact List.mem_cons_self) e this
  refine ⟨key, fun es hes => c es ?_⟩
  rw [h2] at hes
  exact List.mem_of_mem_tail hes

theorem Line.foreign_of_free {l : Line} (h : l.free) : l.foreign = false := by
  simp only [Line.foreign, List.any_eq_false, List.mem_cons, List.mem_flatten]
  rintro e (rfl | ⟨es, hes, he⟩)
  · simp [h.1.2.2]
  · simp [(h.2 es hes e he).2.2]

theorem Line.unfought {l : Line} {e : Ext} (h : e.free) : l.fought e = false := by simp [Line.fought, h.1]

/-- Where nothing holds the clock low an instant passes. -/
theorem instant_free {s : State} (h : s.line.free) :
    instant s = .done () { s with line := Line.move s.cfg s.line } := by
  have hn : (s.line.ext :: s.line.env.headD []).any s.line.fought = false := by
    simp only [List.any_eq_false, List.mem_cons]
    rintro e (rfl | he)
    · simp [Line.unfought h.1]
    · cases hv : s.line.env with
      | nil => rw [hv] at he; cases he
      | cons es rest =>
        rw [hv] at he
        simp [Line.unfought (h.2 es (by rw [hv]; exact List.mem_cons_self) e he)]
  simp only [instant, Line.foreign_of_free h, hn]
  rfl

/-- A released clock that nothing holds reads what is driven, in both disciplines. -/
theorem Line.scl_of_free (cfg : Params) {l : Line} (h : l.free) : l.scl cfg = l.sclOut := by
  obtain ⟨⟨a, b, -⟩, -⟩ := h
  unfold Line.scl Line.released
  cases l.drive <;> simp [a, b]

/-- The first poll sees a clock that nothing holds. -/
theorem Line.poll_free (cfg : Params) {l : Line} (h : l.free) (ho : l.sclOut = true) :
    Line.poll cfg l.env l = (Line.move cfg l, true) := by
  have hs := Line.scl_of_free cfg (Line.move_free cfg h)
  rw [Line.move_sclOut, ho] at hs
  unfold Line.move at hs ⊢
  cases henv : l.env with
  | nil =>
    rw [henv] at hs
    simp only [Line.poll, hs]
    rw [← henv]
  | cons es rest =>
    rw [henv] at hs
    simp only [Line.poll, hs]
    rfl

/-- The lines after SDA is driven, an instant before it. -/
def Line.da (cfg : Params) (v : Bool) (l : Line) : Line := Line.driveData cfg v (Line.move cfg l)

/-- The lines after SCL is driven, an instant before it and one more before the poll that finds a released clock high. -/
def Line.ck (cfg : Params) (v : Bool) (l : Line) : Line :=
  if v && decide (l.drive = .openDrain) then Line.move cfg (Line.driveClock cfg v (Line.move cfg l))
  else Line.driveClock cfg v (Line.move cfg l)

@[simp] theorem Line.da_sdaOut (cfg : Params) (v : Bool) (l : Line) : (l.da cfg v).sdaOut = v := by simp [Line.da]
@[simp] theorem Line.da_sclOut (cfg : Params) (v : Bool) (l : Line) : (l.da cfg v).sclOut = l.sclOut := by simp [Line.da]
@[simp] theorem Line.da_drive (cfg : Params) (v : Bool) (l : Line) : (l.da cfg v).drive = l.drive := by simp [Line.da]
@[simp] theorem Line.da_tHalf (cfg : Params) (v : Bool) (l : Line) : (l.da cfg v).tHalf = l.tHalf := by simp [Line.da]
@[simp] theorem Line.da_tQuarter (cfg : Params) (v : Bool) (l : Line) : (l.da cfg v).tQuarter = l.tQuarter := by
  simp [Line.da]
@[simp] theorem Line.ck_sdaOut (cfg : Params) (v : Bool) (l : Line) : (l.ck cfg v).sdaOut = l.sdaOut := by
  unfold Line.ck; split <;> simp
@[simp] theorem Line.ck_sclOut (cfg : Params) (v : Bool) (l : Line) : (l.ck cfg v).sclOut = v := by
  unfold Line.ck; split <;> simp
@[simp] theorem Line.ck_drive (cfg : Params) (v : Bool) (l : Line) : (l.ck cfg v).drive = l.drive := by
  unfold Line.ck; split <;> simp
@[simp] theorem Line.ck_tHalf (cfg : Params) (v : Bool) (l : Line) : (l.ck cfg v).tHalf = l.tHalf := by
  unfold Line.ck; split <;> simp
@[simp] theorem Line.ck_tQuarter (cfg : Params) (v : Bool) (l : Line) : (l.ck cfg v).tQuarter = l.tQuarter := by
  unfold Line.ck; split <;> simp

theorem Line.driveData_free (cfg : Params) (v : Bool) {l : Line} (h : l.free) : (Line.driveData cfg v l).free := by
  simpa [Line.free] using h

theorem Line.driveClock_free (cfg : Params) (v : Bool) {l : Line} (h : l.free) : (Line.driveClock cfg v l).free := by
  simpa [Line.free] using h

theorem Line.da_free (cfg : Params) (v : Bool) {l : Line} (h : l.free) : (l.da cfg v).free :=
  Line.driveData_free cfg v (Line.move_free cfg h)

theorem Line.ck_free (cfg : Params) (v : Bool) {l : Line} (h : l.free) : (l.ck cfg v).free := by
  have := Line.driveClock_free cfg v (Line.move_free cfg h)
  unfold Line.ck
  split
  · exact Line.move_free cfg this
  · exact this

/-- `set_data(v)` where nothing holds the clock low. -/
theorem setData_free {s : State} (v : Bool) (h : s.line.free) :
    setData v s = .done () { s with line := s.line.da s.cfg v } := by
  rw [setData, instant_free h]
  rfl

/-- `set_clock(v)` where nothing holds the clock low: no wait. -/
theorem setClock_free {s : State} (v : Bool) (h : s.line.free) :
    setClock v s = .done () { s with line := s.line.ck s.cfg v } := by
  have hf := Line.driveClock_free s.cfg v (Line.move_free s.cfg h)
  rw [setClock, instant_free h]
  simp only [Run.andThen_done, Line.unfought hf.1, Line.ck, Line.driveClock_drive, Line.move_drive]
  cases hv : (v && decide (s.line.drive = .openDrain)) with
  | false => rfl
  | true =>
    simp only [Bool.and_eq_true] at hv
    rw [Line.poll_free s.cfg hf (by simpa using hv.1)]
    rfl

/-! ## The primitives where nothing holds the clock low, as functions of the lines -/

/-- The state with other lines. -/
def withLine (l : Line) (s : State) : State := { s with line := l }

@[simp] theorem withLine_cfg (l : Line) (s : State) : (withLine l s).cfg = s.cfg := rfl
@[simp] theorem withLine_host (l : Line) (s : State) : (withLine l s).host = s.host := rfl
@[simp] theorem withLine_eng (l : Line) (s : State) : (withLine l s).eng = s.eng := rfl
@[simp] theorem withLine_line (l : Line) (s : State) : (withLine l s).line = l := rfl
@[simp] theorem withLine_srp (l : Line) (s : State) : (withLine l s).srp = s.srp := rfl
@[simp] theorem withLine_sim (l : Line) (s : State) : (withLine l s).sim = s.sim := rfl
@[simp] theorem withLine_tgt (l : Line) (s : State) : (withLine l s).tgt = s.tgt := rfl
@[simp] theorem withLine_withLine (l m : Line) (s : State) : withLine l (withLine m s) = withLine l s := rfl

theorem setData_run {s : State} (v : Bool) (h : s.line.free) :
    setData v s = .done () (withLine (s.line.da s.cfg v) s) := setData_free v h

theorem setClock_run {s : State} (v : Bool) (h : s.line.free) :
    setClock v s = .done () (withLine (s.line.ck s.cfg v) s) := setClock_free v h

theorem readData_run {s : State} (h : s.line.free) :
    readData s = .done (Line.move s.cfg s.line).sda (withLine (Line.move s.cfg s.line) s) := by
  rw [readData, instant_free h]
  rfl

theorem readClock_run {s : State} (h : s.line.free) :
    readClock s = .done ((Line.move s.cfg s.line).scl s.cfg) (withLine (Line.move s.cfg s.line) s) := by
  rw [readClock, instant_free h]
  rfl

theorem setData_at {l : Line} {s : State} (v : Bool) (h : l.free) :
    setData v (withLine l s) = .done () (withLine (l.da s.cfg v) s) := setData_free (s := withLine l s) v h

theorem setClock_at {l : Line} {s : State} (v : Bool) (h : l.free) :
    setClock v (withLine l s) = .done () (withLine (l.ck s.cfg v) s) := setClock_free (s := withLine l s) v h

theorem readData_at {l : Line} {s : State} (h : l.free) :
    readData (withLine l s) = .done (Line.move s.cfg l).sda (withLine (Line.move s.cfg l) s) :=
  readData_run (s := withLine l s) h

@[simp] theorem delayQ_run (s : State) : delayQ s = .done () s := rfl
@[simp] theorem delayH_run (s : State) : delayH s = .done () s := rfl

/-- `start()`. -/
theorem wireStart_run {s : State} (h : s.line.free) :
    wireStart s =
      .done () (emit .start (setBus .midTransaction (withLine ((s.line.da s.cfg false).ck s.cfg false) s))) := by
  have h1 := Line.da_free s.cfg false h
  simp [wireStart, setData_run, setClock_at, h, h1]

/-- `rstart()`. -/
theorem wireRstart_run {s : State} (h : s.line.free) :
    wireRstart s =
      .done () (setBus .midTransaction (emit (restartSym s.eng.bus) (withLine
        ((((s.line.da s.cfg true).ck s.cfg true).da s.cfg false).ck s.cfg false) s))) := by
  have h1 := Line.da_free s.cfg true h
  have h2 := Line.ck_free s.cfg true h1
  have h3 := Line.da_free s.cfg false h2
  simp [wireRstart, setData_run, setData_at, setClock_at, h, h1, h2, h3]

/-- `stop()`. -/
theorem wireStop_run {s : State} (h : s.line.free) :
    wireStop s =
      .done () (emit .stop (setBus .idle (withLine
        ((((s.line.ck s.cfg false).da s.cfg false).ck s.cfg true).da s.cfg true) s))) := by
  have h1 := Line.ck_free s.cfg false h
  have h2 := Line.da_free s.cfg false h1
  have h3 := Line.ck_free s.cfg true h2
  simp [wireStop, setClock_run, setData_at, setClock_at, h, h1, h2, h3]

/-- The lines after one bit. -/
def Line.bit (cfg : Params) (b : Bool) (l : Line) : Line := ((l.da cfg b).ck cfg true).ck cfg false

theorem Line.bit_free (cfg : Params) (b : Bool) {l : Line} (h : l.free) : (l.bit cfg b).free :=
  Line.ck_free _ _ (Line.ck_free _ _ (Line.da_free _ _ h))

@[simp] theorem Line.bit_sdaOut (cfg : Params) (b : Bool) (l : Line) : (l.bit cfg b).sdaOut = b := by simp [Line.bit]
@[simp] theorem Line.bit_sclOut (cfg : Params) (b : Bool) (l : Line) : (l.bit cfg b).sclOut = false := by simp [Line.bit]
@[simp] theorem Line.bit_drive (cfg : Params) (b : Bool) (l : Line) : (l.bit cfg b).drive = l.drive := by simp [Line.bit]
@[simp] theorem Line.bit_tHalf (cfg : Params) (b : Bool) (l : Line) : (l.bit cfg b).tHalf = l.tHalf := by simp [Line.bit]
@[simp] theorem Line.bit_tQuarter (cfg : Params) (b : Bool) (l : Line) : (l.bit cfg b).tQuarter = l.tQuarter := by
  simp [Line.bit]

/-- The lines when one bit is sampled: SDA released, SCL high, an instant before the sample. -/
def Line.top (cfg : Params) (l : Line) : Line := Line.move cfg ((l.da cfg true).ck cfg true)

/-- What is read of one bit. -/
def Line.sample (cfg : Params) (l : Line) : Bool := (l.top cfg).sda

/-- The lines after one bit is read. -/
def Line.readbit (cfg : Params) (l : Line) : Line := (l.top cfg).ck cfg false

theorem Line.readbit_free (cfg : Params) {l : Line} (h : l.free) : (l.readbit cfg).free :=
  Line.ck_free _ _ (Line.move_free _ (Line.ck_free _ _ (Line.da_free _ _ h)))

@[simp] theorem Line.readbit_sdaOut (cfg : Params) (l : Line) : (l.readbit cfg).sdaOut = true := by
  simp [Line.readbit, Line.top]
@[simp] theorem Line.readbit_sclOut (cfg : Params) (l : Line) : (l.readbit cfg).sclOut = false := by simp [Line.readbit]
@[simp] theorem Line.readbit_drive (cfg : Params) (l : Line) : (l.readbit cfg).drive = l.drive := by
  simp [Line.readbit, Line.top]
@[simp] theorem Line.readbit_tHalf (cfg : Params) (l : Line) : (l.readbit cfg).tHalf = l.tHalf := by
  simp [Line.readbit, Line.top]
@[simp] theorem Line.readbit_tQuarter (cfg : Params) (l : Line) : (l.readbit cfg).tQuarter = l.tQuarter := by
  simp [Line.readbit, Line.top]

/-- `write_bit(b)`. -/
theorem writeBit_run {s : State} (b : Bool) (h : s.line.free) :
    writeBit b s = .done () (withLine (s.line.bit s.cfg b) s) := by
  have h1 := Line.da_free s.cfg b h
  have h2 := Line.ck_free s.cfg true h1
  simp [writeBit, setData_run, setClock_at, h, h1, h2, Line.bit]

/-- `read_bit()`. -/
theorem readBit_run {s : State} (h : s.line.free) :
    readBit s = .done (s.line.sample s.cfg) (withLine (s.line.readbit s.cfg) s) := by
  have h1 := Line.da_free s.cfg true h
  have h2 := Line.ck_free s.cfg true h1
  have h3 := Line.move_free s.cfg h2
  simp [readBit, setData_run, setClock_at, readData_at, h, h1, h2, h3, Line.readbit, Line.sample, Line.top]

theorem writeBit_at {l : Line} {s : State} (b : Bool) (h : l.free) :
    writeBit b (withLine l s) = .done () (withLine (l.bit s.cfg b) s) := writeBit_run (s := withLine l s) b h

theorem readBit_at {l : Line} {s : State} (h : l.free) :
    readBit (withLine l s) = .done (l.sample s.cfg) (withLine (l.readbit s.cfg) s) := readBit_run (s := withLine l s) h

theorem setSlot_withLine (k : Slot) (l : Line) (s : State) :
    setSlot k (withLine l s) = withLine l (setSlot k s) := rfl

/-- The lines after the data bits `n-1` down to 0 of a byte. -/
def Line.bits (cfg : Params) (b : Byte) : Nat → Line → Line
  | 0, l => l
  | n + 1, l => Line.bits cfg b n (l.bit cfg (b.getLsbD n))

theorem Line.bits_free (cfg : Params) (b : Byte) (n : Nat) {l : Line} (h : l.free) : (l.bits cfg b n).free := by
  induction n generalizing l with
  | zero => exact h
  | succ n ih => exact ih (Line.bit_free _ _ h)

/-- What data bits leave of the controller's side of the lines. -/
theorem Line.bits_keeps (cfg : Params) (b : Byte) (n : Nat) (l : Line) :
    (l.bits cfg b n).drive = l.drive ∧ (l.bits cfg b n).tHalf = l.tHalf ∧ (l.bits cfg b n).tQuarter = l.tQuarter := by
  induction n generalizing l with
  | zero => exact ⟨rfl, rfl, rfl⟩
  | succ n ih =>
    obtain ⟨h1, h2, h3⟩ := ih (l.bit cfg (b.getLsbD n))
    simp [Line.bits, h1, h2, h3]

/-- The slot after `n` bits from a slot. -/
def slotAfter (k : Slot) : Nat → Slot
  | 0 => k
  | _ + 1 => .bit 0

theorem writeBits_run (b : Byte) (n : Nat) {s : State} (h : s.line.free) :
    writeBits b n s = .done () (withLine (s.line.bits s.cfg b n) (setSlot (slotAfter s.eng.seq.k n) s)) := by
  induction n generalizing s with
  | zero => rfl
  | succ n ih =>
    have h' : (setSlot (.bit (Fin.ofNat 8 n)) s).line.free := h
    have hf : (withLine (s.line.bit s.cfg (b.getLsbD n)) (setSlot (.bit (Fin.ofNat 8 n)) s)).line.free :=
      Line.bit_free _ _ h
    rw [writeBits, writeBit_run _ h']
    simp only [setSlot_line, setSlot_cfg, Run.andThen_done]
    rw [ih hf]
    cases n <;> rfl

/-- `send_byte(b)`. -/
theorem wireSendByte_run (b : Byte) {s : State} (h : s.line.free) :
    wireSendByte b s =
      let l := s.line.bits s.cfg b 8
      let a := !l.sample s.cfg
      .done () (emit (.tx b a) (setAcked a (withLine (l.readbit s.cfg) (setSlot .ack (setSr b s))))) := by
  have h' : (setSr b s).line.free := h
  have hf : (s.line.bits s.cfg b 8).free := Line.bits_free _ _ _ h
  rw [wireSendByte, writeBits_run b 8 h']
  simp only [setSr_line, setSr_cfg, Run.andThen_done, setSlot_withLine]
  rw [readBit_at hf]
  simp only [setSlot_cfg, setSr_cfg, Run.bind_done]
  rfl

/-- The value and the lines after receiving the bits `n-1` down to 0 into `v`. -/
def Line.receive (cfg : Params) : Nat → Byte → Line → Byte × Line
  | 0, v, l => (v, l)
  | n + 1, v, l =>
    Line.receive cfg n (v ||| ((BitVec.ofBool (l.sample cfg)).setWidth 8 <<< n)) (l.readbit cfg)

theorem Line.receive_free (cfg : Params) (n : Nat) (v : Byte) {l : Line} (h : l.free) :
    (l.receive cfg n v).2.free := by
  induction n generalizing l v with
  | zero => exact h
  | succ n ih => exact ih _ (Line.readbit_free _ h)

theorem Line.receive_keeps (cfg : Params) (n : Nat) (v : Byte) (l : Line) :
    (l.receive cfg n v).2.drive = l.drive ∧ (l.receive cfg n v).2.tHalf = l.tHalf ∧
      (l.receive cfg n v).2.tQuarter = l.tQuarter := by
  induction n generalizing l v with
  | zero => exact ⟨rfl, rfl, rfl⟩
  | succ n ih =>
    obtain ⟨h1, h2, h3⟩ := ih (v ||| ((BitVec.ofBool (l.sample cfg)).setWidth 8 <<< n)) (l.readbit cfg)
    simp [Line.receive, h1, h2, h3]

/-- Receiving leaves the bits above alone. -/
theorem Line.receive_high (cfg : Params) (n : Nat) (v : Byte) (l : Line) {i : Nat} (h : n ≤ i) :
    (Line.receive cfg n v l).1.getLsbD i = v.getLsbD i := by
  induction n generalizing v l with
  | zero => rfl
  | succ n ih =>
    rw [Line.receive, ih _ _ (by omega)]
    have : i - n ≠ 0 := by omega
    simp [this]

/-- The bits received are the samples, the first one most significant (R141, R65). -/
theorem Line.receive_bit (cfg : Params) (n : Nat) (v : Byte) (l : Line) (hn : n ≤ 8)
    (hv : ∀ i < n, v.getLsbD i = false) {k : Nat} (hk : k < n) :
    (Line.receive cfg n v l).1.getLsbD (n - 1 - k) = ((Line.readbit cfg)^[k] l).sample cfg := by
  induction n generalizing v l k with
  | zero => omega
  | succ n ih =>
    rw [Line.receive]
    cases k with
    | zero =>
      rw [Line.receive_high _ _ _ _ (by omega)]
      have h0 := hv n (by omega)
      rw [BitVec.getLsbD_eq_getElem (by omega)] at h0
      simp [h0, show n < 8 by omega]
    | succ k =>
      rw [Function.iterate_succ_apply, show n + 1 - 1 - (k + 1) = n - 1 - k by omega]
      refine ih _ _ (by omega) (fun i hi => ?_) (by omega)
      simp [hv i (by omega), hi]
theorem readBits_run (n : Nat) {s : State} (h : s.line.free) :
    readBits n s =
      let r := s.line.receive s.cfg n s.eng.sr
      .done () (withLine r.2 (setSr r.1 (setSlot (slotAfter s.eng.seq.k n) s))) := by
  induction n generalizing s with
  | zero => rfl
  | succ n ih =>
    have h' : (setSlot (.bit (Fin.ofNat 8 n)) s).line.free := h
    rw [readBits, readBit_run h']
    simp only [setSlot_line, setSlot_cfg, Run.bind_done]
    rw [ih (by exact Line.readbit_free _ h)]
    cases n <;> rfl

/-- `recv_byte(ack)`. -/
theorem wireRecvByte_run (ack : Bool) {s : State} (h : s.line.free) :
    wireRecvByte ack s =
      let r := s.line.receive s.cfg 8 0
      .done r.1 (emit (.rx r.1 ack) (withLine (r.2.bit s.cfg (!ack)) (setSlot .ack (setSr r.1 s)))) := by
  have h' : (setSr 0 s).line.free := h
  rw [wireRecvByte, readBits_run 8 h']
  simp only [Run.andThen_done, setSr_line, setSr_cfg, setSr_eng_sr, setSlot_withLine]
  rw [writeBit_at _ (Line.receive_free _ _ _ h)]
  simp only [setSlot_cfg, setSr_cfg, Run.andThen_done]
  rfl

end Sys2Proof.Machine
end

