-- ==== Sys2Proof/Laws/Memory.lean ====
section
/-! SUPPORT. The laws of memories and register files: a read after a write, the canonical form, and what a register
file's callbacks can do (spec R74, R250, R251). -/

namespace Sys2Proof.Machine

open Sys2Proof

theorem Memory.wf_cons {c : Host.Cell} {r : Memory} :
    Memory.wf (c :: r) = true ↔ c.2 ≠ Memory.blank ∧ (∀ d ∈ r, c.1 < d.1) ∧ Memory.wf r = true := by
  simp [Memory.wf, and_assoc]

/-- An address below every listed one reads blank. -/
theorem Memory.read_below {m : Memory} {a : Nat} (h : ∀ d ∈ m, a < d.1) : Memory.read m a = Memory.blank := by
  induction m with
  | nil => rfl
  | cons c r ih =>
    have h1 : a < c.1 := h c List.mem_cons_self
    rw [Memory.read, if_neg (by omega)]
    exact ih fun d hd => h d (List.mem_cons_of_mem _ hd)

/-- A write leaves every other address alone. -/
theorem Memory.read_write_other (m : Memory) {a b : Nat} (v : Byte) (h : b ≠ a) :
    Memory.read (Memory.write m a v) b = Memory.read m b := by
  induction m with
  | nil =>
    rw [Memory.write]
    split
    · rfl
    · simp [Memory.read, Ne.symm h]
  | cons c r ih =>
    rw [Memory.write]
    split
    · split
      · rfl
      · simp [Memory.read, Ne.symm h]
    · split
      · next hc =>
        have hb : c.1 ≠ b := by omega
        split <;> simp [Memory.read, hb, Ne.symm h]
      · simp only [Memory.read, ih]

/-- A read after a write to the same address gives the byte written. -/
theorem Memory.read_write_same {m : Memory} (a : Nat) (v : Byte) (h : Memory.wf m = true) :
    Memory.read (Memory.write m a v) a = v := by
  induction m with
  | nil =>
    rw [Memory.write]
    split
    · next hv => simp [Memory.read, hv]
    · simp [Memory.read]
  | cons c r ih =>
    obtain ⟨-, hlt, hwf⟩ := Memory.wf_cons.1 h
    rw [Memory.write]
    split
    · next hac =>
      split
      · next hv =>
        rw [hv]
        refine Memory.read_below fun d hd => ?_
        rcases List.mem_cons.1 hd with rfl | hd
        · exact hac
        · exact hac.trans (hlt d hd)
      · simp [Memory.read]
    · split
      · next hac =>
        split
        · next hv =>
          rw [hv]
          exact Memory.read_below fun d hd => hac ▸ hlt d hd
        · simp [Memory.read]
      · next h1 h2 =>
        rw [Memory.read, if_neg (by omega)]
        exact ih hwf

/-- Every entry after a write is an old one or the written one. -/
theorem Memory.mem_write {m : Memory} {a : Nat} {v : Byte} {d : Host.Cell} (h : d ∈ Memory.write m a v) :
    d ∈ m ∨ d = (a, v) := by
  induction m with
  | nil =>
    rw [Memory.write] at h
    split at h
    · simp at h
    · simp at h; exact .inr h
  | cons c r ih =>
    rw [Memory.write] at h
    split at h
    · split at h
      · exact .inl h
      · rcases List.mem_cons.1 h with rfl | h
        · exact .inr rfl
        · exact .inl h
    · split at h
      · split at h
        · exact .inl (List.mem_cons_of_mem _ h)
        · rcases List.mem_cons.1 h with rfl | h
          · exact .inr rfl
          · exact .inl (List.mem_cons_of_mem _ h)
      · rcases List.mem_cons.1 h with rfl | h
        · exact .inl List.mem_cons_self
        · rcases ih h with h | h
          · exact .inl (List.mem_cons_of_mem _ h)
          · exact .inr h

/-- A write keeps the canonical form. -/
theorem Memory.write_wf {m : Memory} (a : Nat) (v : Byte) (h : Memory.wf m = true) :
    Memory.wf (Memory.write m a v) = true := by
  induction m with
  | nil =>
    rw [Memory.write]
    split
    · rfl
    · next hv => exact Memory.wf_cons.2 ⟨hv, by simp, rfl⟩
  | cons c r ih =>
    obtain ⟨hc, hlt, hwf⟩ := Memory.wf_cons.1 h
    rw [Memory.write]
    split
    · next hac =>
      split
      · exact h
      · next hv =>
        refine Memory.wf_cons.2 ⟨hv, fun d hd => ?_, h⟩
        rcases List.mem_cons.1 hd with rfl | hd
        · exact hac
        · exact hac.trans (hlt d hd)
    · split
      · next hac =>
        split
        · exact hwf
        · next hv => exact Memory.wf_cons.2 ⟨hv, fun d hd => hac ▸ hlt d hd, hwf⟩
      · next h1 h2 =>
        refine Memory.wf_cons.2 ⟨hc, fun d hd => ?_, ih hwf⟩
        rcases Memory.mem_write hd with hd | rfl
        · exact hlt d hd
        · show c.1 < a
          omega

/-! ## Register files -/

/-- All `write_register` can do: an error outside the file, nothing at a read-only entry, else one store. -/
theorem RegFile.write_cases (f : RegFile) (i : Nat) (v : Byte) :
    (f.n ≤ i ∧ f.write i v = (f, .outOfBounds)) ∨ (i < f.n ∧ i ∈ f.ro ∧ f.write i v = (f, .ok)) ∨
      (i < f.n ∧ i ∉ f.ro ∧ f.write i v = ({ f with mem := Memory.write f.mem i v }, .ok)) := by
  unfold RegFile.write
  by_cases h : f.n ≤ i
  · simp [h]
  · by_cases hr : i ∈ f.ro
    · simp [h, hr]; omega
    · simp [h, hr]; omega

@[simp] theorem RegFile.write_n (f : RegFile) (i : Nat) (v : Byte) : (f.write i v).1.n = f.n := by
  rcases f.write_cases i v with ⟨_, h⟩ | ⟨_, _, h⟩ | ⟨_, _, h⟩ <;> rw [h]

@[simp] theorem RegFile.write_ro (f : RegFile) (i : Nat) (v : Byte) : (f.write i v).1.ro = f.ro := by
  rcases f.write_cases i v with ⟨_, h⟩ | ⟨_, _, h⟩ | ⟨_, _, h⟩ <;> rw [h]

/-- What `write_register` answers. -/
theorem RegFile.write_ret (f : RegFile) (i : Nat) (v : Byte) :
    (f.write i v).2 = if f.n ≤ i then .outOfBounds else .ok := by
  rcases f.write_cases i v with ⟨h1, h⟩ | ⟨h1, _, h⟩ | ⟨h1, _, h⟩ <;> rw [h]
  · rw [if_pos h1]
  · rw [if_neg (by omega)]
  · rw [if_neg (by omega)]

/-- `write_register` leaves every other entry alone. -/
theorem RegFile.peek_write_other (f : RegFile) {i k : Nat} (v : Byte) (h : k ≠ i) :
    (f.write i v).1.peek k = f.peek k := by
  rcases f.write_cases i v with ⟨_, e⟩ | ⟨_, _, e⟩ | ⟨_, _, e⟩ <;> rw [e]
  exact Memory.read_write_other f.mem v h

theorem RegFile.wf_iff {f : RegFile} :
    f.wf = true ↔ 1 ≤ f.n ∧ Memory.wf f.mem = true ∧ ∀ c ∈ f.mem, c.1 < f.n := by
  simp [RegFile.wf, and_assoc]

/-- What the entry holds after `write_register`. -/
theorem RegFile.peek_write_same {f : RegFile} (i : Nat) (v : Byte) (h : f.wf = true) :
    (f.write i v).1.peek i = if i < f.n ∧ i ∉ f.ro then v else f.peek i := by
  rcases f.write_cases i v with ⟨h1, e⟩ | ⟨h1, h2, e⟩ | ⟨h1, h2, e⟩ <;> rw [e]
  · rw [if_neg (by omega)]
  · rw [if_neg (by tauto)]
  · rw [if_pos ⟨h1, h2⟩]
    exact Memory.read_write_same i v (RegFile.wf_iff.1 h).2.1

/-- The owner's own store keeps the shape of the file. -/
@[simp] theorem RegFile.put_n (f : RegFile) (i : Nat) (v : Byte) : (f.put i v).n = f.n := by
  unfold RegFile.put; split <;> rfl

@[simp] theorem RegFile.put_ro (f : RegFile) (i : Nat) (v : Byte) : (f.put i v).ro = f.ro := by
  unfold RegFile.put; split <;> rfl

/-- The owner's own store leaves every other entry alone. -/
theorem RegFile.peek_put_other (f : RegFile) {i k : Nat} (v : Byte) (h : k ≠ i) : (f.put i v).peek k = f.peek k := by
  unfold RegFile.put
  split
  · exact Memory.read_write_other f.mem v h
  · rfl

/-- What the entry holds after the owner's own store. -/
theorem RegFile.peek_put_same {f : RegFile} (i : Nat) (v : Byte) (h : f.wf = true) :
    (f.put i v).peek i = if i < f.n then v else f.peek i := by
  unfold RegFile.put
  split
  · exact Memory.read_write_same i v (RegFile.wf_iff.1 h).2.1
  · rfl

/-- The owner's own store keeps a register file well formed. -/
theorem RegFile.put_wf {f : RegFile} (i : Nat) (v : Byte) (h : f.wf = true) : (f.put i v).wf = true := by
  unfold RegFile.put
  split
  · next hi =>
    obtain ⟨hn, hm, hb⟩ := RegFile.wf_iff.1 h
    refine RegFile.wf_iff.2 ⟨hn, Memory.write_wf i v hm, fun c hc => ?_⟩
    rcases Memory.mem_write hc with hc | rfl
    · exact hb c hc
    · exact hi
  · exact h

/-- `write_register` keeps a register file well formed. -/
theorem RegFile.write_wf {f : RegFile} (i : Nat) (v : Byte) (h : f.wf = true) : (f.write i v).1.wf = true := by
  rcases f.write_cases i v with ⟨_, e⟩ | ⟨_, _, e⟩ | ⟨h1, _, e⟩ <;> rw [e]
  · exact h
  · exact h
  · obtain ⟨hn, hm, hb⟩ := RegFile.wf_iff.1 h
    refine RegFile.wf_iff.2 ⟨hn, Memory.write_wf i v hm, fun c hc => ?_⟩
    rcases Memory.mem_write hc with hc | rfl
    · exact hb c hc
    · exact h1

end Sys2Proof.Machine
end

