-- ==== Sys2Proof/Laws/Transport.lean ====
section
/-! SUPPORT. What the five primitives of the active transport can do (spec R196): one lemma for each, for a completed run
and for one that waits for ever, and when the environment lets them complete. -/

namespace Sys2Proof.Machine

open Sys2Proof

/-- What no primitive of any transport touches. -/
structure PrimStep (s t : State) : Prop where
  cfg : t.cfg = s.cfg
  host : t.host = s.host
  tgt : t.tgt = s.tgt
  configured : t.eng.configured = s.eng.configured
  mode : t.eng.mode = s.eng.mode
  flg : t.eng.flg = s.eng.flg
  phase : t.eng.seq.phase = s.eng.seq.phase
  i : t.eng.seq.i = s.eng.seq.i
  j : t.eng.seq.j = s.eng.seq.j
  call : t.eng.call = s.eng.call
  buf : t.eng.buf = s.eng.buf
  irqSaved : t.eng.irqSaved = s.eng.irqSaved
  arb : s.cfg.backend ≠ .peripheral → t.eng.arbLost = s.eng.arbLost
  tHalf : t.line.tHalf = s.line.tHalf
  tQuarter : t.line.tQuarter = s.line.tQuarter
  drive : t.line.drive = s.line.drive
  baud : t.srp.baud = s.srp.baud
  enable : t.srp.enable = s.srp.enable
  line : s.cfg.backend ≠ .bitBang → t.line = s.line
  srp : s.cfg.backend ≠ .peripheral → t.srp = s.srp
  sim : s.cfg.backend ≠ .simulated → t.sim = s.sim

theorem PrimStep.refl (s : State) : PrimStep s s :=
  ⟨rfl, rfl, rfl, rfl, rfl, rfl, rfl, rfl, rfl, rfl, rfl, rfl, fun _ => rfl, rfl, rfl, rfl, rfl, rfl, fun _ => rfl,
    fun _ => rfl, fun _ => rfl⟩

theorem PrimStep.trans {a b c : State} (h : PrimStep a b) (g : PrimStep b c) : PrimStep a c where
  cfg := g.cfg.trans h.cfg
  host := g.host.trans h.host
  tgt := g.tgt.trans h.tgt
  configured := g.configured.trans h.configured
  mode := g.mode.trans h.mode
  flg := g.flg.trans h.flg
  phase := g.phase.trans h.phase
  i := g.i.trans h.i
  j := g.j.trans h.j
  call := g.call.trans h.call
  buf := g.buf.trans h.buf
  irqSaved := g.irqSaved.trans h.irqSaved
  arb hb := (g.arb (by rwa [h.cfg])).trans (h.arb hb)
  tHalf := g.tHalf.trans h.tHalf
  tQuarter := g.tQuarter.trans h.tQuarter
  drive := g.drive.trans h.drive
  baud := g.baud.trans h.baud
  enable := g.enable.trans h.enable
  line hb := (g.line (by rwa [h.cfg])).trans (h.line hb)
  srp hb := (g.srp (by rwa [h.cfg])).trans (h.srp hb)
  sim hb := (g.sim (by rwa [h.cfg])).trans (h.sim hb)

/-- A primitive that never returns: what it touched, and that it waits. -/
def Waits (s t : State) : Prop := PrimStep s t ∧ t.eng.waiting ≠ none

/-! ## The bit-banged transport -/

/-- A state that differs in its lines only, drive discipline and tick counts apart. -/
theorem PrimStep.ofLine {s : State} {l : Line} (hb : s.cfg.backend = .bitBang) (h1 : l.tHalf = s.line.tHalf)
    (h2 : l.tQuarter = s.line.tQuarter) (h3 : l.drive = s.line.drive) : PrimStep s { s with line := l } :=
  ⟨rfl, rfl, rfl, rfl, rfl, rfl, rfl, rfl, rfl, rfl, rfl, rfl, fun _ => rfl, h1, h2, h3, rfl, rfl,
    fun hn => absurd hb hn, fun _ => rfl, fun _ => rfl⟩

theorem Line.poll_spec (cfg : Params) (es : List (List Ext)) (l : Line) :
    SameDrive l (Line.poll cfg es l).1 ∧ ((Line.poll cfg es l).2 = true → (Line.poll cfg es l).1.scl cfg = true) := by
  induction es generalizing l with
  | nil => exact ⟨⟨rfl, rfl, rfl, rfl, rfl⟩, fun h => h⟩
  | cons e es ih =>
    have h0 : SameDrive l (Line.play cfg e { l with env := es }) :=
      have := (Line.play_spec cfg e { l with env := es }).1
      ⟨this.1, this.2, this.3, this.4, this.5⟩
    rw [Line.poll]
    split
    · next h => exact ⟨h0, fun _ => h⟩
    · exact ⟨h0.trans (ih _).1, (ih _).2⟩

/-- All that the instant before an action can do. -/
theorem instant_post {s : State} (hb : s.cfg.backend = .bitBang) :
    (instant s).Post
      (fun _ t => PrimStep s t ∧ t.eng = s.eng ∧ t.line.sclOut = s.line.sclOut ∧ t.line.sdaOut = s.line.sdaOut)
      (fun _ => False) := by
  rcases instant_cases s with ⟨-, h⟩ | ⟨-, -, -, h⟩ | ⟨-, h⟩ <;> rw [h]
  · trivial
  · trivial
  · exact ⟨PrimStep.ofLine hb (by simp) (by simp) (by simp), rfl, by simp, by simp⟩

/-- All `set_data(v)` can do. -/
theorem setData_post (v : Bool) {s : State} (hb : s.cfg.backend = .bitBang) :
    (setData v s).Post
      (fun _ t => PrimStep s t ∧ t.eng = s.eng ∧ t.line.sdaOut = v ∧ t.line.sclOut = s.line.sclOut)
      (fun _ => False) :=
  (instant_post hb).andThen (fun _ h => h) fun _ ⟨hp, he, hc, _⟩ =>
    ⟨hp.trans (PrimStep.ofLine (hp.cfg ▸ hb) (by simp) (by simp) (by simp)), he, by simp, by simpa using hc⟩

/-- All `set_clock(v)` can do. -/
theorem setClock_post (v : Bool) {s : State} (hb : s.cfg.backend = .bitBang) :
    (setClock v s).Post
      (fun _ t => PrimStep s t ∧ t.eng = s.eng ∧ t.line.sclOut = v ∧ t.line.sdaOut = s.line.sdaOut)
      (fun t => PrimStep s t ∧ t.eng = { s.eng with waiting := some .sclRelease } ∧ t.line.sclOut = v) := by
  refine (instant_post hb).andThen (fun _ h => h.elim) fun t ⟨hp, he, _, hd⟩ => ?_
  have hb' : t.cfg.backend = .bitBang := hp.cfg ▸ hb
  dsimp only
  split
  · trivial
  · split
    · have h := Line.poll_spec t.cfg (Line.driveClock t.cfg v t.line).env (Line.driveClock t.cfg v t.line)
      split
      · next l hl =>
        rw [hl] at h
        obtain ⟨h, -⟩ := h
        exact ⟨hp.trans (PrimStep.ofLine hb' (h.tHalf.trans (by simp)) (h.tQuarter.trans (by simp))
          (h.drive.trans (by simp))), he, h.sclOut.trans (by simp), h.sdaOut.trans (by simpa using hd)⟩
      · next l hl =>
        rw [hl] at h
        obtain ⟨h, -⟩ := h
        have hq := hp.trans (PrimStep.ofLine (s := t) (l := l) hb' (h.tHalf.trans (by simp)) (h.tQuarter.trans (by simp))
          (h.drive.trans (by simp)))
        exact ⟨⟨hq.1, hq.2, hq.3, hq.4, hq.5, hq.6, hq.7, hq.8, hq.9, hq.10, hq.11, hq.12, hq.13, hq.14, hq.15, hq.16,
          hq.17, hq.18, hq.19, hq.20, hq.21⟩, by simp [← he], h.sclOut.trans (by simp)⟩
    · exact ⟨hp.trans (PrimStep.ofLine hb' (by simp) (by simp) (by simp)), he, by simp, by simpa using hd⟩

/-- All `read_data()` can do. -/
theorem readData_post {s : State} (hb : s.cfg.backend = .bitBang) :
    (readData s).Post
      (fun v t => PrimStep s t ∧ t.eng = s.eng ∧ t.line.sclOut = s.line.sclOut ∧ t.line.sdaOut = s.line.sdaOut ∧
        v = t.line.sda) (fun _ => False) :=
  (instant_post hb).andThen (fun _ h => h) fun _ ⟨hp, he, hc, hd⟩ => ⟨hp, he, hc, hd, rfl⟩

/-- All `read_clock()` can do. -/
theorem readClock_post {s : State} (hb : s.cfg.backend = .bitBang) :
    (readClock s).Post
      (fun v t => PrimStep s t ∧ t.eng = s.eng ∧ t.line.sclOut = s.line.sclOut ∧ t.line.sdaOut = s.line.sdaOut ∧
        v = t.line.scl t.cfg) (fun _ => False) :=
  (instant_post hb).andThen (fun _ h => h) fun _ ⟨hp, he, hc, hd⟩ => ⟨hp, he, hc, hd, rfl⟩

/-- A step that changes engine cells no frame names. -/
theorem PrimStep.cells {s t : State} (h : PrimStep s t) (f : Engine → Engine)
    (h1 : (f t.eng).configured = t.eng.configured) (h2 : (f t.eng).mode = t.eng.mode)
    (h3 : (f t.eng).flg = t.eng.flg) (h4 : (f t.eng).seq.phase = t.eng.seq.phase)
    (h5 : (f t.eng).seq.i = t.eng.seq.i) (h6 : (f t.eng).seq.j = t.eng.seq.j) (h7 : (f t.eng).call = t.eng.call)
    (h8 : (f t.eng).buf = t.eng.buf) (h9 : (f t.eng).irqSaved = t.eng.irqSaved)
    (h10 : s.cfg.backend ≠ .peripheral → (f t.eng).arbLost = t.eng.arbLost) :
    PrimStep s { t with eng := f t.eng } :=
  ⟨h.cfg, h.host, h.tgt, h1.trans h.configured, h2.trans h.mode, h3.trans h.flg, h4.trans h.phase, h5.trans h.i,
    h6.trans h.j, h7.trans h.call, h8.trans h.buf, h9.trans h.irqSaved, fun hb => (h10 hb).trans (h.arb hb), h.tHalf,
    h.tQuarter, h.drive, h.baud, h.enable, h.line, h.srp, h.sim⟩

theorem PrimStep.emit {s t : State} (h : PrimStep s t) (y : Sym) : PrimStep s (emit y t) :=
  h.cells (fun e => { e with trace := e.trace ++ [y] }) rfl rfl rfl rfl rfl rfl rfl rfl rfl fun _ => rfl

theorem PrimStep.setBus {s t : State} (h : PrimStep s t) (b : BusState) : PrimStep s (setBus b t) :=
  h.cells (fun e => { e with bus := b }) rfl rfl rfl rfl rfl rfl rfl rfl rfl fun _ => rfl

theorem PrimStep.setAcked {s t : State} (h : PrimStep s t) (a : Bool) : PrimStep s (setAcked a t) :=
  h.cells (fun e => { e with acked := a }) rfl rfl rfl rfl rfl rfl rfl rfl rfl fun _ => rfl

theorem PrimStep.setSr {s t : State} (h : PrimStep s t) (b : Byte) : PrimStep s (setSr b t) :=
  h.cells (fun e => { e with sr := b }) rfl rfl rfl rfl rfl rfl rfl rfl rfl fun _ => rfl

theorem PrimStep.setSlot {s t : State} (h : PrimStep s t) (k : Slot) : PrimStep s (setSlot k t) :=
  h.cells (fun e => { e with seq := { e.seq with k := k } }) rfl rfl rfl rfl rfl rfl rfl rfl rfl fun _ => rfl

theorem PrimStep.setArbLost {s t : State} (h : PrimStep s t) (hb : s.cfg.backend = .peripheral) (a : Bool) :
    PrimStep s (setArbLost a t) :=
  h.cells (fun e => { e with arbLost := a }) rfl rfl rfl rfl rfl rfl rfl rfl rfl fun hn => absurd hb hn

/-- The completed part of a wire primitive's lemma: the lines moved, the engine is as it was. -/
def LinesOnly (s t : State) : Prop := PrimStep s t ∧ t.eng = s.eng

theorem LinesOnly.waits {s t u : State} (h : LinesOnly s t) (g : PrimStep t u)
    (hw : u.eng.waiting ≠ none) : Waits s u := ⟨h.1.trans g, hw⟩

theorem setData_lines (v : Bool) {s t : State} (hb : s.cfg.backend = .bitBang) (h : LinesOnly s t) :
    (setData v t).Post
      (fun _ u => LinesOnly s u ∧ u.line.sdaOut = v ∧ u.line.sclOut = t.line.sclOut) (Waits s) :=
  (setData_post v (h.1.cfg ▸ hb)).mono
    (fun _ _ ⟨h1, h2, h3, h4⟩ => ⟨⟨h.1.trans h1, h2.trans h.2⟩, h3, h4⟩) (fun _ hf => hf.elim)

theorem setClock_lines (v : Bool) {s t : State} (hb : s.cfg.backend = .bitBang) (h : LinesOnly s t) :
    (setClock v t).Post
      (fun _ u => LinesOnly s u ∧ u.line.sclOut = v ∧ u.line.sdaOut = t.line.sdaOut) (Waits s) :=
  (setClock_post v (h.1.cfg ▸ hb)).mono
    (fun _ _ ⟨h1, h2, h3, h4⟩ => ⟨⟨h.1.trans h1, h2.trans h.2⟩, h3, h4⟩)
    (fun u ⟨h1, h2, _⟩ => ⟨h.1.trans h1, by rw [h2]; simp⟩)

theorem readData_lines {s t : State} (hb : s.cfg.backend = .bitBang) (h : LinesOnly s t) :
    (readData t).Post
      (fun _ u => LinesOnly s u ∧ u.line.sclOut = t.line.sclOut ∧ u.line.sdaOut = t.line.sdaOut) (Waits s) :=
  (readData_post (h.1.cfg ▸ hb)).mono
    (fun _ _ ⟨h1, h2, h3, h4, _⟩ => ⟨⟨h.1.trans h1, h2.trans h.2⟩, h3, h4⟩) (fun _ hf => hf.elim)

/-- A completed primitive: what it touched, and that it does not wait. -/
def Completes (s t : State) : Prop := PrimStep s t ∧ t.eng.waiting = s.eng.waiting

theorem LinesOnly.refl (s : State) : LinesOnly s s := ⟨PrimStep.refl s, rfl⟩

/-- All `start()` can do on the wire. -/
theorem wireStart_post {s : State} (hb : s.cfg.backend = .bitBang) :
    (wireStart s).Post
      (fun _ t => Completes s t ∧ t.eng.bus = .midTransaction ∧ t.eng.acked = s.eng.acked ∧
        t.eng.trace = s.eng.trace ++ [.start]) (Waits s) := by
  refine (setData_lines false hb (LinesOnly.refl s)).andThen (fun _ h => h) fun s1 h1 => ?_
  refine (setClock_lines false hb h1.1).andThen (fun _ h => h) fun s2 h2 => ?_
  obtain ⟨⟨h2, he⟩, -⟩ := h2
  exact ⟨⟨(h2.setBus _).emit _, by simp [he]⟩, rfl, by simp [he], by simp [he]⟩

/-- All `rstart()` can do on the wire. -/
theorem wireRstart_post {s : State} (hb : s.cfg.backend = .bitBang) :
    (wireRstart s).Post
      (fun _ t => Completes s t ∧ t.eng.bus = .midTransaction ∧ t.eng.acked = s.eng.acked ∧
        t.eng.trace = s.eng.trace ++ [restartSym s.eng.bus]) (Waits s) := by
  refine (setData_lines true hb (LinesOnly.refl s)).andThen (fun _ h => h) fun s1 h1 => ?_
  refine (setClock_lines true hb h1.1).andThen (fun _ h => h) fun s2 h2 => ?_
  refine (setData_lines false hb h2.1).andThen (fun _ h => h) fun s3 h3 => ?_
  refine (setClock_lines false hb h3.1).andThen (fun _ h => h) fun s4 h4 => ?_
  obtain ⟨⟨h4, he⟩, -⟩ := h4
  exact ⟨⟨(h4.emit _).setBus _, by simp [he]⟩, rfl, by simp [he], by simp [he]⟩

/-- All `stop()` can do on the wire. -/
theorem wireStop_post {s : State} (hb : s.cfg.backend = .bitBang) :
    (wireStop s).Post
      (fun _ t => Completes s t ∧ t.eng.bus = .idle ∧ t.eng.acked = s.eng.acked ∧
        t.eng.trace = s.eng.trace ++ [.stop] ∧ t.line.sclOut = true ∧ t.line.sdaOut = true) (Waits s) := by
  refine (setClock_lines false hb (LinesOnly.refl s)).andThen (fun _ h => h) fun s1 h1 => ?_
  refine (setData_lines false hb h1.1).andThen (fun _ h => h) fun s2 h2 => ?_
  refine (setClock_lines true hb h2.1).andThen (fun _ h => h) fun s3 h3 => ?_
  refine (setData_lines true hb h3.1).andThen (fun _ h => h) fun s4 h4 => ?_
  obtain ⟨⟨h4, he⟩, h5, h6⟩ := h4
  exact ⟨⟨(h4.setBus _).emit _, by simp [he]⟩, rfl, by simp [he], by simp [he], h6.trans h3.2.1, h5⟩

/-- All `write_bit(b)` can do. -/
theorem writeBit_lines (b : Bool) {s t : State} (hb : s.cfg.backend = .bitBang) (h : LinesOnly s t) :
    (writeBit b t).Post
      (fun _ u => LinesOnly s u ∧ u.line.sclOut = false ∧ u.line.sdaOut = b) (Waits s) := by
  refine (setData_lines b hb h).andThen (fun _ h => h) fun s1 h1 => ?_
  refine (setClock_lines true hb h1.1).andThen (fun _ h => h) fun s2 h2 => ?_
  refine (setClock_lines false hb h2.1).andThen (fun _ h => h) fun s3 h3 => ?_
  exact ⟨h3.1, h3.2.1, h3.2.2.trans (h2.2.2.trans h1.2.1)⟩

/-- All `read_bit()` can do. -/
theorem readBit_lines {s t : State} (hb : s.cfg.backend = .bitBang) (h : LinesOnly s t) :
    (readBit t).Post
      (fun _ u => LinesOnly s u ∧ u.line.sclOut = false ∧ u.line.sdaOut = true) (Waits s) := by
  refine (setData_lines true hb h).andThen (fun _ h => h) fun s1 h1 => ?_
  refine (setClock_lines true hb h1.1).andThen (fun _ h => h) fun s2 h2 => ?_
  refine (readData_lines hb h2.1).bind (fun _ h => h) fun v s3 h3 => ?_
  refine (setClock_lines false hb h3.1).andThen (fun _ h => h) fun s4 h4 => ?_
  exact ⟨h4.1, h4.2.1, h4.2.2.trans (h3.2.2.trans (h2.2.2.trans h1.2.1))⟩

/-- What the bit loops keep of the engine. -/
structure BitsStep (s t : State) : Prop where
  prim : PrimStep s t
  bus : t.eng.bus = s.eng.bus
  acked : t.eng.acked = s.eng.acked
  trace : t.eng.trace = s.eng.trace
  waiting : t.eng.waiting = s.eng.waiting

theorem BitsStep.refl (s : State) : BitsStep s s := ⟨PrimStep.refl s, rfl, rfl, rfl, rfl⟩

theorem BitsStep.lines {s t u : State} (h : BitsStep s t) (g : LinesOnly t u) : BitsStep s u :=
  ⟨h.prim.trans g.1, (congrArg Engine.bus g.2).trans h.bus, (congrArg Engine.acked g.2).trans h.acked,
    (congrArg Engine.trace g.2).trans h.trace, (congrArg Engine.waiting g.2).trans h.waiting⟩

theorem BitsStep.slot {s t : State} (h : BitsStep s t) (k : Slot) : BitsStep s (setSlot k t) :=
  ⟨h.prim.setSlot k, h.bus, h.acked, h.trace, h.waiting⟩

theorem BitsStep.sr {s t : State} (h : BitsStep s t) (b : Byte) : BitsStep s (setSr b t) :=
  ⟨h.prim.setSr b, h.bus, h.acked, h.trace, h.waiting⟩

theorem BitsStep.waits {s t u : State} (h : BitsStep s t) (g : Waits t u) : Waits s u := ⟨h.prim.trans g.1, g.2⟩

theorem writeBits_post (b : Byte) (n : Nat) {s t : State} (hb : s.cfg.backend = .bitBang) (h : BitsStep s t) :
    (writeBits b n t).Post (fun _ u => BitsStep s u ∧ u.eng.sr = t.eng.sr) (Waits s) := by
  induction n generalizing t with
  | zero => exact ⟨h, rfl⟩
  | succ n ih =>
    have h' := h.slot (.bit (Fin.ofNat 8 n))
    refine (writeBit_lines (b.getLsbD n) (h'.prim.cfg ▸ hb) (LinesOnly.refl _)).andThen (fun _ h => h'.waits h)
      fun u hu => ?_
    exact (ih (h'.lines hu.1)).mono (fun _ w hw => ⟨hw.1, hw.2.trans (by rw [hu.1.2]; rfl)⟩) fun _ h => h

theorem readBits_post (n : Nat) {s t : State} (hb : s.cfg.backend = .bitBang) (h : BitsStep s t) :
    (readBits n t).Post (fun _ u => BitsStep s u) (Waits s) := by
  induction n generalizing t with
  | zero => exact h
  | succ n ih =>
    have h' := h.slot (.bit (Fin.ofNat 8 n))
    refine (readBit_lines (h'.prim.cfg ▸ hb) (LinesOnly.refl _)).bind (fun _ h => h'.waits h) fun v u hu => ?_
    exact ih ((h'.lines hu.1).sr _)

/-- All `send_byte(b)` can do on the wire. -/
theorem wireSendByte_post (b : Byte) {s : State} (hb : s.cfg.backend = .bitBang) :
    (wireSendByte b s).Post
      (fun _ t => Completes s t ∧ t.eng.bus = s.eng.bus ∧ t.eng.trace = s.eng.trace ++ [.tx b t.eng.acked])
      (Waits s) := by
  refine (writeBits_post b 8 hb ((BitsStep.refl s).sr b)).andThen (fun _ h => h) fun t ht => ?_
  have h' := ht.1.slot .ack
  refine (readBit_lines (h'.prim.cfg ▸ hb) (LinesOnly.refl _)).bind (fun _ h => h'.waits h) fun v u hu => ?_
  have hf := h'.lines hu.1
  exact ⟨⟨(hf.prim.setAcked _).emit _, hf.waiting⟩, hf.bus, by simp [hf.trace]⟩

/-- All `recv_byte(ack)` can do on the wire. -/
theorem wireRecvByte_post (ack : Bool) {s : State} (hb : s.cfg.backend = .bitBang) :
    (wireRecvByte ack s).Post
      (fun v t => Completes s t ∧ t.eng.bus = s.eng.bus ∧ t.eng.acked = s.eng.acked ∧
        t.eng.trace = s.eng.trace ++ [.rx v ack]) (Waits s) := by
  refine (readBits_post 8 hb ((BitsStep.refl s).sr 0)).andThen (fun _ h => h) fun t ht => ?_
  have h' := ht.slot .ack
  refine (writeBit_lines (!ack) (h'.prim.cfg ▸ hb) (LinesOnly.refl _)).andThen (fun _ h => h'.waits h) fun u hu => ?_
  have hf := h'.lines hu.1
  exact ⟨⟨hf.prim.emit _, hf.waiting⟩, hf.bus, hf.acked, by simp [hf.trace]⟩

/-! ## The peripheral -/

theorem PrimStep.ofSrp {s : State} {r : Srp} (hb : s.cfg.backend = .peripheral) (h1 : r.baud = s.srp.baud)
    (h2 : r.enable = s.srp.enable) : PrimStep s { s with srp := r } :=
  ⟨rfl, rfl, rfl, rfl, rfl, rfl, rfl, rfl, rfl, rfl, rfl, rfl, fun _ => rfl, rfl, rfl, rfl, h1, h2, fun _ => rfl,
    fun hn => absurd hb hn, fun _ => rfl⟩

theorem PrimStep.srpTo {s t : State} (h : PrimStep s t) (hb : s.cfg.backend = .peripheral) (r : Srp)
    (h1 : r.baud = t.srp.baud) (h2 : r.enable = t.srp.enable) : PrimStep s { t with srp := r } :=
  h.trans (PrimStep.ofSrp (h.cfg ▸ hb) h1 h2)

/-- A latch that keeps the registers only `CONFIGURE` writes, and the engine's own marks. -/
def goodLatch (latch : SrpAnswer → Srp → Srp) : Prop :=
  ∀ a r, (latch a r).baud = r.baud ∧ (latch a r).enable = r.enable ∧ (latch a r).lctlOpen = r.lctlOpen

/-- All `wait_done()` can do. -/
theorem waitDone_post {latch : SrpAnswer → Srp → Srp} (hl : goodLatch latch) {s : State}
    (hb : s.cfg.backend = .peripheral) :
    (waitDone latch s).Post
      (fun _ t => PrimStep s t ∧ t.eng = s.eng ∧ t.srp.lctlOpen = s.srp.lctlOpen)
      (fun t => PrimStep s t ∧ t.eng = { s.eng with waiting := some .peripheralDone } ∧ t.srp = s.srp) := by
  unfold waitDone
  split
  · exact ⟨PrimStep.ofSrp hb rfl rfl, rfl, rfl⟩
  · split
    · exact ⟨(PrimStep.refl s).cells (fun e => { e with waiting := some .peripheralDone }) rfl rfl rfl rfl rfl rfl rfl
        rfl rfl fun _ => rfl, rfl, rfl⟩
    · next a rest _ =>
      obtain ⟨h1, h2, h3⟩ := hl a { s.srp with env := rest, done := false }
      exact ⟨PrimStep.ofSrp hb h1 h2, rfl, h3⟩

theorem PrimStep.command {s t : State} (h : PrimStep s t) (hb : s.cfg.backend = .peripheral) (c : SrpCmd) :
    PrimStep s (srpCommand c t) := h.srpTo hb _ rfl rfl

/-- All `P_START` can do. -/
theorem srpStart_post {s : State} (hb : s.cfg.backend = .peripheral) :
    (srpStart s).Post
      (fun _ t => Completes s t ∧ t.eng.bus = .midTransaction ∧ t.eng.acked = s.eng.acked ∧
        t.eng.trace = s.eng.trace ++ [if s.srp.lctlOpen then .rstart else .start] ∧ t.srp.lctlOpen = true)
      (Waits s) := by
  have h0 := (PrimStep.refl s).command hb .start
  refine (waitDone_post (latch := fun a r => { r with arbLost := a.arbLost }) (fun _ _ => ⟨rfl, rfl, rfl⟩)
    (h0.cfg ▸ hb)).andThen
    (fun u hu => ⟨h0.trans hu.1, by rw [hu.2.1]; simp⟩) fun u hu => ?_
  have hp := h0.trans hu.1
  refine ⟨⟨PrimStep.setBus (PrimStep.srpTo ((hp.setArbLost hb u.srp.arbLost).emit
    (if u.srp.lctlOpen then .rstart else .start)) hb { u.srp with lctlOpen := true, afterStart := true } rfl rfl) _, by simp [hu.2.1]⟩, rfl,
    by simp [hu.2.1], ?_, rfl⟩
  simp [hu.2.1, hu.2.2]

/-- All `P_WRITE(b)` can do. -/
theorem srpWrite_post (b : Byte) {s : State} (hb : s.cfg.backend = .peripheral) :
    (srpWrite b s).Post
      (fun _ t => Completes s t ∧ t.eng.bus = s.eng.bus ∧ t.eng.trace = s.eng.trace ++ [.tx b t.eng.acked] ∧
        t.srp.lctlOpen = s.srp.lctlOpen) (Waits s) := by
  have h0 : PrimStep s (srpCommand (.write b) { s with srp := { s.srp with data := b } }) :=
    ((PrimStep.refl s).srpTo hb { s.srp with data := b } rfl rfl).command hb _
  refine (waitDone_post (latch := fun a r => { r with arbLost := arbAfterByte a r, rxAck := a.rxAck })
    (fun _ _ => ⟨rfl, rfl, rfl⟩) (h0.cfg ▸ hb)).andThen
    (fun u hu => ⟨h0.trans hu.1, by rw [hu.2.1]; simp⟩) fun u hu => ?_
  have hp := (h0.trans hu.1).srpTo hb { u.srp with afterStart := false } rfl rfl
  exact ⟨⟨((hp.setArbLost hb _).setAcked _).emit _, by simp [hu.2.1]⟩, by simp [hu.2.1], by simp [hu.2.1],
    by simp [hu.2.2]⟩

/-- All `P_READ(ack)` can do. -/
theorem srpRead_post (ack : Bool) {s : State} (hb : s.cfg.backend = .peripheral) :
    (srpRead ack s).Post
      (fun v t => Completes s t ∧ t.eng.bus = s.eng.bus ∧ t.eng.acked = s.eng.acked ∧
        t.eng.trace = s.eng.trace ++ [.rx v ack] ∧ t.srp.lctlOpen = s.srp.lctlOpen) (Waits s) := by
  have h0 : PrimStep s (srpCommand (.read ack) { s with srp := { s.srp with ackNext := ack } }) :=
    ((PrimStep.refl s).srpTo hb { s.srp with ackNext := ack } rfl rfl).command hb _
  refine (waitDone_post (latch := fun a r => { r with arbLost := arbAfterByte a r, data := a.data })
    (fun _ _ => ⟨rfl, rfl, rfl⟩) (h0.cfg ▸ hb)).andThen
    (fun u hu => ⟨h0.trans hu.1, by rw [hu.2.1]; simp⟩) fun u hu => ?_
  have hp := (h0.trans hu.1).srpTo hb { u.srp with afterStart := false } rfl rfl
  exact ⟨⟨(hp.setArbLost hb _).emit _, by simp [hu.2.1]⟩, by simp [hu.2.1], by simp [hu.2.1], by simp [hu.2.1],
    by simp [hu.2.2]⟩

/-- All `P_STOP` can do. -/
theorem srpStop_post {s : State} (hb : s.cfg.backend = .peripheral) :
    (srpStop s).Post
      (fun _ t => Completes s t ∧ t.eng.bus = .idle ∧ t.eng.acked = s.eng.acked ∧
        t.eng.trace = s.eng.trace ++ [.stop] ∧ t.srp.lctlOpen = false) (Waits s) := by
  have h0 := (PrimStep.refl s).command hb .stop
  refine (waitDone_post (latch := fun _ r => r) (fun _ _ => ⟨rfl, rfl, rfl⟩) (h0.cfg ▸ hb)).andThen
    (fun u hu => ⟨h0.trans hu.1, by rw [hu.2.1]; simp⟩) fun u hu => ?_
  have hp := h0.trans hu.1
  exact ⟨⟨((hp.srpTo hb { u.srp with lctlOpen := false } rfl rfl).setBus _).emit _, by simp [hu.2.1]⟩, rfl,
    by simp [hu.2.1], by simp [hu.2.1], rfl⟩

/-- All the stop request that is not waited for can do. -/
theorem srpStopNoWait_step {s : State} (hb : s.cfg.backend = .peripheral) :
    PrimStep s (srpStopNoWait s) ∧ (srpStopNoWait s).eng = { s.eng with bus := .idle } ∧
      (srpStopNoWait s).srp.lctlOpen = false :=
  ⟨(((PrimStep.refl s).command hb .stop).srpTo hb { (srpCommand .stop s).srp with lctlOpen := false } rfl rfl).setBus _,
    rfl, rfl⟩

/-! ## The simulated bus -/

theorem PrimStep.ofSim {s : State} {m : Sim} (hb : s.cfg.backend = .simulated) : PrimStep s { s with sim := m } :=
  ⟨rfl, rfl, rfl, rfl, rfl, rfl, rfl, rfl, rfl, rfl, rfl, rfl, fun _ => rfl, rfl, rfl, rfl, rfl, rfl, fun _ => rfl,
    fun _ => rfl, fun hn => absurd hb hn⟩

theorem simStart_step {s : State} (hb : s.cfg.backend = .simulated) :
    simStart s = .done () (setBus .midTransaction (emit (restartSym s.eng.bus)
      { s with sim := { s.sim with cur := none, awaitAddr := true } })) ∧
    PrimStep s (setBus .midTransaction (emit (restartSym s.eng.bus)
      { s with sim := { s.sim with cur := none, awaitAddr := true } })) :=
  ⟨rfl, ((PrimStep.ofSim hb).emit _).setBus _⟩

/-! ## The five primitives of the active transport -/

/-- The symbol `start()` emits (R135, R212, R225). -/
def startSym (s : State) : Sym :=
  match s.cfg.backend with
  | .bitBang => .start
  | .peripheral => if s.srp.lctlOpen then .rstart else .start
  | .simulated => restartSym s.eng.bus

/-- The symbol `rstart()` emits (R136, R212, R225). -/
def rstartSym (s : State) : Sym :=
  match s.cfg.backend with
  | .bitBang => restartSym s.eng.bus
  | .peripheral => if s.srp.lctlOpen then .rstart else .start
  | .simulated => restartSym s.eng.bus

/-- All `start()` can do. -/
theorem busStart_post (s : State) :
    (busStart s).Post
      (fun _ t => Completes s t ∧ t.eng.bus = .midTransaction ∧ t.eng.acked = s.eng.acked ∧
        t.eng.trace = s.eng.trace ++ [startSym s] ∧ (s.cfg.backend = .peripheral → t.srp.lctlOpen = true))
      (Waits s) := by
  unfold busStart startSym
  cases hb : s.cfg.backend with
  | bitBang =>
    exact (wireStart_post hb).mono (fun _ _ h => ⟨h.1, h.2.1, h.2.2.1, h.2.2.2, by simp⟩) fun _ h => h
  | peripheral =>
    exact (srpStart_post hb).mono (fun _ _ h => ⟨h.1, h.2.1, h.2.2.1, h.2.2.2.1, fun _ => h.2.2.2.2⟩) fun _ h => h
  | simulated =>
    obtain ⟨he, h⟩ := simStart_step hb
    show (simStart s).Post _ _
    rw [he]
    exact ⟨⟨h, rfl⟩, rfl, rfl, rfl, by simp⟩

/-- All `rstart()` can do. -/
theorem busRstart_post (s : State) :
    (busRstart s).Post
      (fun _ t => Completes s t ∧ t.eng.bus = .midTransaction ∧ t.eng.acked = s.eng.acked ∧
        t.eng.trace = s.eng.trace ++ [rstartSym s] ∧ (s.cfg.backend = .peripheral → t.srp.lctlOpen = true))
      (Waits s) := by
  unfold busRstart rstartSym
  cases hb : s.cfg.backend with
  | bitBang =>
    exact (wireRstart_post hb).mono (fun _ _ h => ⟨h.1, h.2.1, h.2.2.1, h.2.2.2, by simp⟩) fun _ h => h
  | peripheral =>
    exact (srpStart_post hb).mono (fun _ _ h => ⟨h.1, h.2.1, h.2.2.1, h.2.2.2.1, fun _ => h.2.2.2.2⟩) fun _ h => h
  | simulated =>
    obtain ⟨he, h⟩ := simStart_step hb
    show (simStart s).Post _ _
    rw [he]
    exact ⟨⟨h, rfl⟩, rfl, rfl, rfl, by simp⟩

/-- All `stop()` can do. -/
theorem busStop_post (s : State) :
    (busStop s).Post
      (fun _ t => Completes s t ∧ t.eng.bus = .idle ∧ t.eng.acked = s.eng.acked ∧
        t.eng.trace = s.eng.trace ++ [.stop] ∧ (s.cfg.backend = .peripheral → t.srp.lctlOpen = false) ∧
        (s.cfg.backend = .bitBang → t.line.sclOut = true ∧ t.line.sdaOut = true) ∧
        (s.cfg.backend = .simulated → t.sim = { s.sim with cur := none, awaitAddr := false }))
      (Waits s) := by
  unfold busStop
  cases hb : s.cfg.backend with
  | bitBang =>
    exact (wireStop_post hb).mono (fun _ _ h => ⟨h.1, h.2.1, h.2.2.1, h.2.2.2.1, by simp, fun _ => h.2.2.2.2, by simp⟩)
      fun _ h => h
  | peripheral =>
    exact (srpStop_post hb).mono
      (fun _ _ h => ⟨h.1, h.2.1, h.2.2.1, h.2.2.2.1, fun _ => h.2.2.2.2, by simp, by simp⟩) fun _ h => h
  | simulated =>
    exact ⟨⟨(((PrimStep.refl s).emit _).setBus _).trans (PrimStep.ofSim hb), rfl⟩, rfl, rfl, rfl, by simp, by simp,
      fun _ => rfl⟩

/-- All `send_byte(b)` can do. -/
theorem busSendByte_post (b : Byte) (s : State) :
    (busSendByte b s).Post
      (fun _ t => Completes s t ∧ t.eng.bus = s.eng.bus ∧ t.eng.trace = s.eng.trace ++ [.tx b t.eng.acked] ∧
        t.srp.lctlOpen = s.srp.lctlOpen ∧
        (s.cfg.backend = .simulated → t.sim = (s.sim.take b).1 ∧ t.eng.acked = (s.sim.take b).2))
      (Waits s) := by
  unfold busSendByte
  cases hb : s.cfg.backend with
  | bitBang =>
    exact (wireSendByte_post b hb).mono
      (fun _ _ h => ⟨h.1, h.2.1, h.2.2, congrArg Srp.lctlOpen (h.1.1.srp (by simp [hb])), by simp⟩) fun _ h => h
  | peripheral =>
    exact (srpWrite_post b hb).mono (fun _ _ h => ⟨h.1, h.2.1, h.2.2.1, h.2.2.2, by simp⟩) fun _ h => h
  | simulated =>
    exact ⟨⟨((PrimStep.ofSim hb).setAcked _).emit _, rfl⟩, rfl, rfl, rfl, fun _ => ⟨rfl, rfl⟩⟩

/-- All `recv_byte(ack)` can do. -/
theorem busRecvByte_post (ack : Bool) (s : State) :
    (busRecvByte ack s).Post
      (fun v t => Completes s t ∧ t.eng.bus = s.eng.bus ∧ t.eng.acked = s.eng.acked ∧
        t.eng.trace = s.eng.trace ++ [.rx v ack] ∧ t.srp.lctlOpen = s.srp.lctlOpen ∧
        (s.cfg.backend = .simulated →
          t.sim = (s.sim.give s.cfg.oobReadByte).2 ∧ v = (s.sim.give s.cfg.oobReadByte).1))
      (Waits s) := by
  unfold busRecvByte
  cases hb : s.cfg.backend with
  | bitBang =>
    exact (wireRecvByte_post ack hb).mono
      (fun _ _ h => ⟨h.1, h.2.1, h.2.2.1, h.2.2.2, congrArg Srp.lctlOpen (h.1.1.srp (by simp [hb])), by simp⟩)
      fun _ h => h
  | peripheral =>
    exact (srpRead_post ack hb).mono (fun _ _ h => ⟨h.1, h.2.1, h.2.2.1, h.2.2.2.1, h.2.2.2.2, by simp⟩) fun _ h => h
  | simulated =>
    exact ⟨⟨(PrimStep.ofSim hb).emit _, rfl⟩, rfl, rfl, rfl, rfl, fun _ => ⟨rfl, rfl⟩⟩

end Sys2Proof.Machine
end

