-- ==== Sys2Proof/Laws/Willing.lean ====
section
/-! SUPPORT. When the environment lets the primitives complete: a willing environment for `k + 1` commands lets one
complete and stays willing for `k`. -/

namespace Sys2Proof.Machine

open Sys2Proof

theorem willing_bitBang {k : Nat} {s : State} (hb : s.cfg.backend = .bitBang) : Willing k s ↔ s.line.free := by
  unfold Willing
  rw [hb]
  exact Iff.rfl

theorem willing_peripheral {k : Nat} {s : State} (hb : s.cfg.backend = .peripheral) :
    Willing k s ↔ k ≤ s.srp.env.length := by
  unfold Willing
  rw [hb]

theorem willing_simulated {k : Nat} {s : State} (hb : s.cfg.backend = .simulated) : Willing k s := by
  unfold Willing
  rw [hb]
  trivial

theorem Willing.mono {j k : Nat} {s : State} (h : Willing k s) (hj : j ≤ k) : Willing j s := by
  cases hb : s.cfg.backend with
  | bitBang => exact (willing_bitBang hb).2 ((willing_bitBang hb).1 h)
  | peripheral => exact (willing_peripheral hb).2 (hj.trans ((willing_peripheral hb).1 h))
  | simulated => exact willing_simulated hb

/-- Willingness looks only at the parameters and the environment's scripts. -/
theorem Willing.congr {k : Nat} {s t : State} (h : Willing k s) (hc : t.cfg = s.cfg) (hl : t.line.ext = s.line.ext)
    (he : t.line.env = s.line.env) (hp : t.srp.env = s.srp.env) : Willing k t := by
  cases hb : s.cfg.backend with
  | bitBang =>
    refine (willing_bitBang (by rw [hc]; exact hb)).2 ?_
    have := (willing_bitBang hb).1 h
    simpa [Line.free, hl, he] using this
  | peripheral =>
    refine (willing_peripheral (by rw [hc]; exact hb)).2 ?_
    rw [hp]
    exact (willing_peripheral hb).1 h
  | simulated => exact willing_simulated (by rw [hc]; exact hb)

/-- `wait_done()` completes when an answer is to come, and uses up at most one. -/
theorem waitDone_done {latch : SrpAnswer → Srp → Srp} (hl : ∀ a r, (latch a r).env = r.env) {s : State} {k : Nat}
    (h : k + 1 ≤ s.srp.env.length) :
    ∃ t, waitDone latch s = .done () t ∧ k ≤ t.srp.env.length ∧ t.cfg = s.cfg := by
  unfold waitDone
  split
  · exact ⟨_, rfl, by simpa using (by omega : k ≤ s.srp.env.length), rfl⟩
  · cases he : s.srp.env with
    | nil => simp [he] at h
    | cons a rest =>
      refine ⟨_, rfl, ?_, rfl⟩
      simp [hl]
      simpa [he] using h

theorem busStart_done {k : Nat} {s : State} (h : Willing (k + 1) s) :
    ∃ t, busStart s = .done () t ∧ Willing k t := by
  unfold busStart
  cases hb : s.cfg.backend with
  | bitBang =>
    have hf := (willing_bitBang hb).1 h
    exact ⟨_, wireStart_run hf, (willing_bitBang (by simpa using hb)).2 (Line.ck_free _ _ (Line.da_free _ _ hf))⟩
  | peripheral =>
    obtain ⟨t, h1, h2, h3⟩ := waitDone_done (latch := fun a r => { r with arbLost := a.arbLost }) (fun _ _ => rfl)
      (s := srpCommand .start s) (k := k) ((willing_peripheral hb).1 h)
    refine ⟨_, by show srpStart s = _; rw [srpStart, h1]; rfl, ?_⟩
    exact (willing_peripheral (by show t.cfg.backend = _; rw [h3]; exact hb)).2 h2
  | simulated => exact ⟨_, rfl, willing_simulated hb⟩

theorem busRstart_done {k : Nat} {s : State} (h : Willing (k + 1) s) :
    ∃ t, busRstart s = .done () t ∧ Willing k t := by
  unfold busRstart
  cases hb : s.cfg.backend with
  | bitBang =>
    have hf := (willing_bitBang hb).1 h
    exact ⟨_, wireRstart_run hf, (willing_bitBang (by simpa using hb)).2
      (Line.ck_free _ _ (Line.da_free _ _ (Line.ck_free _ _ (Line.da_free _ _ hf))))⟩
  | peripheral =>
    obtain ⟨t, h1, h2, h3⟩ := waitDone_done (latch := fun a r => { r with arbLost := a.arbLost }) (fun _ _ => rfl)
      (s := srpCommand .start s) (k := k) ((willing_peripheral hb).1 h)
    refine ⟨_, by show srpStart s = _; rw [srpStart, h1]; rfl, ?_⟩
    exact (willing_peripheral (by show t.cfg.backend = _; rw [h3]; exact hb)).2 h2
  | simulated => exact ⟨_, rfl, willing_simulated hb⟩

theorem busStop_done {k : Nat} {s : State} (h : Willing (k + 1) s) :
    ∃ t, busStop s = .done () t ∧ Willing k t := by
  unfold busStop
  cases hb : s.cfg.backend with
  | bitBang =>
    have hf := (willing_bitBang hb).1 h
    exact ⟨_, wireStop_run hf, (willing_bitBang (by simpa using hb)).2
      (Line.da_free _ _ (Line.ck_free _ _ (Line.da_free _ _ (Line.ck_free _ _ hf))))⟩
  | peripheral =>
    obtain ⟨t, h1, h2, h3⟩ := waitDone_done (latch := fun _ r => r) (fun _ _ => rfl)
      (s := srpCommand .stop s) (k := k) ((willing_peripheral hb).1 h)
    refine ⟨_, by show srpStop s = _; rw [srpStop, h1]; rfl, ?_⟩
    exact (willing_peripheral (by show t.cfg.backend = _; rw [h3]; exact hb)).2 h2
  | simulated => exact ⟨_, rfl, willing_simulated hb⟩

theorem busSendByte_done (b : Byte) {k : Nat} {s : State} (h : Willing (k + 1) s) :
    ∃ t, busSendByte b s = .done () t ∧ Willing k t := by
  unfold busSendByte
  cases hb : s.cfg.backend with
  | bitBang =>
    have hf := (willing_bitBang hb).1 h
    have hr : ((s.line.bits s.cfg b 8).readbit s.cfg).free := Line.readbit_free _ (Line.bits_free _ _ _ hf)
    refine ⟨_, wireSendByte_run b hf, ?_⟩
    rw [willing_bitBang (by simpa using hb)]
    simpa only [emit_line, setAcked_line, withLine_line] using hr
  | peripheral =>
    obtain ⟨t, h1, h2, h3⟩ := waitDone_done
      (latch := fun a r => { r with arbLost := arbAfterByte a r, rxAck := a.rxAck }) (fun _ _ => rfl)
      (s := srpCommand (.write b) { s with srp := { s.srp with data := b } }) (k := k) ((willing_peripheral hb).1 h)
    refine ⟨_, by show srpWrite b s = _; rw [srpWrite]; dsimp only; rw [h1]; rfl, ?_⟩
    exact (willing_peripheral (by show t.cfg.backend = _; rw [h3]; exact hb)).2 h2
  | simulated => exact ⟨_, rfl, willing_simulated hb⟩

theorem busRecvByte_done (ack : Bool) {k : Nat} {s : State} (h : Willing (k + 1) s) :
    ∃ v t, busRecvByte ack s = .done v t ∧ Willing k t := by
  unfold busRecvByte
  cases hb : s.cfg.backend with
  | bitBang =>
    have hf := (willing_bitBang hb).1 h
    have hr : ((s.line.receive s.cfg 8 0).2.bit s.cfg (!ack)).free := Line.bit_free _ _ (Line.receive_free _ _ _ hf)
    refine ⟨_, _, wireRecvByte_run ack hf, ?_⟩
    rw [willing_bitBang (by simpa using hb)]
    simpa only [emit_line, withLine_line] using hr
  | peripheral =>
    obtain ⟨t, h1, h2, h3⟩ := waitDone_done
      (latch := fun a r => { r with arbLost := arbAfterByte a r, data := a.data }) (fun _ _ => rfl)
      (s := srpCommand (.read ack) { s with srp := { s.srp with ackNext := ack } }) (k := k)
      ((willing_peripheral hb).1 h)
    refine ⟨_, _, by show srpRead ack s = _; rw [srpRead]; dsimp only; rw [h1]; rfl, ?_⟩
    exact (willing_peripheral (by show t.cfg.backend = _; rw [h3]; exact hb)).2 h2
  | simulated => exact ⟨_, _, rfl, willing_simulated hb⟩

end Sys2Proof.Machine
end

