-- ==== Sys2Proof/Laws/Sequencer.lean ====
section
/-! SUPPORT. What the rows of the sequencer and the parts of a transfer can do (spec R181 to R193): one lemma each, for a
completed run and for one that waits for ever; and that they complete in a willing environment. -/

namespace Sys2Proof.Machine

open Sys2Proof

/-! ## Frames -/

theorem BusFrame.refl (s : State) : BusFrame s s :=
  ⟨rfl, rfl, rfl, rfl, rfl, rfl, rfl, rfl, rfl, rfl, fun _ => ⟨rfl, rfl, rfl, rfl⟩, fun _ => rfl, fun _ => rfl⟩

theorem BusFrame.trans {a b c : State} (h : BusFrame a b) (g : BusFrame b c) : BusFrame a c where
  cfg := g.cfg.trans h.cfg
  input := g.input.trans h.input
  tgt := g.tgt.trans h.tgt
  configured := g.configured.trans h.configured
  mode := g.mode.trans h.mode
  tHalf := g.tHalf.trans h.tHalf
  tQuarter := g.tQuarter.trans h.tQuarter
  drive := g.drive.trans h.drive
  baud := g.baud.trans h.baud
  enable := g.enable.trans h.enable
  line hb := by
    obtain ⟨h1, h2, h3, h4⟩ := h.line hb
    obtain ⟨g1, g2, g3, g4⟩ := g.line (by rwa [h.cfg])
    exact ⟨g1.trans h1, g2.trans h2, g3.trans h3, g4.trans h4⟩
  srp hb := (g.srp (by rwa [h.cfg])).trans (h.srp hb)
  sim hb := (g.sim (by rwa [h.cfg])).trans (h.sim hb)

theorem PrimStep.frame {s t : State} (h : PrimStep s t) : BusFrame s t where
  cfg := h.cfg
  input := congrArg HostSide.input h.host
  tgt := h.tgt
  configured := h.configured
  mode := h.mode
  tHalf := h.tHalf
  tQuarter := h.tQuarter
  drive := h.drive
  baud := h.baud
  enable := h.enable
  line hb := by rw [h.line hb]; exact ⟨rfl, rfl, rfl, rfl⟩
  srp := h.srp
  sim := h.sim

/-- What no row inside the loop touches: the frame of every operation on the bus, the host's side, the call's arguments
and the saved interrupt enable, and `ARBLOST` off the peripheral transport. -/
structure LoopStep (s t : State) : Prop where
  frame : BusFrame s t
  host : t.host = s.host
  call : t.eng.call = s.eng.call
  irqSaved : t.eng.irqSaved = s.eng.irqSaved
  arb : s.cfg.backend ≠ .peripheral → t.eng.arbLost = s.eng.arbLost

theorem LoopStep.refl (s : State) : LoopStep s s := ⟨BusFrame.refl s, rfl, rfl, rfl, fun _ => rfl⟩

theorem LoopStep.trans {a b c : State} (h : LoopStep a b) (g : LoopStep b c) : LoopStep a c :=
  ⟨h.frame.trans g.frame, g.host.trans h.host, g.call.trans h.call, g.irqSaved.trans h.irqSaved,
    fun hb => (g.arb (by rwa [h.frame.cfg])).trans (h.arb hb)⟩

theorem PrimStep.loop {s t : State} (h : PrimStep s t) : LoopStep s t :=
  ⟨h.frame, h.host, h.call, h.irqSaved, h.arb⟩

/-- A state that differs in its flags, its position and its read buffers only. -/
theorem LoopStep.place (s : State) (f : BitVec 3) (q : Seq) (b : List BufCell) :
    LoopStep s { s with eng := { s.eng with flg := f, seq := q, buf := b } } :=
  ⟨⟨rfl, rfl, rfl, rfl, rfl, rfl, rfl, rfl, rfl, rfl, fun _ => ⟨rfl, rfl, rfl, rfl⟩, fun _ => rfl, fun _ => rfl⟩, rfl,
    rfl, rfl, fun _ => rfl⟩

/-- The call has met a failure the engine itself produces (R99, R313). -/
def FailedWith (s t : State) (e : BusError) : Prop :=
  t.eng.seq.phase = .failStop e ∧ (e = .nack ∨ (e = .arbitrationLost ∧ s.cfg.backend = .peripheral))

theorem FailedWith.failed {s t : State} {e : BusError} (h : FailedWith s t e) : failed t = true := by
  unfold Machine.failed
  rw [h.1]

theorem FailedWith.before {s t u : State} {e : BusError} (h : FailedWith t u e) (hl : LoopStep s t) :
    FailedWith s u e := ⟨h.1, by rw [← hl.frame.cfg]; exact h.2⟩

theorem failed_false {t : State} (h : ∀ e, t.eng.seq.phase ≠ .failStop e) : failed t = false := by
  unfold failed
  split
  · next e he => exact absurd he (h e)
  all_goals rfl

theorem arbLostRead_peripheral {s : State} (h : arbLostRead s = true) : s.cfg.backend = .peripheral := by
  unfold arbLostRead at h
  split at h
  · assumption
  · cases h
  · cases h

/-- A run inside the loop that waits for ever, standing where the row stands. -/
structure Hangs (s t : State) : Prop where
  loop : LoopStep s t
  waiting : t.eng.waiting ≠ none

/-! ## Flags -/

theorem hasRestart_flagRestart : hasRestart flagRestart = true := by decide

theorem hasStop_flagRestart : hasStop flagRestart = false := by decide

theorem hasRead_effectiveFlags (f : BitVec 3) (m : Msg) : hasRead (effectiveFlags f m) = m.isRead := by
  unfold hasRead effectiveFlags msgFlags flagBits
  cases m.restart <;> cases m.stop <;> cases m.isRead <;> revert f <;> decide

theorem hasStop_effectiveFlags (f : BitVec 3) (m : Msg) : hasStop (effectiveFlags f m) = m.stop := by
  unfold hasStop effectiveFlags msgFlags flagBits
  cases m.restart <;> cases m.stop <;> cases m.isRead <;> revert f <;> decide

theorem hasRestart_effectiveFlags (f : BitVec 3) (m : Msg) :
    hasRestart (effectiveFlags f m) = (hasRestart f || m.restart) := by
  unfold hasRestart effectiveFlags msgFlags flagBits
  cases m.restart <;> cases m.stop <;> cases m.isRead <;> revert f <;> decide

theorem hasRead_clearRestart (f : BitVec 3) : hasRead (clearRestart f) = hasRead f := by revert f; decide

theorem hasStop_clearRestart (f : BitVec 3) : hasStop (clearRestart f) = hasStop f := by revert f; decide

theorem hasRestart_clearRestart (f : BitVec 3) : hasRestart (clearRestart f) = false := by revert f; decide

theorem clearRestart_of_not {f : BitVec 3} (h : hasRestart f = false) : clearRestart f = f := by revert f; decide

/-! ## Rows -/

/-- All the address row can do. -/
theorem rowAddr_post (b : Byte) (s : State) :
    (rowAddr b s).Post
      (fun _ t => LoopStep s t ∧ t.eng.waiting = s.eng.waiting ∧ t.eng.seq.i = s.eng.seq.i ∧ t.eng.buf = s.eng.buf ∧
        ∃ a, t.eng.trace = s.eng.trace ++ [.tx b a] ∧
          ((∃ e, FailedWith s t e ∧ (e = .nack → a = false)) ∨
            (a = true ∧ t.eng.seq.phase = dataPhase s.eng.flg ∧ t.eng.seq.j = s.eng.seq.j ∧
              t.eng.flg = clearRestart s.eng.flg ∧ t.eng.bus = s.eng.bus ∧ t.srp.lctlOpen = s.srp.lctlOpen)))
      (Waits s) := by
  refine (busSendByte_post b s).andThen (fun _ h => h) fun t ht => ?_
  obtain ⟨⟨hp, hw⟩, hbus, htr, hlc, -⟩ := ht
  split
  · next ha =>
    refine ⟨hp.loop.trans (LoopStep.place _ _ { t.eng.seq with phase := _ } _), hw, hp.i, hp.buf, _, htr, .inl ?_⟩
    exact ⟨.arbitrationLost, ⟨rfl, .inr ⟨rfl, by rw [← hp.cfg]; exact arbLostRead_peripheral ha⟩⟩, by simp⟩
  · split
    · next hk =>
      refine ⟨hp.loop.trans (LoopStep.place _ _ { t.eng.seq with phase := _ } _), hw, hp.i, hp.buf, _, htr, .inl ?_⟩
      exact ⟨.nack, ⟨rfl, .inl rfl⟩, fun _ => by simpa using hk⟩
    · next hk =>
      refine ⟨hp.loop.trans (LoopStep.place _ (clearRestart t.eng.flg) { t.eng.seq with phase := _ } _), hw, hp.i,
        hp.buf, _, htr, .inr ⟨by simpa using hk, ?_, hp.j, ?_, hbus, hlc⟩⟩
      · show dataPhase t.eng.flg = _
        rw [hp.flg]
      · show clearRestart t.eng.flg = _
        rw [hp.flg]

/-- All a written data byte can do: only a byte that is not acknowledged gives `Nack`. -/
theorem rowSend_post (b : Byte) (s : State) :
    (rowSend b s).Post
      (fun _ t => LoopStep s t ∧ t.eng.waiting = s.eng.waiting ∧ t.eng.seq.i = s.eng.seq.i ∧ t.eng.buf = s.eng.buf ∧
        t.eng.flg = s.eng.flg ∧
          ((∃ e, FailedWith s t e ∧ ∃ a, t.eng.trace = s.eng.trace ++ [.tx b a] ∧ (e = .nack → a = false)) ∨
            (t.eng.trace = s.eng.trace ++ [.tx b true] ∧ t.eng.seq.phase = s.eng.seq.phase ∧
              t.eng.seq.j = s.eng.seq.j + 1 ∧ t.eng.bus = s.eng.bus ∧ t.srp.lctlOpen = s.srp.lctlOpen)))
      (Waits s) := by
  refine (busSendByte_post b s).andThen (fun _ h => h) fun t ht => ?_
  obtain ⟨⟨hp, hw⟩, hbus, htr, hlc, -⟩ := ht
  split
  · next ha =>
    refine ⟨hp.loop.trans (LoopStep.place _ _ { t.eng.seq with phase := _, j := _ } _), hw, hp.i, hp.buf, hp.flg, .inl ?_⟩
    exact ⟨.arbitrationLost, ⟨rfl, .inr ⟨rfl, by rw [← hp.cfg]; exact arbLostRead_peripheral ha⟩⟩, _, htr, by simp⟩
  · split
    · next hk =>
      refine ⟨hp.loop.trans (LoopStep.place _ _ { t.eng.seq with phase := _, j := _ } _), hw, hp.i, hp.buf, hp.flg, .inl ?_⟩
      exact ⟨.nack, ⟨rfl, .inl rfl⟩, _, htr, fun _ => by simpa using hk⟩
    · next hk =>
      have hk' : t.eng.acked = true := by simpa using hk
      refine ⟨hp.loop.trans (LoopStep.place _ _ { t.eng.seq with j := _ } _), hw, hp.i, hp.buf, hp.flg, .inr ⟨?_, hp.phase, ?_, hbus, hlc⟩⟩
      · show t.eng.trace = _
        rw [htr, hk']
      · show t.eng.seq.j + 1 = _
        rw [hp.j]

/-- All a received data byte can do: it is stored, and only a loss of arbitration fails (R188, R194). -/
theorem rowRecv_post (len : Nat) (s : State) :
    (rowRecv len s).Post
      (fun _ t => LoopStep s t ∧ t.eng.waiting = s.eng.waiting ∧ t.eng.seq.i = s.eng.seq.i ∧ t.eng.flg = s.eng.flg ∧
        ∃ v, t.eng.buf = s.eng.buf ++ [⟨s.eng.seq.i, s.eng.seq.j, v⟩] ∧
          t.eng.trace = s.eng.trace ++ [.rx v (recvAck (msgCount s) s.eng.seq.i len s.eng.seq.j)] ∧
          (FailedWith s t .arbitrationLost ∨
            (t.eng.seq.phase = s.eng.seq.phase ∧ t.eng.seq.j = s.eng.seq.j + 1 ∧ t.eng.bus = s.eng.bus ∧
              t.srp.lctlOpen = s.srp.lctlOpen)))
      (Waits s) := by
  refine (busRecvByte_post _ s).bind (fun _ h => h) fun v t ht => ?_
  obtain ⟨⟨hp, hw⟩, hbus, hack, htr, hlc, -⟩ := ht
  have hbuf : t.eng.buf ++ [⟨t.eng.seq.i, t.eng.seq.j, v⟩] = s.eng.buf ++ [⟨s.eng.seq.i, s.eng.seq.j, v⟩] := by
    rw [hp.buf, hp.i, hp.j]
  dsimp only
  split
  · next ha =>
    refine ⟨hp.loop.trans (LoopStep.place _ _ { t.eng.seq with phase := _, j := _ } _), hw, hp.i, hp.flg, v, hbuf, htr,
      .inl ?_⟩
    exact ⟨rfl, .inr ⟨rfl, by rw [← hp.cfg]; exact arbLostRead_peripheral ha⟩⟩
  · refine ⟨hp.loop.trans (LoopStep.place _ _ { t.eng.seq with j := _ } _), hw, hp.i, hp.flg, v, hbuf, htr,
      .inr ⟨hp.phase, ?_, hbus, hlc⟩⟩
    show t.eng.seq.j + 1 = _
    rw [hp.j]

/-- Where a data phase hangs: at its message, with its flags. -/
structure HangsAt (s t : State) : Prop where
  loop : LoopStep s t
  waiting : t.eng.waiting ≠ none
  phase : t.eng.seq.phase = s.eng.seq.phase
  i : t.eng.seq.i = s.eng.seq.i
  flg : t.eng.flg = s.eng.flg

theorem Waits.at {s t : State} (h : Waits s t) : HangsAt s t := ⟨h.1.loop, h.2, h.1.phase, h.1.i, h.1.flg⟩

theorem HangsAt.after {s t u : State} (h : HangsAt t u) (hl : LoopStep s t) (hp : t.eng.seq.phase = s.eng.seq.phase)
    (hi : t.eng.seq.i = s.eng.seq.i) (hf : t.eng.flg = s.eng.flg) : HangsAt s u :=
  ⟨hl.trans h.loop, h.waiting, h.phase.trans hp, h.i.trans hi, h.flg.trans hf⟩

/-- All the bytes of a write message can do (R187): a failure is at one of them, behind bytes that were acknowledged. -/
theorem sendAll_post (bs : List Byte) (s : State) (hp : s.eng.seq.phase = .dataWr) :
    (sendAll bs s).Post
      (fun _ t => LoopStep s t ∧ t.eng.waiting = s.eng.waiting ∧ t.eng.seq.i = s.eng.seq.i ∧ t.eng.buf = s.eng.buf ∧
        t.eng.flg = s.eng.flg ∧
          ((∃ e, FailedWith s t e ∧ ∃ pre b post a, bs = pre ++ b :: post ∧
              t.eng.trace = s.eng.trace ++ (txSyms pre ++ [.tx b a]) ∧ (e = .nack → a = false)) ∨
            (t.eng.trace = s.eng.trace ++ txSyms bs ∧ t.eng.seq.phase = .dataWr ∧ t.eng.bus = s.eng.bus ∧
              t.srp.lctlOpen = s.srp.lctlOpen)))
      (HangsAt s) := by
  induction bs generalizing s with
  | nil => exact ⟨LoopStep.refl s, rfl, rfl, rfl, rfl, .inr ⟨by simp [txSyms], hp, rfl, rfl⟩⟩
  | cons b bs ih =>
    refine (rowSend_post b s).andThen (fun _ h => h.at) fun t ht => ?_
    obtain ⟨hl, hw, hi, hb, hf, ⟨e, he, a, htr, ha⟩ | ⟨htr, hph, -, hbus, hlc⟩⟩ := ht
    · rw [if_pos he.failed]
      exact ⟨hl, hw, hi, hb, hf, .inl ⟨e, he, [], b, bs, a, rfl, htr, ha⟩⟩
    · have hp' : t.eng.seq.phase = .dataWr := hph.trans hp
      rw [if_neg (by rw [failed_false (by simp [hp'])]; simp)]
      refine (ih t hp').mono (fun _ u hu => ?_) fun u hu => hu.after hl hph hi hf
      obtain ⟨gl, gw, gi, gb, gf, ⟨e, ge, pre, d, post, a, gbs, gtr, ga⟩ | ⟨gtr, gph, gbus, glc⟩⟩ := hu
      · exact ⟨hl.trans gl, gw.trans hw, gi.trans hi, gb.trans hb, gf.trans hf,
          .inl ⟨e, ge.before hl, b :: pre, d, post, a, by rw [gbs]; rfl, by rw [gtr, htr]; simp [txSyms], ga⟩⟩
      · exact ⟨hl.trans gl, gw.trans hw, gi.trans hi, gb.trans hb, gf.trans hf,
          .inr ⟨by rw [gtr, htr]; simp [txSyms], gph, gbus.trans hbus, glc.trans hlc⟩⟩

/-- The cells that `n` bytes of message `i`, from byte `j` on, are stored in. -/
def cellsAt (i : Nat) : Nat → List Byte → List BufCell
  | _, [] => []
  | j, v :: vs => ⟨i, j, v⟩ :: cellsAt i (j + 1) vs

/-- The symbols of received bytes from byte `j` of message `i` on. -/
def recvSyms (n i len : Nat) : Nat → List Byte → List Sym
  | _, [] => []
  | j, v :: vs => .rx v (recvAck n i len j) :: recvSyms n i len (j + 1) vs

/-- All bytes of a read message are acknowledged, but for the last one of the last message (R188). -/
theorem recvSyms_rx (n i len j : Nat) (vs : List Byte) (h : j + vs.length = len) :
    recvSyms n i len j vs = rxSyms vs (!decide (i + 1 = n)) := by
  induction vs generalizing j with
  | nil => rfl
  | cons v vs ih =>
    cases vs with
    | nil =>
      have : j + 1 = len := by simpa using h
      simp [recvSyms, rxSyms, recvAck, this]
    | cons w ws =>
      have h1 : ¬ j + 1 = len := by simp at h; omega
      rw [recvSyms, ih (j + 1) (by simp at h ⊢; omega)]
      simp [rxSyms, recvAck, h1]

/-- The cells, each at the place of its byte. -/
theorem cellsAt_mapIdx (i j : Nat) (vs : List Byte) : cellsAt i j vs = vs.mapIdx fun k v => ⟨i, j + k, v⟩ := by
  induction vs generalizing j with
  | nil => rfl
  | cons v vs ih =>
    rw [cellsAt, ih, List.mapIdx_cons]
    simp only [Nat.add_assoc, Nat.add_comm 1, Nat.add_zero]

/-- The symbols of received bytes, each at the place of its byte. -/
theorem recvSyms_mapIdx (n i len j : Nat) (vs : List Byte) :
    recvSyms n i len j vs = vs.mapIdx fun k v => .rx v (recvAck n i len (j + k)) := by
  induction vs generalizing j with
  | nil => rfl
  | cons v vs ih =>
    rw [recvSyms, ih, List.mapIdx_cons]
    simp only [Nat.add_assoc, Nat.add_comm 1, Nat.add_zero]

theorem cellsAt_val (i j : Nat) (vs : List Byte) : (cellsAt i j vs).map BufCell.val = vs := by
  induction vs generalizing j with
  | nil => rfl
  | cons v vs ih => simp [cellsAt, ih]

theorem msgCount_loop {s t : State} (h : LoopStep s t) : msgCount t = msgCount s := by
  unfold msgCount
  rw [h.call]

/-- All the bytes of a read message can do (R188, R194): each byte received is stored, the one at which arbitration is
lost too. -/
theorem recvAll_post (len n : Nat) (s : State) (hp : s.eng.seq.phase = .dataRd) :
    (recvAll len n s).Post
      (fun _ t => LoopStep s t ∧ t.eng.waiting = s.eng.waiting ∧ t.eng.seq.i = s.eng.seq.i ∧ t.eng.flg = s.eng.flg ∧
        ∃ vs, t.eng.buf = s.eng.buf ++ cellsAt s.eng.seq.i s.eng.seq.j vs ∧
          t.eng.trace = s.eng.trace ++ recvSyms (msgCount s) s.eng.seq.i len s.eng.seq.j vs ∧
          ((FailedWith s t .arbitrationLost ∧ vs ≠ [] ∧ vs.length ≤ n) ∨
            (vs.length = n ∧ t.eng.seq.phase = .dataRd ∧ t.eng.bus = s.eng.bus ∧ t.srp.lctlOpen = s.srp.lctlOpen)))
      (HangsAt s) := by
  induction n generalizing s with
  | zero =>
    exact ⟨LoopStep.refl s, rfl, rfl, rfl, [], by simp [cellsAt], by simp [recvSyms], .inr ⟨rfl, hp, rfl, rfl⟩⟩
  | succ n ih =>
    refine (rowRecv_post len s).andThen (fun _ h => h.at) fun t ht => ?_
    obtain ⟨hl, hw, hi, hf, v, hb, htr, he | ⟨hph, hj, hbus, hlc⟩⟩ := ht
    · rw [if_pos he.failed]
      exact ⟨hl, hw, hi, hf, [v], by simpa [cellsAt] using hb, by simpa [recvSyms] using htr,
        .inl ⟨he, by simp, by simp⟩⟩
    · have hp' : t.eng.seq.phase = .dataRd := hph.trans hp
      rw [if_neg (by rw [failed_false (by simp [hp'])]; simp)]
      refine (ih t hp').mono (fun _ u hu => ?_) fun u hu => hu.after hl hph hi hf
      obtain ⟨gl, gw, gi, gf, vs, gb, gtr, hres⟩ := hu
      refine ⟨hl.trans gl, gw.trans hw, gi.trans hi, gf.trans hf, v :: vs, ?_, ?_, ?_⟩
      · rw [gb, hb, hi, hj]; simp [cellsAt]
      · rw [gtr, htr, hi, hj, msgCount_loop hl]; simp [recvSyms]
      · rcases hres with ⟨ge, -, glen⟩ | ⟨glen, gph, gbus, glc⟩
        · exact .inl ⟨ge.before hl, by simp, by simpa using glen⟩
        · exact .inr ⟨by simp [glen], gph, gbus.trans hbus, glc.trans hlc⟩

/-- The data symbols and cells of one message, given the bytes read. -/
def MsgData (n i : Nat) (m : Msg) (vs : List Byte) (syms : List Sym) (cells : List BufCell) : Prop :=
  match m.body with
  | .write buf => vs = [] ∧ syms = txSyms buf ∧ cells = []
  | .read len => vs.length = len ∧ syms = recvSyms n i len 0 vs ∧ cells = cellsAt i 0 vs

/-- The data symbols and cells of a message that fails at one of its bytes (R187, R194, R322): the bytes before it were
acknowledged, a byte not acknowledged gives `Nack`, and a read byte can only lose arbitration. -/
def DataFailure (n i : Nat) (m : Msg) (e : BusError) (syms : List Sym) (cells : List BufCell) : Prop :=
  match m.body with
  | .write buf => cells = [] ∧ ∃ pre b post a, buf = pre ++ b :: post ∧ syms = txSyms pre ++ [.tx b a] ∧
      (e = .nack → a = false)
  | .read len => e = .arbitrationLost ∧ ∃ vs, vs ≠ [] ∧ vs.length ≤ len ∧ syms = recvSyms n i len 0 vs ∧
      cells = cellsAt i 0 vs

/-- All step 3d can do (R187, R188). -/
theorem runData_post (m : Msg) (s : State) (hp : s.eng.seq.phase = if m.isRead then .dataRd else .dataWr)
    (hj : s.eng.seq.j = 0) :
    (runData m s).Post
      (fun _ t => LoopStep s t ∧ t.eng.waiting = s.eng.waiting ∧ t.eng.seq.i = s.eng.seq.i ∧ t.eng.flg = s.eng.flg ∧
          ((∃ e syms cells, FailedWith s t e ∧ DataFailure (msgCount s) s.eng.seq.i m e syms cells ∧
              t.eng.trace = s.eng.trace ++ syms ∧ t.eng.buf = s.eng.buf ++ cells) ∨
            (∃ vs syms cells, MsgData (msgCount s) s.eng.seq.i m vs syms cells ∧
              t.eng.trace = s.eng.trace ++ syms ∧ t.eng.buf = s.eng.buf ++ cells ∧
              t.eng.seq.phase = s.eng.seq.phase ∧ t.eng.bus = s.eng.bus ∧ t.srp.lctlOpen = s.srp.lctlOpen)))
      (HangsAt s) := by
  unfold runData
  cases hb : m.body with
  | write buf =>
    have hr : m.isRead = false := by simp [Msg.isRead, hb]
    rw [hr] at hp
    refine (sendAll_post buf s hp).mono (fun _ t ht => ?_) fun _ h => h
    obtain ⟨h1, h2, h3, h4, h5, h6⟩ := ht
    refine ⟨h1, h2, h3, h5, h6.imp (fun ⟨e, he, pre, b, post, a, g1, g2, g3⟩ => ?_) fun ⟨g1, g2, g3, g4⟩ => ?_⟩
    · refine ⟨e, _, [], he, ?_, g2, by simp [h4]⟩
      unfold DataFailure
      rw [hb]
      exact ⟨rfl, pre, b, post, a, g1, rfl, g3⟩
    exact ⟨[], txSyms buf, [], by simp [MsgData, hb], g1, by simp [h4], g2.trans hp.symm, g3, g4⟩
  | read len =>
    have hr : m.isRead = true := by simp [Msg.isRead, hb]
    rw [hr] at hp
    refine (recvAll_post len len s hp).mono (fun _ t ht => ?_) fun _ h => h
    obtain ⟨h1, h2, h3, h4, vs, h5, g2, h6⟩ := ht
    rw [hj] at g2 h5
    refine ⟨h1, h2, h3, h4, h6.imp (fun ⟨he, g3, g4⟩ => ?_) fun ⟨g1, g3, g4, g5⟩ => ?_⟩
    · refine ⟨_, _, _, he, ?_, g2, h5⟩
      unfold DataFailure
      rw [hb]
      exact ⟨rfl, vs, g3, g4, rfl, rfl⟩
    exact ⟨vs, _, _, by simp [MsgData, hb, g1], g2, h5, g3.trans hp.symm, g4, g5⟩

/-! ## Completion in a willing environment -/

theorem Willing.place {k : Nat} {s : State} (h : Willing k s) (f : BitVec 3) (q : Seq) (b : List BufCell) :
    Willing k { s with eng := { s.eng with flg := f, seq := q, buf := b } } := h.congr rfl rfl rfl rfl

theorem rowAddr_done (b : Byte) {k : Nat} {s : State} (h : Willing (k + 1) s) :
    ∃ t, rowAddr b s = .done () t ∧ Willing k t := by
  obtain ⟨t, ht, hw⟩ := busSendByte_done b h
  unfold rowAddr
  rw [ht]
  simp only [Run.andThen_done]
  split
  · exact ⟨_, rfl, hw.place _ { t.eng.seq with phase := _ } _⟩
  · split
    · exact ⟨_, rfl, hw.place _ { t.eng.seq with phase := _ } _⟩
    · exact ⟨_, rfl, hw.place _ { t.eng.seq with phase := _ } _⟩

theorem rowSend_done (b : Byte) {k : Nat} {s : State} (h : Willing (k + 1) s) :
    ∃ t, rowSend b s = .done () t ∧ Willing k t := by
  obtain ⟨t, ht, hw⟩ := busSendByte_done b h
  unfold rowSend
  rw [ht]
  simp only [Run.andThen_done]
  split
  · exact ⟨_, rfl, hw.place _ { t.eng.seq with phase := _, j := _ } _⟩
  · split
    · exact ⟨_, rfl, hw.place _ { t.eng.seq with phase := _, j := _ } _⟩
    · exact ⟨_, rfl, hw.place _ { t.eng.seq with j := _ } _⟩

theorem rowRecv_done (len : Nat) {k : Nat} {s : State} (h : Willing (k + 1) s) :
    ∃ t, rowRecv len s = .done () t ∧ Willing k t := by
  obtain ⟨v, t, ht, hw⟩ := busRecvByte_done (recvAck (msgCount s) s.eng.seq.i len s.eng.seq.j) h
  unfold rowRecv
  rw [ht]
  simp only [Run.bind_done]
  split
  · exact ⟨_, rfl, hw.place _ { t.eng.seq with phase := _, j := _ } _⟩
  · exact ⟨_, rfl, hw.place _ { t.eng.seq with j := _ } _⟩

theorem sendAll_done (bs : List Byte) {k : Nat} {s : State} (h : Willing (k + bs.length) s) :
    ∃ t, sendAll bs s = .done () t ∧ Willing k t := by
  induction bs generalizing s with
  | nil => exact ⟨s, rfl, h⟩
  | cons b bs ih =>
    obtain ⟨t, ht, hw⟩ := rowSend_done b (k := k + bs.length) h
    rw [sendAll, ht]
    simp only [Run.andThen_done]
    split
    · exact ⟨t, rfl, hw.mono (by omega)⟩
    · exact ih hw

theorem recvAll_done (len n : Nat) {k : Nat} {s : State} (h : Willing (k + n) s) :
    ∃ t, recvAll len n s = .done () t ∧ Willing k t := by
  induction n generalizing s with
  | zero => exact ⟨s, rfl, h⟩
  | succ n ih =>
    obtain ⟨t, ht, hw⟩ := rowRecv_done len (k := k + n) h
    rw [recvAll, ht]
    simp only [Run.andThen_done]
    split
    · exact ⟨t, rfl, hw.mono (by omega)⟩
    · exact ih hw

theorem runData_done (m : Msg) {k : Nat} {s : State} (h : Willing (k + m.len) s) :
    ∃ t, runData m s = .done () t ∧ Willing k t := by
  unfold runData
  unfold Msg.len at h
  cases hb : m.body with
  | write buf =>
    rw [hb] at h
    exact sendAll_done buf h
  | read len =>
    rw [hb] at h
    exact recvAll_done len len h

theorem rowPreStop_done {k : Nat} {s : State} (h : Willing (k + 1) s) :
    ∃ t, rowPreStop s = .done () t ∧ Willing k t := by
  unfold rowPreStop
  split
  · obtain ⟨t, ht, hw⟩ := busStop_done h
    rw [ht]
    exact ⟨_, rfl, hw.place _ { t.eng.seq with phase := _ } _⟩
  · exact ⟨_, rfl, (h.mono (by omega)).place _ { s.eng.seq with phase := _ } _⟩

theorem rowCond_done {k : Nat} {s : State} (h : Willing (k + 1) s) :
    ∃ t, rowCond s = .done () t ∧ Willing k t := by
  unfold rowCond
  split
  · obtain ⟨t, ht, hw⟩ := busStart_done h
    rw [ht]
    exact ⟨_, rfl, hw.place _ { t.eng.seq with phase := _ } _⟩
  · obtain ⟨t, ht, hw⟩ := busRstart_done h
    rw [ht]
    exact ⟨_, rfl, hw.place _ { t.eng.seq with phase := _ } _⟩

theorem runAddr_done (a : Addr) {k : Nat} {s : State} (h : Willing (k + 2) s) :
    ∃ t, runAddr a s = .done () t ∧ Willing k t := by
  unfold runAddr
  split
  · obtain ⟨t, ht, hw⟩ := rowCond_done (k := k + 1) h
    rw [ht]
    exact rowAddr_done _ hw
  · exact ⟨s, rfl, h.mono (by omega)⟩

theorem runMsg_done (a : Addr) (m : Msg) {k : Nat} {s : State} (h : Willing (k + msgCommands m) s) :
    ∃ t, runMsg a m s = .done () t ∧ Willing k t := by
  obtain ⟨t1, h1, w1⟩ := rowPreStop_done (k := k + m.len + 2) (s := s) (h.mono (by unfold msgCommands; omega))
  have w1' : Willing (k + m.len + 2) (rowLoadFlags m t1) := w1.place _ { t1.eng.seq with phase := _, j := _, k := _ } _
  obtain ⟨t2, h2, w2⟩ := runAddr_done a w1'
  obtain ⟨t3, h3, w3⟩ := runData_done m w2
  unfold runMsg
  rw [h1]
  simp only [Run.andThen_done]
  rw [h2]
  simp only [Run.andThen_done]
  split
  · exact ⟨t2, rfl, w2.mono (by omega)⟩
  · rw [h3]
    simp only [Run.andThen_done]
    split
    · exact ⟨t3, rfl, w3⟩
    · refine ⟨_, rfl, ?_⟩
      unfold rowEndMsg
      split
      · exact w3.place _ { t3.eng.seq with phase := _, i := _ } _
      · exact w3.place _ { t3.eng.seq with phase := _ } _

theorem takeFailure_done (e : BusError) {s : State} {k : Nat} (h : Willing (k + 1) s) :
    ∃ t, takeFailure e s = .done () t ∧ Willing k t := by
  have hleave : ∀ {t : State}, Willing k t →
      Willing k (setPhase .done (setResult (.err e) (leave t))) := fun {t} ht => by
    refine ht.congr ?_ ?_ ?_ ?_ <;> unfold leave <;> cases t.cfg.backend <;> rfl
  unfold takeFailure
  cases e with
  | arbitrationLost =>
    refine ⟨_, rfl, hleave ?_⟩
    exact (h.mono (by omega)).congr rfl rfl rfl rfl
  | _ =>
    obtain ⟨t, ht, hw⟩ := busStop_done h
    rw [ht]
    exact ⟨_, rfl, hleave hw⟩

theorem rowFinal_done {s : State} {k : Nat} (h : Willing (k + 1) s) : ∃ t, rowFinal s = .done () t ∧ Willing k t := by
  obtain ⟨t, ht, hw⟩ := busStop_done h
  unfold rowFinal
  rw [ht]
  refine ⟨_, rfl, hw.congr ?_ ?_ ?_ ?_⟩ <;> unfold leave <;> cases t.cfg.backend <;> rfl

theorem finishCall_done {s : State} {k : Nat} (h : Willing (k + 1) s) :
    ∃ t, finishCall s = .done () t ∧ Willing k t := by
  unfold finishCall
  split
  · obtain ⟨t, ht, hw⟩ := takeFailure_done _ h
    rw [ht]
    exact ⟨_, rfl, hw.congr rfl rfl rfl rfl⟩
  all_goals
    obtain ⟨t, ht, hw⟩ := rowFinal_done h
    rw [ht]
    exact ⟨_, rfl, hw.congr rfl rfl rfl rfl⟩

end Sys2Proof.Machine
end

