-- ==== Sys2Proof/Laws/Transfer.lean ====
section
/-! SUPPORT. What one message, the messages of a call, the failure path, the final stop and the whole transfer can do
(spec R181 to R195, R320, R321). -/

namespace Sys2Proof.Machine

open Sys2Proof

/-! ## Conditions -/

/-- Whether a transaction is open, as the active transport sees it (R23, R34). -/
def busOpen (s : State) : Bool :=
  match s.cfg.backend with
  | .peripheral => s.srp.lctlOpen
  | .bitBang | .simulated => decide (s.eng.bus = .midTransaction)

/-- The condition symbol before message `i`, with a transaction open or not. -/
def condSym (b : Backend) (i : Nat) (o : Bool) : Sym :=
  if i = 0 ∧ b = .bitBang then .start else if o then .rstart else .start

theorem restartSym_eq (b : BusState) : restartSym b = if decide (b = .midTransaction) then .rstart else .start := by
  cases b <;> rfl

theorem startSym_eq (s : State) : startSym s = condSym s.cfg.backend 0 (busOpen s) := by
  unfold startSym condSym busOpen
  cases s.cfg.backend <;> simp [restartSym_eq]

theorem rstartSym_eq (s : State) {i : Nat} (h : i ≠ 0) : rstartSym s = condSym s.cfg.backend i (busOpen s) := by
  unfold rstartSym condSym busOpen
  cases s.cfg.backend <;> simp [restartSym_eq, h]

theorem busOpen_idle {s t : State} (hc : t.cfg = s.cfg) (hb : t.eng.bus = .idle)
    (hl : s.cfg.backend = .peripheral → t.srp.lctlOpen = false) : busOpen t = false := by
  unfold busOpen
  rw [hc, hb]
  cases h : s.cfg.backend <;> simp [hl, h]

theorem busOpen_mid {s t : State} (hc : t.cfg = s.cfg) (hb : t.eng.bus = .midTransaction)
    (hl : s.cfg.backend = .peripheral → t.srp.lctlOpen = true) : busOpen t = true := by
  unfold busOpen
  rw [hc, hb]
  cases h : s.cfg.backend <;> simp [hl, h]

theorem busOpen_same {s t : State} (hc : t.cfg = s.cfg) (hb : t.eng.bus = s.eng.bus)
    (hl : t.srp.lctlOpen = s.srp.lctlOpen) : busOpen t = busOpen s := by
  unfold busOpen
  rw [hc, hb, hl]

/-- Every bus primitive's frame in the shape the sequencer's lemmas use. -/
theorem Completes.loop {s t : State} (h : Completes s t) : LoopStep s t := h.1.loop

/-- All the deferred stop can do (R184). -/
theorem rowPreStop_post (s : State) :
    (rowPreStop s).Post
      (fun _ t => LoopStep s t ∧ t.eng.waiting = s.eng.waiting ∧ t.eng.flg = s.eng.flg ∧ t.eng.seq.i = s.eng.seq.i ∧
        t.eng.buf = s.eng.buf ∧ t.eng.seq.phase = .loadFlags ∧
        t.eng.trace = s.eng.trace ++ (if hasStop s.eng.flg then [.stop] else []) ∧
        busOpen t = (busOpen s && !hasStop s.eng.flg))
      (HangsAt s) := by
  unfold rowPreStop
  split
  · next hs =>
    refine (busStop_post s).andThen (fun _ h => h.at) fun t ht => ?_
    obtain ⟨⟨hp, hw⟩, hbus, -, htr, hlc, -⟩ := ht
    refine ⟨hp.loop.trans (LoopStep.place _ _ { t.eng.seq with phase := _ } _), hw, hp.flg, hp.i, hp.buf, rfl, htr, ?_⟩
    rw [hs, Bool.not_true, Bool.and_false]
    exact busOpen_idle (s := s) hp.cfg hbus hlc
  · next hs =>
    refine ⟨LoopStep.place _ _ { s.eng.seq with phase := _ } _, rfl, rfl, rfl, rfl, rfl, by simp, ?_⟩
    show busOpen s = _
    simp [hs]

/-- All the condition row can do (R186). -/
theorem rowCond_post (s : State) :
    (rowCond s).Post
      (fun _ t => LoopStep s t ∧ t.eng.waiting = s.eng.waiting ∧ t.eng.flg = s.eng.flg ∧ t.eng.seq.i = s.eng.seq.i ∧
        t.eng.seq.j = s.eng.seq.j ∧ t.eng.buf = s.eng.buf ∧ t.eng.seq.phase = .addr ∧
        t.eng.trace = s.eng.trace ++ [condSym s.cfg.backend s.eng.seq.i (busOpen s)] ∧ busOpen t = true)
      (HangsAt s) := by
  have key : ∀ (r : Run Unit) (y : Sym), y = condSym s.cfg.backend s.eng.seq.i (busOpen s) →
      r.Post (fun _ t => Completes s t ∧ t.eng.bus = .midTransaction ∧ t.eng.acked = s.eng.acked ∧
        t.eng.trace = s.eng.trace ++ [y] ∧ (s.cfg.backend = .peripheral → t.srp.lctlOpen = true)) (Waits s) →
      (r.andThen fun s => .done () (setPhase .addr s)).Post
        (fun _ t => LoopStep s t ∧ t.eng.waiting = s.eng.waiting ∧ t.eng.flg = s.eng.flg ∧ t.eng.seq.i = s.eng.seq.i ∧
          t.eng.seq.j = s.eng.seq.j ∧ t.eng.buf = s.eng.buf ∧ t.eng.seq.phase = .addr ∧
          t.eng.trace = s.eng.trace ++ [condSym s.cfg.backend s.eng.seq.i (busOpen s)] ∧ busOpen t = true)
        (HangsAt s) := by
    intro r y hy hr
    refine hr.andThen (fun _ h => h.at) fun t ht => ?_
    obtain ⟨⟨hp, hw⟩, hbus, -, htr, hlc⟩ := ht
    refine ⟨hp.loop.trans (LoopStep.place _ _ { t.eng.seq with phase := _ } _), hw, hp.flg, hp.i, hp.j, hp.buf, rfl, by
      rw [← hy]; exact htr, ?_⟩
    exact busOpen_mid (s := s) hp.cfg hbus hlc
  unfold rowCond
  by_cases hi : s.eng.seq.i = 0
  · simp only [hi]
    exact hi ▸ key _ _ (by rw [startSym_eq, hi]) (busStart_post s)
  · simp only [if_neg hi]
    exact key _ _ (rstartSym_eq s hi) (busRstart_post s)

/-! ## The position -/

/-- A call waits for ever at a legal place inside its loop. -/
structure HangsInLoop (s t : State) : Prop where
  loop : LoopStep s t
  waiting : t.eng.waiting ≠ none
  legal : seqLegal t = true
  inside : insideLoop t.eng.seq.phase = true

theorem currentMsg_eq {s t : State} (hc : t.eng.call = s.eng.call) (hi : t.eng.seq.i = s.eng.seq.i) :
    currentMsg t = currentMsg s := by
  unfold currentMsg
  rw [hc, hi]

theorem seqLegal_eq {s t : State} (hc : t.eng.call = s.eng.call) (hi : t.eng.seq.i = s.eng.seq.i)
    (hp : t.eng.seq.phase = s.eng.seq.phase) (hf : t.eng.flg = s.eng.flg) : seqLegal t = seqLegal s := by
  unfold seqLegal
  rw [hp, hc, hf, currentMsg_eq hc hi]

theorem HangsAt.inLoop {s t : State} (h : HangsAt s t) (hl : seqLegal s = true)
    (hi : insideLoop s.eng.seq.phase = true) : HangsInLoop s t :=
  ⟨h.loop, h.waiting, by rw [seqLegal_eq h.loop.call h.i h.phase h.flg]; exact hl, by rw [h.phase]; exact hi⟩

theorem HangsInLoop.after {s t u : State} (h : HangsInLoop t u) (hl : LoopStep s t) : HangsInLoop s u :=
  ⟨hl.trans h.loop, h.waiting, h.legal, h.inside⟩

theorem dataPhase_eq (f : BitVec 3) (m : Msg) (h : hasRead f = m.isRead) :
    dataPhase f = if m.isRead then .dataRd else .dataWr := by
  unfold dataPhase
  rw [h]

/-- A data phase of a message is a legal place. -/
theorem seqLegal_data {s : State} {m : Msg} (hm : currentMsg s = some m)
    (hp : s.eng.seq.phase = if m.isRead then .dataRd else .dataWr) : seqLegal s = true := by
  unfold seqLegal
  rw [hp, hm]
  cases h : m.isRead <;> simp [h]

/-- All step 3c can do (R186), from the place the flags were loaded at. -/
theorem runAddr_post (a : Addr) (m : Msg) (s : State) (hm : currentMsg s = some m)
    (hr : hasRead s.eng.flg = m.isRead) (hj : s.eng.seq.j = 0)
    (hp : s.eng.seq.phase = if hasRestart s.eng.flg then .cond else dataPhase s.eng.flg) :
    (runAddr a s).Post
      (fun _ t => LoopStep s t ∧ t.eng.waiting = s.eng.waiting ∧ t.eng.seq.i = s.eng.seq.i ∧ t.eng.buf = s.eng.buf ∧
        ((∃ e a', FailedWith s t e ∧ hasRestart s.eng.flg = true ∧ (e = .nack → a' = false) ∧
            t.eng.trace = s.eng.trace ++
              [condSym s.cfg.backend s.eng.seq.i (busOpen s), .tx (addrByte a m.isRead) a']) ∨
          (t.eng.seq.phase = (if m.isRead then .dataRd else .dataWr) ∧ t.eng.seq.j = 0 ∧
            t.eng.flg = clearRestart s.eng.flg ∧
            t.eng.trace = s.eng.trace ++
              (if hasRestart s.eng.flg then
                [condSym s.cfg.backend s.eng.seq.i (busOpen s), .tx (addrByte a m.isRead) true] else []) ∧
            busOpen t = (hasRestart s.eng.flg || busOpen s))))
      (HangsInLoop s) := by
  unfold runAddr
  split
  · next hh =>
    rw [if_pos hh] at hp
    have hleg : seqLegal s = true := by
      unfold seqLegal
      rw [hp, hm]
      simp [hr]
    refine (rowCond_post s).andThen (fun _ h => h.inLoop hleg (by rw [hp]; rfl)) fun t ht => ?_
    obtain ⟨hl, hw, hf, hi, hj', hb, hph, htr, ho⟩ := ht
    have hlegt : seqLegal t = true := by
      unfold seqLegal
      rw [hph, currentMsg_eq hl.call hi, hm]
      simp [hf, hr]
    refine (rowAddr_post _ t).mono (fun _ u hu => ?_) fun u hu => (hu.at.inLoop hlegt (by rw [hph]; rfl)).after hl
    obtain ⟨gl, gw, gi, gb, x, gtr, hres⟩ := hu
    refine ⟨hl.trans gl, gw.trans hw, gi.trans hi, gb.trans hb, ?_⟩
    rcases hres with ⟨e, he, hx⟩ | ⟨hx, gph, gj, gf, gbus, glc⟩
    · exact .inl ⟨e, x, he.before hl, hh, hx, by rw [gtr, htr, hf, hr, List.append_assoc]; rfl⟩
    · refine .inr ⟨?_, gj.trans (hj'.trans hj), ?_, ?_, ?_⟩
      · rw [gph, hf]; exact dataPhase_eq _ _ hr
      · rw [gf, hf]
      · rw [gtr, htr, hx, hf, hr, List.append_assoc]; rfl
      · rw [busOpen_same gl.frame.cfg gbus glc, ho, hh]; rfl
  · next hh =>
    have hh' : hasRestart s.eng.flg = false := by simpa using hh
    rw [if_neg hh] at hp
    refine ⟨LoopStep.refl s, rfl, rfl, rfl, .inr ⟨?_, hj, ?_, ?_, ?_⟩⟩
    · rw [hp]; exact dataPhase_eq _ _ hr
    · exact (clearRestart_of_not hh').symm
    · simp
    · simp [hh']

/-- Where a message leaves the sequencer. -/
def AfterMsg (n : Nat) (s t : State) : Prop :=
  if s.eng.seq.i + 1 < n then t.eng.seq.phase = .preStop ∧ t.eng.seq.i = s.eng.seq.i + 1
  else t.eng.seq.phase = .finalStop ∧ t.eng.seq.i = s.eng.seq.i

/-- The symbols and cells, behind the deferred stop, of a message that fails: at its address byte, when one is due, or at
a byte of its data (R186, R187, R322). -/
def MsgFailure (n : Nat) (a : Addr) (m : Msg) (s : State) (e : BusError) (syms : List Sym) (cells : List BufCell) :
    Prop :=
  let due := hasRestart (effectiveFlags s.eng.flg m)
  let addr := fun k => [condSym s.cfg.backend s.eng.seq.i (busOpen s && !hasStop s.eng.flg), Sym.tx (addrByte a m.isRead) k]
  (due = true ∧ cells = [] ∧ ∃ k, syms = addr k ∧ (e = .nack → k = false)) ∨
    ∃ sy, DataFailure n s.eng.seq.i m e sy cells ∧ syms = (if due then addr true else []) ++ sy

/-- All one message can do (steps 3a to 3d). -/
theorem runMsg_post (a : Addr) (m : Msg) (s : State) (hm : currentMsg s = some m) (hp : s.eng.seq.phase = .preStop) :
    (runMsg a m s).Post
      (fun _ t => LoopStep s t ∧ t.eng.waiting = s.eng.waiting ∧
        ((∃ e syms cells, FailedWith s t e ∧ MsgFailure (msgCount s) a m s e syms cells ∧
            t.eng.trace = s.eng.trace ++ ((if hasStop s.eng.flg then [.stop] else []) ++ syms) ∧
            t.eng.buf = s.eng.buf ++ cells) ∨
          (AfterMsg (msgCount s) s t ∧ t.eng.flg = clearRestart (effectiveFlags s.eng.flg m) ∧
            busOpen t = (hasRestart (effectiveFlags s.eng.flg m) || (busOpen s && !hasStop s.eng.flg)) ∧
            ∃ vs syms cells, MsgData (msgCount s) s.eng.seq.i m vs syms cells ∧ t.eng.buf = s.eng.buf ++ cells ∧
              t.eng.trace = s.eng.trace ++ ((if hasStop s.eng.flg then [.stop] else []) ++
                (if hasRestart (effectiveFlags s.eng.flg m) then
                  [condSym s.cfg.backend s.eng.seq.i (busOpen s && !hasStop s.eng.flg),
                    .tx (addrByte a m.isRead) true] else []) ++ syms))))
      (HangsInLoop s) := by
  have hleg : seqLegal s = true := by
    unfold seqLegal
    rw [hp, hm]
    rfl
  unfold runMsg
  refine (rowPreStop_post s).andThen (fun _ h => h.inLoop hleg (by rw [hp]; rfl)) fun t ht => ?_
  obtain ⟨hl, hw, hf, hi, hb, hph, htr, ho⟩ := ht
  have hl1 : LoopStep t (rowLoadFlags m t) := LoopStep.place _ _ { t.eng.seq with phase := _, j := _, k := _ } _
  have hm1 : currentMsg (rowLoadFlags m t) = some m := by
    rw [currentMsg_eq (s := s) (hl1.call.trans hl.call) hi]; exact hm
  have hf1 : (rowLoadFlags m t).eng.flg = effectiveFlags s.eng.flg m := by
    show effectiveFlags t.eng.flg m = _
    rw [hf]
  have hr1 : hasRead (rowLoadFlags m t).eng.flg = m.isRead := by rw [hf1, hasRead_effectiveFlags]
  have hi1 : (rowLoadFlags m t).eng.seq.i = s.eng.seq.i := hi
  have ho1 : busOpen (rowLoadFlags m t) = (busOpen s && !hasStop s.eng.flg) := ho
  have hcfg1 : (rowLoadFlags m t).cfg = s.cfg := hl.frame.cfg
  refine (runAddr_post a m (rowLoadFlags m t) hm1 hr1 rfl rfl).andThen (fun u hu => hu.after (hl.trans hl1))
    fun u hu => ?_
  obtain ⟨gl, gw, gi, gb, hres⟩ := hu
  have hlu : LoopStep s u := (hl.trans hl1).trans gl
  rcases hres with ⟨e, k, he, hh, hk, gtr⟩ | ⟨gph, gj, gf, gtr, go⟩
  · rw [if_pos he.failed]
    rw [hf1] at hh
    refine ⟨hlu, gw.trans hw, .inl ⟨e, _, [], he.before (hl.trans hl1), .inl ⟨hh, rfl, k, rfl, hk⟩, ?_, ?_⟩⟩
    · rw [gtr, hi1, ho1, hcfg1]
      show t.eng.trace ++ _ = _
      rw [htr, List.append_assoc]
    · rw [gb, List.append_nil]
      exact hb
  · have hnf : failed u = false := failed_false (by rw [gph]; cases m.isRead <;> simp)
    rw [if_neg (by rw [hnf]; simp)]
    have hmu : currentMsg u = some m := by rw [currentMsg_eq gl.call gi]; exact hm1
    have hlegu : seqLegal u = true := seqLegal_data hmu gph
    have hinu : insideLoop u.eng.seq.phase = true := by rw [gph]; cases m.isRead <;> rfl
    refine (runData_post m u gph gj).andThen (fun v hv => (hv.inLoop hlegu hinu).after hlu) fun v hv => ?_
    obtain ⟨kl, kw, ki, kf, hres⟩ := hv
    have hlv : LoopStep s v := hlu.trans kl
    rcases hres with ⟨e, syms, cells, he, hd, ktr, kb⟩ | ⟨vs, syms, cells, hd, ktr, kb, kph, kbus, klc⟩
    · rw [if_pos he.failed]
      rw [msgCount_loop hlu, gi, hi1] at hd
      refine ⟨hlv, kw.trans (gw.trans hw), .inl ⟨e, _, cells, he.before hlu, .inr ⟨syms, hd, rfl⟩, ?_, ?_⟩⟩
      · rw [ktr, gtr, hf1, hi1, ho1, hcfg1]
        show t.eng.trace ++ _ ++ syms = _
        rw [htr]
        simp [List.append_assoc]
      · rw [kb, gb]
        show t.eng.buf ++ cells = _
        rw [hb]
    · have hnv : failed v = false := failed_false (by rw [kph, gph]; cases m.isRead <;> simp)
      rw [if_neg (by rw [hnv]; simp)]
      have hiv : v.eng.seq.i = s.eng.seq.i := ki.trans (gi.trans hi1)
      have hnv' : msgCount v = msgCount s := msgCount_loop hlv
      have hend : LoopStep v (rowEndMsg v) ∧ (rowEndMsg v).eng.waiting = v.eng.waiting ∧
          (rowEndMsg v).eng.flg = v.eng.flg ∧ (rowEndMsg v).eng.buf = v.eng.buf ∧
          (rowEndMsg v).eng.trace = v.eng.trace ∧ busOpen (rowEndMsg v) = busOpen v ∧
          AfterMsg (msgCount s) s (rowEndMsg v) := by
        unfold rowEndMsg AfterMsg
        rw [hnv', hiv]
        split
        · exact ⟨LoopStep.place _ _ { v.eng.seq with phase := _, i := _ } _, rfl, rfl, rfl, rfl, rfl, rfl, rfl⟩
        · exact ⟨LoopStep.place _ _ { v.eng.seq with phase := _ } _, rfl, rfl, rfl, rfl, rfl, rfl, hiv⟩
      obtain ⟨e1, e2, e3, e4, e5, e6, e7⟩ := hend
      refine ⟨hlv.trans e1, e2.trans (kw.trans (gw.trans hw)), .inr ⟨e7, ?_, ?_, vs, syms, cells, ?_, ?_, ?_⟩⟩
      · rw [e3, kf, gf, hf1]
      · rw [e6, busOpen_same kl.frame.cfg kbus klc, go, hf1, ho1]
      · rw [msgCount_loop hlu, gi, hi1] at hd
        exact hd
      · rw [e4, kb, gb]
        show t.eng.buf ++ cells = _
        rw [hb]
      · rw [e5, ktr, gtr, hf1, hi1, ho1, hcfg1]
        show t.eng.trace ++ _ ++ syms = _
        rw [htr]
        simp [List.append_assoc]

/-! ## All the messages -/

/-- The symbols and cells of the messages from index `i` on, with the flags and the bus as they stand before. -/
def RunSyms (b : Backend) (a : Addr) (n : Nat) : Nat → BitVec 3 → Bool → List Msg → List Sym → List BufCell → Prop
  | _, _, _, [], syms, cells => syms = [] ∧ cells = []
  | i, f, o, m :: ms, syms, cells =>
    ∃ vs sy ce sy' ce', MsgData n i m vs sy ce ∧
      RunSyms b a n (i + 1) (clearRestart (effectiveFlags f m))
        (hasRestart (effectiveFlags f m) || (o && !hasStop f)) ms sy' ce' ∧
      syms = (if hasStop f then [.stop] else []) ++
        (if hasRestart (effectiveFlags f m) then
          [condSym b i (o && !hasStop f), .tx (addrByte a m.isRead) true] else []) ++ sy ++ sy' ∧
      cells = ce ++ ce'

/-- All the messages from the one the call stands at on can do (step 3). -/
theorem runMsgs_post (a : Addr) (m : Msg) (ms : List Msg) (s : State) {c : Call} (hc : s.eng.call = some c)
    (hms : c.msgs.drop s.eng.seq.i = m :: ms) (hp : s.eng.seq.phase = .preStop) :
    (runMsgs a (m :: ms) s).Post
      (fun _ t => LoopStep s t ∧ t.eng.waiting = s.eng.waiting ∧
        ((∃ e, FailedWith s t e) ∨
          (t.eng.seq.phase = .finalStop ∧
            ∃ syms cells, RunSyms s.cfg.backend a c.msgs.length s.eng.seq.i s.eng.flg (busOpen s) (m :: ms) syms cells ∧
              t.eng.trace = s.eng.trace ++ syms ∧ t.eng.buf = s.eng.buf ++ cells)))
      (HangsInLoop s) := by
  induction ms generalizing m s with
  | nil =>
    have hm : currentMsg s = some m := by
      unfold currentMsg
      rw [hc]
      have := List.getElem?_drop (xs := c.msgs) (i := s.eng.seq.i) (j := 0)
      rw [hms] at this
      simpa using this.symm
    have hn : msgCount s = c.msgs.length := by unfold msgCount; rw [hc]
    have hlen : ¬ s.eng.seq.i + 1 < c.msgs.length := by
      have := congrArg List.length hms
      simp at this
      omega
    refine (runMsg_post a m s hm hp).andThen (fun _ h => h) fun t ht => ?_
    obtain ⟨hl, hw, ⟨e, -, -, he, -⟩ | ⟨haf, hf, ho, vs, syms, cells, hd, hb, htr⟩⟩ := ht
    · rw [if_pos he.failed]
      exact ⟨hl, hw, .inl ⟨e, he⟩⟩
    · unfold AfterMsg at haf
      rw [hn, if_neg hlen] at haf
      rw [if_neg (by rw [failed_false (by simp [haf.1])]; simp)]
      refine ⟨hl, hw, .inr ⟨haf.1, _, _, ⟨vs, syms, cells, [], [], hn ▸ hd, ⟨rfl, rfl⟩, rfl, rfl⟩, ?_, ?_⟩⟩
      · rw [htr]; simp
      · rw [hb]; simp
  | cons m' ms ih =>
    have hm : currentMsg s = some m := by
      unfold currentMsg
      rw [hc]
      have := List.getElem?_drop (xs := c.msgs) (i := s.eng.seq.i) (j := 0)
      rw [hms] at this
      simpa using this.symm
    have hn : msgCount s = c.msgs.length := by unfold msgCount; rw [hc]
    have hlen : s.eng.seq.i + 1 < c.msgs.length := by
      have := congrArg List.length hms
      simp at this
      omega
    refine (runMsg_post a m s hm hp).andThen (fun _ h => h) fun t ht => ?_
    obtain ⟨hl, hw, ⟨e, -, -, he, -⟩ | ⟨haf, hf, ho, vs, syms, cells, hd, hb, htr⟩⟩ := ht
    · rw [if_pos he.failed]
      exact ⟨hl, hw, .inl ⟨e, he⟩⟩
    · unfold AfterMsg at haf
      rw [hn, if_pos hlen] at haf
      rw [if_neg (by rw [failed_false (by simp [haf.1])]; simp)]
      have hms' : c.msgs.drop t.eng.seq.i = m' :: ms := by
        rw [haf.2, ← List.drop_drop, hms]
        rfl
      refine (ih m' t (hl.call.trans hc) hms' haf.1).mono (fun _ u hu => ?_) fun u hu => hu.after hl
      obtain ⟨gl, gw, hres⟩ := hu
      refine ⟨hl.trans gl, gw.trans hw, ?_⟩
      rcases hres with ⟨e, he⟩ | ⟨gph, sy', ce', hr, gtr, gb⟩
      · exact .inl ⟨e, he.1, by rw [← hl.frame.cfg]; exact he.2⟩
      · rw [hl.frame.cfg, haf.2, hf, ho] at hr
        refine .inr ⟨gph, _, _, ⟨vs, syms, cells, sy', ce', hn ▸ hd, hr, rfl, rfl⟩, ?_, ?_⟩
        · rw [gtr, htr]; simp [List.append_assoc]
        · rw [gb, hb]; simp [List.append_assoc]

theorem callCommands_pos (ms : List Msg) : 1 ≤ callCommands ms := by
  induction ms with
  | nil => exact le_refl 1
  | cons m ms ih => rw [callCommands]; omega

theorem runMsgs_done (a : Addr) (ms : List Msg) {k : Nat} {s : State} (h : Willing (k + callCommands ms) s) :
    ∃ t, runMsgs a ms s = .done () t ∧ Willing (k + 1) t := by
  induction ms generalizing s with
  | nil => exact ⟨s, rfl, h⟩
  | cons m ms ih =>
    obtain ⟨t, ht, hw⟩ := runMsg_done a m (k := k + callCommands ms) (s := s)
      (h.mono (by rw [callCommands]; omega))
    rw [runMsgs, ht]
    simp only [Run.andThen_done]
    split
    · refine ⟨t, rfl, hw.mono ?_⟩
      have := callCommands_pos ms
      omega
    · exact ih hw

/-! ## The end of a call -/

/-- What a call's return leaves: the frame, an idle sequencer, the interrupt enable as the call saved it, and the call's
trace among the finished ones. -/
structure Returned (s t : State) : Prop where
  frame : BusFrame s t
  phase : t.eng.seq.phase = .idle
  call : t.eng.call = none
  arb : t.eng.arbLost = false
  buf : t.eng.buf = s.eng.buf
  past : t.host.past = s.host.past ++ [t.eng.trace]
  race : t.host.race = s.host.race
  irq : t.host.irqEn = if s.cfg.backend = .bitBang then s.eng.irqSaved else s.host.irqEn

theorem leave_frame (s : State) : BusFrame s (leave s) := by
  unfold leave
  cases s.cfg.backend <;>
    exact ⟨rfl, rfl, rfl, rfl, rfl, rfl, rfl, rfl, rfl, rfl, fun _ => ⟨rfl, rfl, rfl, rfl⟩, fun _ => rfl, fun _ => rfl⟩

theorem leave_eng (s : State) : (leave s).eng = s.eng := by
  unfold leave
  cases s.cfg.backend <;> rfl

theorem leave_irq (s : State) :
    (leave s).host = { s.host with irqEn := if s.cfg.backend = .bitBang then s.eng.irqSaved else s.host.irqEn } := by
  unfold leave
  cases s.cfg.backend <;> rfl

theorem leave_line (s : State) : (leave s).line = s.line ∧ (leave s).srp = s.srp ∧ (leave s).sim = s.sim ∧
    (leave s).cfg = s.cfg := by
  unfold leave
  cases s.cfg.backend <;> exact ⟨rfl, rfl, rfl, rfl⟩

/-- The state after a primitive, the interrupt enable's return, a result and the call's return. -/
theorem returned_of {s t : State} (h : PrimStep s t) (r : Ret) :
    Returned s (returnCall (setPhase .done (setResult r (leave t)))) where
  frame := by
    refine h.frame.trans ((leave_frame t).trans ?_)
    exact ⟨rfl, rfl, rfl, rfl, rfl, rfl, rfl, rfl, rfl, rfl, fun _ => ⟨rfl, rfl, rfl, rfl⟩, fun _ => rfl, fun _ => rfl⟩
  phase := rfl
  call := rfl
  arb := rfl
  buf := (congrArg Engine.buf (leave_eng t)).trans h.buf
  past := by
    show (leave t).host.past ++ [(leave t).eng.trace] = _
    rw [leave_irq]
    show t.host.past ++ _ = _
    rw [h.host]
    rfl
  race := by
    show (leave t).host.race = _
    rw [leave_irq]
    show t.host.race = _
    rw [h.host]
  irq := by
    show (leave t).host.irqEn = _
    rw [leave_irq]
    show (if t.cfg.backend = .bitBang then t.eng.irqSaved else t.host.irqEn) = _
    rw [h.cfg, h.irqSaved, h.host]

/-- What the forced or the failure stop, a result and the return leave. -/
def Stopped (s : State) (r : Ret) (t : State) : Prop :=
  Returned s t ∧ t.eng.waiting = s.eng.waiting ∧ t.eng.bus = .idle ∧
    (s.cfg.backend = .bitBang → t.line.sclOut = true ∧ t.line.sdaOut = true) ∧
    (s.cfg.backend = .peripheral → t.srp.lctlOpen = false) ∧ t.host.result = r ∧
    t.eng.trace = s.eng.trace ++ [.stop] ∧ (s.cfg.backend = .simulated → t.sim.dev = s.sim.dev)

/-- A stop condition, the interrupt enable back, a result, and the return. -/
theorem stopAndReturn_post (s : State) (r : Ret) :
    (((busStop s).andThen fun s => .done () (setPhase .done (setResult r (leave s)))).andThen
      fun s => (.done () (returnCall s) : Run Unit)).Post (fun _ t => Stopped s r t) (HangsAt s) := by
  have h := busStop_post s
  cases hr : busStop s with
  | refuse x => trivial
  | hang t => rw [hr] at h; exact Waits.at h
  | done a t =>
    rw [hr] at h
    obtain ⟨⟨hp, hw⟩, hbus, -, htr, hlc, hlines, hsim⟩ := h
    obtain ⟨l1, l2, l3, l4⟩ := leave_line t
    refine ⟨returned_of hp r, (congrArg Engine.waiting (leave_eng t)).trans hw,
      (congrArg Engine.bus (leave_eng t)).trans hbus, fun hb => ?_, fun hb => ?_, rfl,
      (congrArg Engine.trace (leave_eng t)).trans htr, fun hb => ?_⟩
    · show (leave t).line.sclOut = true ∧ (leave t).line.sdaOut = true
      rw [l1]; exact hlines hb
    · show (leave t).srp.lctlOpen = false
      rw [l2]; exact hlc hb
    · show (leave t).sim.dev = _
      rw [l3, hsim hb]

/-- All the end of a call can do when it has met no failure: the forced stop and `Ok` (R189). -/
theorem finishCall_ok (s : State) (h : ∀ e, s.eng.seq.phase ≠ .failStop e) :
    (finishCall s).Post (fun _ t => Stopped s .ok t) (HangsAt s) := by
  unfold finishCall
  split
  · next e he => exact absurd he (h e)
  all_goals exact stopAndReturn_post s .ok

/-- All the end of a call can do after a failure other than a loss of arbitration: a stop and the error (R320). -/
theorem finishCall_err (s : State) (e : BusError) (h : s.eng.seq.phase = .failStop e) (he : e ≠ .arbitrationLost) :
    (finishCall s).Post (fun _ t => Stopped s (.err e) t) (HangsAt s) := by
  unfold finishCall
  rw [h]
  cases e with
  | arbitrationLost => exact absurd rfl he
  | _ => exact stopAndReturn_post s _

/-- The end of a call that lost arbitration: a stop request that is not waited for, no symbol, the error (R190, R216). -/
theorem finishCall_arb (s : State) (h : s.eng.seq.phase = .failStop .arbitrationLost) :
    finishCall s =
      .done () (returnCall (setPhase .done (setResult (.err .arbitrationLost) (leave (srpStopNoWait s))))) := by
  unfold finishCall
  rw [h]
  rfl

/-- What that leaves on the peripheral transport. -/
theorem finishCall_arb_spec {s : State} (hb : s.cfg.backend = .peripheral) {t : State}
    (ht : t = returnCall (setPhase .done (setResult (.err .arbitrationLost) (leave (srpStopNoWait s))))) :
    Returned s t ∧ t.eng.waiting = s.eng.waiting ∧ t.eng.bus = .idle ∧ t.srp.lctlOpen = false ∧
      t.host.result = .err .arbitrationLost ∧ t.eng.trace = s.eng.trace := by
  subst ht
  obtain ⟨hp, he, hl⟩ := srpStopNoWait_step hb
  obtain ⟨-, l2, -, -⟩ := leave_line (srpStopNoWait s)
  refine ⟨returned_of hp _, ?_, ?_, ?_, rfl, ?_⟩
  · show (leave (srpStopNoWait s)).eng.waiting = _
    rw [leave_eng, he]
  · show (leave (srpStopNoWait s)).eng.bus = _
    rw [leave_eng, he]
  · show (leave (srpStopNoWait s)).srp.lctlOpen = _
    rw [l2, hl]
  · show (leave (srpStopNoWait s)).eng.trace = _
    rw [leave_eng, he]

/-! ## The whole transfer -/

/-- Where a call's loop begins (R182, R183). -/
def loopStart (c : Call) (s : State) : State := seqAt .preStop 0 (setFlg flagRestart (enter (beginCall c s)))

/-- A call that returns before any bus activity (R182). -/
def turnedBack (c : Call) (r : Ret) (s : State) : State :=
  returnCall (setPhase .done (setResult r (beginCall c s)))

theorem enter_frame (s : State) : BusFrame s (enter s) := by
  unfold enter
  cases s.cfg.backend <;>
    exact ⟨rfl, rfl, rfl, rfl, rfl, rfl, rfl, rfl, rfl, rfl, fun _ => ⟨rfl, rfl, rfl, rfl⟩, fun _ => rfl, fun _ => rfl⟩

theorem beginCall_frame (c : Call) (s : State) : BusFrame s (beginCall c s) :=
  ⟨rfl, rfl, rfl, rfl, rfl, rfl, rfl, rfl, rfl, rfl, fun _ => ⟨rfl, rfl, rfl, rfl⟩, fun _ => rfl, fun _ => rfl⟩

theorem turnedBack_frame (c : Call) (r : Ret) (s : State) : BusFrame s (turnedBack c r s) :=
  ⟨rfl, rfl, rfl, rfl, rfl, rfl, rfl, rfl, rfl, rfl, fun _ => ⟨rfl, rfl, rfl, rfl⟩, fun _ => rfl, fun _ => rfl⟩

theorem loopStart_frame (c : Call) (s : State) : BusFrame s (loopStart c s) := by
  refine (beginCall_frame c s).trans ((enter_frame _).trans ?_)
  exact ⟨rfl, rfl, rfl, rfl, rfl, rfl, rfl, rfl, rfl, rfl, fun _ => ⟨rfl, rfl, rfl, rfl⟩, fun _ => rfl, fun _ => rfl⟩

/-- The cells at the start of the loop. -/
theorem loopStart_cells (c : Call) (s : State) :
    (loopStart c s).eng = { s.eng with
      flg := flagRestart, acked := false, arbLost := false, seq := ⟨.preStop, 0, 0, .bit 7⟩, call := some c, buf := [],
      trace := [], irqSaved := if s.cfg.backend = .bitBang then s.host.irqEn else s.eng.irqSaved } ∧
    (loopStart c s).host = { s.host with
      result := .none, irqEn := if s.cfg.backend = .bitBang then false else s.host.irqEn } ∧
    (loopStart c s).srp = s.srp ∧ (loopStart c s).sim = s.sim ∧ (loopStart c s).tgt = s.tgt ∧
    (loopStart c s).line = { s.line with lines := [s.line.level s.cfg] } := by
  unfold loopStart enter beginCall
  dsimp only
  cases s.cfg.backend <;> exact ⟨rfl, rfl, rfl, rfl, rfl, rfl⟩

/-- The three ways a transfer can go (R182). -/
theorem transfer_cases (a : Addr) (msgs : List Msg) (s : State) (hp : s.eng.seq.phase = .idle) :
    (s.eng.configured = false ∧ transfer a msgs s = .done () (turnedBack ⟨a, msgs⟩ (.err .notConfigured) s)) ∨
      (s.eng.configured = true ∧ msgs = [] ∧ transfer a msgs s = .done () (turnedBack ⟨a, msgs⟩ .ok s)) ∨
      (s.eng.configured = true ∧ msgs ≠ [] ∧ s.cfg.tgtAddr = some a ∧ transfer a msgs s = .refuse .ownAddress) ∨
      (s.eng.configured = true ∧ msgs ≠ [] ∧ s.cfg.tgtAddr ≠ some a ∧
        transfer a msgs s = (runMsgs a msgs (loopStart ⟨a, msgs⟩ s)).andThen finishCall) := by
  unfold transfer
  rw [if_neg (by simp [hp])]
  unfold rowCheck
  by_cases hc : s.eng.configured = false
  · have : (beginCall ⟨a, msgs⟩ s).eng.configured = false := hc
    simp only [this]
    exact .inl ⟨hc, rfl⟩
  · have hc : s.eng.configured = true := by simpa using hc
    have : (beginCall ⟨a, msgs⟩ s).eng.configured = true := hc
    simp only [this]
    right
    cases msgs with
    | nil => exact .inl ⟨hc, rfl, rfl⟩
    | cons m ms =>
      right
      by_cases ht : s.cfg.tgtAddr = some a
      · have : (beginCall ⟨a, m :: ms⟩ s).cfg.tgtAddr = some a := ht
        simp only [this]
        exact .inl ⟨hc, by simp, ht, rfl⟩
      · have : (beginCall ⟨a, m :: ms⟩ s).cfg.tgtAddr ≠ some a := ht
        refine .inr ⟨hc, by simp, ht, ?_⟩
        simp [this]
        rfl

/-- What every returned transfer leaves. -/
structure CallReturned (s t : State) : Prop where
  frame : BusFrame s t
  phase : t.eng.seq.phase = .idle
  call : t.eng.call = none
  arb : t.eng.arbLost = false
  past : t.host.past = s.host.past ++ [t.eng.trace]
  race : t.host.race = s.host.race
  irq : t.host.irqEn = s.host.irqEn
  waiting : t.eng.waiting = s.eng.waiting

/-- What a transfer with bus activity leaves: a clean bus, and its result. -/
structure CallEnded (a : Addr) (msgs : List Msg) (s t : State) : Prop where
  ret : CallReturned s t
  bus : t.eng.bus = .idle
  lines : s.cfg.backend = .bitBang → t.line.sclOut = true ∧ t.line.sdaOut = true
  lctl : s.cfg.backend = .peripheral → t.srp.lctlOpen = false
  result : (t.host.result = .ok ∧ ∃ syms,
      RunSyms s.cfg.backend a msgs.length 0 flagRestart (busOpen s) msgs syms t.eng.buf ∧
        t.eng.trace = syms ++ [.stop]) ∨
    (t.host.result = .err .nack ∧ t.eng.trace.getLast? = some .stop) ∨
    (t.host.result = .err .arbitrationLost ∧ s.cfg.backend = .peripheral)

/-- A transfer waits for ever: at a legal place inside its loop, with the interrupt enable saved (R195, R315). -/
structure CallHangs (s t : State) : Prop where
  frame : BusFrame s t
  waiting : t.eng.waiting ≠ none
  legal : seqLegal t = true
  inside : insideLoop t.eng.seq.phase = true
  irq : t.host.irqEn = if s.cfg.backend = .bitBang then false else s.host.irqEn
  saved : s.cfg.backend = .bitBang → t.eng.irqSaved = s.host.irqEn
  result : t.host.result = .none
  arb : s.cfg.backend ≠ .peripheral → t.eng.arbLost = false

theorem CallHangs.ofLoop {c : Call} {s t : State} (h : HangsInLoop (loopStart c s) t) : CallHangs s t := by
  obtain ⟨he, hh, -, -, -, -⟩ := loopStart_cells c s
  have hcfg := (loopStart_frame c s).cfg
  refine ⟨(loopStart_frame c s).trans h.loop.frame, h.waiting, h.legal, h.inside, ?_, fun hb => ?_, ?_, fun hb => ?_⟩
  · rw [h.loop.host, hh]
  · rw [h.loop.irqSaved, he]; simp [hb]
  · rw [h.loop.host, hh]
  · rw [h.loop.arb (by rw [hcfg]; exact hb), he]

/-- A transfer waits for ever, with the host's script of other callers as it was. -/
def CallStuck (s t : State) : Prop := CallHangs s t ∧ t.host.race = s.host.race

theorem CallStuck.ofLoop {c : Call} {s t : State} (h : HangsInLoop (loopStart c s) t) : CallStuck s t :=
  ⟨CallHangs.ofLoop h, by rw [h.loop.host, (loopStart_cells c s).2.1]⟩

theorem CallReturned.ofLoop {c : Call} {s u t : State} (h : LoopStep (loopStart c s) u)
    (hw : u.eng.waiting = s.eng.waiting) (hr : Returned u t) (hw' : t.eng.waiting = u.eng.waiting) :
    CallReturned s t := by
  obtain ⟨he, hh, -, -, -, -⟩ := loopStart_cells c s
  have hcfg : u.cfg = s.cfg := h.frame.cfg.trans (loopStart_frame c s).cfg
  refine ⟨(loopStart_frame c s).trans (h.frame.trans hr.frame), hr.phase, hr.call, hr.arb, ?_, ?_, ?_, hw'.trans hw⟩
  · rw [hr.past, h.host, hh]
  · rw [hr.race, h.host, hh]
  · rw [hr.irq, h.irqSaved, h.host, hcfg, he, hh]
    cases s.cfg.backend <;> simp

/-- All a transfer of at least one message on a configured bus can do (R181). -/
theorem transfer_post (a : Addr) (m : Msg) (ms : List Msg) (s : State) (hp : s.eng.seq.phase = .idle)
    (hc : s.eng.configured = true) :
    (transfer a (m :: ms) s).Post (fun _ t => CallEnded a (m :: ms) s t) (CallStuck s) := by
  rcases transfer_cases a (m :: ms) s hp with ⟨h, -⟩ | ⟨-, h, -⟩ | ⟨-, -, -, h⟩ | ⟨-, -, -, h⟩
  · simp [hc] at h
  · simp at h
  · rw [h]; trivial
  rw [h]
  obtain ⟨he, hh, hs, hm, -, hl⟩ := loopStart_cells ⟨a, m :: ms⟩ s
  have hcfg := (loopStart_frame ⟨a, m :: ms⟩ s).cfg
  have hopen : busOpen (loopStart ⟨a, m :: ms⟩ s) = busOpen s :=
    busOpen_same hcfg (by rw [he]) (by rw [hs])
  refine (runMsgs_post a m ms (loopStart ⟨a, m :: ms⟩ s) (c := ⟨a, m :: ms⟩) (by rw [he]) (by rw [he]; rfl)
    (by rw [he])).andThen (fun _ h => CallStuck.ofLoop h) fun u hu => ?_
  obtain ⟨gl, gw, hres⟩ := hu
  have hw : u.eng.waiting = s.eng.waiting := by rw [gw, he]
  have hcu : u.cfg = s.cfg := gl.frame.cfg.trans hcfg
  have hn : msgCount u = (m :: ms).length := by
    rw [msgCount_loop gl]; unfold msgCount; rw [he]
  have hcall : u.eng.call = some ⟨a, m :: ms⟩ := by rw [gl.call, he]
  rcases hres with ⟨e, hph, her⟩ | ⟨hph, syms, cells, hrs, htr, hb⟩
  · have hleg : seqLegal u = true := by unfold seqLegal; rw [hph, hcall]; rfl
    have hin : insideLoop u.eng.seq.phase = true := by rw [hph]; rfl
    rw [hcfg] at her
    rcases her with rfl | ⟨rfl, hper⟩
    · refine (finishCall_err u .nack hph (by simp)).mono (fun _ t ht => ?_)
        fun t ht => CallStuck.ofLoop ((ht.inLoop hleg hin).after gl)
      obtain ⟨h1, h2, h3, h4, h5, h6, h7, -⟩ := ht
      rw [hcu] at h4 h5
      exact ⟨CallReturned.ofLoop gl hw h1 h2, h3, h4, h5, .inr (.inl ⟨h6, by rw [h7]; simp⟩)⟩
    · rw [finishCall_arb u hph]
      obtain ⟨h1, h2, h3, h4, h5, h6⟩ := finishCall_arb_spec (s := u) (by rw [hcu]; exact hper) rfl
      exact ⟨CallReturned.ofLoop gl hw h1 h2, h3, by simp [hper], fun _ => h4, .inr (.inr ⟨h5, hper⟩)⟩
  · have hleg : seqLegal u = true := by unfold seqLegal; rw [hph, hcall]; rfl
    have hin : insideLoop u.eng.seq.phase = true := by rw [hph]; rfl
    refine (finishCall_ok u (by simp [hph])).mono (fun _ t ht => ?_)
      fun t ht => CallStuck.ofLoop ((ht.inLoop hleg hin).after gl)
    obtain ⟨h1, h2, h3, h4, h5, h6, h7, -⟩ := ht
    rw [hcu] at h4 h5
    refine ⟨CallReturned.ofLoop gl hw h1 h2, h3, h4, h5, .inl ⟨h6, syms, ?_, ?_⟩⟩
    · rw [hcfg, hopen, he] at hrs
      rw [h1.buf, hb, he]
      simpa using hrs
    · rw [h7, htr, he]; simp

/-- A transfer completes when the environment lets its commands complete (R181). -/
theorem transfer_done (a : Addr) (msgs : List Msg) {k : Nat} {s : State} (h : MayCall a s)
    (hw : Willing (k + callCommands msgs) s) :
    ∃ t, transfer a msgs s = .done () t ∧ Willing k t := by
  obtain ⟨⟨hp, -⟩, hc, ht⟩ := h
  rcases transfer_cases a msgs s hp with ⟨h, -⟩ | ⟨-, -, h⟩ | ⟨-, -, h, -⟩ | ⟨-, -, -, h⟩
  · simp [hc] at h
  · refine ⟨_, h, (hw.mono (Nat.le_add_right _ _)).congr ?_ ?_ ?_ ?_⟩ <;> rfl
  · exact absurd h ht
  · obtain ⟨he, hh, hs, hm, -, hl⟩ := loopStart_cells ⟨a, msgs⟩ s
    have hcfg := (loopStart_frame ⟨a, msgs⟩ s).cfg
    obtain ⟨t, ht, hwt⟩ := runMsgs_done a msgs (k := k)
      (hw.congr (t := loopStart ⟨a, msgs⟩ s) hcfg (by rw [hl]) (by rw [hl]) (by rw [hs]))
    obtain ⟨u, hu, hwu⟩ := finishCall_done hwt
    exact ⟨u, by rw [h, ht, Run.andThen_done, hu], hwu⟩

end Sys2Proof.Machine
end

