-- ==== Sys2Proof/Laws/Simulated.lean ====
section
/-! SUPPORT. The simulated bus (spec R36, R225): what one byte does to the devices, and that a call reaches only the
device at its address. -/

namespace Sys2Proof.Machine

open Sys2Proof

/-! ## Devices -/

theorem find_map {a b : Addr} {f : SimDev → SimDev} (hf : ∀ d, (f d).addr = d.addr) (ds : List SimDev) :
    (ds.map fun d => if d.addr = a then f d else d).find? (fun d => decide (d.addr = b)) =
      if b = a then (ds.find? fun d => decide (d.addr = b)).map f else ds.find? fun d => decide (d.addr = b) := by
  induction ds with
  | nil => simp
  | cons d ds ih =>
    by_cases hd : d.addr = a <;> by_cases hb : b = a
    · subst hb
      simp [hd, hf]
    · have h1 : d.addr ≠ b := fun h => hb (h ▸ hd)
      simp only [List.map_cons, if_pos hd, List.find?_cons, hf, h1, decide_false, ih, if_neg hb]
    · subst hb
      rw [List.map_cons, if_neg hd, List.find?_cons, List.find?_cons, ih]
      simp [hd]
    · simp only [List.map_cons, if_neg hd, List.find?_cons, ih, if_neg hb]

/-- What a change of the device at one address shows at each address. -/
theorem Sim.find_update {a b : Addr} {f : SimDev → SimDev} (hf : ∀ d, (f d).addr = d.addr) (m : Sim) :
    (m.update a f).find b = if b = a then (m.find b).map f else m.find b := find_map hf m.dev

theorem Sim.find_update_other {a b : Addr} {f : SimDev → SimDev} (hf : ∀ d, (f d).addr = d.addr) (m : Sim)
    (h : b ≠ a) : (m.update a f).find b = m.find b := by rw [Sim.find_update hf, if_neg h]

theorem Sim.find_update_same {a : Addr} {f : SimDev → SimDev} (hf : ∀ d, (f d).addr = d.addr) (m : Sim) :
    (m.update a f).find a = (m.find a).map f := by rw [Sim.find_update hf, if_pos rfl]

@[simp] theorem Sim.update_cur (a : Addr) (f : SimDev → SimDev) (m : Sim) : (m.update a f).cur = m.cur := rfl
@[simp] theorem Sim.update_dir (a : Addr) (f : SimDev → SimDev) (m : Sim) : (m.update a f).dir = m.dir := rfl
@[simp] theorem Sim.update_awaitAddr (a : Addr) (f : SimDev → SimDev) (m : Sim) :
    (m.update a f).awaitAddr = m.awaitAddr := rfl

theorem SimDev.writeNext_addr (b : Byte) (d : SimDev) : (d.writeNext b).addr = d.addr := by
  unfold SimDev.writeNext
  split
  · rfl
  · split <;> rfl

theorem SimDev.readNext_addr (oob : Byte) (d : SimDev) : (d.readNext oob).2.addr = d.addr := by
  unfold SimDev.readNext
  split <;> rfl

/-- A change that keeps the bodies' files keeps every byte. -/
theorem Sim.peek_update {a : Addr} {f : SimDev → SimDev} (hf : ∀ d, (f d).addr = d.addr)
    (hb : ∀ d k, (match (f d).body with | .file g => some (g.peek k) | .scripted _ _ => none) =
      (match d.body with | .file g => some (g.peek k) | .scripted _ _ => none)) (m : Sim) (b : Addr) (k : Nat) :
    (m.update a f).peek b k = m.peek b k := by
  unfold Sim.peek
  rw [Sim.find_update hf]
  by_cases h : b = a
  · rw [if_pos h]
    cases m.find b with
    | none => rfl
    | some d => exact hb d k
  · rw [if_neg h]

theorem Sim.peek_congr {m m' : Sim} {b : Addr} (h : m'.find b = m.find b) (k : Nat) : m'.peek b k = m.peek b k := by
  unfold Sim.peek
  rw [h]

/-- The bytes a device shows are no less than its body's file. -/
theorem SimDev.readNext_body (oob : Byte) (d : SimDev) (k : Nat) :
    (match (d.readNext oob).2.body with | .file g => some (g.peek k) | .scripted _ _ => none) =
      (match d.body with | .file g => some (g.peek k) | .scripted _ _ => none) := by
  unfold SimDev.readNext
  cases h : d.body with
  | file f => simp
  | scripted r j => cases r <;> simp

/-- A byte taken for the pointer or a control byte of the bus stores nothing; only a written byte does. -/
theorem Sim.take_frame (b : Byte) (m : Sim) :
    (m.awaitAddr = true → ∀ c k, (m.take b).1.peek c k = m.peek c k) ∧
      (∀ c, some c ≠ m.cur → (m.awaitAddr = true → c ≠ b.extractLsb' 1 7) → (m.take b).1.find c = m.find c) ∧
      (m.take b).1.awaitAddr = false ∧
      (m.awaitAddr = true → ∀ x, (m.take b).1.cur = some x → x = b.extractLsb' 1 7 ∨ m.cur = some x) ∧
      (m.awaitAddr = false → (m.take b).1.cur = m.cur ∧ (m.take b).1.dir = m.dir) := by
  unfold Sim.take
  cases ha : m.awaitAddr with
  | true =>
    simp only [if_true]
    cases hf : m.find (b.extractLsb' 1 7) with
    | none => exact ⟨fun _ _ _ => rfl, fun _ _ _ => rfl, rfl, fun _ x hx => .inr hx, by simp⟩
    | some d =>
      simp only
      split
      · exact ⟨fun _ _ _ => rfl, fun _ _ _ => rfl, rfl, fun _ x hx => .inl (Option.some.inj hx).symm, by simp⟩
      · refine ⟨fun _ c k => ?_, fun c _ hc => ?_, rfl, fun _ x hx => .inl (Option.some.inj hx).symm, by simp⟩
        · exact Sim.peek_update (f := fun d => { d with first := true }) (fun _ => rfl) (fun _ _ => rfl) _ c k
        · exact Sim.find_update_other (f := fun d => { d with first := true }) (fun _ => rfl) _ (hc trivial)
  | false =>
    simp only [Bool.false_eq_true, if_false]
    cases hc : m.cur with
    | none => exact ⟨by simp, fun _ _ _ => rfl, ha, by simp, fun _ => ⟨hc, rfl⟩⟩
    | some a =>
      cases hd : m.dir with
      | write =>
        refine ⟨by simp, fun c h _ => ?_, ha, by simp, fun _ => ⟨hc, hd⟩⟩
        exact Sim.find_update_other (SimDev.writeNext_addr b) _ (fun e => h (by rw [e]))
      | read => exact ⟨by simp, fun _ _ _ => rfl, ha, by simp, fun _ => ⟨hc, hd⟩⟩

/-- A byte asked for stores nothing and reaches only the selected device. -/
theorem Sim.give_frame (oob : Byte) (m : Sim) :
    (∀ c k, (m.give oob).2.peek c k = m.peek c k) ∧
      (∀ c, some c ≠ m.cur → (m.give oob).2.find c = m.find c) ∧
      (m.give oob).2.awaitAddr = m.awaitAddr ∧ (m.give oob).2.cur = m.cur ∧ (m.give oob).2.dir = m.dir := by
  unfold Sim.give
  cases hc : m.cur with
  | none => exact ⟨fun _ _ => rfl, fun _ _ => rfl, rfl, hc, rfl⟩
  | some a =>
    cases hd : m.dir with
    | write => exact ⟨fun _ _ => rfl, fun _ _ => rfl, rfl, hc, hd⟩
    | read =>
      simp only
      cases hf : m.find a with
      | none => exact ⟨fun _ _ => rfl, fun _ _ => rfl, rfl, hc, hd⟩
      | some d =>
        refine ⟨fun c k => ?_, fun c h => ?_, rfl, hc, hd⟩
        · exact Sim.peek_update (SimDev.readNext_addr oob) (SimDev.readNext_body oob) _ _ _
        · exact Sim.find_update_other (SimDev.readNext_addr oob) _ (fun e => h (by rw [e]))

theorem addrByte_addr (a : Addr) (rw : Bool) : (addrByte a rw).extractLsb' 1 7 = a := by
  revert a rw; decide

theorem addrByte_dir (a : Addr) (rw : Bool) : (addrByte a rw).getLsbD 0 = rw := by
  revert a rw; decide

/-! ## A call reaches only the device at its address -/

/-- Nothing but the device at `a` is selected, and no address byte is awaited. -/
def AtDevice (a : Addr) (s : State) : Prop :=
  s.cfg.backend = .simulated → s.sim.awaitAddr = false ∧ ∀ x, s.sim.cur = some x → x = a

/-- Every other device is as it was. -/
def OthersKept (a : Addr) (s t : State) : Prop := t.cfg = s.cfg ∧ ∀ b, b ≠ a → t.sim.find b = s.sim.find b

theorem OthersKept.refl (a : Addr) (s : State) : OthersKept a s s := ⟨rfl, fun _ _ => rfl⟩

theorem OthersKept.trans {a : Addr} {s t u : State} (h : OthersKept a s t) (g : OthersKept a t u) :
    OthersKept a s u := ⟨g.1.trans h.1, fun b hb => (g.2 b hb).trans (h.2 b hb)⟩

/-- Nothing stored in any device. -/
def NothingStored (s t : State) : Prop := t.cfg = s.cfg ∧ ∀ b k, t.sim.peek b k = s.sim.peek b k

theorem NothingStored.refl (s : State) : NothingStored s s := ⟨rfl, fun _ _ => rfl⟩

theorem NothingStored.trans {s t u : State} (h : NothingStored s t) (g : NothingStored t u) : NothingStored s u :=
  ⟨g.1.trans h.1, fun b k => (g.2 b k).trans (h.2 b k)⟩

/-- A bus primitive's simulated part, as the lemmas below use it. -/
theorem Completes.sim_eq {s t : State} (h : Completes s t) (hb : s.cfg.backend ≠ .simulated) : t.sim = s.sim :=
  h.1.sim hb

/-- An address byte selects at most the device at its address. -/
theorem rowAddr_reach (a : Addr) (rw : Bool) (s : State)
    (hs : s.cfg.backend = .simulated → s.sim.awaitAddr = true ∧ s.sim.cur = none) :
    (rowAddr (addrByte a rw) s).Post (fun _ t => AtDevice a t ∧ OthersKept a s t ∧ NothingStored s t)
      (fun t => OthersKept a s t ∧ NothingStored s t) := by
  have key : ∀ t : State, Completes s t →
      (s.cfg.backend = .simulated → t.sim = (s.sim.take (addrByte a rw)).1 ∧ t.eng.acked = (s.sim.take (addrByte a rw)).2) →
      AtDevice a t ∧ OthersKept a s t ∧ NothingStored s t := by
    intro t ht hsim
    by_cases hb : s.cfg.backend = .simulated
    · obtain ⟨h1, h2, h3, h4, -⟩ := Sim.take_frame (addrByte a rw) s.sim
      obtain ⟨hw, hc⟩ := hs hb
      rw [← (hsim hb).1] at h1 h2 h3 h4
      rw [addrByte_addr] at h2 h4
      refine ⟨fun _ => ⟨h3, fun x hx => ?_⟩, ⟨ht.1.cfg, fun b hb' => h2 b (by simp [hc]) fun _ => hb'⟩,
        ⟨ht.1.cfg, h1 hw⟩⟩
      rcases h4 hw x hx with h | h
      · exact h
      · rw [hc] at h; cases h
    · have := ht.sim_eq hb
      exact ⟨fun h => absurd (ht.1.cfg ▸ h) hb, ⟨ht.1.cfg, fun _ _ => by rw [this]⟩, ⟨ht.1.cfg, fun _ _ => by rw [this]⟩⟩
  unfold rowAddr
  have hpost := busSendByte_post (addrByte a rw) s
  cases hr : busSendByte (addrByte a rw) s with
  | refuse x => trivial
  | hang t =>
    rw [hr] at hpost
    have hb : s.cfg.backend ≠ .simulated := by
      intro hb
      simp [busSendByte, hb, simSendByte] at hr
    have := hpost.1.sim hb
    exact ⟨⟨hpost.1.cfg, fun _ _ => by rw [this]⟩, ⟨hpost.1.cfg, fun _ _ => by rw [this]⟩⟩
  | done u t =>
    rw [hr] at hpost
    obtain ⟨hc, -, -, -, hsim⟩ := hpost
    have := key t hc hsim
    show Run.Post (if _ then _ else _) _ _
    split
    · exact this
    · split
      · exact this
      · exact this

/-- Waiting for ever never happens on the simulated bus, so it leaves the devices alone. -/
theorem hang_reach {s t : State} (a : Addr) (h : PrimStep s t) (hb : s.cfg.backend ≠ .simulated) :
    OthersKept a s t ∧ NothingStored s t := by
  have := h.sim hb
  exact ⟨⟨h.cfg, fun _ _ => by rw [this]⟩, ⟨h.cfg, fun _ _ => by rw [this]⟩⟩

theorem rowSend_reach (a : Addr) (b : Byte) (s : State) (hs : AtDevice a s) :
    (rowSend b s).Post (fun _ t => AtDevice a t ∧ OthersKept a s t) (fun t => OthersKept a s t) := by
  have key : ∀ t : State, Completes s t →
      (s.cfg.backend = .simulated → t.sim = (s.sim.take b).1 ∧ t.eng.acked = (s.sim.take b).2) →
      AtDevice a t ∧ OthersKept a s t := by
    intro t ht hsim
    by_cases hb : s.cfg.backend = .simulated
    · obtain ⟨-, h2, h3, -, h5⟩ := Sim.take_frame b s.sim
      obtain ⟨hw, hc⟩ := hs hb
      rw [← (hsim hb).1] at h2 h3 h5
      refine ⟨fun _ => ⟨h3, fun x hx => hc x ?_⟩, ⟨ht.1.cfg, fun c hc' => h2 c (fun e => hc' (hc c e.symm)) ?_⟩⟩
      · rw [← (h5 hw).1]; exact hx
      · simp [hw]
    · have := ht.sim_eq hb
      exact ⟨fun h => absurd (ht.1.cfg ▸ h) hb, ⟨ht.1.cfg, fun _ _ => by rw [this]⟩⟩
  unfold rowSend
  have hpost := busSendByte_post b s
  cases hr : busSendByte b s with
  | refuse x => trivial
  | hang t =>
    rw [hr] at hpost
    have hb : s.cfg.backend ≠ .simulated := by
      intro hb
      simp [busSendByte, hb, simSendByte] at hr
    exact (hang_reach a hpost.1 hb).1
  | done u t =>
    rw [hr] at hpost
    obtain ⟨hc, -, -, -, hsim⟩ := hpost
    have := key t hc hsim
    show Run.Post (if _ then _ else _) _ _
    split
    · exact this
    · split
      · exact this
      · exact this

theorem rowRecv_reach (a : Addr) (len : Nat) (s : State) (hs : AtDevice a s) :
    (rowRecv len s).Post (fun _ t => AtDevice a t ∧ OthersKept a s t ∧ NothingStored s t)
      (fun t => OthersKept a s t ∧ NothingStored s t) := by
  unfold rowRecv
  have hpost := busRecvByte_post (recvAck (msgCount s) s.eng.seq.i len s.eng.seq.j) s
  cases hr : busRecvByte (recvAck (msgCount s) s.eng.seq.i len s.eng.seq.j) s with
  | refuse x => trivial
  | hang t =>
    rw [hr] at hpost
    have hb : s.cfg.backend ≠ .simulated := by
      intro hb
      simp [busRecvByte, hb, simRecvByte] at hr
    exact hang_reach a hpost.1 hb
  | done v t =>
    rw [hr] at hpost
    obtain ⟨hc, -, -, -, -, hsim⟩ := hpost
    have : AtDevice a t ∧ OthersKept a s t ∧ NothingStored s t := by
      by_cases hb : s.cfg.backend = .simulated
      · obtain ⟨h1, h2, h3, h4, -⟩ := Sim.give_frame s.cfg.oobReadByte s.sim
        obtain ⟨hw, hcur⟩ := hs hb
        rw [← (hsim hb).1] at h1 h2 h3 h4
        refine ⟨fun _ => ⟨h3.trans hw, fun x hx => hcur x (h4 ▸ hx)⟩,
          ⟨hc.1.cfg, fun c hc' => h2 c fun e => hc' (hcur c e.symm)⟩, ⟨hc.1.cfg, h1⟩⟩
      · have := hc.sim_eq hb
        exact ⟨fun h => absurd (hc.1.cfg ▸ h) hb, ⟨hc.1.cfg, fun _ _ => by rw [this]⟩,
          ⟨hc.1.cfg, fun _ _ => by rw [this]⟩⟩
    simp only [Run.bind_done]
    split
    · exact this
    · exact this

theorem sendAll_reach (a : Addr) (bs : List Byte) (s : State) (hs : AtDevice a s) :
    (sendAll bs s).Post (fun _ t => AtDevice a t ∧ OthersKept a s t) (fun t => OthersKept a s t) := by
  induction bs generalizing s with
  | nil => exact ⟨hs, OthersKept.refl a s⟩
  | cons b bs ih =>
    refine (rowSend_reach a b s hs).andThen (fun _ h => h) fun t ht => ?_
    split
    · exact ht
    · exact (ih t ht.1).mono (fun _ u hu => ⟨hu.1, ht.2.trans hu.2⟩) fun u hu => ht.2.trans hu

theorem recvAll_reach (a : Addr) (len n : Nat) (s : State) (hs : AtDevice a s) :
    (recvAll len n s).Post (fun _ t => AtDevice a t ∧ OthersKept a s t ∧ NothingStored s t)
      (fun t => OthersKept a s t ∧ NothingStored s t) := by
  induction n generalizing s with
  | zero => exact ⟨hs, OthersKept.refl a s, NothingStored.refl s⟩
  | succ n ih =>
    refine (rowRecv_reach a len s hs).andThen (fun _ h => h) fun t ht => ?_
    split
    · exact ht
    · exact (ih t ht.1).mono (fun _ u hu => ⟨hu.1, ht.2.1.trans hu.2.1, ht.2.2.trans hu.2.2⟩)
        fun u hu => ⟨ht.2.1.trans hu.1, ht.2.2.trans hu.2⟩

/-- A stop deselects every device and stores nothing. -/
theorem busStop_reach (a : Addr) (s : State) :
    (busStop s).Post (fun _ t => AtDevice a t ∧ OthersKept a s t ∧ NothingStored s t)
      (fun t => OthersKept a s t ∧ NothingStored s t) := by
  have hpost := busStop_post s
  cases hr : busStop s with
  | refuse x => trivial
  | hang t =>
    rw [hr] at hpost
    exact hang_reach a hpost.1 (by intro hb; simp [busStop, hb, simStop] at hr)
  | done u t =>
    rw [hr] at hpost
    obtain ⟨hc, -, -, -, -, -, hsim⟩ := hpost
    by_cases hb : s.cfg.backend = .simulated
    · have := hsim hb
      refine ⟨fun _ => by rw [this]; simp, ⟨hc.1.cfg, fun _ _ => by rw [this]; rfl⟩,
        ⟨hc.1.cfg, fun _ _ => by rw [this]; rfl⟩⟩
    · have := hc.sim_eq hb
      exact ⟨fun h => absurd (hc.1.cfg ▸ h) hb, ⟨hc.1.cfg, fun _ _ => by rw [this]⟩,
        ⟨hc.1.cfg, fun _ _ => by rw [this]⟩⟩

/-- A condition waits for an address byte and stores nothing. -/
theorem rowCond_reach (a : Addr) (s : State) :
    (rowCond s).Post
      (fun _ t => (t.cfg.backend = .simulated → t.sim.awaitAddr = true ∧ t.sim.cur = none) ∧ OthersKept a s t ∧
        NothingStored s t) (fun t => OthersKept a s t ∧ NothingStored s t) := by
  have key : ∀ r : Run Unit, r = busStart s ∨ r = busRstart s →
      (r.andThen fun s => .done () (setPhase .addr s)).Post
      (fun _ t => (t.cfg.backend = .simulated → t.sim.awaitAddr = true ∧ t.sim.cur = none) ∧ OthersKept a s t ∧
        NothingStored s t) (fun t => OthersKept a s t ∧ NothingStored s t) := by
    intro r hr
    by_cases hb : s.cfg.backend = .simulated
    · have : r = simStart s := by
        rcases hr with rfl | rfl
        · simp [busStart, hb]
        · simp [busRstart, hb]
      subst this
      exact ⟨fun _ => ⟨rfl, rfl⟩, ⟨rfl, fun _ _ => rfl⟩, ⟨rfl, fun _ _ => rfl⟩⟩
    · have hp : r.Post (fun _ t => Completes s t) (Waits s) := by
        rcases hr with rfl | rfl
        · exact (busStart_post s).mono (fun _ _ h => h.1) fun _ h => h
        · exact (busRstart_post s).mono (fun _ _ h => h.1) fun _ h => h
      refine hp.andThen (fun t ht => hang_reach a ht.1 hb) fun t ht => ?_
      exact ⟨fun h => absurd (ht.1.cfg ▸ h) hb, hang_reach (t := t) a ht.1 hb⟩
  unfold rowCond
  split
  · exact key _ (.inl rfl)
  · exact key _ (.inr rfl)

theorem runMsg_reach (a : Addr) (m : Msg) (s : State)
    (hs : AtDevice a s ∨ (hasRestart s.eng.flg = true ∧ hasStop s.eng.flg = false)) :
    (runMsg a m s).Post
      (fun _ t => AtDevice a t ∧ OthersKept a s t ∧ (m.isRead = true → NothingStored s t))
      (fun t => OthersKept a s t ∧ (m.isRead = true → NothingStored s t)) := by
  unfold runMsg
  have h1 : (rowPreStop s).Post
      (fun _ t => (AtDevice a t ∨ hasRestart t.eng.flg = true) ∧ OthersKept a s t ∧ NothingStored s t)
      (fun t => OthersKept a s t ∧ NothingStored s t) := by
    unfold rowPreStop
    split
    · refine (busStop_reach a s).andThen (fun _ h => h) fun t ht => ⟨.inl ht.1, ht.2⟩
    · next hst =>
      refine ⟨?_, OthersKept.refl a s, NothingStored.refl s⟩
      rcases hs with h | h
      · exact .inl h
      · exact .inr h.1
  refine h1.andThen (fun t ht => ⟨ht.1, fun _ => ht.2⟩) fun t ht => ?_
  obtain ⟨hat, ho, hn⟩ := ht
  have ho1 : OthersKept a s (rowLoadFlags m t) := ⟨ho.1, ho.2⟩
  have hn1 : NothingStored s (rowLoadFlags m t) := ⟨hn.1, hn.2⟩
  have h2 : (runAddr a (rowLoadFlags m t)).Post
      (fun _ u => AtDevice a u ∧ OthersKept a s u ∧ NothingStored s u)
      (fun u => OthersKept a s u ∧ NothingStored s u) := by
    unfold runAddr
    split
    · refine (rowCond_reach a _).andThen (fun u hu => ⟨ho1.trans hu.1, hn1.trans hu.2⟩) fun u hu => ?_
      refine (rowAddr_reach a _ u hu.1).mono (fun _ v hv => ?_) fun v hv => ?_
      · exact ⟨hv.1, (ho1.trans hu.2.1).trans hv.2.1, (hn1.trans hu.2.2).trans hv.2.2⟩
      · exact ⟨(ho1.trans hu.2.1).trans hv.1, (hn1.trans hu.2.2).trans hv.2⟩
    · next hr =>
      refine ⟨?_, ho1, hn1⟩
      rcases hat with h | h
      · exact h
      · exact absurd (by
          show hasRestart (effectiveFlags t.eng.flg m) = true
          rw [hasRestart_effectiveFlags, h]; rfl) hr
  refine h2.andThen (fun u hu => ⟨hu.1, fun _ => hu.2⟩) fun u hu => ?_
  split
  · exact ⟨hu.1, hu.2.1, fun _ => hu.2.2⟩
  · have h3 : (runData m u).Post
        (fun _ v => AtDevice a v ∧ OthersKept a s v ∧ (m.isRead = true → NothingStored s v))
        (fun v => OthersKept a s v ∧ (m.isRead = true → NothingStored s v)) := by
      unfold runData Msg.isRead
      cases m.body with
      | write buf =>
        exact (sendAll_reach a buf u hu.1).mono (fun _ v hv => ⟨hv.1, hu.2.1.trans hv.2, by simp⟩)
          fun v hv => ⟨hu.2.1.trans hv, by simp⟩
      | read len =>
        exact (recvAll_reach a len len u hu.1).mono
          (fun _ v hv => ⟨hv.1, hu.2.1.trans hv.2.1, fun _ => hu.2.2.trans hv.2.2⟩)
          fun v hv => ⟨hu.2.1.trans hv.1, fun _ => hu.2.2.trans hv.2⟩
    refine h3.andThen (fun _ h => h) fun v hv => ?_
    split
    · exact hv
    · unfold rowEndMsg
      split <;> exact hv

theorem runMsgs_reach (a : Addr) (ms : List Msg) (s : State)
    (hs : AtDevice a s ∨ (hasRestart s.eng.flg = true ∧ hasStop s.eng.flg = false)) :
    (runMsgs a ms s).Post
      (fun _ t => OthersKept a s t ∧ ((∀ m ∈ ms, m.isRead = true) → NothingStored s t))
      (fun t => OthersKept a s t ∧ ((∀ m ∈ ms, m.isRead = true) → NothingStored s t)) := by
  induction ms generalizing s with
  | nil => exact ⟨OthersKept.refl a s, fun _ => NothingStored.refl s⟩
  | cons m ms ih =>
    refine (runMsg_reach a m s hs).andThen (fun t ht => ⟨ht.1, fun h => ht.2 (h m List.mem_cons_self)⟩) fun t ht => ?_
    have hn : (∀ x ∈ m :: ms, x.isRead = true) → NothingStored s t := fun h => ht.2.2 (h m List.mem_cons_self)
    split
    · exact ⟨ht.2.1, hn⟩
    · refine (ih t (.inl ht.1)).mono (fun _ u hu => ?_) fun u hu => ?_
      all_goals
        exact ⟨ht.2.1.trans hu.1, fun h => (hn h).trans (hu.2 fun x hx => h x (List.mem_cons_of_mem _ hx))⟩

theorem finishCall_reach (a : Addr) (s : State) :
    (finishCall s).Post (fun _ t => OthersKept a s t ∧ NothingStored s t) (fun t => OthersKept a s t ∧ NothingStored s t) := by
  have key : ∀ r, (((busStop s).andThen fun s => .done () (setPhase .done (setResult r (leave s)))).andThen
      fun s => (.done () (returnCall s) : Run Unit)).Post (fun _ t => OthersKept a s t ∧ NothingStored s t)
      (fun t => OthersKept a s t ∧ NothingStored s t) := by
    intro r
    have h := busStop_reach a s
    cases hr : busStop s with
    | refuse x => trivial
    | hang t => rw [hr] at h; exact h
    | done u t =>
      rw [hr] at h
      obtain ⟨-, ⟨h1, h2⟩, ⟨-, h3⟩⟩ := h
      obtain ⟨-, -, l3, l4⟩ := leave_line t
      refine ⟨⟨?_, fun b hb => ?_⟩, ⟨?_, fun b k => ?_⟩⟩
      · exact l4.trans h1
      · show (leave t).sim.find b = _
        rw [l3]; exact h2 b hb
      · exact l4.trans h1
      · show (leave t).sim.peek b k = _
        rw [l3]; exact h3 b k
  unfold finishCall
  split
  · next e he =>
    cases e with
    | arbitrationLost =>
      obtain ⟨-, -, l3, l4⟩ := leave_line (srpStopNoWait s)
      refine ⟨⟨l4, fun b _ => ?_⟩, ⟨l4, fun b k => ?_⟩⟩
      · show (leave (srpStopNoWait s)).sim.find b = _
        rw [l3]; rfl
      · show (leave (srpStopNoWait s)).sim.peek b k = _
        rw [l3]; rfl
    | _ => exact key _
  all_goals exact key _

/-- A transfer reaches only the device at its address (R60), and stores nothing when all its messages read. -/
theorem transfer_reach (a : Addr) (msgs : List Msg) (s : State) :
    (transfer a msgs s).Post
      (fun _ t => OthersKept a s t ∧ ((∀ m ∈ msgs, m.isRead = true) → NothingStored s t))
      (fun t => OthersKept a s t ∧ ((∀ m ∈ msgs, m.isRead = true) → NothingStored s t)) := by
  by_cases hp : s.eng.seq.phase = .idle
  · rcases transfer_cases a msgs s hp with ⟨-, h⟩ | ⟨-, -, h⟩ | ⟨-, -, -, h⟩ | ⟨-, -, -, h⟩
    · rw [h]; exact ⟨⟨rfl, fun _ _ => rfl⟩, fun _ => ⟨rfl, fun _ _ => rfl⟩⟩
    · rw [h]; exact ⟨⟨rfl, fun _ _ => rfl⟩, fun _ => ⟨rfl, fun _ _ => rfl⟩⟩
    · rw [h]; trivial
    · rw [h]
      obtain ⟨he, -, -, hm, -, -⟩ := loopStart_cells ⟨a, msgs⟩ s
      have hcfg := (loopStart_frame ⟨a, msgs⟩ s).cfg
      have ho : OthersKept a s (loopStart ⟨a, msgs⟩ s) := ⟨hcfg, fun _ _ => by rw [hm]⟩
      have hn : NothingStored s (loopStart ⟨a, msgs⟩ s) := ⟨hcfg, fun _ _ => by rw [hm]⟩
      refine (runMsgs_reach a msgs (loopStart ⟨a, msgs⟩ s) (.inr (by rw [he]; exact ⟨hasRestart_flagRestart, hasStop_flagRestart⟩))).andThen
        (fun t ht => ⟨ho.trans ht.1, fun h => hn.trans (ht.2 h)⟩) fun t ht => ?_
      refine (finishCall_reach a t).mono (fun _ u hu => ?_) fun u hu => ?_
      all_goals
        exact ⟨(ho.trans ht.1).trans hu.1, fun h => (hn.trans (ht.2 h)).trans hu.2⟩
  · unfold transfer
    rw [if_pos hp]
    trivial

/-! ## Reading stores nothing, wherever the call stands -/

/-- A read byte stores nothing, whatever the simulated bus stands at. -/
theorem rowRecv_stores (len : Nat) (s : State) :
    (rowRecv len s).Post (fun _ t => NothingStored s t) (fun t => NothingStored s t) := by
  unfold rowRecv
  have hpost := busRecvByte_post (recvAck (msgCount s) s.eng.seq.i len s.eng.seq.j) s
  cases hr : busRecvByte (recvAck (msgCount s) s.eng.seq.i len s.eng.seq.j) s with
  | refuse x => trivial
  | hang t =>
    rw [hr] at hpost
    exact (hang_reach 0 hpost.1 (by intro hb; simp [busRecvByte, hb, simRecvByte] at hr)).2
  | done v t =>
    rw [hr] at hpost
    obtain ⟨hc, -, -, -, -, hsim⟩ := hpost
    have : NothingStored s t := by
      by_cases hb : s.cfg.backend = .simulated
      · exact ⟨hc.1.cfg, fun b k => by rw [(hsim hb).1]; exact (Sim.give_frame s.cfg.oobReadByte s.sim).1 b k⟩
      · exact (hang_reach 0 hc.1 hb).2
    simp only [Run.bind_done]
    split <;> exact this

theorem recvAll_stores (len n : Nat) (s : State) :
    (recvAll len n s).Post (fun _ t => NothingStored s t) (fun t => NothingStored s t) := by
  induction n generalizing s with
  | zero => exact NothingStored.refl s
  | succ n ih =>
    refine (rowRecv_stores len s).andThen (fun _ h => h) fun t ht => ?_
    split
    · exact ht
    · exact (ih t).mono (fun _ u hu => ht.trans hu) fun u hu => ht.trans hu

/-- A read message stores nothing in any simulated device: the one address byte it may send follows a condition. -/
theorem runMsg_stores (a : Addr) (m : Msg) (hm : m.isRead = true) (s : State) :
    (runMsg a m s).Post (fun _ t => NothingStored s t) (fun t => NothingStored s t) := by
  unfold runMsg
  have h1 : (rowPreStop s).Post (fun _ t => NothingStored s t) (fun t => NothingStored s t) := by
    unfold rowPreStop
    split
    · exact (busStop_reach a s).andThen (fun _ h => h.2) fun t ht => ht.2.2
    · exact NothingStored.refl s
  refine h1.andThen (fun _ h => h) fun t hn => ?_
  have hn1 : NothingStored s (rowLoadFlags m t) := ⟨hn.1, hn.2⟩
  have h2 : (runAddr a (rowLoadFlags m t)).Post (fun _ u => NothingStored s u) (fun u => NothingStored s u) := by
    unfold runAddr
    split
    · refine (rowCond_reach a _).andThen (fun u hu => hn1.trans hu.2) fun u hu => ?_
      refine (rowAddr_reach a _ u hu.1).mono (fun _ v hv => ?_) fun v hv => ?_
      · exact (hn1.trans hu.2.2).trans hv.2.2
      · exact (hn1.trans hu.2.2).trans hv.2
    · exact hn1
  refine h2.andThen (fun _ h => h) fun u hu => ?_
  split
  · exact hu
  · have h3 : (runData m u).Post (fun _ v => NothingStored s v) (fun v => NothingStored s v) := by
      unfold runData
      unfold Msg.isRead at hm
      cases hb : m.body with
      | write buf => rw [hb] at hm; cases hm
      | read len =>
        exact (recvAll_stores len len u).mono (fun _ v hv => hu.trans hv) fun v hv => hu.trans hv
    refine h3.andThen (fun _ h => h) fun v hv => ?_
    split
    · exact hv
    · unfold rowEndMsg
      split <;> exact hv

end Sys2Proof.Machine
end

