-- ==== Sys2Proof/Laws/SimulatedKept.lean ====
section
/-! SUPPORT. A property of the simulated bus that its five primitives keep, every part of a call keeps; and the one the
legal states need: one well formed device an address (spec R36). -/

namespace Sys2Proof.Machine

open Sys2Proof

/-- The primitives of the simulated bus keep `P` (R225). -/
structure SimClosed (P : Sim → Prop) : Prop where
  take : ∀ b m, P m → P (m.take b).1
  give : ∀ oob m, P m → P (m.give oob).2
  start : ∀ m : Sim, P m → P { m with cur := none, awaitAddr := true }
  stop : ∀ m : Sim, P m → P { m with cur := none, awaitAddr := false }

/-- A run leaves the simulated bus with `P`. -/
def Keeps {α : Type} (P : Sim → Prop) (r : Run α) : Prop := r.Post (fun _ t => P t.sim) (fun t => P t.sim)

theorem Keeps.bind {α β : Type} {P : Sim → Prop} {r : Run α} {f : α → State → Run β} (h : Keeps P r)
    (hf : ∀ a s, P s.sim → Keeps P (f a s)) : Keeps P (r.bind f) := Run.Post.bind h (fun _ h => h) hf

theorem Keeps.andThen {β : Type} {P : Sim → Prop} {r : Run Unit} {f : State → Run β} (h : Keeps P r)
    (hf : ∀ s, P s.sim → Keeps P (f s)) : Keeps P (r.andThen f) := h.bind fun _ => hf

theorem Keeps.ofPost {α : Type} {P : Sim → Prop} {r : Run α} {s : State} (hb : s.cfg.backend ≠ .simulated)
    (h : r.Post (fun _ t => Completes s t) (Waits s)) (hs : P s.sim) : Keeps P r := by
  refine h.mono (fun _ t ht => ?_) fun t ht => ?_
  · show P t.sim
    rw [ht.1.sim hb]; exact hs
  · rw [ht.1.sim hb]; exact hs

section
variable {P : Sim → Prop} (hP : SimClosed P)
include hP

theorem busStart_keeps {s : State} (hs : P s.sim) : Keeps P (busStart s) := by
  by_cases hb : s.cfg.backend = .simulated
  · simp only [busStart, hb]
    exact hP.start _ hs
  · exact Keeps.ofPost hb ((busStart_post s).mono (fun _ _ h => h.1) fun _ h => h) hs

theorem busRstart_keeps {s : State} (hs : P s.sim) : Keeps P (busRstart s) := by
  by_cases hb : s.cfg.backend = .simulated
  · simp only [busRstart, hb]
    exact hP.start _ hs
  · exact Keeps.ofPost hb ((busRstart_post s).mono (fun _ _ h => h.1) fun _ h => h) hs

theorem busStop_keeps {s : State} (hs : P s.sim) : Keeps P (busStop s) := by
  by_cases hb : s.cfg.backend = .simulated
  · simp only [busStop, hb]
    exact hP.stop _ hs
  · exact Keeps.ofPost hb ((busStop_post s).mono (fun _ _ h => h.1) fun _ h => h) hs

theorem busSendByte_keeps (b : Byte) {s : State} (hs : P s.sim) : Keeps P (busSendByte b s) := by
  by_cases hb : s.cfg.backend = .simulated
  · simp only [busSendByte, hb]
    exact hP.take b _ hs
  · exact Keeps.ofPost hb ((busSendByte_post b s).mono (fun _ _ h => h.1) fun _ h => h) hs

theorem busRecvByte_keeps (ack : Bool) {s : State} (hs : P s.sim) : Keeps P (busRecvByte ack s) := by
  by_cases hb : s.cfg.backend = .simulated
  · simp only [busRecvByte, hb]
    exact hP.give _ _ hs
  · exact Keeps.ofPost hb ((busRecvByte_post ack s).mono (fun _ _ h => h.1) fun _ h => h) hs

theorem rowPreStop_keeps {s : State} (hs : P s.sim) : Keeps P (rowPreStop s) := by
  unfold rowPreStop
  split
  · exact (busStop_keeps hP hs).andThen fun _ h => h
  · exact hs

theorem rowCond_keeps {s : State} (hs : P s.sim) : Keeps P (rowCond s) := by
  unfold rowCond
  split
  · exact (busStart_keeps hP hs).andThen fun _ h => h
  · exact (busRstart_keeps hP hs).andThen fun _ h => h

theorem rowAddr_keeps (b : Byte) {s : State} (hs : P s.sim) : Keeps P (rowAddr b s) := by
  refine (busSendByte_keeps hP b hs).andThen fun t ht => ?_
  split
  · exact ht
  · split <;> exact ht

theorem rowSend_keeps (b : Byte) {s : State} (hs : P s.sim) : Keeps P (rowSend b s) := by
  refine (busSendByte_keeps hP b hs).andThen fun t ht => ?_
  split
  · exact ht
  · split <;> exact ht

theorem rowRecv_keeps (len : Nat) {s : State} (hs : P s.sim) : Keeps P (rowRecv len s) := by
  refine (busRecvByte_keeps hP _ hs).bind fun v t ht => ?_
  dsimp only
  split <;> exact ht

theorem sendAll_keeps (bs : List Byte) {s : State} (hs : P s.sim) : Keeps P (sendAll bs s) := by
  induction bs generalizing s with
  | nil => exact hs
  | cons b bs ih =>
    refine (rowSend_keeps hP b hs).andThen fun t ht => ?_
    split
    · exact ht
    · exact ih ht

theorem recvAll_keeps (len n : Nat) {s : State} (hs : P s.sim) : Keeps P (recvAll len n s) := by
  induction n generalizing s with
  | zero => exact hs
  | succ n ih =>
    refine (rowRecv_keeps hP len hs).andThen fun t ht => ?_
    split
    · exact ht
    · exact ih ht

theorem runMsg_keeps (a : Addr) (m : Msg) {s : State} (hs : P s.sim) : Keeps P (runMsg a m s) := by
  refine (rowPreStop_keeps hP hs).andThen fun t ht => ?_
  have h1 : Keeps P (runAddr a (rowLoadFlags m t)) := by
    unfold runAddr
    split
    · exact (rowCond_keeps hP (s := rowLoadFlags m t) ht).andThen fun u hu => rowAddr_keeps hP _ hu
    · exact ht
  refine h1.andThen fun u hu => ?_
  split
  · exact hu
  · have h2 : Keeps P (runData m u) := by
      unfold runData
      split
      · exact sendAll_keeps hP _ hu
      · exact recvAll_keeps hP _ _ hu
    refine h2.andThen fun v hv => ?_
    split
    · exact hv
    · unfold rowEndMsg
      split <;> exact hv

theorem runMsgs_keeps (a : Addr) (ms : List Msg) {s : State} (hs : P s.sim) : Keeps P (runMsgs a ms s) := by
  induction ms generalizing s with
  | nil => exact hs
  | cons m ms ih =>
    refine (runMsg_keeps hP a m hs).andThen fun t ht => ?_
    split
    · exact ht
    · exact ih ht

omit hP in
theorem leave_keeps {s : State} (hs : P s.sim) : P (leave s).sim := by
  rw [(leave_line s).2.2.1]; exact hs

theorem takeFailure_keeps (e : BusError) {s : State} (hs : P s.sim) : Keeps P (takeFailure e s) := by
  cases e with
  | arbitrationLost => exact leave_keeps (s := srpStopNoWait s) hs
  | _ => exact (busStop_keeps hP hs).andThen fun _ h => leave_keeps h

theorem rowFinal_keeps {s : State} (hs : P s.sim) : Keeps P (rowFinal s) :=
  (busStop_keeps hP hs).andThen fun _ h => leave_keeps h

theorem finishCall_keeps {s : State} (hs : P s.sim) : Keeps P (finishCall s) := by
  unfold finishCall
  split
  · exact (takeFailure_keeps hP _ hs).andThen fun _ h => h
  all_goals exact (rowFinal_keeps hP hs).andThen fun _ h => h

theorem transfer_keeps (a : Addr) (msgs : List Msg) {s : State} (hs : P s.sim) : Keeps P (transfer a msgs s) := by
  by_cases hp : s.eng.seq.phase = .idle
  · rcases transfer_cases a msgs s hp with ⟨-, h⟩ | ⟨-, -, h⟩ | ⟨-, -, -, h⟩ | ⟨-, -, -, h⟩
    · rw [h]; exact hs
    · rw [h]; exact hs
    · rw [h]; trivial
    · rw [h]
      refine (runMsgs_keeps hP a msgs ?_).andThen fun _ h => finishCall_keeps hP h
      rw [(loopStart_cells _ s).2.2.2.1]; exact hs
  · unfold transfer
    rw [if_pos hp]
    trivial

end

/-! ## Legal devices -/

theorem SimDev.writeNext_wf (b : Byte) {d : SimDev} (h : d.wf = true) : (d.writeNext b).wf = true := by
  unfold SimDev.writeNext
  split
  · exact h
  · unfold SimDev.wf at h ⊢
    cases hb : d.body with
    | file f => rw [hb] at h; exact RegFile.write_wf _ _ h
    | scripted r k => rfl

theorem SimDev.readNext_wf (oob : Byte) {d : SimDev} (h : d.wf = true) : (d.readNext oob).2.wf = true := by
  unfold SimDev.wf at h ⊢
  unfold SimDev.readNext
  cases hb : d.body with
  | file f => rw [hb] at h; simpa using h
  | scripted r k => cases r <;> rfl

theorem Sim.wf_update {a : Addr} {f : SimDev → SimDev} {m : Sim} (hf : ∀ d, (f d).addr = d.addr)
    (hw : ∀ d : SimDev, d.wf = true → (f d).wf = true) (h : m.wf = true) : (m.update a f).wf = true := by
  unfold Sim.wf at h ⊢
  simp only [Bool.and_eq_true, List.all_eq_true, decide_eq_true_eq] at h ⊢
  obtain ⟨h1, h2⟩ := h
  constructor
  · intro d hd
    obtain ⟨e, he, rfl⟩ := List.mem_map.1 hd
    split
    · exact hw e (h1 e he)
    · exact h1 e he
  · have : (m.update a f).dev.map SimDev.addr = m.dev.map SimDev.addr := by
      show (m.dev.map _).map SimDev.addr = _
      rw [List.map_map]
      refine List.map_congr_left fun d _ => ?_
      show (if d.addr = a then f d else d).addr = d.addr
      split
      · exact hf d
      · rfl
    rw [this]
    exact h2

theorem Sim.wf_congr {m m' : Sim} (h : m'.dev = m.dev) : m'.wf = m.wf := by
  unfold Sim.wf
  rw [h]

/-- The primitives keep the devices legal. -/
theorem Sim.wf_closed : SimClosed fun m => m.wf = true where
  take b m h := by
    unfold Sim.take
    cases m.awaitAddr with
    | true =>
      simp only [if_true]
      cases m.find (b.extractLsb' 1 7) with
      | none => exact h
      | some d =>
        simp only
        split
        · exact h
        · exact Sim.wf_update (f := fun d => { d with first := true }) (fun _ => rfl) (fun _ h => h) h
    | false =>
      simp only [Bool.false_eq_true, if_false]
      cases m.cur with
      | none => exact h
      | some a =>
        cases m.dir with
        | write => exact Sim.wf_update (SimDev.writeNext_addr b) (fun _ => SimDev.writeNext_wf b) h
        | read => exact h
  give oob m h := by
    unfold Sim.give
    cases m.cur with
    | none => exact h
    | some a =>
      cases m.dir with
      | write => exact h
      | read =>
        simp only
        cases m.find a with
        | none => exact h
        | some d => exact Sim.wf_update (SimDev.readNext_addr oob) (fun _ => SimDev.readNext_wf oob) h
  start _ h := h
  stop _ h := h

end Sys2Proof.Machine
end

