-- ==== Sys2Proof/Laws/Operations.lean ====
section
/-! SUPPORT. What every operation leaves alone, said once for each kind: the wire operations, the peripheral's commands,
the calls and helpers, the operations inside a call, the events and the callbacks. -/

namespace Sys2Proof.Machine

open Sys2Proof

/-! ## Operations of one transport -/

theorem onBackend_next {b : Backend} {s t : State} {k : State → Host.Outcome State Fault Refusal}
    (h : onBackend b s k = .next t) : s.cfg.backend = b ∧ k (setResult .none s) = .next t := by
  unfold onBackend at h
  split at h
  · next hb => exact ⟨hb, h⟩
  · cases h

theorem onBackend_eq {b : Backend} {s : State} (k : State → Host.Outcome State Fault Refusal)
    (h : s.cfg.backend = b) : onBackend b s k = k (setResult .none s) := by
  unfold onBackend
  rw [if_pos h]

/-- A primitive run as an operation: its frame, but for the result. -/
def PrimOp (s t : State) : Prop := ∃ u r, PrimStep (setResult .none s) u ∧ t = setResult r u

theorem setResult_self {s : State} {r : Ret} (h : s.host.result = r) : setResult r s = s := by
  subst h; rfl

theorem PrimOp.ofFinish {α : Type} {b : Backend} {s t : State} {r : Run α} {ret : α → State → Ret}
    {D : α → State → Prop} {H : State → Prop} (hr : r.Post D H) (hD : ∀ a u, D a u → PrimStep (setResult .none s) u)
    (hH : ∀ u, H u → PrimStep (setResult .none s) u) (h : finishWith ret r = .next t) (_hb : s.cfg.backend = b) :
    PrimOp s t := by
  rcases finishWith_next hr h with ⟨a, u, hu, rfl⟩ | hu
  · exact ⟨u, _, hD a u hu, rfl⟩
  · refine ⟨t, .none, hH t hu, (setResult_self ?_).symm⟩
    rw [(hH t hu).host]
    rfl

/-- What a primitive run as an operation leaves alone. -/
structure PrimOpFrame (s t : State) : Prop where
  cfg : t.cfg = s.cfg
  tgt : t.tgt = s.tgt
  input : t.host.input = s.host.input
  irqEn : t.host.irqEn = s.host.irqEn
  past : t.host.past = s.host.past
  race : t.host.race = s.host.race
  configured : t.eng.configured = s.eng.configured
  mode : t.eng.mode = s.eng.mode
  flg : t.eng.flg = s.eng.flg
  phase : t.eng.seq.phase = s.eng.seq.phase
  i : t.eng.seq.i = s.eng.seq.i
  j : t.eng.seq.j = s.eng.seq.j
  call : t.eng.call = s.eng.call
  buf : t.eng.buf = s.eng.buf
  irqSaved : t.eng.irqSaved = s.eng.irqSaved
  arb : s.cfg.backend ≠ .peripheral → t.eng.arbLost = s.eng.arbLost
  tHalf : t.line.tHalf = s.line.tHalf
  tQuarter : t.line.tQuarter = s.line.tQuarter
  drive : t.line.drive = s.line.drive
  baud : t.srp.baud = s.srp.baud
  enable : t.srp.enable = s.srp.enable
  sim : t.sim = s.sim

theorem PrimOp.frame {s t : State} (h : PrimOp s t) (hb : s.cfg.backend ≠ .simulated) : PrimOpFrame s t := by
  obtain ⟨u, r, hp, rfl⟩ := h
  have hh : u.host = { s.host with result := .none } := hp.host
  exact ⟨hp.cfg, hp.tgt, by simp [hh], by simp [hh], by simp [hh], by simp [hh], hp.configured, hp.mode, hp.flg,
    hp.phase, hp.i, hp.j, hp.call, hp.buf, hp.irqSaved, hp.arb, hp.tHalf, hp.tQuarter, hp.drive, hp.baud,
    hp.enable, hp.sim hb⟩

/-- The operations of one transport (formats `WIRE` and `SRP`). -/
def isPrimitive : Instr → Bool
  | .setClock _ | .setData _ | .readData | .readClock | .delayQ | .delayH | .start | .rstart | .stop => true
  | .writeBit _ | .readBit | .sendByte _ | .recvByte _ | .pStart | .pWrite _ | .pRead _ | .pStop => true
  | _ => false

/-- Every operation of one transport is a primitive run as an operation, on that transport. -/
theorem exec_primitive {i : Instr} {s t : State} (hi : isPrimitive i = true) (h : exec i s = .next t) :
    PrimOp s t ∧ s.cfg.backend ≠ .simulated := by
  cases i <;> first | exact absurd hi Bool.false_ne_true | skip
  case setClock v =>
    simp only [exec, execSetClock] at h
    obtain ⟨hb, h⟩ := onBackend_next h
    exact ⟨PrimOp.ofFinish (setClock_post v (s := setResult .none s) hb) (fun _ _ h => h.1) (fun _ h => h.1) h hb,
      by simp [hb]⟩
  case setData v =>
    simp only [exec, execSetData] at h
    obtain ⟨hb, h⟩ := onBackend_next h
    exact ⟨PrimOp.ofFinish (setData_post v (s := setResult .none s) hb) (fun _ _ h => h.1) (fun _ h => h.elim) h hb,
      by simp [hb]⟩
  case readData =>
    simp only [exec, execReadData] at h
    obtain ⟨hb, h⟩ := onBackend_next h
    exact ⟨PrimOp.ofFinish (readData_post (s := setResult .none s) hb) (fun _ _ h => h.1) (fun _ h => h.elim) h hb,
      by simp [hb]⟩
  case readClock =>
    simp only [exec, execReadClock] at h
    obtain ⟨hb, h⟩ := onBackend_next h
    exact ⟨PrimOp.ofFinish (readClock_post (s := setResult .none s) hb) (fun _ _ h => h.1) (fun _ h => h.elim) h hb,
      by simp [hb]⟩
  case delayQ =>
    simp only [exec, execDelayQ] at h
    obtain ⟨hb, h⟩ := onBackend_next h
    cases h
    exact ⟨⟨_, _, PrimStep.refl _, rfl⟩, by simp [hb]⟩
  case delayH =>
    simp only [exec, execDelayH] at h
    obtain ⟨hb, h⟩ := onBackend_next h
    cases h
    exact ⟨⟨_, _, PrimStep.refl _, rfl⟩, by simp [hb]⟩
  case start =>
    simp only [exec, execStart] at h
    obtain ⟨hb, h⟩ := onBackend_next h
    exact ⟨PrimOp.ofFinish (wireStart_post (s := setResult .none s) hb) (fun _ _ h => h.1.1) (fun _ h => h.1) h hb,
      by simp [hb]⟩
  case rstart =>
    simp only [exec, execRstart] at h
    obtain ⟨hb, h⟩ := onBackend_next h
    exact ⟨PrimOp.ofFinish (wireRstart_post (s := setResult .none s) hb) (fun _ _ h => h.1.1) (fun _ h => h.1) h hb,
      by simp [hb]⟩
  case stop =>
    simp only [exec, execStop] at h
    obtain ⟨hb, h⟩ := onBackend_next h
    exact ⟨PrimOp.ofFinish (wireStop_post (s := setResult .none s) hb) (fun _ _ h => h.1.1) (fun _ h => h.1) h hb,
      by simp [hb]⟩
  case writeBit b =>
    simp only [exec, execWriteBit] at h
    obtain ⟨hb, h⟩ := onBackend_next h
    exact ⟨PrimOp.ofFinish (writeBit_lines b (s := setResult .none s) hb (LinesOnly.refl _)) (fun _ _ h => h.1.1)
      (fun _ h => h.1) h hb, by simp [hb]⟩
  case readBit =>
    simp only [exec, execReadBit] at h
    obtain ⟨hb, h⟩ := onBackend_next h
    exact ⟨PrimOp.ofFinish (readBit_lines (s := setResult .none s) hb (LinesOnly.refl _)) (fun _ _ h => h.1.1)
      (fun _ h => h.1) h hb, by simp [hb]⟩
  case sendByte b =>
    simp only [exec, execSendByte] at h
    obtain ⟨hb, h⟩ := onBackend_next h
    exact ⟨PrimOp.ofFinish (wireSendByte_post b (s := setResult .none s) hb) (fun _ _ h => h.1.1) (fun _ h => h.1) h hb,
      by simp [hb]⟩
  case recvByte a =>
    simp only [exec, execRecvByte] at h
    obtain ⟨hb, h⟩ := onBackend_next h
    exact ⟨PrimOp.ofFinish (wireRecvByte_post a (s := setResult .none s) hb) (fun _ _ h => h.1.1) (fun _ h => h.1) h hb,
      by simp [hb]⟩
  case pStart =>
    simp only [exec, execPStart] at h
    obtain ⟨hb, h⟩ := onBackend_next h
    exact ⟨PrimOp.ofFinish (srpStart_post (s := setResult .none s) hb) (fun _ _ h => h.1.1) (fun _ h => h.1) h hb,
      by simp [hb]⟩
  case pWrite b =>
    simp only [exec, execPWrite] at h
    obtain ⟨hb, h⟩ := onBackend_next h
    exact ⟨PrimOp.ofFinish (srpWrite_post b (s := setResult .none s) hb) (fun _ _ h => h.1.1) (fun _ h => h.1) h hb,
      by simp [hb]⟩
  case pRead a =>
    simp only [exec, execPRead] at h
    obtain ⟨hb, h⟩ := onBackend_next h
    exact ⟨PrimOp.ofFinish (srpRead_post a (s := setResult .none s) hb) (fun _ _ h => h.1.1) (fun _ h => h.1) h hb,
      by simp [hb]⟩
  case pStop =>
    simp only [exec, execPStop] at h
    obtain ⟨hb, h⟩ := onBackend_next h
    exact ⟨PrimOp.ofFinish (srpStop_post (s := setResult .none s) hb) (fun _ _ h => h.1.1) (fun _ h => h.1) h hb,
      by simp [hb]⟩

/-! ## Calls -/

/-- What a returned call leaves, whatever it did. -/
structure Settled (s t : State) : Prop where
  frame : BusFrame s t
  phase : t.eng.seq.phase = .idle
  call : t.eng.call = none
  arb : t.eng.arbLost = false
  irq : t.host.irqEn = s.host.irqEn
  waiting : t.eng.waiting = s.eng.waiting

theorem CallReturned.settled {s t : State} (h : CallReturned s t) : Settled s t :=
  ⟨h.frame, h.phase, h.call, h.arb, h.irq, h.waiting⟩

theorem turnedBack_returned (c : Call) (r : Ret) (s : State) : CallReturned s (turnedBack c r s) :=
  ⟨turnedBack_frame c r s, rfl, rfl, rfl, rfl, rfl, rfl, rfl⟩

/-- All a transfer can do, as every later one sees it. -/
theorem transfer_step (a : Addr) (msgs : List Msg) (s : State) :
    (transfer a msgs s).Post (fun _ t => CallReturned s t) (CallStuck s) := by
  by_cases hp : s.eng.seq.phase = .idle
  · by_cases hc : s.eng.configured = true
    · cases msgs with
      | nil =>
        rcases transfer_cases a [] s hp with ⟨h, -⟩ | ⟨-, -, h⟩ | ⟨-, h, -⟩ | ⟨-, h, -⟩
        · simp [hc] at h
        · rw [h]; exact turnedBack_returned _ _ s
        · exact absurd rfl h
        · exact absurd rfl h
      | cons m ms => exact (transfer_post a m ms s hp hc).mono (fun _ _ h => h.ret) fun _ h => h
    · rcases transfer_cases a msgs s hp with ⟨-, h⟩ | ⟨h, -⟩ | ⟨h, -⟩ | ⟨h, -⟩
      · rw [h]; exact turnedBack_returned _ _ s
      · exact absurd h hc
      · exact absurd h hc
      · exact absurd h hc
  · unfold transfer
    rw [if_pos hp]
    trivial

theorem Settled.result {s t : State} (h : Settled s t) (r : Ret) : Settled s (setResult r t) :=
  ⟨⟨h.frame.cfg, h.frame.input, h.frame.tgt, h.frame.configured, h.frame.mode, h.frame.tHalf, h.frame.tQuarter,
    h.frame.drive, h.frame.baud, h.frame.enable, h.frame.line, h.frame.srp, h.frame.sim⟩, h.phase, h.call, h.arb, h.irq,
    h.waiting⟩

theorem Settled.trans {s t u : State} (h : Settled s t) (g : Settled t u) : Settled s u :=
  ⟨h.frame.trans g.frame, g.phase, g.call, g.arb, g.irq.trans h.irq, g.waiting.trans h.waiting⟩

theorem CallHangs.after {s t u : State} (h : Settled s t) (g : CallHangs t u) : CallHangs s u :=
  ⟨h.frame.trans g.frame, g.waiting, g.legal, g.inside, by rw [g.irq, h.frame.cfg, h.irq],
    fun hb => (g.saved (by rw [h.frame.cfg]; exact hb)).trans h.irq, g.result,
    fun hb => g.arb (by rw [h.frame.cfg]; exact hb)⟩

theorem helper_step (a : Addr) (msgs : List Msg) (ret : State → Ret) (s : State) :
    (helper a msgs ret s).Post (fun _ t => Settled s t) (CallHangs s) := by
  refine (transfer_step a msgs s).andThen (fun _ h => h.1) fun t ht => ?_
  show Settled s (if _ then _ else _)
  split
  · exact ht.settled.result _
  · exact ht.settled

theorem regRead8_step (a : Addr) (reg : Byte) (s : State) :
    (regRead8 a reg s).Post (fun _ t => Settled s t) (CallHangs s) := helper_step a _ _ s

/-- The host's script of other callers is no part of what a call settles. -/
theorem Settled.race {s t : State} (h : Settled s t) (r : List (List Call)) :
    Settled s { t with host := { t.host with race := r } } :=
  ⟨⟨h.frame.cfg, h.frame.input, h.frame.tgt, h.frame.configured, h.frame.mode, h.frame.tHalf, h.frame.tQuarter,
    h.frame.drive, h.frame.baud, h.frame.enable, h.frame.line, h.frame.srp, h.frame.sim⟩, h.phase, h.call, h.arb, h.irq,
    h.waiting⟩

theorem otherCalls_step (cs : List Call) {s t : State} (h : Settled s t) :
    (otherCalls cs t).Post (fun _ u => Settled s u) (CallHangs s) := by
  induction cs generalizing t with
  | nil => exact h
  | cons c cs ih =>
    exact (transfer_step c.addr c.msgs t).andThen (fun _ hu => hu.1.after h) fun u hu => ih (h.trans hu.settled)

/-- All that other callers can do between the transfers of a read-modify-write (R350). -/
theorem raceCalls_step {s t : State} (h : Settled s t) :
    (raceCalls t).Post (fun _ u => Settled s u) (CallHangs s) := by
  unfold raceCalls
  split
  · exact h
  · exact otherCalls_step _ (h.race _)

theorem updateMasked_step (a : Addr) (reg mask value : Byte) (s : State) :
    (updateMasked a reg mask value s).Post (fun _ t => Settled s t) (CallHangs s) := by
  refine (regRead8_step a reg s).andThen (fun _ h => h) fun t ht => ?_
  split
  · next old _ =>
    dsimp only
    split
    · exact ht.result _
    · refine (raceCalls_step ht).andThen (fun _ h => h) fun u hu => ?_
      exact (transfer_step a _ u).mono (fun _ v hv => hu.trans hv.settled) fun v hv => hv.1.after hu
  all_goals exact ht

/-- `TRANSFER` and the helpers. -/
def isCall : Instr → Bool
  | .transfer _ _ | .detect _ | .write _ _ | .read _ _ | .writeThenRead _ _ _ => true
  | .regRead8 _ _ | .regWrite8 _ _ _ | .regRead16Be _ _ | .regRead16Le _ _ | .regWrite16Be _ _ _ => true
  | .regWrite16Le _ _ _ | .updateMasked _ _ _ _ => true
  | _ => false

/-- A call as a run of the engine. -/
def callRun : Instr → State → Run Unit
  | .transfer a msgs, s => transfer a msgs s
  | .detect a, s => transfer a (writePattern []) s
  | .write a bytes, s => transfer a (writePattern bytes) s
  | .read a n, s => helper a (readPattern n) (fun s => .okBytes (readBytes s)) s
  | .writeThenRead a bytes n, s => helper a (writeReadPattern bytes n) (fun s => .okBytes (readBytes s)) s
  | .regRead8 a reg, s => regRead8 a reg s
  | .regWrite8 a reg v, s => regWrite8 a reg v s
  | .regRead16Be a reg, s =>
    helper a (writeReadPattern [reg] 2) (fun s => .okWord (wordBe (byteRead s 0) (byteRead s 1))) s
  | .regRead16Le a reg, s =>
    helper a (writeReadPattern [reg] 2) (fun s => .okWord (wordLe (byteRead s 0) (byteRead s 1))) s
  | .regWrite16Be a reg w, s => transfer a (writePattern [reg, wordHi w, wordLo w]) s
  | .regWrite16Le a reg w, s => transfer a (writePattern [reg, wordLo w, wordHi w]) s
  | .updateMasked a reg mask v, s => updateMasked a reg mask v s
  | _, s => .done () s

theorem exec_call {i : Instr} (hi : isCall i = true) (s : State) : exec i s = toOutcome (callRun i s) := by
  cases i <;> first | rfl | exact absurd hi Bool.false_ne_true

/-- All a call can do: it returns with the bus settled, or waits for ever inside its loop. -/
theorem callRun_step {i : Instr} (hi : isCall i = true) (s : State) :
    (callRun i s).Post (fun _ t => Settled s t) (CallHangs s) := by
  have ht : ∀ a msgs, (transfer a msgs s).Post (fun _ t => Settled s t) (CallHangs s) := fun a msgs =>
    (transfer_step a msgs s).mono (fun _ _ h => h.settled) fun _ h => h.1
  cases i <;> first
    | exact absurd hi Bool.false_ne_true
    | exact ht _ _
    | exact helper_step _ _ _ _
    | exact updateMasked_step _ _ _ _ _

/-- Every call but the read-modify-write leaves the host's script of other callers alone (R350). -/
theorem callRun_race {i : Instr} (hi : isCall i = true) (hu : ∀ a reg mask v, i ≠ .updateMasked a reg mask v)
    (s : State) : (callRun i s).Post (fun _ t => t.host.race = s.host.race) fun t => t.host.race = s.host.race := by
  have ht : ∀ a msgs, (transfer a msgs s).Post (fun _ t => t.host.race = s.host.race)
      fun t => t.host.race = s.host.race := fun a msgs =>
    (transfer_step a msgs s).mono (fun _ _ h => h.race) fun _ h => h.2
  have hh : ∀ a msgs ret, (helper a msgs ret s).Post (fun _ t => t.host.race = s.host.race)
      fun t => t.host.race = s.host.race := fun a msgs ret => (ht a msgs).andThen (fun _ h => h) fun t h => by
    show (if _ then _ else _ : State).host.race = _
    split <;> exact h
  cases i <;> first
    | exact absurd hi Bool.false_ne_true
    | exact ht _ _
    | exact hh _ _ _
    | exact absurd rfl (hu _ _ _ _)

theorem exec_call_next {i : Instr} (hi : isCall i = true) {s t : State} (h : exec i s = .next t) :
    Settled s t ∨ CallHangs s t := by
  rw [exec_call hi] at h
  exact toOutcome_next (callRun_step hi s) h

theorem otherCalls_keeps {P : Sim → Prop} (hP : SimClosed P) (cs : List Call) {s : State} (hs : P s.sim) :
    Keeps P (otherCalls cs s) := by
  induction cs generalizing s with
  | nil => exact hs
  | cons c cs ih => exact (transfer_keeps hP c.addr c.msgs hs).andThen fun t ht => ih ht

theorem raceCalls_keeps {P : Sim → Prop} (hP : SimClosed P) {s : State} (hs : P s.sim) : Keeps P (raceCalls s) := by
  unfold raceCalls
  split
  · exact hs
  · exact otherCalls_keeps hP _ hs

/-- A property of the simulated bus that its primitives keep, a call keeps. -/
theorem callRun_keeps {P : Sim → Prop} (hP : SimClosed P) {i : Instr} (hi : isCall i = true) {s : State}
    (hs : P s.sim) : Keeps P (callRun i s) := by
  have hh : ∀ a msgs ret, Keeps P (helper a msgs ret s) := fun a msgs ret =>
    (transfer_keeps hP a msgs hs).andThen fun t ht => by
      show P (if _ then _ else _ : State).sim
      split <;> exact ht
  cases i <;> first
    | exact absurd hi Bool.false_ne_true
    | exact transfer_keeps hP _ _ hs
    | exact hh _ _ _
    | skip
  case updateMasked a reg mask v =>
    refine (hh _ _ _).andThen fun t ht => ?_
    split
    · dsimp only
      split
      · exact ht
      · exact (raceCalls_keeps hP ht).andThen fun u hu => transfer_keeps hP _ _ hu
    all_goals exact ht

/-! ## Inside a call -/

/-- A part of the loop that started without a failure: its frame, and whether it failed as the engine fails. -/
def PartOf (s t : State) : Prop :=
  LoopStep s t ∧ t.eng.waiting = s.eng.waiting ∧ ((∃ e, FailedWith s t e) ∨ failed t = false)

/-- A part of the loop that waits for ever. -/
def PartHangs (s t : State) : Prop := LoopStep s t ∧ t.eng.waiting ≠ none

theorem HangsAt.part {s t : State} (h : HangsAt s t) : PartHangs s t := ⟨h.loop, h.waiting⟩

theorem PartOf.after {s t u : State} (h : LoopStep s t) (hw : t.eng.waiting = s.eng.waiting) (g : PartOf t u) :
    PartOf s u := by
  obtain ⟨g1, g2, g3⟩ := g
  refine ⟨h.trans g1, g2.trans hw, g3.imp_left fun ⟨e, he⟩ => ⟨e, he.1, ?_⟩⟩
  rw [← h.frame.cfg]
  exact he.2

theorem failed_phase {s t : State} (h : t.eng.seq.phase = s.eng.seq.phase) : failed t = failed s := by
  unfold failed
  rw [h]

theorem sendAll_part (bs : List Byte) (s : State) (hs : failed s = false) :
    (sendAll bs s).Post (fun _ t => PartOf s t) (PartHangs s) := by
  induction bs generalizing s with
  | nil => exact ⟨LoopStep.refl s, rfl, .inr hs⟩
  | cons b bs ih =>
    refine (rowSend_post b s).andThen (fun _ h => h.at.part) fun t ht => ?_
    obtain ⟨hl, hw, -, -, -, ⟨e, he, -⟩ | ⟨-, hph, -⟩⟩ := ht
    · rw [if_pos he.failed]
      exact ⟨hl, hw, .inl ⟨e, he⟩⟩
    · have hf : failed t = false := (failed_phase hph).trans hs
      rw [if_neg (by rw [hf]; simp)]
      exact (ih t hf).mono (fun _ u hu => hu.after hl hw) fun u hu => ⟨hl.trans hu.1, hu.2⟩

theorem recvAll_part (len n : Nat) (s : State) (hs : failed s = false) :
    (recvAll len n s).Post (fun _ t => PartOf s t) (PartHangs s) := by
  induction n generalizing s with
  | zero => exact ⟨LoopStep.refl s, rfl, .inr hs⟩
  | succ n ih =>
    refine (rowRecv_post len s).andThen (fun _ h => h.at.part) fun t ht => ?_
    obtain ⟨hl, hw, -, -, v, -, -, he | ⟨hph, -⟩⟩ := ht
    · rw [if_pos he.failed]
      exact ⟨hl, hw, .inl ⟨_, he⟩⟩
    · have hf : failed t = false := (failed_phase hph).trans hs
      rw [if_neg (by rw [hf]; simp)]
      exact (ih t hf).mono (fun _ u hu => hu.after hl hw) fun u hu => ⟨hl.trans hu.1, hu.2⟩

/-- All one message can do, whatever call it stands in. -/
theorem runMsg_part (a : Addr) (m : Msg) (s : State) :
    (runMsg a m s).Post (fun _ t => PartOf s t) (PartHangs s) := by
  unfold runMsg
  refine (rowPreStop_post s).andThen (fun _ h => h.part) fun t ht => ?_
  obtain ⟨hl, hw, -⟩ := ht
  have hl1 : LoopStep s (rowLoadFlags m t) :=
    hl.trans (LoopStep.place _ _ { t.eng.seq with phase := _, j := _, k := _ } _)
  have hf1 : failed (rowLoadFlags m t) = false := by
    refine failed_false fun e => ?_
    show (if _ then Phase.cond else dataPhase _) ≠ _
    unfold dataPhase
    split
    · simp
    · split <;> simp
  have h2 : (runAddr a (rowLoadFlags m t)).Post (fun _ u => PartOf s u) (PartHangs s) := by
    unfold runAddr
    split
    · refine (rowCond_post _).andThen (fun u hu => ⟨hl1.trans hu.loop, hu.waiting⟩) fun u hu => ?_
      obtain ⟨gl, gw, -⟩ := hu
      have hlu := hl1.trans gl
      refine (rowAddr_post _ u).mono (fun _ v hv => ?_) fun v hv => ⟨hlu.trans hv.1.loop, hv.2⟩
      obtain ⟨kl, kw, -, -, x, -, ⟨e, he, -⟩ | ⟨-, hph, -⟩⟩ := hv
      · exact PartOf.after hlu (gw.trans hw) ⟨kl, kw, .inl ⟨e, he⟩⟩
      · refine ⟨hlu.trans kl, kw.trans (gw.trans hw), .inr (failed_false fun e => ?_)⟩
        rw [hph]
        unfold dataPhase
        split <;> simp
    · exact ⟨hl1, hw, .inr hf1⟩
  refine h2.andThen (fun _ h => h) fun u hu => ?_
  split
  · exact hu
  · next hf =>
    have hf' : failed u = false := by simpa using hf
    have h3 : (runData m u).Post (fun _ v => PartOf s v) (PartHangs s) := by
      have h4 : (runData m u).Post (fun _ v => PartOf u v) (PartHangs u) := by
        unfold runData
        split
        · exact sendAll_part _ u hf'
        · exact recvAll_part _ _ u hf'
      exact h4.mono (fun _ v hv => hv.after hu.1 hu.2.1) fun v hv => ⟨hu.1.trans hv.1, hv.2⟩
    refine h3.andThen (fun _ h => h) fun v hv => ?_
    split
    · exact hv
    · obtain ⟨kl, kw, -⟩ := hv
      unfold rowEndMsg
      split
      · exact ⟨kl.trans (LoopStep.place _ _ { v.eng.seq with phase := _, i := _ } _), kw, .inr rfl⟩
      · exact ⟨kl.trans (LoopStep.place _ _ { v.eng.seq with phase := _ } _), kw, .inr rfl⟩

/-- What the end of a call that failed as the engine fails can do: one `P` behind an error, none behind a loss of
arbitration (R190, R320). -/
theorem finishCall_failed {s u : State} {e : BusError} (hl : LoopStep s u) (h : FailedWith s u e) :
    (finishCall u).Post
      (fun _ t => Returned u t ∧ t.eng.waiting = u.eng.waiting ∧ t.eng.bus = .idle ∧
        (s.cfg.backend = .bitBang → t.line.sclOut = true ∧ t.line.sdaOut = true) ∧ t.host.result = .err e ∧
        t.eng.trace = u.eng.trace ++ (if e = .arbitrationLost then [] else [.stop]))
      (HangsAt u) := by
  obtain ⟨hph, rfl | ⟨rfl, hper⟩⟩ := h
  · refine (finishCall_err u .nack hph (by simp)).mono (fun _ t ht => ?_) fun _ h => h
    obtain ⟨h1, h2, h3, h4, -, h6, h7, -⟩ := ht
    rw [hl.frame.cfg] at h4
    exact ⟨h1, h2, h3, h4, h6, h7⟩
  · rw [finishCall_arb u hph]
    obtain ⟨h1, h2, h3, -, h5, h6⟩ := finishCall_arb_spec (s := u) (by rw [hl.frame.cfg]; exact hper) rfl
    exact ⟨h1, h2, h3, by simp [hper], h5, by rw [h6]; simp⟩

/-- What an operation inside a call can do: go on inside it, or return with a failure. -/
def InCall (s t : State) : Prop :=
  (LoopStep s t ∧ t.eng.waiting = s.eng.waiting ∧ failed t = false) ∨
    (BusFrame s t ∧ t.eng.waiting = s.eng.waiting ∧ t.eng.seq.phase = .idle ∧ t.eng.bus = .idle ∧
      t.eng.arbLost = false ∧ t.host.race = s.host.race ∧
      t.host.irqEn = (if s.cfg.backend = .bitBang then s.eng.irqSaved else s.host.irqEn) ∧
      ∃ e, t.host.result = .err e ∧ (e = .nack ∨ (e = .arbitrationLost ∧ s.cfg.backend = .peripheral)))

theorem endInCall_step {s u : State} (h : PartOf s u) :
    (endInCall u).Post (fun _ t => InCall s t) (PartHangs s) := by
  unfold endInCall
  obtain ⟨hl, hw, ⟨e, he⟩ | hf⟩ := h
  · rw [if_pos he.failed]
    refine (finishCall_failed hl he).mono (fun _ t ht => .inr ?_) fun t ht => ⟨hl.trans ht.loop, ht.waiting⟩
    obtain ⟨h1, h2, h3, -, h5, -⟩ := ht
    refine ⟨hl.frame.trans h1.frame, h2.trans hw, h1.phase, h3, h1.arb, h1.race.trans (by rw [hl.host]), ?_, e, h5, he.2⟩
    rw [h1.irq, hl.frame.cfg, hl.irqSaved, hl.host]
  · rw [if_neg (by rw [hf]; simp)]
    exact .inl ⟨hl, hw, hf⟩

theorem execMessage_step {m : Msg} {s t : State} (h : execMessage m s = .next t) : InCall s t ∨ PartHangs s t := by
  unfold execMessage at h
  split at h
  · cases h
  · split at h
    · refine toOutcome_next (D := fun _ t => InCall s t) (H := PartHangs s) ((runMsg_part _ m s).andThen (fun _ h => h) fun u hu => ?_) h
      exact endInCall_step hu
    · cases h

theorem execAddress_step {b : Byte} {s t : State} (h : execAddress b s = .next t) : InCall s t ∨ PartHangs s t := by
  unfold execAddress at h
  split at h
  · cases h
  · split at h
    · refine toOutcome_next (D := fun _ t => InCall s t) (H := PartHangs s) ((rowAddr_post b s).andThen (fun u hu => ⟨hu.1.loop, hu.2⟩) fun u hu => ?_) h
      obtain ⟨kl, kw, -, -, x, -, ⟨e, he, -⟩ | ⟨-, hph, -⟩⟩ := hu
      · exact endInCall_step ⟨kl, kw, .inl ⟨e, he⟩⟩
      · refine endInCall_step ⟨kl, kw, .inr (failed_false fun e => ?_)⟩
        rw [hph]
        unfold dataPhase
        split <;> simp
    · cases h

theorem InCall.frame {s t : State} (h : InCall s t) : BusFrame s t := by
  rcases h with h | h
  · exact h.1.frame
  · exact h.1

theorem InCall.race {s t : State} (h : InCall s t) : t.host.race = s.host.race := by
  rcases h with h | h
  · rw [h.1.host]
  · exact h.2.2.2.2.2.1

/-- Every operation on the bus keeps the frame. -/
theorem exec_bus_frame {i : Instr} (hi : runsOnBus i = true) {s t : State} (h : exec i s = .next t) : BusFrame s t := by
  by_cases hc : isCall i = true
  · rcases exec_call_next hc h with h | h
    · exact h.frame
    · exact h.frame
  · have key : InCall s t ∨ PartHangs s t := by
      cases i <;> first
        | exact absurd rfl hc
        | exact absurd hi Bool.false_ne_true
        | exact execMessage_step h
        | exact execAddress_step h
    rcases key with h | h
    · exact h.frame
    · exact h.1.frame

/-- Every operation on the bus but the read-modify-write leaves the host's script of other callers alone. -/
theorem exec_bus_race {i : Instr} (hi : runsOnBus i = true) (hu : ∀ a reg mask v, i ≠ .updateMasked a reg mask v)
    {s t : State} (h : exec i s = .next t) : t.host.race = s.host.race := by
  by_cases hc : isCall i = true
  · rw [exec_call hc] at h
    rcases toOutcome_next (callRun_race hc hu s) h with h | h <;> exact h
  · have key : InCall s t ∨ PartHangs s t := by
      cases i <;> first
        | exact absurd rfl hc
        | exact absurd hi Bool.false_ne_true
        | exact execMessage_step h
        | exact execAddress_step h
    rcases key with h | h
    · exact h.race
    · rw [h.1.host]

/-! ## Events and callbacks -/

/-- Delivering touches the responder only. -/
theorem deliver_next {s t : State} (h : deliver s = .next t) : ∃ g, t = { s with tgt := g } := by
  unfold deliver at h
  split at h
  · cases h; exact ⟨_, rfl⟩
  · split at h
    · cases h; exact ⟨_, rfl⟩
    · cases h

/-- Raising events touches the responder only. -/
theorem raiseEvents_next {es : List Event} {s t : State} (h : raiseEvents es s = .next t) :
    ∃ g, t = { s with tgt := g } := by
  unfold raiseEvents at h
  dsimp only at h
  split at h
  · obtain ⟨g, rfl⟩ := deliver_next h
    exact ⟨g, rfl⟩
  · cases h; exact ⟨_, rfl⟩

/-- Events and callbacks touch the responder only. -/
theorem exec_target {i : Instr} (hi : (i.isEvent || isCallback i) = true) {s t : State} (h : exec i s = .next t) :
    ∃ g, t = { s with tgt := g } := by
  cases i <;> first
    | exact absurd hi Bool.false_ne_true
    | exact raiseEvents_next h
    | (cases h; exact ⟨_, rfl⟩)

end Sys2Proof.Machine
end

