-- ==== Sys2Proof/Laws/Device.lean ====
section
/-! SUPPORT. A call to a device on the simulated bus, run exactly (spec R225): what the device takes and gives, byte by
byte, and what the call leaves. -/

namespace Sys2Proof.Machine

open Sys2Proof

/-! ## Bytes in a row -/

theorem ptrAfter_succ (p : Byte) (n : Nat) : ptrAfter (p + 1) n = ptrAfter p (n + 1) := by
  unfold ptrAfter
  rw [BitVec.ofNat_add, BitVec.add_assoc, BitVec.add_comm 1]
  rfl

/-- A device after bytes written to it. -/
def SimDev.takeAll (d : SimDev) (bs : List Byte) : SimDev := bs.foldl (fun d b => d.writeNext b) d

theorem SimDev.takeAll_addr (d : SimDev) (bs : List Byte) : (d.takeAll bs).addr = d.addr := by
  induction bs generalizing d with
  | nil => rfl
  | cons b bs ih => exact (ih _).trans (SimDev.writeNext_addr b d)

/-- Data bytes to a reference device go to its registers from its pointer on. -/
theorem SimDev.takeAll_data {d : SimDev} {f : RegFile} (h : d.body = .file f) (hf : d.first = false) (bs : List Byte) :
    (d.takeAll bs).body = .file (f.writeFrom d.ptr bs) ∧ (d.takeAll bs).ptr = ptrAfter d.ptr bs.length := by
  induction bs generalizing d f with
  | nil => exact ⟨h, by simp [takeAll, ptrAfter]⟩
  | cons b bs ih =>
    have hb : (d.writeNext b).body = .file (f.write d.ptr.toNat b).1 ∧ (d.writeNext b).first = false ∧
        (d.writeNext b).ptr = ptrNext d.ptr := by
      simp [SimDev.writeNext, hf, h]
    obtain ⟨h1, h2⟩ := ih hb.1 hb.2.1
    rw [hb.2.2] at h1 h2
    exact ⟨h1, h2.trans (ptrAfter_succ _ _)⟩

/-- The first byte of a write is the pointer. -/
theorem SimDev.takeAll_pointer {d : SimDev} {f : RegFile} (h : d.body = .file f) (reg : Byte) (bs : List Byte) :
    ({ d with first := true }.takeAll (reg :: bs)).body = .file (f.writeFrom reg bs) ∧
      ({ d with first := true }.takeAll (reg :: bs)).ptr = ptrAfter reg bs.length :=
  SimDev.takeAll_data (d := { d with ptr := reg, first := false }) h rfl bs

/-- A file after bytes written from a pointer on, at the other entries. -/
theorem RegFile.peek_writeFrom (f : RegFile) (p : Byte) (bs : List Byte) (k : Nat)
    (hk : ∀ j < bs.length, k ≠ (ptrAfter p j).toNat) : (f.writeFrom p bs).peek k = f.peek k := by
  induction bs generalizing f p with
  | nil => rfl
  | cons b bs ih =>
    have h0 : k ≠ p.toNat := by simpa [ptrAfter] using hk 0 (by simp)
    rw [RegFile.writeFrom, ih _ _ fun j hj => ?_, RegFile.peek_write_other f b h0]
    rw [show ptrNext p = p + 1 from rfl, ptrAfter_succ]
    exact hk (j + 1) (by simpa using hj)

/-! ## Inside the loop -/

/-- The device at `a` is selected in a direction. -/
structure Selected (a : Addr) (dir : Dir) (d : SimDev) (s : State) : Prop where
  backend : s.cfg.backend = .simulated
  await : s.sim.awaitAddr = false
  cur : s.sim.cur = some a
  dir : s.sim.dir = dir
  dev : s.sim.find a = some d

/-- What a part of the loop leaves: its symbols, its stores into the read buffers, and the rest as it was. -/
structure Left (a : Addr) (s t : State) (ys : List Sym) (cells : List BufCell) : Prop where
  cfg : t.cfg = s.cfg
  host : t.host = s.host
  call : t.eng.call = s.eng.call
  waiting : t.eng.waiting = s.eng.waiting
  trace : t.eng.trace = s.eng.trace ++ ys
  buf : t.eng.buf = s.eng.buf ++ cells
  others : ∀ b, b ≠ a → t.sim.find b = s.sim.find b

/-- The same of a part that stays at its message. -/
structure Ran (a : Addr) (s t : State) (ys : List Sym) (cells : List BufCell) : Prop extends Left a s t ys cells where
  i : t.eng.seq.i = s.eng.seq.i

theorem Left.trans {a : Addr} {s t u : State} {ys zs : List Sym} {cs ds : List BufCell} (h : Left a s t ys cs)
    (g : Left a t u zs ds) : Left a s u (ys ++ zs) (cs ++ ds) :=
  ⟨g.cfg.trans h.cfg, g.host.trans h.host, g.call.trans h.call, g.waiting.trans h.waiting,
    by rw [g.trace, h.trace, List.append_assoc], by rw [g.buf, h.buf, List.append_assoc],
    fun b hb => (g.others b hb).trans (h.others b hb)⟩

theorem Ran.refl (a : Addr) (s : State) : Ran a s s [] [] :=
  ⟨⟨rfl, rfl, rfl, rfl, by simp, by simp, fun _ _ => rfl⟩, rfl⟩

theorem Ran.trans {a : Addr} {s t u : State} {ys zs : List Sym} {cs ds : List BufCell} (h : Ran a s t ys cs)
    (g : Ran a t u zs ds) : Ran a s u (ys ++ zs) (cs ++ ds) := ⟨h.toLeft.trans g.toLeft, g.i.trans h.i⟩

/-- A written byte to a selected device. -/
theorem rowSend_selected {a : Addr} {d : SimDev} {s : State} (h : Selected a .write d s) (b : Byte) :
    ∃ t, rowSend b s = .done () t ∧ Selected a .write (d.writeNext b) t ∧ Ran a s t [.tx b true] [] ∧
      t.eng.seq.phase = s.eng.seq.phase ∧ t.eng.seq.j = s.eng.seq.j + 1 ∧ t.eng.flg = s.eng.flg ∧
      t.eng.bus = s.eng.bus := by
  have ht : s.sim.take b = (s.sim.update a (SimDev.writeNext b), true) := by
    simp [Sim.take, h.await, h.cur, h.dir]
  have hr : rowSend b s = .done () (nextByte (emit (.tx b true) (setAcked true
      { s with sim := s.sim.update a (SimDev.writeNext b) }))) := by
    obtain ⟨⟨bk, _⟩, _, _, _, _, _, _⟩ := s
    have := h.backend
    simp only at this
    subst this
    simp only [rowSend, busSendByte, simSendByte, ht, Run.andThen_done]
    rfl
  refine ⟨_, hr, ⟨h.backend, h.await, h.cur, h.dir, ?_⟩,
    ⟨⟨rfl, rfl, rfl, rfl, rfl, by simp [nextByte, emit, setAcked], fun c hc => ?_⟩, rfl⟩, rfl, rfl, rfl, rfl⟩
  · show (s.sim.update a (SimDev.writeNext b)).find a = _
    rw [Sim.find_update_same (SimDev.writeNext_addr b), h.dev]
    rfl
  · exact Sim.find_update_other (SimDev.writeNext_addr b) _ hc

/-- The bytes of a write message to a selected device. -/
theorem sendAll_selected {a : Addr} {d : SimDev} {s : State} (h : Selected a .write d s)
    (hp : s.eng.seq.phase = .dataWr) (bs : List Byte) :
    ∃ t, sendAll bs s = .done () t ∧ Selected a .write (d.takeAll bs) t ∧ Ran a s t (txSyms bs) [] ∧
      t.eng.seq.phase = .dataWr ∧ t.eng.flg = s.eng.flg ∧ t.eng.bus = s.eng.bus := by
  induction bs generalizing d s with
  | nil => exact ⟨s, rfl, h, Ran.refl a s, hp, rfl, rfl⟩
  | cons b bs ih =>
    obtain ⟨t, e, ht, r, p, -, f, bu⟩ := rowSend_selected h b
    have hp' := p.trans hp
    obtain ⟨u, e2, hu, r2, p2, f2, b2⟩ := ih ht hp'
    have hf : failed t = false := failed_false fun e he => by rw [hp'] at he; cases he
    refine ⟨u, ?_, hu, r.trans r2, p2, f2.trans f, b2.trans bu⟩
    rw [sendAll, e, Run.andThen_done, hf]
    exact e2

/-- A byte received from a selected device. -/
theorem rowRecv_selected {a : Addr} {d : SimDev} {s : State} (h : Selected a .read d s) (len : Nat) :
    ∃ t, rowRecv len s = .done () t ∧ Selected a .read (d.readNext s.cfg.oobReadByte).2 t ∧
      Ran a s t [.rx (d.readNext s.cfg.oobReadByte).1 (recvAck (msgCount s) s.eng.seq.i len s.eng.seq.j)]
        [⟨s.eng.seq.i, s.eng.seq.j, (d.readNext s.cfg.oobReadByte).1⟩] ∧
      t.eng.seq.phase = s.eng.seq.phase ∧ t.eng.seq.j = s.eng.seq.j + 1 ∧ t.eng.flg = s.eng.flg ∧
      t.eng.bus = s.eng.bus := by
  have ht : s.sim.give s.cfg.oobReadByte = ((d.readNext s.cfg.oobReadByte).1,
      s.sim.update a fun d => (d.readNext s.cfg.oobReadByte).2) := by
    simp [Sim.give, h.cur, h.dir, h.dev]
  have hr : ∃ t, rowRecv len s = .done () t ∧ t = nextByte
      (let u := emit (.rx (d.readNext s.cfg.oobReadByte).1 (recvAck (msgCount s) s.eng.seq.i len s.eng.seq.j))
        { s with sim := s.sim.update a fun d => (d.readNext s.cfg.oobReadByte).2 }
      { u with eng := { u.eng with
        buf := u.eng.buf ++ [⟨s.eng.seq.i, s.eng.seq.j, (d.readNext s.cfg.oobReadByte).1⟩] } }) := by
    obtain ⟨⟨bk, _⟩, _, _, _, _, _, _⟩ := s
    have := h.backend
    simp only at this
    subst this
    refine ⟨_, ?_, rfl⟩
    simp only [rowRecv, busRecvByte, simRecvByte, Run.bind_done]
    simp only at ht
    rw [ht]
    rfl
  obtain ⟨t, e, rfl⟩ := hr
  refine ⟨_, e, ⟨h.backend, h.await, h.cur, h.dir, ?_⟩, ⟨⟨rfl, rfl, rfl, rfl, rfl, rfl, fun c hc => ?_⟩, rfl⟩, rfl, rfl,
    rfl, rfl⟩
  · show (s.sim.update a fun d => (d.readNext s.cfg.oobReadByte).2).find a = _
    rw [Sim.find_update_same (SimDev.readNext_addr _), h.dev]
    rfl
  · exact Sim.find_update_other (SimDev.readNext_addr _) _ hc

/-- The bytes of a read message from a selected reference device. -/
theorem recvAll_selected {a : Addr} {d : SimDev} {f : RegFile} {s : State} (h : Selected a .read d s)
    (hb : d.body = .file f) (hp : s.eng.seq.phase = .dataRd) (len n : Nat) :
    ∃ t d', recvAll len n s = .done () t ∧ Selected a .read d' t ∧ d'.body = .file f ∧ d'.ptr = ptrAfter d.ptr n ∧
      Ran a s t (recvSyms (msgCount s) s.eng.seq.i len s.eng.seq.j (f.readFrom s.cfg.oobReadByte d.ptr n))
        (cellsAt s.eng.seq.i s.eng.seq.j (f.readFrom s.cfg.oobReadByte d.ptr n)) ∧
      t.eng.seq.phase = .dataRd ∧ t.eng.flg = s.eng.flg ∧ t.eng.bus = s.eng.bus := by
  induction n generalizing d s with
  | zero => exact ⟨s, d, rfl, h, hb, by simp [ptrAfter], Ran.refl a s, hp, rfl, rfl⟩
  | succ n ih =>
    obtain ⟨t, e, ht, r, p, j, fl, bu⟩ := rowRecv_selected h len
    have hn : (d.readNext s.cfg.oobReadByte).1 = f.read s.cfg.oobReadByte d.ptr.toNat ∧
        (d.readNext s.cfg.oobReadByte).2.ptr = ptrNext d.ptr ∧ (d.readNext s.cfg.oobReadByte).2.body = .file f := by
      simp [SimDev.readNext, hb]
    have hp' := p.trans hp
    obtain ⟨u, d', e2, hu, hb2, pt2, r2, p2, f2, b2⟩ := ih ht hn.2.2 hp'
    have hf : failed t = false := failed_false fun e he => by rw [hp'] at he; cases he
    have hc : msgCount t = msgCount s := by rw [msgCount, msgCount, r.call]
    refine ⟨u, d', ?_, hu, hb2, ?_, ?_, p2, f2.trans fl, b2.trans bu⟩
    · rw [recvAll, e, Run.andThen_done, hf]
      exact e2
    · rw [pt2, hn.2.1]
      exact ptrAfter_succ _ _
    · have := r.trans r2
      rw [hc, r.i, j, r.cfg, hn.1, hn.2.1] at this
      exact this

/-- The condition and the address byte on the simulated bus. -/
theorem runAddr_simulated {a : Addr} {s t : State} {r : Sim × Bool} (hb : s.cfg.backend = .simulated)
    (hr : hasRestart s.eng.flg = true)
    (take : ({ s.sim with cur := none, awaitAddr := true } : Sim).take (addrByte a (hasRead s.eng.flg)) = r)
    (ht : t =
      (let u := emit (.tx (addrByte a (hasRead s.eng.flg)) r.2) (setAcked r.2 { s with
        eng := { s.eng with
          bus := .midTransaction, trace := s.eng.trace ++ [restartSym s.eng.bus], seq := { s.eng.seq with phase := .addr } }
        sim := r.1 })
      if r.2 then setPhase (dataPhase s.eng.flg) (setFlg (clearRestart s.eng.flg) u) else setPhase (.failStop .nack) u)) :
    runAddr a s = .done () t := by
  subst ht take
  obtain ⟨⟨bk, _⟩, ho, en, li, sr, sm, tg⟩ := s
  simp only at hb
  subst hb
  unfold runAddr
  rw [if_pos hr]
  unfold rowCond
  by_cases hi : en.seq.i = 0
  · simp only [hi, if_true, busStart, simStart, Run.andThen_done]
    simp only [rowAddr, busSendByte, simSendByte, Run.andThen_done, setPhase, setBus, emit, setAcked, arbLostRead]
    cases (Sim.take (addrByte a (hasRead en.flg)) { sm with cur := none, awaitAddr := true }).2 <;> simp [hi, setFlg]
  · simp only [hi, if_false, busRstart, simStart, Run.andThen_done]
    simp only [rowAddr, busSendByte, simSendByte, Run.andThen_done, setPhase, setBus, emit, setAcked, arbLostRead]
    cases (Sim.take (addrByte a (hasRead en.flg)) { sm with cur := none, awaitAddr := true }).2 <;> simp [setFlg]

/-- The condition and the address byte to a device that is there. -/
theorem runAddr_present {a : Addr} {d : SimDev} {s : State} (hb : s.cfg.backend = .simulated)
    (hd : s.sim.find a = some d) (hr : hasRestart s.eng.flg = true) :
    ∃ t d', runAddr a s = .done () t ∧ Selected a (if hasRead s.eng.flg then .read else .write) d' t ∧
      d' = (if hasRead s.eng.flg then d else { d with first := true }) ∧
      Ran a s t [restartSym s.eng.bus, .tx (addrByte a (hasRead s.eng.flg)) true] [] ∧
      t.eng.seq.phase = dataPhase s.eng.flg ∧ t.eng.seq.j = s.eng.seq.j ∧ t.eng.flg = clearRestart s.eng.flg ∧
      t.eng.bus = .midTransaction := by
  have take : ({ s.sim with cur := none, awaitAddr := true } : Sim).take (addrByte a (hasRead s.eng.flg)) =
      (if hasRead s.eng.flg then { s.sim with cur := some a, dir := .read, awaitAddr := false }
        else ({ s.sim with cur := some a, dir := .write, awaitAddr := false } : Sim).update a
          fun d => { d with first := true }, true) := by
    unfold Sim.take
    simp only [if_true, addrByte_addr, addrByte_dir]
    have : ({ s.sim with cur := none, awaitAddr := true } : Sim).find a = some d := hd
    rw [this]
    cases hasRead s.eng.flg <;> rfl
  have run := runAddr_simulated hb hr take rfl
  refine ⟨_, if hasRead s.eng.flg then d else { d with first := true }, run, ?_, rfl,
    ⟨⟨rfl, rfl, rfl, rfl, by simp [setPhase, setFlg, emit, setAcked], by simp [setPhase, setFlg, emit, setAcked],
      fun c hc => ?_⟩, rfl⟩, rfl, rfl, rfl, rfl⟩
  · cases hasRead s.eng.flg with
    | true => exact ⟨hb, rfl, rfl, rfl, hd⟩
    | false =>
      refine ⟨hb, rfl, rfl, rfl, ?_⟩
      show (({ s.sim with cur := some a, dir := .write, awaitAddr := false } : Sim).update a
        fun d => { d with first := true }).find a = _
      rw [Sim.find_update_same (f := fun d => { d with first := true }) fun _ => rfl]
      have : ({ s.sim with cur := some a, dir := .write, awaitAddr := false } : Sim).find a = some d := hd
      rw [this]
      rfl
  · cases hasRead s.eng.flg with
    | true => rfl
    | false => exact Sim.find_update_other (f := fun d => { d with first := true }) (fun _ => rfl) _ hc

/-- The condition and the address byte where no device is. -/
theorem runAddr_absent {a : Addr} {s : State} (hb : s.cfg.backend = .simulated) (hd : s.sim.find a = none)
    (hr : hasRestart s.eng.flg = true) :
    ∃ t, runAddr a s = .done () t ∧ t.cfg = s.cfg ∧ t.host = s.host ∧ t.sim.dev = s.sim.dev ∧
      t.eng.trace = s.eng.trace ++ [restartSym s.eng.bus, .tx (addrByte a (hasRead s.eng.flg)) false] ∧
      t.eng.buf = s.eng.buf ∧ t.eng.seq.phase = .failStop .nack ∧ t.eng.waiting = s.eng.waiting := by
  have take : ({ s.sim with cur := none, awaitAddr := true } : Sim).take (addrByte a (hasRead s.eng.flg)) =
      ({ s.sim with cur := none, awaitAddr := false }, false) := by
    unfold Sim.take
    simp only [if_true, addrByte_addr]
    have : ({ s.sim with cur := none, awaitAddr := true } : Sim).find a = none := hd
    rw [this]
  have run := runAddr_simulated hb hr take rfl
  exact ⟨_, run, rfl, rfl, rfl, by simp [setPhase, emit, setAcked], rfl, rfl, rfl⟩

/-- A message's flags loaded, with nothing to stop before it (R184, R185). -/
theorem loaded_ran (a : Addr) (m : Msg) (s : State) : Ran a s (rowLoadFlags m (setPhase .loadFlags s)) [] [] :=
  ⟨⟨rfl, rfl, rfl, rfl, (List.append_nil _).symm, (List.append_nil _).symm, fun _ _ => rfl⟩, rfl⟩

theorem runMsg_noStop {a : Addr} {m : Msg} {s : State} (hs : hasStop s.eng.flg = false) :
    runMsg a m s = (runAddr a (rowLoadFlags m (setPhase .loadFlags s))).andThen fun s =>
      if failed s then .done () s
      else (runData m s).andThen fun s => if failed s then .done () s else .done () (rowEndMsg s) := by
  unfold runMsg rowPreStop
  rw [hs]
  rfl

theorem readFrom_length (f : RegFile) (oob p : Byte) (n : Nat) : (f.readFrom oob p n).length = n := by
  induction n generalizing p with
  | zero => rfl
  | succ n ih => simp [RegFile.readFrom, ih]

/-- A write message to a device that is there. -/
theorem runMsg_write {a : Addr} {d : SimDev} {s : State} {rs st : Bool} (hb : s.cfg.backend = .simulated)
    (hd : s.sim.find a = some d) (hs : hasStop s.eng.flg = false) (hr : (hasRestart s.eng.flg || rs) = true)
    (bs : List Byte) :
    ∃ u, runMsg a ⟨rs, st, .write bs⟩ s = .done () (rowEndMsg u) ∧
      u.sim.find a = some ({ d with first := true }.takeAll bs) ∧
      Ran a s u (restartSym s.eng.bus :: txSyms (addrByte a false :: bs)) [] ∧ hasStop u.eng.flg = st ∧
      u.eng.bus = .midTransaction := by
  have hrd : hasRead (rowLoadFlags ⟨rs, st, .write bs⟩ (setPhase .loadFlags s)).eng.flg = false :=
    hasRead_effectiveFlags _ _
  obtain ⟨t, d', e, ht, hd', r, p, -, f, b⟩ := runAddr_present (a := a) (d := d)
    (s := rowLoadFlags ⟨rs, st, .write bs⟩ (setPhase .loadFlags s)) hb hd ((hasRestart_effectiveFlags _ _).trans hr)
  rw [hrd] at ht hd' r
  simp only [Bool.false_eq_true, if_false] at ht hd'
  subst hd'
  have hp : t.eng.seq.phase = .dataWr := by rw [p, dataPhase, hrd]; rfl
  obtain ⟨u, e2, hu, r2, p2, f2, b2⟩ := sendAll_selected ht hp bs
  have f1 : failed t = false := failed_false fun e he => by rw [hp] at he; cases he
  have f3 : failed u = false := failed_false fun e he => by rw [p2] at he; cases he
  refine ⟨u, ?_, hu.dev, ((loaded_ran a _ s).trans r).trans r2, ?_, b2.trans b⟩
  · rw [runMsg_noStop hs, e, Run.andThen_done, f1]
    show (sendAll bs t).andThen _ = _
    rw [e2, Run.andThen_done, f3]
    rfl
  · rw [f2, f, hasStop_clearRestart]
    exact hasStop_effectiveFlags _ _

/-- A read message from a reference device that is there. -/
theorem runMsg_read {a : Addr} {d : SimDev} {f : RegFile} {s : State} {rs st : Bool}
    (hb : s.cfg.backend = .simulated) (hd : s.sim.find a = some d) (hf : d.body = .file f)
    (hs : hasStop s.eng.flg = false) (hr : (hasRestart s.eng.flg || rs) = true) (n : Nat) :
    ∃ u d', runMsg a ⟨rs, st, .read n⟩ s = .done () (rowEndMsg u) ∧ u.sim.find a = some d' ∧ d'.body = .file f ∧
      d'.ptr = ptrAfter d.ptr n ∧
      Ran a s u (restartSym s.eng.bus :: .tx (addrByte a true) true ::
          rxSyms (f.readFrom s.cfg.oobReadByte d.ptr n) (!decide (s.eng.seq.i + 1 = msgCount s)))
        (cellsAt s.eng.seq.i 0 (f.readFrom s.cfg.oobReadByte d.ptr n)) ∧ hasStop u.eng.flg = st ∧
      u.eng.bus = .midTransaction := by
  have hrd : hasRead (rowLoadFlags ⟨rs, st, .read n⟩ (setPhase .loadFlags s)).eng.flg = true :=
    hasRead_effectiveFlags _ _
  obtain ⟨t, d', e, ht, hd', r, p, j, fl, b⟩ := runAddr_present (a := a) (d := d)
    (s := rowLoadFlags ⟨rs, st, .read n⟩ (setPhase .loadFlags s)) hb hd ((hasRestart_effectiveFlags _ _).trans hr)
  rw [hrd] at ht hd' r
  simp only [if_true] at ht hd'
  subst hd'
  have hp : t.eng.seq.phase = .dataRd := by rw [p, dataPhase, hrd]; rfl
  obtain ⟨u, d2, e2, hu, hb2, pt2, r2, p2, f2, b2⟩ := recvAll_selected ht hf hp n n
  have f1 : failed t = false := failed_false fun e he => by rw [hp] at he; cases he
  have f3 : failed u = false := failed_false fun e he => by rw [p2] at he; cases he
  have rt := (loaded_ran a ⟨rs, st, .read n⟩ s).trans r
  have hc : msgCount t = msgCount s := by rw [msgCount, msgCount, rt.call]
  have hj : t.eng.seq.j = 0 := j
  refine ⟨u, d2, ?_, hu.dev, hb2, pt2, ?_, ?_, b2.trans b⟩
  · rw [runMsg_noStop hs, e, Run.andThen_done, f1]
    show (recvAll n n t).andThen _ = _
    rw [e2, Run.andThen_done, f3]
    rfl
  · have := rt.trans r2
    rw [hc, hj, rt.i, rt.cfg, recvSyms_rx _ _ _ _ _ (by simp [readFrom_length])] at this
    exact this
  · rw [f2, fl, hasStop_clearRestart]
    exact hasStop_effectiveFlags _ _

/-! ## Whole calls -/

/-- A call on the simulated bus that has returned: its result, its trace, the bytes it read, the devices. -/
structure Called (a : Addr) (s t : State) (r : Ret) (ys : List Sym) (vs : List Byte) (d : Option SimDev) : Prop where
  result : t.host.result = r
  trace : t.eng.trace = ys
  bytes : readBytes t = vs
  dev : t.sim.find a = d
  others : ∀ b, b ≠ a → t.sim.find b = s.sim.find b
  cfg : t.cfg = s.cfg
  phase : t.eng.seq.phase = .idle
  waiting : t.eng.waiting = none
  bus : t.eng.bus = .idle
  configured : t.eng.configured = true
  past : t.host.past = s.host.past ++ [ys]

/-- The stop and the return on the simulated bus. -/
theorem finish_simulated {u : State} (hb : u.cfg.backend = .simulated)
    (h : u.eng.seq.phase = .finalStop ∨ u.eng.seq.phase = .failStop .nack) :
    ∃ t, finishCall u = .done () t ∧
      Stopped u (if u.eng.seq.phase = .finalStop then .ok else .err .nack) t := by
  obtain ⟨t, e, -⟩ := finishCall_done (s := u) (k := 0) (willing_simulated hb)
  refine ⟨t, e, ?_⟩
  rcases h with h | h
  · have := finishCall_ok u fun e he => by rw [h] at he; cases he
    rw [e] at this
    rw [if_pos h]
    exact this
  · have := finishCall_err u .nack h (by decide)
    rw [e] at this
    rw [if_neg (by rw [h]; decide)]
    exact this

theorem Stopped.called {a : Addr} {s u t : State} {r : Ret} (h : Stopped u r t) (hb : u.cfg.backend = .simulated)
    (hs : (∀ b, b ≠ a → u.sim.find b = s.sim.find b) ∧ u.cfg = s.cfg ∧ u.eng.waiting = none ∧
      u.eng.configured = true ∧ u.host.past = s.host.past) :
    Called a s t r (u.eng.trace ++ [.stop]) (readBytes u) (u.sim.find a) := by
  obtain ⟨h1, h2, h3, -, -, h4, h5, h6⟩ := h
  have hf : ∀ b, t.sim.find b = u.sim.find b := fun b => by rw [Sim.find, h6 hb]; rfl
  obtain ⟨g1, g2, g3, g4, g5⟩ := hs
  refine ⟨h4, h5, ?_, hf a, fun b hb => (hf b).trans (g1 b hb), h1.frame.cfg.trans g2, h1.phase, h2.trans g3, h3,
    h1.frame.configured.trans g4, ?_⟩
  · rw [readBytes, h1.buf]; rfl
  · rw [h1.past, g5, h5]

/-- What a call needs to run on the simulated bus. -/
structure CanCall (a : Addr) (s : State) : Prop where
  phase : s.eng.seq.phase = .idle
  waiting : s.eng.waiting = none
  configured : s.eng.configured = true
  own : s.cfg.tgtAddr ≠ some a
  backend : s.cfg.backend = .simulated
  bus : s.eng.bus = .idle

theorem canCall_of {a : Addr} {s : State} (h : MayCall a s) (hb : s.cfg.backend = .simulated) (hi : s.eng.bus = .idle) :
    CanCall a s := ⟨h.1.1, h.1.2, h.2.1, h.2.2, hb, hi⟩

theorem Called.canCall {a : Addr} {s t : State} {r : Ret} {ys : List Sym} {vs : List Byte} {d : Option SimDev}
    (h : Called a s t r ys vs d) (hs : CanCall a s) : CanCall a t :=
  ⟨h.phase, h.waiting, h.configured, by rw [h.cfg]; exact hs.own, by rw [h.cfg]; exact hs.backend, h.bus⟩

theorem Called.setResult {a : Addr} {s t : State} {r : Ret} {ys : List Sym} {vs : List Byte} {d : Option SimDev}
    (h : Called a s t r ys vs d) (q : Ret) : Called a s (setResult q t) q ys vs d :=
  ⟨rfl, h.trace, h.bytes, h.dev, h.others, h.cfg, h.phase, h.waiting, h.bus, h.configured, h.past⟩

theorem transfer_starts {a : Addr} {s : State} (h : CanCall a s) {msgs : List Msg} (hm : msgs ≠ []) :
    transfer a msgs s = (runMsgs a msgs (loopStart ⟨a, msgs⟩ s)).andThen finishCall := by
  rcases transfer_cases a msgs s h.phase with ⟨h1, -⟩ | ⟨-, h1, -⟩ | ⟨-, -, h1, -⟩ | ⟨-, -, -, h1⟩
  · rw [h.configured] at h1; cases h1
  · exact absurd h1 hm
  · exact absurd h1 h.own
  · exact h1

/-- The loop's start on the simulated bus. -/
theorem loopStart_simulated {a : Addr} {s : State} (h : CanCall a s) (c : Call) :
    (loopStart c s).cfg = s.cfg ∧ (loopStart c s).sim = s.sim ∧ (loopStart c s).eng.flg = flagRestart ∧
      (loopStart c s).eng.bus = .idle ∧ (loopStart c s).eng.trace = [] ∧ (loopStart c s).eng.buf = [] ∧
      (loopStart c s).eng.seq.i = 0 ∧ (loopStart c s).eng.waiting = none ∧ (loopStart c s).eng.configured = true ∧
      (loopStart c s).host.past = s.host.past ∧ msgCount (loopStart c s) = c.msgs.length := by
  obtain ⟨h1, h2, -, h3, -, -⟩ := loopStart_cells c s
  refine ⟨(loopStart_frame c s).cfg, h3, ?_, ?_, ?_, ?_, ?_, ?_, ?_, ?_, ?_⟩
  · rw [h1]
  · rw [h1]; exact h.bus
  · rw [h1]
  · rw [h1]
  · rw [h1]
  · rw [h1]; exact h.waiting
  · rw [h1]; exact h.configured
  · rw [h2]
  · rw [msgCount, h1]

/-- The end of the last message, the forced stop and the return. -/
theorem last_message {a : Addr} {s u : State} {ys : List Sym} {cells : List BufCell} (c : Call)
    (hs : CanCall a s) (hr : Left a (loopStart c s) u ys cells) (hi : u.eng.seq.i + 1 = c.msgs.length)
    (hc : u.eng.configured = true) :
    ∃ t, finishCall (rowEndMsg u) = .done () t ∧
      Called a s t .ok (ys ++ [.stop]) (cells.map BufCell.val) (u.sim.find a) := by
  obtain ⟨l1, l2, -, -, l5, l6, -, l8, -, l10, l11⟩ := loopStart_simulated hs c
  have hn : msgCount u = c.msgs.length := by rw [← l11, msgCount, msgCount, hr.call]
  have he : rowEndMsg u = setPhase .finalStop u := by
    unfold rowEndMsg
    rw [if_neg (by omega)]
  rw [he]
  have hb : (setPhase .finalStop u).cfg.backend = .simulated := by
    show u.cfg.backend = _
    rw [hr.cfg, l1]
    exact hs.backend
  obtain ⟨t, e, h⟩ := finish_simulated hb (.inl rfl)
  have := h.called (a := a) (s := s) hb ⟨fun b hb => ?_, hr.cfg.trans l1, hr.waiting.trans l8, hc, ?_⟩
  · refine ⟨t, e, ?_⟩
    have ht : (setPhase .finalStop u).eng.trace = ys := by
      show u.eng.trace = _
      rw [hr.trace, l5]
      rfl
    have hv : readBytes (setPhase .finalStop u) = cells.map BufCell.val := by
      show u.eng.buf.map _ = _
      rw [hr.buf, l6]
      rfl
    rw [ht, hv] at this
    exact this
  · show u.sim.find b = _
    rw [hr.others b hb, l2]
  · show u.host.past = _
    rw [hr.host, l10]

theorem runMsg_configured {a : Addr} {m : Msg} {s u : State} (h : runMsg a m s = .done () (rowEndMsg u)) :
    u.eng.configured = s.eng.configured := by
  have := runMsg_part a m s
  rw [h] at this
  have h1 := this.1.frame.configured
  have : (rowEndMsg u).eng.configured = u.eng.configured := by unfold rowEndMsg; split <;> rfl
  rw [← this]
  exact h1

theorem runAddr_configured {a : Addr} {s u : State} (h : runAddr a s = .done () u) :
    u.eng.configured = s.eng.configured := by
  unfold runAddr at h
  split at h
  · have h1 := rowCond_post s
    cases hc : rowCond s with
    | done x t =>
      rw [hc] at h h1
      have h2 := rowAddr_post (addrByte a (hasRead t.eng.flg)) t
      have h' : rowAddr (addrByte a (hasRead t.eng.flg)) t = .done () u := h
      rw [h'] at h2
      exact h2.1.frame.configured.trans h1.1.frame.configured
    | hang t => rw [hc] at h; cases h
    | refuse r => rw [hc] at h; cases h
  · cases h
    rfl

theorem runMsgs_one {a : Addr} {m : Msg} {s u : State} (h : runMsg a m s = .done () (rowEndMsg u)) :
    (runMsgs a [m] s).andThen finishCall = finishCall (rowEndMsg u) := by
  have hf : failed (rowEndMsg u) = false := by unfold rowEndMsg; split <;> rfl
  rw [runMsgs, h, Run.andThen_done, hf]
  rfl

/-- A write to a device that is there (R271). -/
theorem transfer_write {a : Addr} {d : SimDev} {s : State} (hs : CanCall a s) (hd : s.sim.find a = some d)
    (bs : List Byte) :
    ∃ t, transfer a (writePattern bs) s = .done () t ∧
      Called a s t .ok (.start :: txSyms (addrByte a false :: bs) ++ [.stop]) []
        (some ({ d with first := true }.takeAll bs)) := by
  obtain ⟨l1, l2, l3, l4, -, -, l7, -, l9, -, -⟩ := loopStart_simulated hs ⟨a, writePattern bs⟩
  obtain ⟨u, e, hu, hr, -, -⟩ := runMsg_write (a := a) (rs := false) (st := true)
    (s := loopStart ⟨a, writePattern bs⟩ s) (by rw [l1]; exact hs.backend) (by rw [l2]; exact hd)
    (by rw [l3]; rfl) (by rw [l3]; rfl) bs
  rw [l4] at hr
  obtain ⟨t, e2, ht⟩ := last_message ⟨a, writePattern bs⟩ hs hr.toLeft (by rw [hr.i, l7]; rfl)
    ((runMsg_configured e).trans l9)
  rw [hu] at ht
  exact ⟨t, by rw [transfer_starts hs (by simp [writePattern])]; exact (runMsgs_one e).trans e2, ht⟩

/-- A read from a reference device that is there (R272). -/
theorem transfer_read {a : Addr} {d : SimDev} {f : RegFile} {s : State} (hs : CanCall a s)
    (hd : s.sim.find a = some d) (hf : d.body = .file f) (n : Nat) :
    ∃ t d', transfer a (readPattern n) s = .done () t ∧ d'.body = .file f ∧ d'.ptr = ptrAfter d.ptr n ∧
      Called a s t .ok ([.start, .tx (addrByte a true) true] ++
          rxSyms (f.readFrom s.cfg.oobReadByte d.ptr n) false ++ [.stop])
        (f.readFrom s.cfg.oobReadByte d.ptr n) (some d') := by
  obtain ⟨l1, l2, l3, l4, -, -, l7, -, l9, -, l11⟩ := loopStart_simulated hs ⟨a, readPattern n⟩
  obtain ⟨u, d', e, hu, hb, hp, hr, -, -⟩ := runMsg_read (a := a) (rs := false) (st := true)
    (s := loopStart ⟨a, readPattern n⟩ s) (by rw [l1]; exact hs.backend) (by rw [l2]; exact hd) hf
    (by rw [l3]; rfl) (by rw [l3]; rfl) n
  rw [l4, l1, l7, l11] at hr
  obtain ⟨t, e2, ht⟩ := last_message ⟨a, readPattern n⟩ hs hr.toLeft (by rw [hr.i, l7]; rfl)
    ((runMsg_configured e).trans l9)
  rw [hu, cellsAt_val] at ht
  exact ⟨t, d', by rw [transfer_starts hs (by simp [readPattern])]; exact (runMsgs_one e).trans e2, hb, hp, ht⟩

/-- A write, then a read behind a repeated start, of a reference device that is there (R274). -/
theorem transfer_writeRead {a : Addr} {d : SimDev} {f : RegFile} {s : State} (hs : CanCall a s)
    (hd : s.sim.find a = some d) (bs : List Byte) (hf : ({ d with first := true }.takeAll bs).body = .file f)
    (n : Nat) :
    let p := ({ d with first := true }.takeAll bs).ptr
    ∃ t d', transfer a (writeReadPattern bs n) s = .done () t ∧ d'.body = .file f ∧ d'.ptr = ptrAfter p n ∧
      Called a s t .ok (.start :: txSyms (addrByte a false :: bs) ++ [.rstart, .tx (addrByte a true) true] ++
          rxSyms (f.readFrom s.cfg.oobReadByte p n) false ++ [.stop])
        (f.readFrom s.cfg.oobReadByte p n) (some d') := by
  intro p
  obtain ⟨l1, l2, l3, l4, -, -, l7, -, l9, -, l11⟩ := loopStart_simulated hs ⟨a, writeReadPattern bs n⟩
  obtain ⟨u, e, hu, hr, hst, hbus⟩ := runMsg_write (a := a) (rs := false) (st := false)
    (s := loopStart ⟨a, writeReadPattern bs n⟩ s) (by rw [l1]; exact hs.backend) (by rw [l2]; exact hd)
    (by rw [l3]; rfl) (by rw [l3]; rfl) bs
  rw [l4] at hr
  have hui : u.eng.seq.i = 0 := hr.i.trans l7
  have hun : msgCount u = 2 := by
    have : msgCount u = msgCount (loopStart ⟨a, writeReadPattern bs n⟩ s) := by rw [msgCount, msgCount, hr.call]
    rw [this, l11]
    rfl
  have hend : rowEndMsg u = seqAt .preStop 1 u := by
    unfold rowEndMsg
    rw [if_pos (by omega), hui]
  obtain ⟨w, d', e2, hw, hb2, hp2, hr2, -, -⟩ := runMsg_read (a := a) (rs := true) (st := true)
    (s := seqAt .preStop 1 u) (show u.cfg.backend = _ by rw [hr.cfg, l1]; exact hs.backend) hu hf
    hst (by simp) n
  have hbus' : (seqAt .preStop 1 u).eng.bus = .midTransaction := hbus
  have hcfg' : (seqAt .preStop 1 u).cfg = s.cfg := hr.cfg.trans l1
  have hcount' : msgCount (seqAt .preStop 1 u) = 2 := hun
  have hi' : (seqAt .preStop 1 u).eng.seq.i = 1 := rfl
  rw [hbus', hcfg', hcount', hi'] at hr2
  have next : Left a u (seqAt .preStop 1 u) [] [] :=
    ⟨rfl, rfl, rfl, rfl, (List.append_nil _).symm, (List.append_nil _).symm, fun _ _ => rfl⟩
  have hconf : w.eng.configured = true := (runMsg_configured e2).trans ((runMsg_configured e).trans l9)
  obtain ⟨t, e3, ht⟩ := last_message ⟨a, writeReadPattern bs n⟩ hs ((hr.toLeft.trans next).trans hr2.toLeft)
    (by rw [hr2.i]; rfl) hconf
  rw [hw] at ht
  refine ⟨t, d', ?_, hb2, hp2, ?_⟩
  · have hf1 : failed (seqAt .preStop 1 u) = false := rfl
    rw [transfer_starts hs (by simp [writeReadPattern]), writeReadPattern, runMsgs]
    rw [writeReadPattern] at e
    rw [e, Run.andThen_done, hend, hf1]
    exact (runMsgs_one e2).trans e3
  · have h1 : (([] ++ [] : List BufCell) ++ cellsAt 1 0 (f.readFrom s.cfg.oobReadByte p n)).map BufCell.val =
        f.readFrom s.cfg.oobReadByte p n := cellsAt_val _ _ _
    rw [h1] at ht
    have h2 : ([Sym.start] ++ txSyms (addrByte a false :: bs) ++ [.rstart, .tx (addrByte a true) true] ++
        rxSyms (f.readFrom s.cfg.oobReadByte p n) false ++ [.stop]) =
        ((restartSym .idle :: txSyms (addrByte a false :: bs)) ++ [] ++
          (restartSym .midTransaction :: .tx (addrByte a true) true ::
            rxSyms (f.readFrom s.cfg.oobReadByte p n) (!decide (1 + 1 = 2)))) ++ [.stop] := by
      simp [restartSym]
    exact h2 ▸ ht

/-- A call whose first address byte finds no device (R312). -/
theorem transfer_absent {a : Addr} {s : State} (hs : CanCall a s) (hd : s.sim.find a = none) (m : Msg) (ms : List Msg) :
    ∃ t, transfer a (m :: ms) s = .done () t ∧ t.sim.dev = s.sim.dev ∧
      Called a s t (.err .nack) [.start, .tx (addrByte a m.isRead) false, .stop] [] none := by
  obtain ⟨l1, l2, l3, l4, l5, l6, -, l8, l9, l10, -⟩ := loopStart_simulated hs ⟨a, m :: ms⟩
  have hst : hasStop (loopStart ⟨a, m :: ms⟩ s).eng.flg = false := by rw [l3]; rfl
  have hrd : hasRead (rowLoadFlags m (setPhase .loadFlags (loopStart ⟨a, m :: ms⟩ s))).eng.flg = m.isRead :=
    hasRead_effectiveFlags _ _
  obtain ⟨u, e, h1, h2, h3, h4, h5, h6, h7⟩ := runAddr_absent (a := a)
    (s := rowLoadFlags m (setPhase .loadFlags (loopStart ⟨a, m :: ms⟩ s)))
    (show (loopStart ⟨a, m :: ms⟩ s).cfg.backend = _ by rw [l1]; exact hs.backend)
    (show (loopStart ⟨a, m :: ms⟩ s).sim.find a = _ by rw [l2]; exact hd)
    ((hasRestart_effectiveFlags _ _).trans (by show (hasRestart (loopStart ⟨a, m :: ms⟩ s).eng.flg || _) = _; rw [l3]; rfl))
  rw [hrd] at h4
  have hb : u.cfg.backend = .simulated := by rw [h1]; show (loopStart ⟨a, m :: ms⟩ s).cfg.backend = _; rw [l1]; exact hs.backend
  obtain ⟨t, e2, ht⟩ := finish_simulated hb (.inr h6)
  rw [if_neg (by rw [h6]; decide)] at ht
  have hf : failed u = true := by rw [failed, h6]
  have hrun : transfer a (m :: ms) s = .done () t := by
    rw [transfer_starts hs (by simp), runMsgs, runMsg_noStop hst, e, Run.andThen_done, hf]
    show ((Run.done () u).andThen fun s => if failed s then Run.done () s else runMsgs a ms s).andThen finishCall = _
    rw [Run.andThen_done, hf]
    exact e2
  have hdev : u.sim.dev = s.sim.dev := h3.trans (by show (loopStart ⟨a, m :: ms⟩ s).sim.dev = _; rw [l2])
  have hfind : ∀ b, u.sim.find b = s.sim.find b := fun b => by rw [Sim.find, hdev]; rfl
  have hconf : u.eng.configured = true := by
    have h8 := runAddr_configured e
    exact h8.trans l9
  have := ht.called (a := a) (s := s) hb ⟨fun b _ => hfind b, h1.trans l1, h7.trans l8, hconf, by rw [h2]; exact l10⟩
  refine ⟨t, hrun, ?_, ?_⟩
  · rw [ht.2.2.2.2.2.2.2 hb, hdev]
  · have htr : u.eng.trace = [.start, .tx (addrByte a m.isRead) false] := by
      rw [h4]
      show (loopStart ⟨a, m :: ms⟩ s).eng.trace ++ [restartSym (loopStart ⟨a, m :: ms⟩ s).eng.bus, _] = _
      rw [l5, l4]
      rfl
    have hbuf : readBytes u = [] := by
      rw [readBytes, h5]
      show (loopStart ⟨a, m :: ms⟩ s).eng.buf.map _ = _
      rw [l6]
      rfl
    rw [htr, hbuf, hfind, hd] at this
    exact this

end Sys2Proof.Machine
end

