-- ==== Sys2Proof/Laws/Encoding.lean ====
section
/-! SUPPORT. Every piece of an encoding against its parser, in both directions (spec R92 to R104, R122). -/

namespace Sys2Proof

/-! ## Peeling a parser -/

theorem parse_bind_ok {α β : Type} {p : Parse α} {f : α × List Byte → Parse β} {x : β × List Byte}
    (h : p.bind f = .ok x) : ∃ a r, p = .ok (a, r) ∧ f (a, r) = .ok x := by
  cases p with
  | error e => cases h
  | ok a => exact ⟨a.1, a.2, rfl, h⟩

@[simp] theorem parse_ok_bind {α β : Type} (a : α × List Byte) (f : α × List Byte → Parse β) :
    (Except.ok a : Parse α).bind f = f a := rfl

/-! ## Pieces: the encoding parses back -/

@[simp] theorem parseByte_cons (b : Byte) (r : List Byte) : parseByte (b :: r) = .ok (b, r) := rfl

@[simp] theorem parseBool_boolByte (v : Bool) (r : List Byte) : parseBool (boolByte v :: r) = .ok (v, r) := by
  cases v <;> rfl

@[simp] theorem parseMode_encode (m : Mode) (r : List Byte) : parseMode (encodeMode m :: r) = .ok (m, r) := by
  cases m <;> rfl

@[simp] theorem parseDir_encode (d : Dir) (r : List Byte) : parseDir (encodeDir d :: r) = .ok (d, r) := by
  cases d <;> rfl

@[simp] theorem parsePrev_encode (p : Prev) (r : List Byte) : parsePrev (encodePrev p :: r) = .ok (p, r) := by
  cases p <;> rfl

theorem addrOperand_bits : ∀ a : Addr, (addrOperand a).getLsbD 7 = false ∧ (addrOperand a).setWidth 7 = a := by decide

@[simp] theorem parseAddr_operand (a : Addr) (r : List Byte) : parseAddr (addrOperand a :: r) = .ok (a, r) := by
  obtain ⟨h1, h2⟩ := addrOperand_bits a
  simp only [parseAddr, h1, h2]
  simp

theorem countByte_toNat {n : Nat} (h : n ≤ 255) : (countByte n).toNat = n := by
  simp [countByte, BitVec.toNat_ofNat]; omega

@[simp] theorem parseTake_append (bs r : List Byte) : parseTake bs.length (bs ++ r) = .ok (bs, r) := by
  simp [parseTake]

theorem parseCounted_encode {bs : List Byte} (h : bs.length ≤ 255) (r : List Byte) :
    parseCounted (countByte bs.length :: (bs ++ r)) = .ok (bs, r) := by
  simp [parseCounted, countByte_toNat h]

theorem append_low (hi lo : Byte) {i : Nat} (h : i < 8) : (hi ++ lo : BitVec 16).getLsbD i = lo.getLsbD i := by
  rw [BitVec.getLsbD_append]
  simp [h]

theorem append_high (hi lo : Byte) {i : Nat} (h : ¬ i < 8) :
    (hi ++ lo : BitVec 16).getLsbD i = hi.getLsbD (i - 8) := by
  rw [BitVec.getLsbD_append]
  simp [h]

theorem half_bytes (w : Half) : (w.extractLsb' 8 8 ++ w.extractLsb' 0 8 : BitVec 16) = w := by
  apply BitVec.eq_of_getLsbD_eq
  intro i hi
  by_cases h : i < 8
  · rw [append_low _ _ h, BitVec.getLsbD_extractLsb']
    simp [h]
  · have h8 : i - 8 < 8 := by omega
    rw [append_high _ _ h, BitVec.getLsbD_extractLsb']
    simp only [h8, decide_true, Bool.true_and]
    congr 1
    omega

@[simp] theorem parseHalf_encode (w : Half) (r : List Byte) : parseHalf (encodeHalf w ++ r) = .ok (w, r) := by
  show Except.ok ((w.extractLsb' 8 8 ++ w.extractLsb' 0 8 : BitVec 16), r) = _
  rw [half_bytes]

theorem flagByte_bits : ∀ rs st rd : Bool, (flagByte rs st rd).extractLsb' 3 5 = 0 ∧
    (flagByte rs st rd).getLsbD 0 = rd ∧ (flagByte rs st rd).getLsbD 1 = st ∧ (flagByte rs st rd).getLsbD 2 = rs := by
  decide

theorem parseMsg_encode {m : Msg} (h : m.wellFormed = true) (r : List Byte) :
    parseMsg (encodeMsg m ++ r) = .ok (m, r) := by
  obtain ⟨rs, st, body⟩ := m
  cases body with
  | write buf =>
    have hl : buf.length ≤ 255 := of_decide_eq_true h
    obtain ⟨h1, h2, h3, h4⟩ := flagByte_bits rs st false
    simp only [parseMsg, encodeMsg, encodeCounted, List.cons_append, parseByte_cons, parse_ok_bind, h1, h2, h3, h4,
      ne_eq, not_true_eq_false, if_false, Bool.false_eq_true, countByte_toNat hl, parseTake_append]
  | read len =>
    have hl : len ≤ 255 := of_decide_eq_true h
    obtain ⟨h1, h2, h3, h4⟩ := flagByte_bits rs st true
    simp only [parseMsg, encodeMsg, List.cons_append, List.nil_append, parseByte_cons, parse_ok_bind, h1, h2, h3, h4,
      ne_eq, not_true_eq_false, if_false, if_true, countByte_toNat hl]

theorem parseMsgs_encode {ms : List Msg} (h : ms.all Msg.wellFormed = true) (r : List Byte) :
    parseMsgs ms.length (encodeMsgs ms ++ r) = .ok (ms, r) := by
  induction ms with
  | nil => rfl
  | cons m ms ih =>
    simp only [List.all_cons, Bool.and_eq_true] at h
    rw [encodeMsgs, List.append_assoc, List.length_cons, parseMsgs, parseMsg_encode h.1]
    simp [ih h.2]

theorem parseTpf_encode (a : Addr) {ms : List Msg} (hl : ms.length ≤ 255) (h : ms.all Msg.wellFormed = true)
    (r : List Byte) : parseTpf (encodeTpf a ms ++ r) = .ok ((a, ms), r) := by
  simp [parseTpf, encodeTpf, countByte_toNat hl, parseMsgs_encode h]

@[simp] theorem parseAddrReg_encode (a : Addr) (reg : Byte) (r : List Byte) :
    parseAddrReg (addrOperand a :: reg :: r) = .ok ((a, reg), r) := by
  simp [parseAddrReg]

theorem wireAddrByte_bits : ∀ (a : Addr) (rd : Bool), (wireAddrByte a rd).extractLsb' 1 7 = a ∧
    (wireAddrByte a rd).getLsbD 0 = rd := by decide

/-! ## Pieces: what parses is the encoding -/

theorem parseByte_ok {bs : List Byte} {b : Byte} {r : List Byte} (h : parseByte bs = .ok (b, r)) : bs = b :: r := by
  cases bs with
  | nil => cases h
  | cons x xs => cases h; rfl

theorem parseBool_ok {bs : List Byte} {v : Bool} {r : List Byte} (h : parseBool bs = .ok (v, r)) :
    bs = boolByte v :: r := by
  cases bs with
  | nil => cases h
  | cons b xs =>
    rw [parseBool] at h
    split at h
    · next hb => cases h; rw [hb]; rfl
    · split at h
      · next hb => cases h; rw [hb]; rfl
      · cases h

theorem parseMode_ok {bs : List Byte} {m : Mode} {r : List Byte} (h : parseMode bs = .ok (m, r)) :
    bs = encodeMode m :: r := by
  cases bs with
  | nil => cases h
  | cons b xs =>
    rw [parseMode] at h
    split at h
    · next hb => cases h; rw [hb]; rfl
    · split at h
      · next hb => cases h; rw [hb]; rfl
      · cases h

theorem parseDir_ok {bs : List Byte} {d : Dir} {r : List Byte} (h : parseDir bs = .ok (d, r)) :
    bs = encodeDir d :: r := by
  cases bs with
  | nil => cases h
  | cons b xs =>
    rw [parseDir] at h
    split at h
    · next hb => cases h; rw [hb]; rfl
    · split at h
      · next hb => cases h; rw [hb]; rfl
      · cases h

theorem parsePrev_ok {bs : List Byte} {p : Prev} {r : List Byte} (h : parsePrev bs = .ok (p, r)) :
    bs = encodePrev p :: r := by
  cases bs with
  | nil => cases h
  | cons b xs =>
    rw [parsePrev] at h
    split at h
    · next hb => cases h; rw [hb]; rfl
    · split at h
      · next hb => cases h; rw [hb]; rfl
      · split at h
        · next hb => cases h; rw [hb]; rfl
        · cases h

theorem addrOperand_setWidth : ∀ b : Byte, b.getLsbD 7 = false → addrOperand (b.setWidth 7) = b := by decide

theorem parseAddr_ok {bs : List Byte} {a : Addr} {r : List Byte} (h : parseAddr bs = .ok (a, r)) :
    bs = addrOperand a :: r := by
  cases bs with
  | nil => cases h
  | cons b xs =>
    rw [parseAddr] at h
    split at h
    · cases h
    · next hb =>
      cases h
      rw [addrOperand_setWidth b (by simpa using hb)]

theorem parseTake_ok {n : Nat} {bs x r : List Byte} (h : parseTake n bs = .ok (x, r)) :
    bs = x ++ r ∧ x.length = n := by
  unfold parseTake at h
  split at h
  · next hn => cases h; simp [hn]
  · cases h

theorem countByte_of_toNat (b : Byte) : countByte b.toNat = b := by simp [countByte]

theorem parseCounted_ok {bs x r : List Byte} (h : parseCounted bs = .ok (x, r)) :
    bs = encodeCounted x ++ r ∧ x.length ≤ 255 := by
  obtain ⟨n, s, h1, h2⟩ := parse_bind_ok h
  obtain ⟨h3, h4⟩ := parseTake_ok h2
  rw [parseByte_ok h1, h3, encodeCounted, h4, countByte_of_toNat]
  exact ⟨rfl, by have := n.isLt; omega⟩

theorem half_parts (hi lo : Byte) : encodeHalf (hi ++ lo) = [hi, lo] := by
  have h1 : (hi ++ lo : BitVec 16).extractLsb' 8 8 = hi := by
    apply BitVec.eq_of_getLsbD_eq
    intro i h
    rw [BitVec.getLsbD_extractLsb', append_high _ _ (by omega)]
    simp only [h, decide_true, Bool.true_and]
    congr 1
    omega
  have h2 : (hi ++ lo : BitVec 16).extractLsb' 0 8 = lo := by
    apply BitVec.eq_of_getLsbD_eq
    intro i h
    rw [BitVec.getLsbD_extractLsb', append_low _ _ (by omega)]
    simp [h]
  show [(hi ++ lo : BitVec 16).extractLsb' 8 8, (hi ++ lo : BitVec 16).extractLsb' 0 8] = _
  rw [h1, h2]

theorem parseHalf_ok {bs : List Byte} {w : Half} {r : List Byte} (h : parseHalf bs = .ok (w, r)) :
    bs = encodeHalf w ++ r := by
  obtain ⟨hi, s, h1, h2⟩ := parse_bind_ok h
  obtain ⟨lo, u, h3, h4⟩ := parse_bind_ok h2
  cases h4
  rw [parseByte_ok h1, parseByte_ok h3, half_parts]
  rfl

theorem flagByte_of : ∀ f : Byte, f.extractLsb' 3 5 = 0 → flagByte (f.getLsbD 2) (f.getLsbD 1) (f.getLsbD 0) = f := by
  decide

theorem parseMsg_ok {bs : List Byte} {m : Msg} {r : List Byte} (h : parseMsg bs = .ok (m, r)) :
    bs = encodeMsg m ++ r ∧ m.wellFormed = true := by
  obtain ⟨f, s, h1, h2⟩ := parse_bind_ok h
  dsimp only at h2
  split at h2
  · cases h2
  · next hf =>
    have hf' := flagByte_of f (by simpa using hf)
    obtain ⟨len, u, h3, h4⟩ := parse_bind_ok h2
    dsimp only at h4
    have hlen := len.isLt
    split at h4
    · next hr =>
      cases h4
      rw [hr] at hf'
      refine ⟨?_, decide_eq_true (show len.toNat ≤ 255 by omega)⟩
      rw [parseByte_ok h1, parseByte_ok h3]
      simp only [encodeMsg, hf', countByte_of_toNat]
      rfl
    · next hr =>
      have hr' : f.getLsbD 0 = false := by simpa using hr
      rw [hr'] at hf'
      obtain ⟨d, v, h5, h6⟩ := parse_bind_ok h4
      cases h6
      obtain ⟨h7, h8⟩ := parseTake_ok h5
      refine ⟨?_, decide_eq_true (show d.length ≤ 255 by omega)⟩
      rw [parseByte_ok h1, parseByte_ok h3, h7]
      simp only [encodeMsg, encodeCounted, hf', h8, countByte_of_toNat]
      rfl

theorem parseMsgs_ok {n : Nat} {bs : List Byte} {ms : List Msg} {r : List Byte} (h : parseMsgs n bs = .ok (ms, r)) :
    bs = encodeMsgs ms ++ r ∧ ms.length = n ∧ ms.all Msg.wellFormed = true := by
  induction n generalizing bs ms with
  | zero => cases h; exact ⟨rfl, rfl, rfl⟩
  | succ n ih =>
    obtain ⟨m, s, h1, h2⟩ := parse_bind_ok h
    obtain ⟨ms', u, h3, h4⟩ := parse_bind_ok h2
    cases h4
    obtain ⟨g1, g2⟩ := parseMsg_ok h1
    obtain ⟨k1, k2, k3⟩ := ih h3
    refine ⟨?_, by simp [k2], by simp [g2, k3]⟩
    rw [g1, k1, encodeMsgs, List.append_assoc]

theorem parseTpf_ok {bs : List Byte} {x : Addr × List Msg} {r : List Byte} (h : parseTpf bs = .ok (x, r)) :
    bs = encodeTpf x.1 x.2 ++ r ∧ x.2.length ≤ 255 ∧ x.2.all Msg.wellFormed = true := by
  obtain ⟨a, s, h1, h2⟩ := parse_bind_ok h
  obtain ⟨n, u, h3, h4⟩ := parse_bind_ok h2
  obtain ⟨ms, v, h5, h6⟩ := parse_bind_ok h4
  cases h6
  obtain ⟨g1, g2, g3⟩ := parseMsgs_ok h5
  have hn := n.isLt
  refine ⟨?_, by simp [g2]; omega, g3⟩
  rw [parseAddr_ok h1, parseByte_ok h3, g1, encodeTpf]
  simp [g2, countByte_of_toNat]

theorem parseAddrReg_ok {bs : List Byte} {x : Addr × Byte} {r : List Byte} (h : parseAddrReg bs = .ok (x, r)) :
    bs = addrOperand x.1 :: x.2 :: r := by
  obtain ⟨a, s, h1, h2⟩ := parse_bind_ok h
  obtain ⟨reg, u, h3, h4⟩ := parse_bind_ok h2
  cases h4
  rw [parseAddr_ok h1, parseByte_ok h3]

theorem wireAddrByte_of : ∀ b : Byte, wireAddrByte (b.extractLsb' 1 7) (b.getLsbD 0) = b := by decide

end Sys2Proof
end

