-- ==== Sys2Proof/Laws/FrontEnd.lean ====
section
/-! SUPPORT. The front end over a condition trace. -/

namespace Sys2Proof.Machine

open Sys2Proof

/-- What the front end remembers behind a trace. -/
def frontAfter (f : Front) (ys : List Sym) : Front := ys.foldl (fun f y => (frontSymbol f y).1) f

theorem frontEvents_append (f : Front) (xs ys : List Sym) :
    frontEvents f (xs ++ ys) = frontEvents f xs ++ frontEvents (frontAfter f xs) ys := by
  induction xs generalizing f with
  | nil => rfl
  | cons x xs ih => simp [frontEvents, frontAfter, ih, List.append_assoc]

/-- A byte raises nothing at a device that takes no part and awaits no address byte (R253 (b), (c)). -/
theorem frontSymbol_apart {f : Front} {y : Sym} (ha : f.awaiting = false) (hs : f.sel = none)
    (hy : ∃ b k, y = .tx b k ∨ y = .rx b k) : frontSymbol f y = (f, []) := by
  obtain ⟨b, k, rfl | rfl⟩ := hy <;> simp [frontSymbol, ha, hs]

/-- Nor do any number of them, up to the next condition. -/
theorem frontEvents_apart {f : Front} (ys zs : List Sym) (ha : f.awaiting = false) (hs : f.sel = none)
    (hy : ∀ y ∈ ys, ∃ b k, y = .tx b k ∨ y = .rx b k) : frontEvents f (ys ++ zs) = frontEvents f zs := by
  induction ys with
  | nil => rfl
  | cons y ys ih =>
    rw [List.cons_append, frontEvents, frontSymbol_apart ha hs (hy y (by simp))]
    exact ih fun y h => hy y (by simp [h])

end Sys2Proof.Machine
end

