-- ==== Sys2Proof/Laws/Independent.lean ====
section
/-! SUPPORT. The engine and the responder share no state (R331): a sequence of primitives runs alike whatever stands in
the responder. `Blind f` says so of one function, and the lemmas compose by `Blind.andThen` and `Blind.bind`. -/

namespace Sys2Proof.Machine

open Sys2Proof

/-- The machine with another responder. -/
def State.withTarget (g : Target) (s : State) : State := { s with tgt := g }

/-- A run with another responder in the state it ends in. -/
def Run.withTarget {α : Type} (g : Target) : Run α → Run α
  | .done a s => .done a (s.withTarget g)
  | .hang s => .hang (s.withTarget g)
  | .refuse r => .refuse r

/-- The function runs alike whatever stands in the responder. -/
def Blind {α : Type} (f : State → Run α) : Prop := ∀ g s, f (s.withTarget g) = (f s).withTarget g

theorem Blind.bind {α β : Type} {p : State → Run α} {q : α → State → Run β} (hp : Blind p) (hq : ∀ a, Blind (q a)) :
    Blind fun s => (p s).bind q := by
  intro g s
  show (p (s.withTarget g)).bind q = ((p s).bind q).withTarget g
  rw [hp]
  cases p s with
  | done a t => exact hq a g t
  | hang t => rfl
  | refuse r => rfl

theorem Blind.andThen {β : Type} {p : State → Run Unit} {q : State → Run β} (hp : Blind p) (hq : Blind q) :
    Blind fun s => (p s).andThen q := hp.bind fun _ => hq

/-- A change of the state first. -/
theorem Blind.after {α : Type} {p : State → Run α} (hp : Blind p) {f : State → State}
    (hf : ∀ g s, f (s.withTarget g) = (f s).withTarget g) : Blind fun s => p (f s) := by
  intro g s
  show p (f (s.withTarget g)) = (p (f s)).withTarget g
  rw [hf]
  exact hp g (f s)

theorem Blind.done {α : Type} {v : State → α} {f : State → State} (hv : ∀ g s, v (s.withTarget g) = v s)
    (hf : ∀ g s, f (s.withTarget g) = (f s).withTarget g) : Blind fun s => .done (v s) (f s) := by
  intro g s
  show Run.done (v (s.withTarget g)) (f (s.withTarget g)) = .done (v s) ((f s).withTarget g)
  rw [hv, hf]

theorem Blind.unit {f : State → State} (hf : ∀ g s, f (s.withTarget g) = (f s).withTarget g) :
    Blind fun s => .done () (f s) := Blind.done (fun _ _ => rfl) hf

/-- A choice that does not look at the responder. -/
theorem Blind.cond {α : Type} {c : State → Prop} [DecidablePred c] {p q : State → Run α}
    (hc : ∀ g s, c (State.withTarget g s) ↔ c s) (hp : Blind p) (hq : Blind q) :
    Blind fun s => if c s then p s else q s := by
  intro g s
  show (if c (s.withTarget g) then p (s.withTarget g) else q (s.withTarget g)) = (if c s then p s else q s).withTarget g
  by_cases h : c s
  · rw [if_pos h, if_pos ((hc g s).2 h)]
    exact hp g s
  · rw [if_neg h, if_neg fun h' => h ((hc g s).1 h')]
    exact hq g s

theorem Blind.ite {α : Type} {c : State → Bool} {p q : State → Run α} (hc : ∀ g s, c (s.withTarget g) = c s)
    (hp : Blind p) (hq : Blind q) : Blind fun s => if c s then p s else q s :=
  Blind.cond (c := fun s => c s = true) (fun g s => by rw [hc]) hp hq

theorem Blind.refuse {α : Type} (r : Refusal) : Blind fun _ => (.refuse r : Run α) := fun _ _ => rfl

theorem Blind.backend {α : Type} {p q r : State → Run α} (hp : Blind p) (hq : Blind q) (hr : Blind r) :
    Blind fun s =>
      match s.cfg.backend with
      | .bitBang => p s
      | .peripheral => q s
      | .simulated => r s := by
  intro g s
  obtain ⟨⟨b, _⟩, _, _, _, _, _, _⟩ := s
  cases b
  · exact hp g _
  · exact hq g _
  · exact hr g _

/-! ## The primitives -/

theorem instant_blind : Blind instant :=
  Blind.ite (c := fun s => s.line.foreign) (fun _ _ => rfl) (.refuse _)
    (.ite (c := fun s => (s.line.ext :: s.line.env.headD []).any s.line.fought) (fun _ _ => rfl) (.refuse _)
      (.unit fun _ _ => rfl))

theorem setData_blind (v : Bool) : Blind (setData v) := instant_blind.andThen (.unit fun _ _ => rfl)

theorem setClock_blind (v : Bool) : Blind (setClock v) := by
  refine instant_blind.andThen (Blind.ite
    (c := fun s => (Line.driveClock s.cfg v s.line).fought (Line.driveClock s.cfg v s.line).ext) (fun _ _ => rfl)
    (.refuse _) (.ite (c := fun s => v && decide ((Line.driveClock s.cfg v s.line).drive = .openDrain))
      (fun _ _ => rfl) (fun g s => ?_)
      (.unit (f := fun s => { s with line := Line.driveClock s.cfg v s.line }) fun _ _ => rfl)))
  show (match Line.poll s.cfg (Line.driveClock s.cfg v s.line).env (Line.driveClock s.cfg v s.line) with
    | (l, true) => _
    | (l, false) => _) =
      Run.withTarget g
        (match Line.poll s.cfg (Line.driveClock s.cfg v s.line).env (Line.driveClock s.cfg v s.line) with
        | (l, true) => _
        | (l, false) => _)
  rcases Line.poll s.cfg (Line.driveClock s.cfg v s.line).env (Line.driveClock s.cfg v s.line) with ⟨l, b⟩
  cases b <;> rfl

theorem readData_blind : Blind readData := instant_blind.andThen (.done (fun _ _ => rfl) fun _ _ => rfl)

theorem readClock_blind : Blind readClock := instant_blind.andThen (.done (fun _ _ => rfl) fun _ _ => rfl)

theorem delay_blind : Blind delayQ := fun _ _ => rfl

theorem delayH_blind : Blind delayH := fun _ _ => rfl

theorem wireStart_blind : Blind wireStart :=
  (setData_blind _).andThen (delay_blind.andThen ((setClock_blind _).andThen (delay_blind.andThen
    (.unit fun _ _ => rfl))))

theorem wireRstart_blind : Blind wireRstart :=
  (setData_blind _).andThen (delay_blind.andThen ((setClock_blind _).andThen (delay_blind.andThen
    ((setData_blind _).andThen (delay_blind.andThen ((setClock_blind _).andThen (delay_blind.andThen
      (.unit fun _ _ => rfl))))))))

theorem wireStop_blind : Blind wireStop :=
  (setClock_blind _).andThen ((setData_blind _).andThen (delay_blind.andThen ((setClock_blind _).andThen
    (delay_blind.andThen ((setData_blind _).andThen (delayH_blind.andThen
      (.unit fun _ _ => rfl)))))))

theorem writeBit_blind (b : Bool) : Blind (writeBit b) :=
  (setData_blind _).andThen (delay_blind.andThen ((setClock_blind _).andThen (delayH_blind.andThen
    ((setClock_blind _).andThen delay_blind))))

theorem readBit_blind : Blind readBit :=
  (setData_blind _).andThen (delay_blind.andThen ((setClock_blind _).andThen (delayH_blind.andThen
    (readData_blind.bind fun v => (setClock_blind false).andThen (delay_blind.andThen
      (Blind.done (v := fun _ => v) (f := fun s => s) (fun _ _ => rfl) fun _ _ => rfl))))))

theorem writeBits_blind (b : Byte) (n : Nat) : Blind (writeBits b n) := by
  induction n with
  | zero => exact fun _ _ => rfl
  | succ n ih => exact ((writeBit_blind _).after fun _ _ => rfl).andThen ih

theorem readBits_blind (n : Nat) : Blind (readBits n) := by
  induction n with
  | zero => exact fun _ _ => rfl
  | succ n ih =>
    exact (readBit_blind.after (f := setSlot (.bit (Fin.ofNat 8 n))) fun _ _ => rfl).bind fun v =>
      ih.after (f := fun s => setSr (s.eng.sr ||| ((BitVec.ofBool v).setWidth 8 <<< n)) s) fun _ _ => rfl

theorem wireSendByte_blind (b : Byte) : Blind (wireSendByte b) :=
  ((writeBits_blind b 8).after (f := setSr b) fun _ _ => rfl).andThen
    ((readBit_blind.after (f := setSlot .ack) fun _ _ => rfl).bind fun _ => .unit fun _ _ => rfl)

theorem wireRecvByte_blind (ack : Bool) : Blind (wireRecvByte ack) := by
  refine ((readBits_blind 8).after (f := setSr 0) fun _ _ => rfl).andThen fun g s => ?_
  exact (((writeBit_blind (!ack)).after (f := setSlot .ack) fun _ _ => rfl).andThen
    (Blind.done (v := fun _ => s.eng.sr) (f := emit (.rx s.eng.sr ack)) (fun _ _ => rfl) fun _ _ => rfl)) g s

theorem waitDone_blind (latch : SrpAnswer → Srp → Srp) : Blind (waitDone latch) := by
  intro g s
  obtain ⟨_, _, _, _, ⟨_, _, _, d, _, _, _, _, _, _, env⟩, _, _⟩ := s
  cases d <;> cases env <;> rfl

theorem srpStart_blind : Blind srpStart :=
  ((waitDone_blind _).after (f := srpCommand .start) fun _ _ => rfl).andThen (.unit fun _ _ => rfl)

theorem srpWrite_blind (b : Byte) : Blind (srpWrite b) :=
  ((waitDone_blind _).after (f := fun s => srpCommand (.write b) { s with srp := { s.srp with data := b } })
    fun _ _ => rfl).andThen (.unit fun _ _ => rfl)

theorem srpRead_blind (ack : Bool) : Blind (srpRead ack) :=
  ((waitDone_blind _).after (f := fun s => srpCommand (.read ack) { s with srp := { s.srp with ackNext := ack } })
    fun _ _ => rfl).andThen (.done (fun _ _ => rfl) fun _ _ => rfl)

theorem srpStop_blind : Blind srpStop :=
  ((waitDone_blind _).after (f := srpCommand .stop) fun _ _ => rfl).andThen (.unit fun _ _ => rfl)

theorem busStart_blind : Blind busStart := .backend wireStart_blind srpStart_blind fun _ _ => rfl

theorem busRstart_blind : Blind busRstart := .backend wireRstart_blind srpStart_blind fun _ _ => rfl

theorem busStop_blind : Blind busStop := .backend wireStop_blind srpStop_blind fun _ _ => rfl

theorem busSendByte_blind (b : Byte) : Blind (busSendByte b) :=
  .backend (wireSendByte_blind b) (srpWrite_blind b) fun _ _ => rfl

theorem busRecvByte_blind (ack : Bool) : Blind (busRecvByte ack) :=
  .backend (wireRecvByte_blind ack) (srpRead_blind ack) fun _ _ => rfl

/-! ## The rows and the transfer -/

theorem enter_blind (g : Target) (s : State) : enter (s.withTarget g) = (enter s).withTarget g := by
  obtain ⟨⟨b, _⟩, _, _, _, _, _, _⟩ := s
  cases b <;> rfl

theorem rowCheck_blind (c : Call) : Blind (rowCheck c) :=
  Blind.ite (c := fun s => !s.eng.configured) (fun _ _ => rfl) (.unit fun _ _ => rfl)
    (Blind.ite (c := fun _ => c.msgs.isEmpty) (fun _ _ => rfl) (.unit fun _ _ => rfl)
      (Blind.cond (c := fun s => s.cfg.tgtAddr = some c.addr) (fun _ _ => Iff.rfl) (.refuse _)
        (.unit fun g s => by rw [enter_blind]; rfl)))

theorem failed_blind (g : Target) (s : State) : failed (s.withTarget g) = failed s := rfl

theorem arbLostRead_blind (g : Target) (s : State) : arbLostRead (s.withTarget g) = arbLostRead s := rfl

theorem leave_blind (g : Target) (s : State) : leave (s.withTarget g) = (leave s).withTarget g := by
  obtain ⟨⟨b, _⟩, _, _, _, _, _, _⟩ := s
  cases b <;> rfl

theorem rowPreStop_blind : Blind rowPreStop :=
  Blind.andThen (Blind.ite (c := fun s => hasStop s.eng.flg) (fun _ _ => rfl) busStop_blind fun _ _ => rfl)
    (.unit fun _ _ => rfl)

theorem rowCond_blind : Blind rowCond :=
  Blind.andThen (Blind.cond (c := fun s => s.eng.seq.i = 0) (fun _ _ => Iff.rfl) busStart_blind busRstart_blind)
    (.unit fun _ _ => rfl)

theorem rowAddr_blind (b : Byte) : Blind (rowAddr b) :=
  (busSendByte_blind b).andThen (.ite (fun _ _ => rfl) (.unit fun _ _ => rfl)
    (.ite (c := fun s => !s.eng.acked) (fun _ _ => rfl) (.unit fun _ _ => rfl) (.unit fun _ _ => rfl)))

theorem rowSend_blind (b : Byte) : Blind (rowSend b) :=
  (busSendByte_blind b).andThen (.ite (fun _ _ => rfl) (.unit fun _ _ => rfl)
    (.ite (c := fun s => !s.eng.acked) (fun _ _ => rfl) (.unit fun _ _ => rfl) (.unit fun _ _ => rfl)))

theorem rowRecv_blind (len : Nat) : Blind (rowRecv len) := by
  refine Blind.bind (p := fun s => busRecvByte (recvAck (msgCount s) s.eng.seq.i len s.eng.seq.j) s)
    (fun g s => busRecvByte_blind _ g s) fun v => ?_
  exact (Blind.ite (c := arbLostRead) arbLostRead_blind
    (.unit (f := fun s => setPhase (.failStop .arbitrationLost) (nextByte s)) fun _ _ => rfl)
    (.unit (f := nextByte) fun _ _ => rfl)).after
    (f := fun s => { s with eng := { s.eng with buf := s.eng.buf ++ [⟨s.eng.seq.i, s.eng.seq.j, v⟩] } })
    fun _ _ => rfl

theorem rowFinal_blind : Blind rowFinal :=
  busStop_blind.andThen (.unit fun g s => by rw [leave_blind]; rfl)

theorem takeFailure_blind (e : BusError) : Blind (takeFailure e) := by
  have h : Blind fun s => (busStop s).andThen fun s => .done () (setPhase .done (setResult (.err e) (leave s))) :=
    busStop_blind.andThen (.unit fun g s => by rw [leave_blind]; rfl)
  cases e <;> first
    | exact h
    | exact .unit fun g s => by
        have : srpStopNoWait (s.withTarget g) = (srpStopNoWait s).withTarget g := rfl
        rw [this, leave_blind]; rfl

theorem sendAll_blind (bs : List Byte) : Blind (sendAll bs) := by
  induction bs with
  | nil => exact fun _ _ => rfl
  | cons b bs ih => exact (rowSend_blind b).andThen (.ite failed_blind (fun _ _ => rfl) ih)

theorem recvAll_blind (len n : Nat) : Blind (recvAll len n) := by
  induction n with
  | zero => exact fun _ _ => rfl
  | succ n ih => exact (rowRecv_blind len).andThen (.ite failed_blind (fun _ _ => rfl) ih)

theorem runData_blind (m : Msg) : Blind (runData m) := by
  obtain ⟨rs, st, body⟩ := m
  cases body with
  | write buf => exact sendAll_blind buf
  | read len => exact recvAll_blind len len

theorem runAddr_blind (a : Addr) : Blind (runAddr a) := by
  refine Blind.ite (c := fun s => hasRestart s.eng.flg) (fun _ _ => rfl) (rowCond_blind.andThen fun g s => ?_)
    fun _ _ => rfl
  exact rowAddr_blind (addrByte a (hasRead s.eng.flg)) g s

theorem rowEndMsg_blind (g : Target) (s : State) : rowEndMsg (s.withTarget g) = (rowEndMsg s).withTarget g := by
  unfold rowEndMsg
  show (if s.eng.seq.i + 1 < msgCount s then _ else _) = State.withTarget g (if _ then _ else _)
  split <;> rfl

theorem runMsg_blind (a : Addr) (m : Msg) : Blind (runMsg a m) :=
  rowPreStop_blind.andThen (((runAddr_blind a).after (f := rowLoadFlags m) fun _ _ => rfl).andThen
    (.ite failed_blind (fun _ _ => rfl) ((runData_blind m).andThen
      (.ite failed_blind (fun _ _ => rfl) (.unit rowEndMsg_blind)))))

theorem runMsgs_blind (a : Addr) (ms : List Msg) : Blind (runMsgs a ms) := by
  induction ms with
  | nil => exact fun _ _ => rfl
  | cons m ms ih => exact (runMsg_blind a m).andThen (.ite failed_blind (fun _ _ => rfl) ih)

theorem finishCall_blind : Blind finishCall := by
  refine Blind.andThen (p := fun s =>
    match s.eng.seq.phase with
    | .failStop e => takeFailure e s
    | .idle | .check | .preStop | .loadFlags | .cond | .addr | .dataWr | .dataRd | .finalStop | .done => rowFinal s)
    (fun g s => ?_) (.unit fun _ _ => rfl)
  obtain ⟨_, _, ⟨_, _, _, _, _, _, _, ⟨ph, _, _, _⟩, _, _, _, _, _⟩, _, _, _, _⟩ := s
  cases ph <;> first | exact takeFailure_blind _ g _ | exact rowFinal_blind g _

theorem transfer_blind (a : Addr) (msgs : List Msg) : Blind (transfer a msgs) :=
  Blind.cond (c := fun s => s.eng.seq.phase ≠ .idle) (fun _ _ => Iff.rfl) (.refuse _)
    (((rowCheck_blind ⟨a, msgs⟩).after (f := beginCall ⟨a, msgs⟩) fun _ _ => rfl).andThen
      (Blind.cond (c := fun s => s.eng.seq.phase = .done) (fun _ _ => Iff.rfl) (.unit fun _ _ => rfl)
        ((runMsgs_blind a msgs).andThen finishCall_blind)))

theorem helper_blind (a : Addr) (msgs : List Msg) {ret : State → Ret}
    (hr : ∀ g s, ret (State.withTarget g s) = ret s) : Blind (helper a msgs ret) := by
  refine (transfer_blind a msgs).andThen (.unit fun g s => ?_)
  show (if s.host.result = .ok then setResult (ret (s.withTarget g)) (s.withTarget g) else s.withTarget g) = _
  rw [hr]
  split <;> rfl

theorem otherCalls_blind (cs : List Call) : Blind (otherCalls cs) := by
  induction cs with
  | nil => exact fun _ _ => rfl
  | cons c cs ih => exact (transfer_blind c.addr c.msgs).andThen ih

theorem raceCalls_blind : Blind raceCalls := by
  intro g s
  obtain ⟨c, ⟨inp, irq, r, past, race⟩, e, l, sr, sm, t⟩ := s
  cases race with
  | nil => rfl
  | cons cs rest => exact otherCalls_blind cs g ⟨c, ⟨inp, irq, r, past, rest⟩, e, l, sr, sm, t⟩

theorem updateMasked_blind (a : Addr) (reg mask value : Byte) : Blind (updateMasked a reg mask value) := by
  refine Blind.andThen (helper_blind a _ fun _ _ => rfl) fun g s => ?_
  obtain ⟨c, ⟨inp, irq, r, past, race⟩, e, l, sr, sm, t⟩ := s
  cases r with
  | okByte old =>
    by_cases h : maskedUpdate old mask value = old
    · simp only [State.withTarget, if_pos h]
      rfl
    · simp only [State.withTarget, if_neg h]
      exact (raceCalls_blind.andThen (transfer_blind a (writePattern [reg, maskedUpdate old mask value]))) g
        ⟨c, ⟨inp, irq, .okByte old, past, race⟩, e, l, sr, sm, t⟩
  | _ => rfl

theorem callRun_blind (i : Instr) : Blind (callRun i) := by
  cases i <;> first
    | exact transfer_blind _ _
    | exact helper_blind _ _ fun _ _ => rfl
    | exact updateMasked_blind _ _ _ _
    | exact fun _ _ => rfl

theorem endInCall_blind : Blind endInCall := .ite failed_blind finishCall_blind fun _ _ => rfl

/-! ## Operations as steps -/

/-- A step with another responder in the state it answers. -/
def outcomeWithTarget (g : Target) : Host.Outcome State Fault Refusal → Host.Outcome State Fault Refusal
  | .next s => .next (s.withTarget g)
  | .fault f => .fault f
  | .refused r => .refused r

theorem Blind.outcome {f : State → Run Unit} (h : Blind f) (g : Target) (s : State) :
    toOutcome (f (s.withTarget g)) = outcomeWithTarget g (toOutcome (f s)) := by
  rw [h]
  cases f s <;> rfl

/-- A primitive of one transport as an operation. -/
theorem Blind.primitive {α : Type} {f : State → Run α} (h : Blind f) (b : Backend) {ret : α → State → Ret}
    (hr : ∀ v g s, ret v (State.withTarget g s) = ret v s) (g : Target) (s : State) :
    (onBackend b (s.withTarget g) fun s => finishWith ret (f s)) =
      outcomeWithTarget g (onBackend b s fun s => finishWith ret (f s)) := by
  by_cases hb : s.cfg.backend = b
  · rw [onBackend_eq _ hb, onBackend_eq _ (show (s.withTarget g).cfg.backend = b from hb)]
    show finishWith ret (f ((setResult .none s).withTarget g)) = _
    rw [h]
    cases f (setResult .none s) with
    | done v t =>
      show Host.Outcome.next (setResult (ret v (t.withTarget g)) (t.withTarget g)) = _
      rw [hr]
      rfl
    | hang t => rfl
    | refuse r => rfl
  · unfold onBackend
    rw [if_neg hb, if_neg (show ¬ (s.withTarget g).cfg.backend = b from hb)]
    rfl

theorem execMessage_blind (m : Msg) (g : Target) (s : State) :
    execMessage m (s.withTarget g) = outcomeWithTarget g (execMessage m s) := by
  obtain ⟨c, h, ⟨x1, x2, x3, x4, x5, x6, x7, ⟨ph, i, j, k⟩, call, x8, x9, x10, x11⟩, l, r, sm, t⟩ := s
  cases call with
  | none => rfl
  | some cl =>
    cases ph with
    | preStop =>
      exact ((runMsg_blind cl.addr m).andThen endInCall_blind).outcome g
        ⟨c, h, ⟨x1, x2, x3, x4, x5, x6, x7, ⟨.preStop, i, j, k⟩, some cl, x8, x9, x10, x11⟩, l, r, sm, t⟩
    | _ => rfl

theorem execAddress_blind (b : Byte) (g : Target) (s : State) :
    execAddress b (s.withTarget g) = outcomeWithTarget g (execAddress b s) := by
  obtain ⟨c, h, ⟨x1, x2, x3, x4, x5, x6, x7, ⟨ph, i, j, k⟩, call, x8, x9, x10, x11⟩, l, r, sm, t⟩ := s
  cases call with
  | none => rfl
  | some cl =>
    cases ph with
    | addr =>
      exact ((rowAddr_blind b).andThen endInCall_blind).outcome g
        ⟨c, h, ⟨x1, x2, x3, x4, x5, x6, x7, ⟨.addr, i, j, k⟩, some cl, x8, x9, x10, x11⟩, l, r, sm, t⟩
    | _ => rfl

theorem execConfigure_blind (m : Mode) (g : Target) (s : State) :
    execConfigure m (s.withTarget g) = outcomeWithTarget g (execConfigure m s) := by
  obtain ⟨⟨b, _, _, _, _, _, _, _, _, _, _⟩, _, ⟨cf, _, _, _, _, _, _, _, _, _, _, _, _⟩, l, _, _, _⟩ := s
  cases cf with
  | true => rfl
  | false =>
    cases b with
    | bitBang => cases hf : l.foreign <;> (simp [execConfigure, State.withTarget, hf, outcomeWithTarget]; try rfl)
    | peripheral => rfl
    | simulated => rfl

end Sys2Proof.Machine
end

