-- ==== Sys2Proof/Laws/PerInstr.lean ====
section
/-! SUPPORT. Statements made of every operation as syntax: its first byte matches its row of spec/opcode_table.json. -/

namespace Sys2Proof.Laws.Encoding

open Sys2Proof

/-- The operation's words begin with a byte that its opcode-table row matches. -/
def Statement (i : Instr) : Prop := (encode i).head?.map (fun b => b &&& (tableRow i).1) = some (tableRow i).2

/-- An operation whose words begin with a byte its row matches. -/
theorem of_first {i : Instr} {b m k : Byte} {r : List Byte} (he : encode i = b :: r) (hr : tableRow i = (m, k))
    (hb : b &&& m = k) : Statement i := by
  rw [Statement, he, hr]
  exact congrArg some hb

/-- The flag byte of a message matches the row of its direction, whatever its other two flags. -/
theorem flagByte_matches (rs st rd : Bool) : flagByte rs st rd &&& 0xF9 = if rd then 1 else 0 := by
  cases rs <;> cases st <;> cases rd <;> decide

/-- Bit 0 of an address byte is the direction bit. -/
theorem wireAddrByte_matches (a : Addr) (rd : Bool) : wireAddrByte a rd &&& 0x01 = if rd then 1 else 0 := by
  revert rd
  revert a
  decide

theorem configure (m : Mode) : Statement (.configure m) := of_first rfl rfl rfl

theorem transfer (a : Addr) (ms : List Msg) : Statement (.transfer a ms) := of_first rfl rfl rfl

theorem msgWrite (rs st : Bool) (buf : List Byte) : Statement (.msgWrite rs st buf) :=
  of_first rfl rfl (flagByte_matches rs st false)

theorem msgRead (rs st : Bool) (n : Nat) : Statement (.msgRead rs st n) :=
  of_first rfl rfl (flagByte_matches rs st true)

theorem addrW (a : Addr) : Statement (.addrW a) :=
  of_first rfl rfl (wireAddrByte_matches a false)

theorem addrR (a : Addr) : Statement (.addrR a) :=
  of_first rfl rfl (wireAddrByte_matches a true)

theorem setClock (v : Bool) : Statement (.setClock v) := of_first rfl rfl rfl

theorem setData (v : Bool) : Statement (.setData v) := of_first rfl rfl rfl

theorem readData : Statement .readData := of_first rfl rfl rfl

theorem readClock : Statement .readClock := of_first rfl rfl rfl

theorem delayQ : Statement .delayQ := of_first rfl rfl rfl

theorem delayH : Statement .delayH := of_first rfl rfl rfl

theorem start : Statement .start := of_first rfl rfl rfl

theorem rstart : Statement .rstart := of_first rfl rfl rfl

theorem stop : Statement .stop := of_first rfl rfl rfl

theorem writeBit (b : Bool) : Statement (.writeBit b) := of_first rfl rfl rfl

theorem readBit : Statement .readBit := of_first rfl rfl rfl

theorem sendByte (b : Byte) : Statement (.sendByte b) := of_first rfl rfl rfl

theorem recvByte (a : Bool) : Statement (.recvByte a) := of_first rfl rfl rfl

theorem pStart : Statement .pStart := of_first rfl rfl rfl

theorem pWrite (b : Byte) : Statement (.pWrite b) := of_first rfl rfl rfl

theorem pRead (a : Bool) : Statement (.pRead a) := of_first rfl rfl rfl

theorem pStop : Statement .pStop := of_first rfl rfl rfl

theorem evAddr (d : Dir) : Statement (.evAddr d) := of_first rfl rfl rfl

theorem evStop : Statement .evStop := of_first rfl rfl rfl

theorem evRxByte (b : Byte) : Statement (.evRxByte b) := of_first rfl rfl rfl

theorem evTxReq (p : Prev) : Statement (.evTxReq p) := of_first rfl rfl rfl

theorem evBusErr : Statement .evBusErr := of_first rfl rfl rfl

theorem evColl : Statement .evColl := of_first rfl rfl rfl

theorem readRegister (i : Byte) : Statement (.readRegister i) := of_first rfl rfl rfl

theorem writeRegister (i b : Byte) : Statement (.writeRegister i b) := of_first rfl rfl rfl

theorem detect (a : Addr) : Statement (.detect a) := of_first rfl rfl rfl

theorem write (a : Addr) (bs : List Byte) : Statement (.write a bs) := of_first rfl rfl rfl

theorem read (a : Addr) (n : Nat) : Statement (.read a n) := of_first rfl rfl rfl

theorem writeThenRead (a : Addr) (bs : List Byte) (n : Nat) : Statement (.writeThenRead a bs n) := of_first rfl rfl rfl

theorem regRead8 (a : Addr) (r : Byte) : Statement (.regRead8 a r) := of_first rfl rfl rfl

theorem regWrite8 (a : Addr) (r v : Byte) : Statement (.regWrite8 a r v) := of_first rfl rfl rfl

theorem regRead16Be (a : Addr) (r : Byte) : Statement (.regRead16Be a r) := of_first rfl rfl rfl

theorem regRead16Le (a : Addr) (r : Byte) : Statement (.regRead16Le a r) := of_first rfl rfl rfl

theorem regWrite16Be (a : Addr) (r : Byte) (w : Half) : Statement (.regWrite16Be a r w) := of_first rfl rfl rfl

theorem regWrite16Le (a : Addr) (r : Byte) (w : Half) : Statement (.regWrite16Le a r w) := of_first rfl rfl rfl

theorem updateMasked (a : Addr) (r m v : Byte) : Statement (.updateMasked a r m v) := of_first rfl rfl rfl

end Sys2Proof.Laws.Encoding
end

