-- ==== Sys2Proof/Laws/SmallStep.lean ====
section
/-! SUPPORT. The small-step table (spec R193) run from a place of a call: `Ends s o` says that enough rows from `s` end in
`o`. A row hands on to the rest of the call by `Ends.run`. -/

namespace Sys2Proof.Machine

open Sys2Proof

/-- Enough rows of the small-step table from `s` end in `o`. -/
def Ends (s : State) (o : Host.Outcome State Fault Refusal) : Prop := ∃ n, ∀ k, n ≤ k → seqRun k s = o

/-- A call that has returned, or that waits for ever, stays where it is. -/
theorem Ends.halt {s : State} (h : s.eng.seq.phase = .idle ∨ s.eng.waiting.isSome = true) : Ends s (.next s) := by
  refine ⟨0, fun k _ => ?_⟩
  cases k with
  | zero => rfl
  | succ k => rw [seqRun, if_pos h]

/-- One row, then the rest. -/
theorem Ends.next {s t : State} {o : Host.Outcome State Fault Refusal} (hp : s.eng.seq.phase ≠ .idle)
    (hw : s.eng.waiting = none) (hm : seqMove s = .next t) (h : Ends t o) : Ends s o := by
  obtain ⟨n, hn⟩ := h
  refine ⟨n + 1, fun k hk => ?_⟩
  obtain ⟨j, rfl⟩ : ∃ j, k = j + 1 := ⟨k - 1, by omega⟩
  rw [seqRun, if_neg (by simp [hp, hw]), hm]
  exact hn j (by omega)

/-- One row that is a run, then the rest of the call. -/
theorem Ends.run {s : State} {r : Run Unit} {K : State → Run Unit} {D : State → Prop} (hp : s.eng.seq.phase ≠ .idle)
    (hw : s.eng.waiting = none) (hm : seqMove s = toOutcome r)
    (hr : r.Post (fun _ t => D t) fun t => t.eng.waiting ≠ none) (hK : ∀ t, D t → Ends t (toOutcome (K t))) :
    Ends s (toOutcome (r.andThen K)) := by
  cases r with
  | done a t => exact Ends.next hp hw hm (hK t hr)
  | hang t =>
    refine Ends.next hp hw hm (Ends.halt (.inr ?_))
    exact Option.isSome_iff_ne_none.2 hr
  | refuse x =>
    refine ⟨1, fun k hk => ?_⟩
    obtain ⟨j, rfl⟩ : ∃ j, k = j + 1 := ⟨k - 1, by omega⟩
    rw [seqRun, if_neg (by simp [hp, hw]), hm]
    rfl

/-- A call stands at a place. -/
structure StandsAt (c : Call) (p : Phase) (s : State) : Prop where
  call : s.eng.call = some c
  phase : s.eng.seq.phase = p
  waiting : s.eng.waiting = none

/-- The end of a call, from its final or failure stop. -/
theorem ends_finish {c : Call} {p : Phase} {s : State} (h : StandsAt c p s) (hp : p = .finalStop ∨ ∃ e, p = .failStop e) :
    Ends s (toOutcome (finishCall s)) := by
  have back : ∀ t, StandsAt c .done t → Ends t (toOutcome (.done () (returnCall t))) := fun t ht =>
    Ends.next (by rw [ht.phase]; decide) ht.waiting (by rw [seqMove, ht.call, ht.phase]) (Ends.halt (.inl rfl))
  have stop : ∀ r : Ret, ((busStop s).andThen fun s => .done () (setPhase .done (setResult r (leave s)))).Post
      (fun _ t => StandsAt c .done t) fun t => t.eng.waiting ≠ none := by
    intro r
    refine (busStop_post s).andThen (fun _ h => h.2) fun t ht => ?_
    obtain ⟨⟨hs, hw⟩, -⟩ := ht
    refine ⟨?_, rfl, ?_⟩
    · show (leave t).eng.call = _
      rw [leave_eng, hs.call, h.call]
    · show (leave t).eng.waiting = _
      rw [leave_eng, hw, h.waiting]
  rcases hp with rfl | ⟨e, rfl⟩
  · have hf : finishCall s = (rowFinal s).andThen fun s => .done () (returnCall s) := by unfold finishCall; rw [h.phase]
    rw [hf]
    exact Ends.run (by rw [h.phase]; decide) h.waiting (by rw [seqMove, h.call, h.phase]) (stop _) back
  · have hf : finishCall s = (takeFailure e s).andThen fun s => .done () (returnCall s) := by
      unfold finishCall; rw [h.phase]
    rw [hf]
    refine Ends.run (by rw [h.phase]; exact Phase.noConfusion) h.waiting (by rw [seqMove, h.call, h.phase])
      (D := StandsAt c .done) ?_ back
    cases e with
    | arbitrationLost =>
      refine ⟨?_, rfl, ?_⟩
      · show (leave (srpStopNoWait s)).eng.call = _
        rw [leave_eng]
        exact h.call
      · show (leave (srpStopNoWait s)).eng.waiting = _
        rw [leave_eng]
        exact h.waiting
    | _ => exact stop _

/-- The rest of a call behind the data of a message. -/
def afterData (G : State → Run Unit) (t : State) : Run Unit := if failed t then finishCall t else G (rowEndMsg t)

theorem ends_failed {c : Call} {s t : State} {e : BusError} (hs : s.eng.call = some c) (hw : t.eng.waiting = none)
    (hl : LoopStep s t) (h : FailedWith s t e) : Ends t (toOutcome (finishCall t)) :=
  ends_finish ⟨hl.call.trans hs, h.1, hw⟩ (.inr ⟨e, rfl⟩)

/-- The bytes of a write message (R187), then the rest. -/
theorem ends_sendAll {c : Call} {i : Nat} {rs st : Bool} {buf : List Byte} {G : State → Run Unit}
    (hG : ∀ t, StandsAt c .dataWr t → t.eng.seq.i = i → Ends (rowEndMsg t) (toOutcome (G (rowEndMsg t)))) :
    ∀ (bs : List Byte) (s : State), StandsAt c .dataWr s → s.eng.seq.i = i → c.msgs[i]? = some ⟨rs, st, .write buf⟩ →
      buf.drop s.eng.seq.j = bs → Ends s (toOutcome ((sendAll bs s).andThen (afterData G))) := by
  intro bs
  induction bs with
  | nil =>
    intro s h hi0 hm hj
    rw [← hi0] at hm
    have hn : buf[s.eng.seq.j]? = none := by
      rw [List.getElem?_eq_none_iff]
      exact List.drop_eq_nil_iff.1 hj
    have hf : failed s = false := failed_false fun e he => by rw [h.phase] at he; cases he
    have ha : afterData G s = G (rowEndMsg s) := by rw [afterData, hf]; rfl
    show Ends s (toOutcome (afterData G s))
    rw [ha]
    exact Ends.next (by rw [h.phase]; decide) h.waiting (by simp [seqMove, h.call, h.phase, hm, hn]) (hG s h hi0)
  | cons b bs ih =>
    intro s h hi0 hm hj
    rw [← hi0] at hm
    have hb : buf[s.eng.seq.j]? = some b := by
      have := congrArg (fun l => l[0]?) hj
      simpa using this
    have ht : buf.drop (s.eng.seq.j + 1) = bs := by
      have := congrArg List.tail hj
      simpa using this
    rw [sendAll, Run.andThen_assoc]
    refine Ends.run (by rw [h.phase]; decide) h.waiting (by simp [seqMove, h.call, h.phase, hm, hb])
      ((rowSend_post b s).mono (fun _ _ h => h) fun _ h => h.2) fun t post => ?_
    obtain ⟨hl, hw, hi, -, -, ⟨e, he, -⟩ | ⟨-, hp, hj', -, -⟩⟩ := post
    · have hf := he.failed
      have ha : (if failed t = true then Run.done () t else sendAll bs t).andThen (afterData G) = finishCall t := by
        rw [hf]
        show afterData G t = _
        rw [afterData, hf]
        rfl
      rw [ha]
      exact ends_failed h.call (hw.trans h.waiting) hl he
    · have hf : failed t = false := failed_false fun e he => by rw [hp, h.phase] at he; cases he
      rw [hf]
      exact ih t ⟨hl.call.trans h.call, hp.trans h.phase, hw.trans h.waiting⟩ (hi.trans hi0) (by rw [← hi0]; exact hm) (by rw [hj']; exact ht)

/-- The bytes of a read message (R188), then the rest. -/
theorem ends_recvAll {c : Call} {i : Nat} {rs st : Bool} {len : Nat} {G : State → Run Unit}
    (hG : ∀ t, StandsAt c .dataRd t → t.eng.seq.i = i → Ends (rowEndMsg t) (toOutcome (G (rowEndMsg t)))) :
    ∀ (n : Nat) (s : State), StandsAt c .dataRd s → s.eng.seq.i = i → c.msgs[i]? = some ⟨rs, st, .read len⟩ →
      s.eng.seq.j + n = len → Ends s (toOutcome ((recvAll len n s).andThen (afterData G))) := by
  intro n
  induction n with
  | zero =>
    intro s h hi0 hm hj
    rw [← hi0] at hm
    have hf : failed s = false := failed_false fun e he => by rw [h.phase] at he; cases he
    have ha : afterData G s = G (rowEndMsg s) := by rw [afterData, hf]; rfl
    show Ends s (toOutcome (afterData G s))
    rw [ha]
    refine Ends.next (by rw [h.phase]; decide) h.waiting ?_ (hG s h hi0)
    have : ¬ s.eng.seq.j < len := by omega
    simp [seqMove, h.call, h.phase, hm, this]
  | succ n ih =>
    intro s h hi0 hm hj
    rw [← hi0] at hm
    have hlt : s.eng.seq.j < len := by omega
    rw [recvAll, Run.andThen_assoc]
    refine Ends.run (by rw [h.phase]; decide) h.waiting (by simp [seqMove, h.call, h.phase, hm, hlt])
      ((rowRecv_post len s).mono (fun _ _ h => h) fun _ h => h.2) fun t post => ?_
    obtain ⟨hl, hw, hi, -, v, -, -, he | ⟨hp, hj', -, -⟩⟩ := post
    · have hf := he.failed
      have ha : (if failed t = true then Run.done () t else recvAll len n t).andThen (afterData G) = finishCall t := by
        rw [hf]
        show afterData G t = _
        rw [afterData, hf]
        rfl
      rw [ha]
      exact ends_failed h.call (hw.trans h.waiting) hl he
    · have hf : failed t = false := failed_false fun e he => by rw [hp, h.phase] at he; cases he
      rw [hf]
      exact ih t ⟨hl.call.trans h.call, hp.trans h.phase, hw.trans h.waiting⟩ (hi.trans hi0) (by rw [← hi0]; exact hm) (by rw [hj']; omega)

/-- The data of a message, then the rest. -/
theorem ends_runData {c : Call} {m : Msg} {G : State → Run Unit} {s : State}
    (hG : ∀ t, StandsAt c (if m.isRead then .dataRd else .dataWr) t → t.eng.seq.i = s.eng.seq.i →
      Ends (rowEndMsg t) (toOutcome (G (rowEndMsg t))))
    (h : StandsAt c (if m.isRead then .dataRd else .dataWr) s) (hm : c.msgs[s.eng.seq.i]? = some m)
    (hj : s.eng.seq.j = 0) : Ends s (toOutcome ((runData m s).andThen (afterData G))) := by
  obtain ⟨rs, st, body⟩ := m
  cases body with
  | write buf => exact ends_sendAll hG buf s h rfl hm (by rw [hj]; rfl)
  | read len => exact ends_recvAll hG len s h rfl hm (by rw [hj]; omega)

/-- Where the end of a message's data leads: the next message, or the final stop (R193). -/
theorem rowEndMsg_stands {c : Call} {p : Phase} {t : State} (h : StandsAt c p t) :
    (t.eng.seq.i + 1 < c.msgs.length ∧ StandsAt c .preStop (rowEndMsg t) ∧ (rowEndMsg t).eng.seq.i = t.eng.seq.i + 1) ∨
      (c.msgs.length ≤ t.eng.seq.i + 1 ∧ StandsAt c .finalStop (rowEndMsg t)) := by
  have hc : msgCount t = c.msgs.length := by rw [msgCount, h.call]
  unfold rowEndMsg
  rw [hc]
  split
  · next hlt => exact .inl ⟨hlt, ⟨h.call, rfl, h.waiting⟩, rfl⟩
  · next hlt => exact .inr ⟨by omega, h.call, rfl, h.waiting⟩

/-- The condition, the address byte and the data of a message whose flags are loaded, then the rest. -/
theorem ends_loaded {c : Call} {m : Msg} {G : State → Run Unit} {s : State}
    (hG : ∀ t, StandsAt c (if m.isRead then .dataRd else .dataWr) t → t.eng.seq.i = s.eng.seq.i →
      Ends (rowEndMsg t) (toOutcome (G (rowEndMsg t))))
    (hc : s.eng.call = some c) (hw : s.eng.waiting = none) (hm : c.msgs[s.eng.seq.i]? = some m)
    (hj : s.eng.seq.j = 0) (hr : hasRead s.eng.flg = m.isRead)
    (hp : s.eng.seq.phase = if hasRestart s.eng.flg then .cond else dataPhase s.eng.flg) :
    Ends s (toOutcome ((runAddr c.addr s).andThen fun t =>
      if failed t then finishCall t else (runData m t).andThen (afterData G))) := by
  have data : ∀ t, StandsAt c (dataPhase s.eng.flg) t → t.eng.seq.i = s.eng.seq.i → t.eng.seq.j = 0 →
      Ends t (toOutcome (if failed t then finishCall t else (runData m t).andThen (afterData G))) := by
    intro t ht hi hj
    rw [dataPhase_eq _ _ hr] at ht
    have hf : failed t = false := by
      refine failed_false fun e he => ?_
      rw [ht.phase] at he
      split at he <;> cases he
    rw [hf]
    exact ends_runData (fun u hu hui => hG u hu (hui.trans hi)) ht (by rw [hi]; exact hm) hj
  unfold runAddr
  by_cases hh : hasRestart s.eng.flg = true
  · rw [if_pos hh] at hp ⊢
    rw [Run.andThen_assoc]
    refine Ends.run (by rw [hp]; decide) hw (by simp [seqMove, hc, hp])
      ((rowCond_post s).mono (fun _ _ h => h) fun _ h => h.waiting) fun t post => ?_
    obtain ⟨hl, hw1, hf1, hi1, hj1, -, hp1, -⟩ := post
    have hc1 := hl.call.trans hc
    refine Ends.run (by rw [hp1]; decide) (hw1.trans hw) (by simp [seqMove, hc1, hp1])
      ((rowAddr_post _ t).mono (fun _ _ h => h) fun _ h => h.2) fun u post => ?_
    obtain ⟨gl, hw2, hi2, -, a, -, ⟨e, he, -⟩ | ⟨-, hp2, hj2, -⟩⟩ := post
    · rw [if_pos he.failed]
      exact ends_failed hc1 (hw2.trans (hw1.trans hw)) gl he
    · rw [hf1] at hp2
      exact data u ⟨gl.call.trans hc1, hp2, hw2.trans (hw1.trans hw)⟩ (hi2.trans hi1) (hj2.trans (hj1.trans hj))
  · rw [if_neg hh] at hp ⊢
    exact data s ⟨hc, hp, hw⟩ rfl hj

/-- Where loading the flags leads (R185). -/
theorem rowLoadFlags_stands (m : Msg) (s : State) :
    (rowLoadFlags m s).eng.seq.phase =
        (if hasRestart (rowLoadFlags m s).eng.flg then .cond else dataPhase (rowLoadFlags m s).eng.flg) ∧
      (rowLoadFlags m s).eng.seq.i = s.eng.seq.i ∧ (rowLoadFlags m s).eng.seq.j = 0 ∧
      hasRead (rowLoadFlags m s).eng.flg = m.isRead :=
  ⟨rfl, rfl, rfl, hasRead_effectiveFlags _ _⟩

/-- The messages of a call from the one it stands at, and the call's end. -/
theorem ends_runMsgs {c : Call} : ∀ (ms : List Msg) (s : State), ms ≠ [] → StandsAt c .preStop s →
    c.msgs.drop s.eng.seq.i = ms → Ends s (toOutcome ((runMsgs c.addr ms s).andThen finishCall)) := by
  intro ms
  induction ms with
  | nil => intro s h; exact absurd rfl h
  | cons m ms ih =>
    intro s _ h hd
    have hm : c.msgs[s.eng.seq.i]? = some m := by
      have := congrArg (fun l => l[0]?) hd
      simpa using this
    have ht : c.msgs.drop (s.eng.seq.i + 1) = ms := by
      have := congrArg List.tail hd
      simpa using this
    have shape : (runMsgs c.addr (m :: ms) s).andThen finishCall =
        (rowPreStop s).andThen fun t => (runAddr c.addr (rowLoadFlags m t)).andThen fun u =>
          if failed u then finishCall u
          else (runData m u).andThen (afterData fun v => (runMsgs c.addr ms v).andThen finishCall) := by
      have key : ∀ t : State, failed (rowEndMsg t) = false := fun t => by
        unfold rowEndMsg
        split <;> rfl
      rw [runMsgs, runMsg, Run.andThen_assoc, Run.andThen_assoc]
      congr 1
      funext t
      rw [Run.andThen_assoc]
      congr 1
      funext u
      by_cases hf : failed u = true
      · simp [hf]
      · simp only [hf]
        simp only [Bool.false_eq_true, if_false, Run.andThen_assoc]
        congr 1
        funext v
        unfold afterData
        by_cases hv : failed v = true
        · simp [hv]
        · simp [hv, key]
    rw [shape]
    refine Ends.run (by rw [h.phase]; decide) h.waiting (by simp [seqMove, h.call, h.phase])
      ((rowPreStop_post s).mono (fun _ _ h => h) fun _ h => h.waiting) fun t post => ?_
    obtain ⟨hl, hw, -, hi, -, hp, -⟩ := post
    have hct := hl.call.trans h.call
    obtain ⟨q1, q2, q3, q4⟩ := rowLoadFlags_stands m t
    refine Ends.next (t := rowLoadFlags m t) (by rw [hp]; decide) (hw.trans h.waiting)
      (by simp [seqMove, hct, hp, hi, hm]) ?_
    refine ends_loaded (s := rowLoadFlags m t) (fun u hu hui => ?_) hct (hw.trans h.waiting)
      (by rw [q2, hi]; exact hm) q3 q4 q1
    rw [q2, hi] at hui
    rcases rowEndMsg_stands hu with ⟨hlt, hs, hsi⟩ | ⟨hge, hs⟩
    · refine ih _ ?_ hs ?_
      · rintro rfl
        rw [List.drop_eq_nil_iff] at ht
        omega
      · rw [hsi, hui]
        exact ht
    · have : ms = [] := by
        rw [← ht, List.drop_eq_nil_iff]
        omega
      subst this
      exact ends_finish hs (.inl rfl)

end Sys2Proof.Machine
end

