-- ==== Sys2Proof/Laws/Step.lean ====
section
/-! SUPPORT. All that a step can be: the delivery of a pending event, an entry of the input that can reach the machine,
or the engine going on (spec R30, R253, R326, R330, R340). -/

namespace Sys2Proof.Machine

open Sys2Proof

/-- What is taken from the input can reach the machine, and nothing else of the input is lost or reordered: what stood
before it is held. -/
theorem nextArrival_some {s : State} {e h : Bool} {l rest : List Arrival} {a : Arrival}
    (hn : nextArrival s e h l = some (a, rest)) :
    a.ready s = true ∧ ∃ held later, l = held ++ a :: later ∧ rest = held ++ later := by
  induction l generalizing e h rest with
  | nil => cases hn
  | cons b l ih =>
    rw [nextArrival] at hn
    by_cases hr : ((if b.onEventPath then e else h) && b.ready s) = true
    · rw [if_pos hr] at hn
      cases hn
      simp only [Bool.and_eq_true] at hr
      exact ⟨hr.2, [], _, rfl, rfl⟩
    · rw [if_neg hr] at hn
      split at hn
      · cases hn
      · next c r hc =>
        cases hn
        obtain ⟨h1, held, later, h2, h3⟩ := ih hc
        exact ⟨h1, b :: held, later, by rw [h2]; rfl, by rw [h3]; rfl⟩

/-- When the first entry of the input can reach the machine, it is the one taken. -/
theorem nextArrival_head {s : State} {a : Arrival} (rest : List Arrival) (hr : a.ready s = true) :
    nextArrival s true true (a :: rest) = some (a, rest) := by
  rw [nextArrival, hr]
  simp

/-! ### The host's own accesses to the register file -/

@[simp] theorem hostReadReg_cfg (i : Nat) (s : State) : (hostReadReg i s).cfg = s.cfg := rfl
@[simp] theorem hostReadReg_eng (i : Nat) (s : State) : (hostReadReg i s).eng = s.eng := rfl
@[simp] theorem hostReadReg_tgt (i : Nat) (s : State) : (hostReadReg i s).tgt = s.tgt := rfl
@[simp] theorem hostReadReg_result (i : Nat) (s : State) :
    (hostReadReg i s).host.result = .okByte (s.tgt.file.read s.cfg.oobReadByte i) := rfl
@[simp] theorem hostWriteReg_cfg (i : Nat) (v : Byte) (s : State) : (hostWriteReg i v s).cfg = s.cfg := rfl
@[simp] theorem hostWriteReg_eng (i : Nat) (v : Byte) (s : State) : (hostWriteReg i v s).eng = s.eng := rfl
@[simp] theorem hostWriteReg_tgt (i : Nat) (v : Byte) (s : State) :
    (hostWriteReg i v s).tgt = { s.tgt with file := s.tgt.file.put i v } := rfl
@[simp] theorem hostWriteReg_result (i : Nat) (v : Byte) (s : State) : (hostWriteReg i v s).host.result = .ok := rfl

/-- All that a step can be. -/
theorem step_cases (s : State) :
    (deliverable s = true ∧ step s = deliver s) ∨
      (deliverable s = false ∧ nextArrival s true true s.host.input = none ∧ step s = engineStep s) ∨
      (deliverable s = false ∧ ∃ a rest, nextArrival s true true s.host.input = some (a, rest) ∧ a.ready s = true ∧
        step s = arrive a (withInput rest s)) := by
  unfold step machineStep
  cases hd : deliverable s with
  | true => exact .inl ⟨rfl, rfl⟩
  | false =>
    refine .inr ?_
    cases hn : nextArrival s true true s.host.input with
    | none => exact .inl ⟨rfl, rfl, by simp⟩
    | some p => exact .inr ⟨rfl, p.1, p.2, rfl, (nextArrival_some hn).1, by simp⟩

/-! ### The event-handling path alone reaches the responder -/

/-- The responder, its register file and the input stand as they were. -/
structure LeavesResponder (s t : State) : Prop where
  tgt : t.tgt = s.tgt
  input : t.host.input = s.host.input

theorem BusFrame.leaves {s t : State} (h : BusFrame s t) : LeavesResponder s t := ⟨h.tgt, h.input⟩

theorem toOutcome_leaves {r : Run Unit} {s t : State} (hr : r.Post (fun _ t => LeavesResponder s t) (LeavesResponder s))
    (h : toOutcome r = .next t) : LeavesResponder s t := (toOutcome_next hr h).elim id id

/-- A stop condition, the interrupt enable back, and a result. -/
theorem stopRow_leaves (s : State) (r : Ret) :
    ((busStop s).andThen fun s => .done () (setPhase .done (setResult r (leave s)))).Post
      (fun _ t => LeavesResponder s t) (LeavesResponder s) :=
  (busStop_post s).andThen (fun _ hu => hu.1.frame.leaves) fun u hu =>
    have h := (hu.1.1.frame.trans (leave_frame u)).leaves
    ⟨h.tgt, h.input⟩

theorem takeFailure_leaves (e : BusError) (s : State) :
    (takeFailure e s).Post (fun _ t => LeavesResponder s t) (LeavesResponder s) := by
  cases e with
  | arbitrationLost => exact ⟨(leave_frame (srpStopNoWait s)).tgt, (leave_frame (srpStopNoWait s)).input⟩
  | _ => exact stopRow_leaves s _

theorem rowCheck_leaves (c : Call) (s : State) :
    (rowCheck c s).Post (fun _ t => LeavesResponder s t) (LeavesResponder s) := by
  unfold rowCheck
  repeat' split
  · exact ⟨rfl, rfl⟩
  · exact ⟨rfl, rfl⟩
  · trivial
  · exact ⟨(enter_frame s).tgt, (enter_frame s).input⟩

/-- No row of R193 touches the responder or the input. -/
theorem seqMove_leaves {s t : State} (h : seqMove s = .next t) : LeavesResponder s t := by
  have rowEnd : ∀ {t : State}, Host.Outcome.next (rowEndMsg s) = (.next t : Host.Outcome State Fault Refusal) →
      LeavesResponder s t := fun h => by
    cases h
    unfold rowEndMsg
    split <;> exact ⟨rfl, rfl⟩
  unfold seqMove at h
  split at h
  · cases h
  · split at h
    · cases h; exact ⟨rfl, rfl⟩
    · exact toOutcome_leaves (rowCheck_leaves _ s) h
    · exact toOutcome_leaves ((rowPreStop_post s).mono (fun _ _ h => h.1.frame.leaves) fun _ h => h.loop.frame.leaves) h
    · split at h
      · cases h
      · cases h; exact ⟨rfl, rfl⟩
    · exact toOutcome_leaves ((rowCond_post s).mono (fun _ _ h => h.1.frame.leaves) fun _ h => h.loop.frame.leaves) h
    · exact toOutcome_leaves ((rowAddr_post _ s).mono (fun _ _ h => h.1.frame.leaves) fun _ h => h.1.frame.leaves) h
    · split at h
      · split at h
        · exact toOutcome_leaves ((rowSend_post _ s).mono (fun _ _ h => h.1.frame.leaves) fun _ h => h.1.frame.leaves) h
        · exact rowEnd h
      · cases h
      · cases h
    · split at h
      · split at h
        · exact toOutcome_leaves ((rowRecv_post _ s).mono (fun _ _ h => h.1.frame.leaves) fun _ h => h.1.frame.leaves) h
        · exact rowEnd h
      · cases h
      · cases h
    · exact toOutcome_leaves (stopRow_leaves s _) h
    · exact toOutcome_leaves (takeFailure_leaves _ s) h
    · cases h; exact ⟨rfl, rfl⟩

/-- No operation but an event or a callback touches the responder, its register file or the input (R43, R331). -/
theorem exec_leaves {i : Instr} (hi : i.onEventPath = false) {s t : State} (h : exec i s = .next t) :
    LeavesResponder s t := by
  by_cases h1 : isPrimitive i = true
  · obtain ⟨h1, h2⟩ := exec_primitive h1 h
    exact ⟨(h1.frame h2).tgt, (h1.frame h2).input⟩
  by_cases h2 : runsOnBus i = true
  · exact (exec_bus_frame h2 h).leaves
  cases i <;> first | exact absurd rfl h1 | exact absurd rfl h2 | (cases hi; done) | skip
  case configure m =>
    simp only [exec, execConfigure] at h
    split at h
    · cases h
    split at h
    · cases h
    · cases h
      unfold configureTransport
      cases s.cfg.backend <;> exact ⟨rfl, rfl⟩

/-- The engine going on touches neither. -/
theorem engineStep_leaves {s t : State} (h : engineStep s = .next t) : LeavesResponder s t := by
  unfold engineStep callStep at h
  split at h
  · cases h; exact ⟨rfl, rfl⟩
  split at h
  · cases h; exact ⟨rfl, rfl⟩
  split at h
  · cases h
  · split at h
    · next m _ => exact exec_leaves (by obtain ⟨_, _, _ | _⟩ := m <;> rfl) h
    · cases h
  · exact exec_leaves (by split <;> rfl) h
  all_goals exact seqMove_leaves h

/-- An operation of the input that is not of the event-handling path is none as an instruction. -/
theorem Arrival.word_onEventPath {w : List Byte} {i : Instr} (hd : decode .host w = .ok i) :
    (Arrival.word w).onEventPath = i.onEventPath := by
  simp only [Arrival.onEventPath, hd]

/-- An entry of the input that is not of the event-handling path changes nothing of the responder but, when the host's
normal flow writes an entry of the register file, that file; it leaves the rest of the input as it is. -/
theorem arrive_leaves {a : Arrival} (ha : a.onEventPath = false) {s t : State} (h : arrive a s = .next t) :
    LeavesResponder s t ∨ ∃ i v, a = .writeReg i v ∧ t = hostWriteReg i v s := by
  cases a with
  | word w =>
    simp only [arrive] at h
    cases hd : decode .host w with
    | error x => rw [hd] at h; cases h
    | ok i =>
      rw [hd] at h
      exact .inl (exec_leaves ((Arrival.word_onEventPath hd).symm.trans ha) h)
  | together es => cases ha
  | mask en => cases h; exact .inl ⟨rfl, rfl⟩
  | readReg i => cases h; exact .inl ⟨rfl, rfl⟩
  | writeReg i v => cases h; exact .inr ⟨i, v, rfl, rfl⟩

/-- A step that an entry of the input makes, when it is the first. -/
theorem step_arrive {s : State} {a : Arrival} {rest : List Arrival} (hd : deliverable s = false)
    (hi : s.host.input = a :: rest) (hr : a.ready s = true) : step s = arrive a (withInput rest s) := by
  unfold step machineStep
  rw [hd, hi, nextArrival_head rest hr]
  simp

/-- A step with nothing new from outside. -/
theorem step_engine {s : State} (hd : deliverable s = false) (hi : s.host.input = []) : step s = engineStep s := by
  unfold step machineStep
  rw [hd, hi]
  simp [nextArrival]

end Sys2Proof.Machine
end

