-- ==== Sys2Proof/Laws/Wire.lean ====
section
/-! SUPPORT. The wire operations, and the peripheral's commands, where the environment lets them complete: the state each
leaves, written out (spec R131 to R141, R212 to R215). -/

namespace Sys2Proof.Machine

open Sys2Proof

theorem WireReady.free {s : State} (h : WireReady s) : (setResult .none s).line.free := h.2

/-- The state with a line and a result after a wire operation that touches nothing else. -/
def lineResult (l : Line) (r : Ret) (s : State) : State := setResult r (withLine l (setResult .none s))

@[simp] theorem lineResult_line (l : Line) (r : Ret) (s : State) : (lineResult l r s).line = l := rfl

variable {s : State}

theorem exec_setClock_ready (h : WireReady s) (v : Bool) :
    exec (.setClock v) s = .next (lineResult (s.line.ck s.cfg v) .ok s) := by
  simp only [exec, execSetClock]
  rw [onBackend_eq _ h.1, setClock_run v h.free]
  rfl

theorem exec_setData_ready (h : WireReady s) (v : Bool) :
    exec (.setData v) s = .next (lineResult (s.line.da s.cfg v) .ok s) := by
  simp only [exec, execSetData]
  rw [onBackend_eq _ h.1, setData_run v h.free]
  rfl

theorem exec_readData_ready (h : WireReady s) :
    exec .readData s = .next (lineResult (Line.move s.cfg s.line) (.okLevel (Line.move s.cfg s.line).sda) s) := by
  simp only [exec, execReadData]
  rw [onBackend_eq _ h.1, readData_run h.free]
  rfl

theorem exec_readClock_ready (h : WireReady s) :
    exec .readClock s =
      .next (lineResult (Line.move s.cfg s.line) (.okLevel ((Line.move s.cfg s.line).scl s.cfg)) s) := by
  simp only [exec, execReadClock]
  rw [onBackend_eq _ h.1, readClock_run h.free]
  rfl

theorem exec_start_ready (h : WireReady s) :
    exec .start s = .next (emit .start (setBus .midTransaction
      (lineResult ((s.line.da s.cfg false).ck s.cfg false) .ok s))) := by
  simp only [exec, execStart]
  rw [onBackend_eq _ h.1, wireStart_run h.free]
  rfl

theorem exec_rstart_ready (h : WireReady s) :
    exec .rstart s = .next (setBus .midTransaction (emit (restartSym s.eng.bus)
      (lineResult ((((s.line.da s.cfg true).ck s.cfg true).da s.cfg false).ck s.cfg false) .ok s))) := by
  simp only [exec, execRstart]
  rw [onBackend_eq _ h.1, wireRstart_run h.free]
  rfl

theorem exec_stop_ready (h : WireReady s) :
    exec .stop s = .next (emit .stop (setBus .idle
      (lineResult ((((s.line.ck s.cfg false).da s.cfg false).ck s.cfg true).da s.cfg true) .ok s))) := by
  simp only [exec, execStop]
  rw [onBackend_eq _ h.1, wireStop_run h.free]
  rfl

theorem exec_writeBit_ready (h : WireReady s) (b : Bool) :
    exec (.writeBit b) s = .next (lineResult (s.line.bit s.cfg b) .ok s) := by
  simp only [exec, execWriteBit]
  rw [onBackend_eq _ h.1, writeBit_run b h.free]
  rfl

theorem exec_readBit_ready (h : WireReady s) :
    exec .readBit s = .next (lineResult (s.line.readbit s.cfg) (.okLevel (s.line.sample s.cfg)) s) := by
  simp only [exec, execReadBit]
  rw [onBackend_eq _ h.1, readBit_run h.free]
  rfl

theorem exec_sendByte_ready (h : WireReady s) (b : Byte) :
    exec (.sendByte b) s = .next
      (emit (.tx b (!(s.line.bits s.cfg b 8).sample s.cfg)) (setAcked (!(s.line.bits s.cfg b 8).sample s.cfg)
        (setSlot .ack (setSr b (lineResult ((s.line.bits s.cfg b 8).readbit s.cfg)
          (.okLevel (!(s.line.bits s.cfg b 8).sample s.cfg)) s))))) := by
  simp only [exec, execSendByte]
  rw [onBackend_eq _ h.1, wireSendByte_run b h.free]
  simp only [finishWith, setResult_cfg, setResult_line]
  generalize s.line.bits s.cfg b 8 = l
  rfl

theorem exec_recvByte_ready (h : WireReady s) (ack : Bool) :
    exec (.recvByte ack) s = .next
      (emit (.rx (s.line.receive s.cfg 8 0).1 ack) (setSlot .ack (setSr (s.line.receive s.cfg 8 0).1
        (lineResult ((s.line.receive s.cfg 8 0).2.bit s.cfg (!ack)) (.okByte (s.line.receive s.cfg 8 0).1) s)))) := by
  simp only [exec, execRecvByte]
  rw [onBackend_eq _ h.1, wireRecvByte_run ack h.free]
  simp only [finishWith, setResult_cfg, setResult_line]
  generalize s.line.receive s.cfg 8 0 = r
  rfl

/-- The peripheral's answer ends the wait (R211). -/
theorem waitDone_answer {s : State} {latch : SrpAnswer → Srp → Srp} {a : SrpAnswer} {rest : List SrpAnswer}
    (hd : s.srp.done = false) (he : s.srp.env = a :: rest) :
    waitDone latch s = .done () { s with srp := latch a { s.srp with env := rest, done := false } } := by
  unfold waitDone
  rw [hd, he]
  rfl

/-- No answer ever comes (R315). -/
theorem waitDone_silent {s : State} {latch : SrpAnswer → Srp → Srp} (hd : s.srp.done = false) (he : s.srp.env = []) :
    waitDone latch s = hangOn .peripheralDone s := by
  unfold waitDone
  rw [hd, he]
  rfl

/-- The state a command's answer leaves: the wait over, the command recorded. -/
def answered (c : SrpCmd) (f : Srp → Srp) (rest : List SrpAnswer) (s : State) : State :=
  { s with srp := f { s.srp with cmds := s.srp.cmds ++ [c], env := rest, done := false } }

section
variable {s : State} {a : SrpAnswer} {rest : List SrpAnswer} (hb : s.cfg.backend = .peripheral)
  (hd : s.srp.done = false) (he : s.srp.env = a :: rest)
include hb hd he

theorem exec_pStart_answer :
    exec .pStart s = .next (setBus .midTransaction (emit (if s.srp.lctlOpen then .rstart else .start)
      (setArbLost a.arbLost (setResult .ok
        (answered .start (fun r => { r with arbLost := a.arbLost, lctlOpen := true, afterStart := true }) rest s))))) := by
  simp only [exec, execPStart]
  rw [onBackend_eq _ hb]
  obtain ⟨_, _, _, _, ⟨_, _, _, _, _, _, _, _, _, _, _⟩, _, _⟩ := s
  dsimp only at hd he
  subst hd he
  rfl

theorem exec_pWrite_answer (b : Byte) :
    exec (.pWrite b) s = .next (emit (.tx b (!a.rxAck)) (setAcked (!a.rxAck) (setArbLost (arbAfterByte a s.srp)
      (setResult (.okLevel (!a.rxAck)) (answered (.write b)
        (fun r => { r with
          data := b, arbLost := arbAfterByte a s.srp, rxAck := a.rxAck, afterStart := false }) rest s))))) := by
  simp only [exec, execPWrite]
  rw [onBackend_eq _ hb]
  obtain ⟨_, _, _, _, ⟨_, _, _, _, _, _, _, _, _, _, _⟩, _, _⟩ := s
  dsimp only at hd he
  subst hd he
  rfl

theorem exec_pRead_answer (ack : Bool) :
    exec (.pRead ack) s = .next (emit (.rx a.data ack) (setArbLost (arbAfterByte a s.srp)
      (setResult (.okByte a.data) (answered (.read ack)
        (fun r => { r with
          ackNext := ack, arbLost := arbAfterByte a s.srp, data := a.data, afterStart := false }) rest s)))) := by
  simp only [exec, execPRead]
  rw [onBackend_eq _ hb]
  obtain ⟨_, _, _, _, ⟨_, _, _, _, _, _, _, _, _, _, _⟩, _, _⟩ := s
  dsimp only at hd he
  subst hd he
  rfl

theorem exec_pStop_answer :
    exec .pStop s = .next (emit .stop (setBus .idle (setResult .ok
      (answered .stop (fun r => { r with lctlOpen := false }) rest s)))) := by
  simp only [exec, execPStop]
  rw [onBackend_eq _ hb]
  obtain ⟨_, _, _, _, ⟨_, _, _, _, _, _, _, _, _, _, _⟩, _, _⟩ := s
  dsimp only at hd he
  subst hd he
  rfl

end

/-- `CONFIGURE` on an unconfigured bus (R180). -/
theorem exec_configure_fresh {s : State} (m : Mode) (h : s.eng.configured = false)
    (ho : s.cfg.backend = .bitBang → OneController s) :
    exec (.configure m) s = .next (setResult .ok { configureTransport m s with
      eng := { (configureTransport m s).eng with mode := m, bus := .idle, configured := true, trace := [] } }) := by
  have hn : (decide (s.cfg.backend = .bitBang) && s.line.foreign) = false := by
    by_cases hb : s.cfg.backend = .bitBang
    · rw [ho hb, Bool.and_false]
    · simp [hb]
  simp only [exec, execConfigure, h, hn]
  rfl

/-! ## Lines that nothing outside moves -/

/-- `QuietLines` as a property of the lines. -/
def Line.quiet (cfg : Params) (l : Line) : Prop :=
  l.env = [] ∧ l.ext = Ext.released ∧ l.lines.getLast? = some (l.level cfg)

theorem Line.level_released (cfg : Params) {l : Line} (h : l.ext = Ext.released) :
    l.level cfg = ⟨l.sclOut, l.sdaOut⟩ := by
  unfold Line.level Line.scl Line.sda Line.released
  rw [h]
  cases l.drive <;> simp [Ext.released]

theorem Line.record_lines (cfg : Params) (l : Line) :
    (Line.record cfg l).lines =
      if l.lines.getLast? = some (l.level cfg) then l.lines else l.lines ++ [l.level cfg] := by
  unfold Line.record
  split <;> rfl

/-- A line driven to other levels and recorded stays quiet, and records them when they differ. -/
theorem Line.quiet_record {cfg : Params} {l m : Line} (h : l.quiet cfg) (he : m.env = []) (hx : m.ext = Ext.released)
    (hl : m.lines = l.lines) :
    (Line.record cfg m).quiet cfg ∧ (Line.record cfg m).lines =
      l.lines ++ (if l.sclOut = m.sclOut ∧ l.sdaOut = m.sdaOut then [] else [⟨m.sclOut, m.sdaOut⟩]) := by
  obtain ⟨h1, h2, h3⟩ := h
  have hlev := Line.level_released cfg hx
  rw [Line.level_released cfg h2] at h3
  have hlines : (Line.record cfg m).lines =
      l.lines ++ (if l.sclOut = m.sclOut ∧ l.sdaOut = m.sdaOut then [] else [⟨m.sclOut, m.sdaOut⟩]) := by
    rw [Line.record_lines, hlev, hl, h3]
    by_cases hs : l.sclOut = m.sclOut ∧ l.sdaOut = m.sdaOut
    · simp [hs]
    · simp [hs]
  refine ⟨⟨by simp [he], by simp [hx], ?_⟩, hlines⟩
  have hd := Line.record_drive cfg m
  rw [Line.level_released cfg (by simp [hx]), hlines, hd.1, hd.2]
  by_cases hs : l.sclOut = m.sclOut ∧ l.sdaOut = m.sdaOut
  · simp [hs, h3]
  · simp [hs]

theorem Line.quiet_da {cfg : Params} {l : Line} (h : l.quiet cfg) (v : Bool) :
    (l.da cfg v).quiet cfg ∧ (l.da cfg v).lines = l.lines ++ (if l.sdaOut = v then [] else [⟨l.sclOut, v⟩]) := by
  rw [Line.da, Line.move_still cfg h.1, Line.driveData]
  simpa using Line.quiet_record (m := { l with sdaOut := v }) h h.1 h.2.1 rfl

/-- With the script over a clock edge is the engine's write alone. -/
theorem Line.ck_still {cfg : Params} {l : Line} (h : l.env = []) (v : Bool) : l.ck cfg v = Line.driveClock cfg v l := by
  unfold Line.ck
  rw [Line.move_still cfg h, Line.move_still cfg (l := Line.driveClock cfg v l) (by simpa using h)]
  split <;> rfl

theorem Line.quiet_ck {cfg : Params} {l : Line} (h : l.quiet cfg) (v : Bool) :
    (l.ck cfg v).quiet cfg ∧ (l.ck cfg v).lines = l.lines ++ (if l.sclOut = v then [] else [⟨v, l.sdaOut⟩]) := by
  rw [Line.ck_still h.1, Line.driveClock]
  simpa using Line.quiet_record (m := { l with sclOut := v }) h h.1 h.2.1 rfl

/-- One bit on quiet lines with the clock low. -/
theorem Line.quiet_bit {cfg : Params} {l : Line} (h : l.quiet cfg) (v : Bool) (hc : l.sclOut = false) :
    (l.bit cfg v).quiet cfg ∧ (l.bit cfg v).lines =
      l.lines ++ ((if l.sdaOut = v then [] else [⟨false, v⟩]) ++ [⟨true, v⟩, ⟨false, v⟩]) := by
  obtain ⟨q1, e1⟩ := Line.quiet_da h v
  obtain ⟨q2, e2⟩ := Line.quiet_ck q1 true
  obtain ⟨q3, e3⟩ := Line.quiet_ck q2 false
  refine ⟨q3, ?_⟩
  show (((l.da cfg v).ck cfg true).ck cfg false).lines = _
  rw [e3, e2, e1]
  simp [hc]

/-! ## Lines whose script is over -/

/-- With its script over the outside's drive stands. -/
def Line.still (l m : Line) : Prop := m.env = [] ∧ m.ext = l.ext

theorem Line.still_da {cfg : Params} {l : Line} (h : l.env = []) (v : Bool) : l.still (l.da cfg v) := by
  rw [Line.da, Line.move_still cfg h]
  exact ⟨by simpa using h, by simp⟩

theorem Line.still_ck {cfg : Params} {l : Line} (h : l.env = []) (v : Bool) : l.still (l.ck cfg v) := by
  rw [Line.ck_still h]
  exact ⟨by simpa using h, by simp⟩

theorem Line.still_bit {cfg : Params} {l : Line} (h : l.env = []) (v : Bool) : l.still (l.bit cfg v) := by
  obtain ⟨a, b⟩ := Line.still_da (cfg := cfg) h v
  obtain ⟨c, d⟩ := Line.still_ck (cfg := cfg) a true
  obtain ⟨e, f⟩ := Line.still_ck (cfg := cfg) c false
  exact ⟨e, f.trans (d.trans b)⟩

theorem Line.top_still {cfg : Params} {l : Line} (h : l.env = []) : l.top cfg = (l.da cfg true).ck cfg true :=
  Line.move_still cfg (Line.still_ck (Line.still_da h true).1 true).1

theorem Line.readbit_still {cfg : Params} {l : Line} (h : l.env = []) : l.readbit cfg = l.bit cfg true := by
  rw [Line.readbit, Line.top_still h]
  rfl

theorem Line.sample_still {cfg : Params} {l : Line} (h : l.env = []) : l.sample cfg = l.ext.sda := by
  obtain ⟨a, b⟩ := Line.still_da (cfg := cfg) h true
  obtain ⟨-, d⟩ := Line.still_ck (cfg := cfg) a true
  unfold Line.sample
  rw [Line.top_still h, Line.sda, d, b]
  simp

theorem Line.still_bits {cfg : Params} {b : Byte} {n : Nat} {l : Line} (h : l.env = []) : l.still (l.bits cfg b n) := by
  induction n generalizing l with
  | zero => exact ⟨h, rfl⟩
  | succ n ih =>
    obtain ⟨a, c⟩ := Line.still_bit (cfg := cfg) h (b.getLsbD n)
    obtain ⟨d, e⟩ := ih a
    exact ⟨d, e.trans c⟩

end Sys2Proof.Machine
end

