-- ==== Sys2Proof/Laws/Stretch.lean ====
section
/-! SUPPORT. How the wire primitives end, whatever is on the lines: they complete, wait for a clock held low to the end
of the outside's script, or meet a push-pull contention (spec R130, R131, R145, R315). -/

namespace Sys2Proof.Machine

open Sys2Proof

variable {α β : Type}

/-- No second controller, as a property of the lines that an instant keeps. -/
def Line.alone (l : Line) : Prop := l.ext.other = false ∧ ∀ es ∈ l.env, ∀ e ∈ es, e.other = false

theorem Line.alone_iff (l : Line) : l.foreign = false ↔ l.alone := by
  simp only [Line.foreign, List.any_eq_false, List.mem_cons, List.mem_flatten, Line.alone]
  constructor
  · exact fun h => ⟨by simpa using h l.ext (.inl rfl), fun es hes e he => by simpa using h e (.inr ⟨es, hes, he⟩)⟩
  · rintro h e (rfl | ⟨es, hes, he⟩)
    · simp [h.1]
    · simp [h.2 es hes e he]

theorem Line.play_alone (cfg : Params) {es : List Ext} {l : Line} (h : l.alone) (he : ∀ e ∈ es, e.other = false) :
    (Line.play cfg es l).alone := by
  obtain ⟨-, h2, h3⟩ := Line.play_spec cfg es l
  refine ⟨?_, by rw [h2]; exact h.2⟩
  rw [h3]
  cases hl : es.getLast? with
  | none => exact h.1
  | some e => exact he e (List.mem_of_getLast? hl)

theorem Line.move_alone (cfg : Params) {l : Line} (h : l.alone) : (Line.move cfg l).alone := by
  unfold Line.move
  split
  · exact h
  · next es rest hv =>
    exact Line.play_alone cfg ⟨h.1, fun xs hx => h.2 xs (by rw [hv]; exact List.mem_cons_of_mem _ hx)⟩
      (h.2 es (by rw [hv]; exact List.mem_cons_self))

theorem Line.poll_alone (cfg : Params) (es : List (List Ext)) (l : Line) (h : l.ext.other = false)
    (he : ∀ xs ∈ es, ∀ e ∈ xs, e.other = false) : (Line.poll cfg es l).1.alone := by
  induction es generalizing l with
  | nil => exact ⟨h, fun _ hx => nomatch hx⟩
  | cons e es ih =>
    have h0 : (Line.play cfg e { l with env := es }).alone :=
      Line.play_alone cfg ⟨h, fun xs hx => he xs (List.mem_cons_of_mem _ hx)⟩ (he e List.mem_cons_self)
    rw [Line.poll]
    split
    · exact h0
    · exact ih _ h0.1 fun xs hx => he xs (List.mem_cons_of_mem _ hx)

/-- Where a primitive of a machine `c` in drive discipline `d` can stand: at work, with no second controller. -/
def AtWork (c : Params) (d : Drive) (s : State) : Prop :=
  s.cfg = c ∧ s.line.drive = d ∧ s.eng.waiting = none ∧ s.host.result = .none ∧ s.line.alone

/-- Where it can wait for ever (R131, R315). -/
def Stretched (c : Params) (s : State) : Prop :=
  s.eng.waiting = some .sclRelease ∧ s.host.result = .none ∧ s.line.sclOut = true ∧ s.line.scl c = false ∧
    s.line.env = []

/-- How a wire primitive ends in drive discipline `d`. -/
def Run.WireEnds (c : Params) (d : Drive) (r : Run α) : Prop :=
  match r with
  | .done _ s => AtWork c d s
  | .hang s => d = .openDrain ∧ Stretched c s
  | .refuse x => d = .pushPull ∧ x = .pushPullContention

theorem Run.WireEnds.bind {c : Params} {d : Drive} {r : Run α} {f : α → State → Run β} (h : r.WireEnds c d)
    (hf : ∀ a s, AtWork c d s → (f a s).WireEnds c d) : (r.bind f).WireEnds c d := by
  cases r with
  | done a s => exact hf a s h
  | hang s => exact h
  | refuse x => exact h

theorem Run.WireEnds.andThen {c : Params} {d : Drive} {r : Run Unit} {f : State → Run β} (h : r.WireEnds c d)
    (hf : ∀ s, AtWork c d s → (f s).WireEnds c d) : (r.andThen f).WireEnds c d := h.bind fun _ => hf

/-- A poll that does not see the line high has come to the end of the script with the line low (R131). -/
theorem Line.poll_low (cfg : Params) (es : List (List Ext)) (l : Line) (h : (Line.poll cfg es l).2 = false) :
    (Line.poll cfg es l).1.env = [] ∧ (Line.poll cfg es l).1.scl cfg = false := by
  induction es generalizing l with
  | nil => exact ⟨rfl, h⟩
  | cons e es ih =>
    rw [Line.poll] at h ⊢
    split
    · next hs => rw [if_pos hs] at h; cases h
    · next hs => rw [if_neg hs] at h; exact ih _ h

theorem instant_ends {c : Params} {d : Drive} {s : State} (h : AtWork c d s) : (instant s).WireEnds c d := by
  rcases instant_cases s with ⟨hf, -⟩ | ⟨-, hd, -, hr⟩ | ⟨-, hr⟩
  · rw [(Line.alone_iff _).2 h.2.2.2.2] at hf; cases hf
  · rw [hr]; exact ⟨h.2.1.symm.trans hd, rfl⟩
  · rw [hr]; exact ⟨h.1, by simpa using h.2.1, h.2.2.1, h.2.2.2.1, Line.move_alone _ h.2.2.2.2⟩

theorem setData_ends {c : Params} {d : Drive} (v : Bool) {s : State} (h : AtWork c d s) : (setData v s).WireEnds c d :=
  (instant_ends h).andThen fun _ h =>
    ⟨h.1, by simpa using h.2.1, h.2.2.1, h.2.2.2.1, by simpa [Line.alone] using h.2.2.2.2⟩

theorem readData_ends {c : Params} {d : Drive} {s : State} (h : AtWork c d s) : (readData s).WireEnds c d :=
  (instant_ends h).andThen fun _ h => h

theorem readClock_ends {c : Params} {d : Drive} {s : State} (h : AtWork c d s) : (readClock s).WireEnds c d :=
  (instant_ends h).andThen fun _ h => h

theorem setClock_ends {c : Params} {d : Drive} (v : Bool) {s : State} (h : AtWork c d s) :
    (setClock v s).WireEnds c d := by
  refine (instant_ends h).andThen fun s h => ?_
  obtain ⟨h1, h2, h3, h4, h5⟩ := h
  have ha : (Line.driveClock s.cfg v s.line).alone := by simpa [Line.alone] using h5
  have hp := Line.poll_spec s.cfg (Line.driveClock s.cfg v s.line).env (Line.driveClock s.cfg v s.line)
  have hl := Line.poll_low s.cfg (Line.driveClock s.cfg v s.line).env (Line.driveClock s.cfg v s.line)
  have hq := Line.poll_alone s.cfg (Line.driveClock s.cfg v s.line).env (Line.driveClock s.cfg v s.line) ha.1 ha.2
  dsimp only
  split
  · next hc =>
    simp only [Line.fought, Bool.and_eq_true, decide_eq_true_eq, Line.driveClock_drive] at hc
    exact ⟨h2.symm.trans hc.1.1, rfl⟩
  · split
    · next hv =>
      simp only [Line.driveClock_drive, Bool.and_eq_true, decide_eq_true_eq] at hv
      split
      · next l he =>
        rw [he] at hp hq
        exact ⟨h1, hp.1.drive.trans (by simpa using h2), h3, h4, hq⟩
      · next l he =>
        rw [he] at hp hl
        obtain ⟨k1, k2⟩ := hl rfl
        exact ⟨h2.symm.trans hv.2, rfl, h4, hp.1.sclOut.trans (by simpa using hv.1), by rw [← h1]; exact k2, k1⟩
    · exact ⟨h1, by simpa using h2, h3, h4, ha⟩

/-- A falling clock edge never waits (R145). -/
theorem setClock_low {c : Params} {d : Drive} {s : State} (h : AtWork c d s) :
    (setClock false s).Post (fun _ t => AtWork c d t) fun _ => False := by
  have he := setClock_ends false h
  cases hr : setClock false s with
  | done a t => rw [hr] at he; exact he
  | refuse x => trivial
  | hang t =>
    unfold setClock at hr
    rcases instant_cases s with ⟨-, hi⟩ | ⟨-, -, -, hi⟩ | ⟨-, hi⟩ <;> rw [hi] at hr
    · cases hr
    · cases hr
    · simp only [Run.andThen_done, Bool.false_and, Bool.false_eq_true, if_false] at hr
      split at hr <;> cases hr

/-- The instant before an action never waits. -/
theorem instant_low {c : Params} {d : Drive} {s : State} (h : AtWork c d s) :
    (instant s).Post (fun _ t => AtWork c d t) fun _ => False := by
  have he := instant_ends h
  rcases instant_cases s with ⟨-, hi⟩ | ⟨-, -, -, hi⟩ | ⟨-, hi⟩ <;> rw [hi] at he ⊢
  · trivial
  · trivial
  · exact he

/-- A write of the data line never waits. -/
theorem setData_low {c : Params} {d : Drive} (v : Bool) {s : State} (h : AtWork c d s) :
    (setData v s).Post (fun _ t => AtWork c d t) fun _ => False :=
  (instant_low h).andThen (fun _ h => h) fun _ h =>
    ⟨h.1, by simpa using h.2.1, h.2.2.1, h.2.2.2.1, by simpa [Line.alone] using h.2.2.2.2⟩

/-- `start()` never waits (R145). -/
theorem wireStart_low {c : Params} {d : Drive} {s : State} (h : AtWork c d s) :
    (wireStart s).Post (fun _ t => AtWork c d t) fun _ => False :=
  (setData_low false h).andThen (fun _ h => h) fun _ h => (setClock_low h).andThen (fun _ h => h) fun _ h => h

theorem delayQ_ends {c : Params} {d : Drive} {s : State} (h : AtWork c d s) : (delayQ s).WireEnds c d := h

theorem delayH_ends {c : Params} {d : Drive} {s : State} (h : AtWork c d s) : (delayH s).WireEnds c d := h

theorem wireStart_ends {c : Params} {d : Drive} {s : State} (h : AtWork c d s) : (wireStart s).WireEnds c d :=
  (setData_ends false h).andThen fun _ h => (delayQ_ends h).andThen fun _ h => (setClock_ends false h).andThen fun _ h =>
    (delayQ_ends h).andThen fun _ h => h

theorem wireRstart_ends {c : Params} {d : Drive} {s : State} (h : AtWork c d s) : (wireRstart s).WireEnds c d :=
  (setData_ends true h).andThen fun _ h => (delayQ_ends h).andThen fun _ h => (setClock_ends true h).andThen fun _ h =>
    (delayQ_ends h).andThen fun _ h => (setData_ends false h).andThen fun _ h => (delayQ_ends h).andThen fun _ h =>
    (setClock_ends false h).andThen fun _ h => (delayQ_ends h).andThen fun _ h => h

theorem wireStop_ends {c : Params} {d : Drive} {s : State} (h : AtWork c d s) : (wireStop s).WireEnds c d :=
  (setClock_ends false h).andThen fun _ h => (setData_ends false h).andThen fun _ h => (delayQ_ends h).andThen fun _ h =>
    (setClock_ends true h).andThen fun _ h => (delayQ_ends h).andThen fun _ h => (setData_ends true h).andThen fun _ h =>
    (delayH_ends h).andThen fun _ h => h

theorem writeBit_ends {c : Params} {d : Drive} (b : Bool) {s : State} (h : AtWork c d s) : (writeBit b s).WireEnds c d :=
  (setData_ends b h).andThen fun _ h => (delayQ_ends h).andThen fun _ h => (setClock_ends true h).andThen fun _ h =>
    (delayH_ends h).andThen fun _ h => (setClock_ends false h).andThen fun _ h => h

theorem readBit_ends {c : Params} {d : Drive} {s : State} (h : AtWork c d s) : (readBit s).WireEnds c d :=
  (setData_ends true h).andThen fun _ h => (delayQ_ends h).andThen fun _ h => (setClock_ends true h).andThen fun _ h =>
    (delayH_ends h).andThen fun _ h => (readData_ends h).bind fun _ _ h => (setClock_ends false h).andThen fun _ h =>
    (delayQ_ends h).andThen fun _ h => h

theorem writeBits_ends {c : Params} {d : Drive} (b : Byte) (n : Nat) {s : State} (h : AtWork c d s) :
    (writeBits b n s).WireEnds c d := by
  induction n generalizing s with
  | zero => exact h
  | succ n ih => exact (writeBit_ends _ (s := setSlot (.bit (Fin.ofNat 8 n)) s) h).andThen fun _ h => ih h

theorem readBits_ends {c : Params} {d : Drive} (n : Nat) {s : State} (h : AtWork c d s) :
    (readBits n s).WireEnds c d := by
  induction n generalizing s with
  | zero => exact h
  | succ n ih =>
    exact (readBit_ends (s := setSlot (.bit (Fin.ofNat 8 n)) s) h).bind fun v t h =>
      ih (s := setSr (t.eng.sr ||| ((BitVec.ofBool v).setWidth 8 <<< n)) t) h

theorem wireSendByte_ends {c : Params} {d : Drive} (b : Byte) {s : State} (h : AtWork c d s) :
    (wireSendByte b s).WireEnds c d :=
  (writeBits_ends b 8 (s := setSr b s) h).andThen fun t h => (readBit_ends (s := setSlot .ack t) h).bind fun _ _ h => h

theorem wireRecvByte_ends {c : Params} {d : Drive} (ack : Bool) {s : State} (h : AtWork c d s) :
    (wireRecvByte ack s).WireEnds c d :=
  (readBits_ends 8 (s := setSr 0 s) h).andThen fun t h =>
    (writeBit_ends (!ack) (s := setSlot .ack t) h).andThen fun _ h => h

/-- A wire operation as a step (R130, R315): it returns, waits for ever, or meets the contention. -/
theorem onBackend_ends {c : Params} {d : Drive} {s : State} {f : State → Run α} (ret : α → State → Ret)
    (hb : s.cfg.backend = .bitBang) (hf : (f (setResult .none s)).WireEnds c d) :
    (d = .openDrain → ∃ t, onBackend .bitBang s (fun s => finishWith ret (f s)) = .next t ∧
        (t.eng.waiting = none ∨ Stretched c t)) ∧
      (d = .pushPull → (∃ t, onBackend .bitBang s (fun s => finishWith ret (f s)) = .next t ∧ t.eng.waiting = none) ∨
        onBackend .bitBang s (fun s => finishWith ret (f s)) = .refused .pushPullContention) := by
  rw [onBackend_eq _ hb]
  cases hr : f (setResult .none s) with
  | done a t =>
    rw [hr] at hf
    exact ⟨fun _ => ⟨_, rfl, .inl hf.2.2.1⟩, fun _ => .inl ⟨_, rfl, hf.2.2.1⟩⟩
  | hang t =>
    rw [hr] at hf
    exact ⟨fun _ => ⟨_, rfl, .inr hf.2⟩, fun h => nomatch hf.1.symm.trans h⟩
  | refuse x =>
    rw [hr] at hf
    obtain ⟨h, rfl⟩ := hf
    exact ⟨fun e => (nomatch h.symm.trans e), fun _ => .inr rfl⟩

/-- One that never waits returns. -/
theorem onBackend_low {s t : State} {f : State → Run α} (ret : α → State → Ret) (hb : s.cfg.backend = .bitBang)
    (hf : (f (setResult .none s)).Post (fun _ t => t.eng.waiting = none) fun _ => False)
    (h : onBackend .bitBang s (fun s => finishWith ret (f s)) = .next t) : t.eng.waiting = none := by
  rw [onBackend_eq _ hb] at h
  cases hr : f (setResult .none s) with
  | done a u => rw [hr] at hf h; cases h; exact hf
  | hang u => rw [hr] at hf; exact hf.elim
  | refuse x => rw [hr] at h; cases h

/-! ## What a wire operation has done when it returns, whatever the lines did meanwhile -/

theorem Run.Post.and {r : Run α} {D E : α → State → Prop} {H K : State → Prop} (h : r.Post D H) (g : r.Post E K) :
    r.Post (fun a s => D a s ∧ E a s) fun s => H s ∧ K s := by
  cases r with
  | done a s => exact ⟨h, g⟩
  | hang s => exact ⟨h, g⟩
  | refuse x => trivial

/-- The controller's drive of the two lines. -/
def Outs (c d : Bool) (s : State) : Prop := s.line.sclOut = c ∧ s.line.sdaOut = d

/-- The cells of the engine that a condition leaves alone (R135 to R137). -/
def ByteCells (s t : State) : Prop := t.eng.acked = s.eng.acked ∧ t.eng.sr = s.eng.sr ∧ t.eng.seq = s.eng.seq

theorem LinesOnly.byteCells {s t : State} (h : LinesOnly s t) : ByteCells s t := by
  unfold ByteCells
  rw [h.2]
  exact ⟨rfl, rfl, rfl⟩

section
variable {s : State} (hb : s.cfg.backend = .bitBang)
include hb

theorem wireStart_cells : (wireStart s).Post (fun _ t => ByteCells s t) fun _ => True :=
  (setData_lines false hb (LinesOnly.refl s)).andThen (fun _ _ => trivial) fun _ h1 =>
    (setClock_lines false hb h1.1).andThen (fun _ _ => trivial) fun _ h2 => h2.1.byteCells

theorem wireRstart_cells : (wireRstart s).Post (fun _ t => ByteCells s t) fun _ => True :=
  (setData_lines true hb (LinesOnly.refl s)).andThen (fun _ _ => trivial) fun _ h1 =>
    (setClock_lines true hb h1.1).andThen (fun _ _ => trivial) fun _ h2 =>
    (setData_lines false hb h2.1).andThen (fun _ _ => trivial) fun _ h3 =>
    (setClock_lines false hb h3.1).andThen (fun _ _ => trivial) fun _ h4 => h4.1.byteCells

theorem wireStop_cells : (wireStop s).Post (fun _ t => ByteCells s t) fun _ => True :=
  (setClock_lines false hb (LinesOnly.refl s)).andThen (fun _ _ => trivial) fun _ h1 =>
    (setData_lines false hb h1.1).andThen (fun _ _ => trivial) fun _ h2 =>
    (setClock_lines true hb h2.1).andThen (fun _ _ => trivial) fun _ h3 =>
    (setData_lines true hb h3.1).andThen (fun _ _ => trivial) fun _ h4 => h4.1.byteCells

theorem wireStart_outs : (wireStart s).Post (fun _ t => Outs false false t) fun _ => True :=
  (setData_lines false hb (LinesOnly.refl s)).andThen (fun _ _ => trivial) fun _ h1 =>
    (setClock_lines false hb h1.1).andThen (fun _ _ => trivial) fun _ h2 => ⟨h2.2.1, h2.2.2.trans h1.2.1⟩

theorem wireRstart_outs : (wireRstart s).Post (fun _ t => Outs false false t) fun _ => True :=
  (setData_lines true hb (LinesOnly.refl s)).andThen (fun _ _ => trivial) fun _ h1 =>
    (setClock_lines true hb h1.1).andThen (fun _ _ => trivial) fun _ h2 =>
    (setData_lines false hb h2.1).andThen (fun _ _ => trivial) fun _ h3 =>
    (setClock_lines false hb h3.1).andThen (fun _ _ => trivial) fun _ h4 => ⟨h4.2.1, h4.2.2.trans h3.2.1⟩

theorem wireSendByte_outs (b : Byte) :
    (wireSendByte b s).Post (fun _ t => Outs false true t ∧ t.eng.sr = b ∧ t.eng.seq.k = .ack) fun _ => True := by
  refine (writeBits_post b 8 hb ((BitsStep.refl s).sr b)).andThen (fun _ _ => trivial) fun t ht => ?_
  have h' := ht.1.slot .ack
  refine (readBit_lines (h'.prim.cfg ▸ hb) (LinesOnly.refl _)).bind (fun _ _ => trivial) fun v u hu => ?_
  exact ⟨⟨hu.2.1, hu.2.2⟩, (congrArg Engine.sr hu.1.2).trans ht.2, congrArg (fun e : Engine => e.seq.k) hu.1.2⟩

theorem wireRecvByte_outs (ack : Bool) :
    (wireRecvByte ack s).Post (fun v t => Outs false (!ack) t ∧ t.eng.sr = v ∧ t.eng.seq.k = .ack) fun _ => True := by
  refine (readBits_post 8 hb ((BitsStep.refl s).sr 0)).andThen (fun _ _ => trivial) fun t ht => ?_
  have h' := ht.slot .ack
  refine (writeBit_lines (!ack) (h'.prim.cfg ▸ hb) (LinesOnly.refl _)).andThen (fun _ _ => trivial) fun u hu => ?_
  have : u.eng.sr = (setSlot .ack t).eng.sr := congrArg Engine.sr hu.1.2
  exact ⟨⟨hu.2.1, hu.2.2⟩, this, congrArg (fun e : Engine => e.seq.k) hu.1.2⟩

end

/-- A wire operation that returned: its primitive completed, and its result is the primitive's. -/
theorem onBackend_returns {s t : State} {f : State → Run α} {ret : α → State → Ret} {D : α → State → Prop}
    {H : State → Prop} (h : onBackend .bitBang s (fun s => finishWith ret (f s)) = .next t) (hw : t.eng.waiting = none)
    (hf : (f (setResult .none s)).Post D H) (hH : ∀ u, H u → u.eng.waiting ≠ none) :
    ∃ a u, D a u ∧ t = setResult (ret a u) u := by
  obtain ⟨-, h⟩ := onBackend_next h
  rcases finishWith_next hf h with ⟨a, u, hu, rfl⟩ | hu
  · exact ⟨a, u, hu, rfl⟩
  · exact absurd hw (hH t hu)

/-- The frame of a wire operation that returned. -/
theorem Completes.wireFrame {s u : State} {r : Ret} (hb : s.cfg.backend = .bitBang)
    (h : Completes (setResult .none s) u) : WireFrame s (setResult r u) := by
  obtain ⟨hp, hw⟩ := h
  have hh : u.host = { s.host with result := .none } := hp.host
  have n1 : s.cfg.backend ≠ .peripheral := by simp [hb]
  have n2 : s.cfg.backend ≠ .simulated := by simp [hb]
  exact ⟨hp.cfg, by simp [hh], by simp [hh], by simp [hh], by simp [hh], hp.srp n1, hp.sim n2, hp.tgt, hp.configured, hp.mode, hp.flg,
    hp.arb n1, hp.phase, hp.i, hp.j, hp.call, hp.buf, hp.irqSaved, hw, hp.tHalf, hp.tQuarter, hp.drive⟩

/-! ## What the outside drives after some instants -/

theorem Line.extAt_congr {l m : Line} (he : m.env = l.env) (hx : m.ext = l.ext) (n : Nat) : m.extAt n = l.extAt n := by
  rw [Line.extAt, Line.extAt, he, hx]

theorem Line.extAt_nil {l : Line} (h : l.env = []) (n : Nat) : l.extAt n = l.ext := by simp [Line.extAt, h]

/-- An instant brings the outside's drive one instant on. -/
theorem Line.extAt_move (cfg : Params) (l : Line) (n : Nat) : (Line.move cfg l).extAt n = l.extAt (n + 1) := by
  obtain ⟨-, h2, h3⟩ := Line.move_spec cfg l
  rw [Line.extAt, Line.extAt, h2, h3]
  cases l.env with
  | nil => simp
  | cons es rest =>
    simp only [List.tail_cons, List.headD_cons, List.take_succ_cons, List.flatten_cons, List.getLast?_append]
    cases (rest.take n).flatten.getLast? <;> rfl

theorem Line.move_ext (cfg : Params) (l : Line) : (Line.move cfg l).ext = l.extAt 1 := by
  have := Line.extAt_move cfg l 0
  simpa [Line.extAt] using this

/-- What a released clock in open-drain drive reads. -/
theorem Line.scl_released {cfg : Params} {l : Line} (hd : l.drive = .openDrain) (ho : l.sclOut = true) :
    l.scl cfg = true ↔ l.ext.scl = true ∧ (cfg.pullUp = true ∨ l.ext.flt = true) := by
  simp [Line.scl, hd, ho, Line.released]

/-- A poll sees a released clock high exactly when the outside lets it be at one of the instants to come (R131). -/
theorem Line.poll_iff (cfg : Params) {l : Line} (hd : l.drive = .openDrain) (ho : l.sclOut = true) :
    (Line.poll cfg l.env l).2 = true ↔
      ∃ k, (l.extAt (k + 1)).scl = true ∧ (cfg.pullUp = true ∨ (l.extAt (k + 1)).flt = true) := by
  generalize hv : l.env = es
  induction es generalizing l with
  | nil =>
    simp only [Line.extAt_nil hv, exists_const]
    exact Line.scl_released hd ho
  | cons x xs ih =>
    have hm : Line.play cfg x { l with env := xs } = Line.move cfg l := by rw [Line.move, hv]
    have h1 := Line.move_ext cfg l
    have hd' : (Line.move cfg l).drive = .openDrain := by simpa using hd
    have ho' : (Line.move cfg l).sclOut = true := by simpa using ho
    have hs := Line.scl_released (cfg := cfg) hd' ho'
    have hi := ih hd' ho' (by rw [(Line.move_spec cfg l).2.1, hv]; rfl)
    simp only [Line.extAt_move] at hi
    rw [h1] at hs
    simp only [Line.poll, hm]
    split
    · next h => exact ⟨fun _ => ⟨0, hs.1 h⟩, fun _ => rfl⟩
    · next h =>
      rw [hi]
      constructor
      · rintro ⟨k, hk⟩
        exact ⟨k + 1, hk⟩
      · rintro ⟨k, hk⟩
        cases k with
        | zero => exact absurd (hs.2 hk) h
        | succ k => exact ⟨k, hk⟩

/-- With one controller and no contention an instant passes. -/
theorem instant_passes {s : State} (h : OneController s) (u : Unfought s) :
    instant s = .done () { s with line := Line.move s.cfg s.line } := by
  have hn : (s.line.ext :: s.line.env.headD []).any s.line.fought = false := by
    simp only [List.any_eq_false, Line.fought, Bool.and_eq_true, decide_eq_true_eq, List.mem_cons]
    rintro e he ⟨⟨hd, ho⟩, hs⟩
    obtain ⟨u1, u2⟩ := u hd ho
    rcases he with rfl | he
    · simp [u1] at hs
    · simp [u2 e he] at hs
  have hf : s.line.foreign = false := h
  simp only [instant, hf, hn]
  rfl

/-- The samples of the drive detection (R164): whether every one was high, and what they leave of the lines. -/
theorem sampleClock_spec (cfg : Params) (n : Nat) (l : Line) :
    SameDrive l (sampleClock cfg n l).1 ∧
      ((sampleClock cfg n l).2 = true ↔ ∀ k < n, (l.extAt (k + 1)).scl = true ∧
        (cfg.pullUp = true ∨ (l.extAt (k + 1)).flt = true)) := by
  induction n generalizing l with
  | zero => exact ⟨SameDrive.refl _, by simp [sampleClock]⟩
  | succ n ih =>
    obtain ⟨h1, h2⟩ := ih (Line.move cfg l)
    refine ⟨(Line.move_spec cfg l).1.trans h1, ?_⟩
    simp only [Line.extAt_move] at h2
    simp only [sampleClock, Bool.and_eq_true, h2, Line.released, Line.move_ext, Bool.or_eq_true]
    constructor
    · rintro ⟨h, g⟩ k hk
      cases k with
      | zero => exact h
      | succ k => exact g k (by omega)
    · exact fun h => ⟨h 0 (by omega), fun k hk => h (k + 1) (by omega)⟩
end Sys2Proof.Machine
end

