-- ==== Sys2Proof/Tests/Slice0.lean ====
section
/-! SUPPORT. Tests: encodings written out from the spec, single operations against the vectors of spec file
95_test_vectors.md (each test names its vector), and for every obligation with hypotheses a concrete witness. -/

namespace Sys2Proof.Tests

open Sys2Proof Sys2Proof.Machine

/-! ## Small states -/

/-- Parameters of a test board. -/
def cfg (b : Backend) : Params := ⟨b, 48000000, 0, 0, 8, true, 100, 400, some 0x2A, 0xFF, false⟩

/-- A register file with these entries. -/
def fileOf (bs : List Byte) (ro : List Nat := []) : RegFile :=
  ⟨bs.length, ro, bs.zipIdx.foldl (fun (m : Memory) (p : Byte × Nat) => Memory.write m p.2 p.1) ([] : Memory)⟩

/-- A fresh machine with a responder of seven registers, pointer 33. -/
def fresh (b : Backend) : State :=
  { State.reset with cfg := cfg b, tgt := Target.idleWith (fileOf [0, 0, 0, 0, 0, 0, 0]) 0x33 }

/-- The same, configured. -/
def conf (b : Backend) : State := { fresh b with eng := { Engine.reset with configured := true } }

/-- The register file of the conventions of 95_test_vectors.md. -/
def regs : RegFile := fileOf [0x10, 0xAB, 0xCD, 0x00, 0x44, 0x55, 0x66, 0x77]

/-- The simulated bus of those conventions, the device's pointer at `p`. -/
def simAt (p : Byte) : State :=
  { conf .simulated with sim := { Sim.reset with dev := [⟨0x48, p, false, .file regs⟩] } }

/-- The bit-banged transport in open-drain drive with the lines at two levels. -/
def wire (scl sda : Bool) (b : BusState) : State :=
  let s := conf .bitBang
  { s with
    eng := { s.eng with bus := b }
    line :=
      { s.line with drive := .openDrain, sclOut := scl, sdaOut := sda, ext := Ext.released, lines := [⟨scl, sda⟩] } }

/-- A device pulls the clock low. -/
def clockLow : Ext := { Ext.released with scl := false }

/-- A device pulls the data line low. -/
def dataLow : Ext := { Ext.released with sda := false }

/-- A second controller takes part. -/
def rival : Ext := { Ext.released with other := true }

/-- The outside's moves on a wire state. -/
def withEnv (env : List (List Ext)) (s : State) : State := { s with line := { s.line with env := env } }

/-- The peripheral transport with the peripheral's coming answers. -/
def shift (as : List SrpAnswer) : State := { conf .peripheral with srp := { Srp.reset with env := as } }

/-- An acknowledged command. -/
def good : SrpAnswer := ⟨false, false, 0⟩

/-- The responder with a state, a pointer and a register file. -/
def resp (ts : TState) (p : Byte) (f : RegFile) : State :=
  { fresh .simulated with tgt := { Target.idleWith f p with tstate := ts } }

/-- A call to 0x48 standing at a place of its sequence. -/
def inCall (p : Phase) (f : BitVec 3) (msgs : List Msg) (s : State) : State :=
  setPhase p (setFlg f (beginCall ⟨0x48, msgs⟩ s))

/-- The next state, where there is one. -/
def next? (x : Host.Outcome State Fault Refusal) : Option State :=
  match x with
  | .next s => some s
  | .fault _ => none
  | .refused _ => none

/-- The reason a step gives an operation no meaning. -/
def refusal? (x : Host.Outcome State Fault Refusal) : Option Refusal :=
  match x with
  | .next _ => none
  | .fault _ => none
  | .refused r => some r

/-- The condition trace and the result. -/
def seen (x : Host.Outcome State Fault Refusal) : Option (List Sym × Ret) :=
  (next? x).map fun s => (s.eng.trace, s.host.result)

/-- The levels recorded and the driven levels at the end. -/
def levels (x : Host.Outcome State Fault Refusal) : Option (List Level × Bool × Bool) :=
  (next? x).map fun s => (s.line.lines, s.line.sclOut, s.line.sdaOut)

/-- The responder's state, pointer and action. -/
def answer (x : Host.Outcome State Fault Refusal) : Option (TState × Byte × Option Action) :=
  (next? x).map fun s => (s.tgt.tstate, s.tgt.ptr, s.tgt.action)

/-- The memory of the first simulated device. -/
def stored (x : Host.Outcome State Fault Refusal) (i : Nat) : Option (Option Byte) :=
  (next? x).map fun s => s.sim.peek 0x48 i

/-- Levels from pairs of digits. -/
def lv (xs : List (Bool × Bool)) : List Level := xs.map fun x => ⟨x.1, x.2⟩

/-! ## WellFormed: each check refuses an ill-formed term, and lets the boundary through -/

theorem test_wf_transfer_count :
    (Instr.transfer 0 (List.replicate 256 ⟨false, false, .read 0⟩)).wellFormed = false ∧
      (Instr.transfer 0 (List.replicate 255 ⟨false, false, .read 0⟩)).wellFormed = true := by decide +kernel

theorem test_wf_transfer_message : (Instr.transfer 0 [⟨false, false, .read 256⟩]).wellFormed = false := by decide +kernel

theorem test_wf_msgWrite :
    (Instr.msgWrite false false (List.replicate 256 0)).wellFormed = false ∧
      (Instr.msgWrite false false (List.replicate 255 0)).wellFormed = true := by decide +kernel

theorem test_wf_msgRead :
    (Instr.msgRead false false 256).wellFormed = false ∧ (Instr.msgRead false false 255).wellFormed = true := by decide +kernel

theorem test_wf_write : (Instr.write 0 (List.replicate 256 0)).wellFormed = false := by decide +kernel

theorem test_wf_read : (Instr.read 0 256).wellFormed = false := by decide +kernel

theorem test_wf_writeThenRead_bytes : (Instr.writeThenRead 0 (List.replicate 256 0) 0).wellFormed = false := by decide +kernel

theorem test_wf_writeThenRead_count : (Instr.writeThenRead 0 [] 256).wellFormed = false := by decide +kernel

/-! ## Words written out from the spec's encodings -/

/-- R95, R96, R94; T-EN-09, T-EN-10, T-XF-08. -/
theorem test_decode_cmd :
    decode .host [0x00, 0x00] = .ok (.configure .standard100k) ∧
      decode .host [0x00, 0x01] = .ok (.configure .fast400k) ∧
      decode .host [0x01, 0x48, 0x00] = .ok (.transfer 0x48 []) ∧
      decode .host [0x01, 0x48, 0x02, 0x00, 0x01, 0x04, 0x00, 0x02, 0x11, 0x22] =
        .ok (.transfer 0x48 [⟨false, false, .write [0x04]⟩, ⟨false, false, .write [0x11, 0x22]⟩]) ∧
      decode .host [0x01, 0x48, 0x02, 0x02, 0x01, 0x01, 0x05, 0x01] =
        .ok (.transfer 0x48 [⟨false, true, .write [0x01]⟩, ⟨true, false, .read 1⟩]) := by decide

/-- R92, R94; T-EN-06, T-EN-07. -/
theorem test_decode_msg :
    decode .message [0x00, 0x01, 0xAA] = .ok (.msgWrite false false [0xAA]) ∧
      decode .message [0x07, 0x02] = .ok (.msgRead true true 2) ∧
      decode .message [0x05, 0xFF] = .ok (.msgRead true false 255) ∧
      decode .message [0x02, 0x00] = .ok (.msgWrite false true []) := by decide

/-- R97; T-EN-01 to T-EN-04. -/
theorem test_decode_addr :
    decode .address [0x90] = .ok (.addrW 0x48) ∧ decode .address [0x91] = .ok (.addrR 0x48) ∧
      decode .address [0x00] = .ok (.addrW 0) ∧ decode .address [0xFF] = .ok (.addrR 0x7F) := by decide

/-- R104. -/
theorem test_decode_wire :
    decode .host [0x20, 0x01] = .ok (.setClock true) ∧ decode .host [0x21, 0x00] = .ok (.setData false) ∧
      decode .host [0x22] = .ok .readData ∧ decode .host [0x23] = .ok .readClock ∧
      decode .host [0x24] = .ok .delayQ ∧ decode .host [0x25] = .ok .delayH ∧ decode .host [0x26] = .ok .start ∧
      decode .host [0x27] = .ok .rstart ∧ decode .host [0x28] = .ok .stop ∧
      decode .host [0x29, 0x01] = .ok (.writeBit true) ∧ decode .host [0x2A] = .ok .readBit ∧
      decode .host [0x2B, 0x90] = .ok (.sendByte 0x90) ∧ decode .host [0x2C, 0x00] = .ok (.recvByte false) := by decide

/-- R103. -/
theorem test_decode_srp :
    decode .host [0x30] = .ok .pStart ∧ decode .host [0x31, 0x90] = .ok (.pWrite 0x90) ∧
      decode .host [0x32, 0x01] = .ok (.pRead true) ∧ decode .host [0x33] = .ok .pStop := by decide

/-- R101; T-PG-3. -/
theorem test_decode_evt :
    decode .host [0x40, 0x00] = .ok (.evAddr .write) ∧ decode .host [0x40, 0x01] = .ok (.evAddr .read) ∧
      decode .host [0x41] = .ok .evStop ∧ decode .host [0x42, 0x05] = .ok (.evRxByte 0x05) ∧
      decode .host [0x43, 0x00] = .ok (.evTxReq .first) ∧ decode .host [0x43, 0x01] = .ok (.evTxReq .acked) ∧
      decode .host [0x43, 0x02] = .ok (.evTxReq .nacked) ∧ decode .host [0x44] = .ok .evBusErr ∧
      decode .host [0x45] = .ok .evColl := by decide

/-- R102. -/
theorem test_decode_cb :
    decode .host [0x50, 0x05] = .ok (.readRegister 0x05) ∧
      decode .host [0x51, 0x05, 0xAA] = .ok (.writeRegister 0x05 0xAA) := by decide

/-- R122. -/
theorem test_decode_help :
    decode .host [0x10, 0x49] = .ok (.detect 0x49) ∧
      decode .host [0x11, 0x48, 0x02, 0x03, 0x20] = .ok (.write 0x48 [0x03, 0x20]) ∧
      decode .host [0x12, 0x48, 0x02] = .ok (.read 0x48 2) ∧
      decode .host [0x13, 0x48, 0x01, 0x01, 0x02] = .ok (.writeThenRead 0x48 [0x01] 2) ∧
      decode .host [0x14, 0x48, 0x04] = .ok (.regRead8 0x48 0x04) ∧
      decode .host [0x15, 0x48, 0x04, 0x99] = .ok (.regWrite8 0x48 0x04 0x99) ∧
      decode .host [0x16, 0x48, 0x01] = .ok (.regRead16Be 0x48 0x01) ∧
      decode .host [0x17, 0x48, 0x01] = .ok (.regRead16Le 0x48 0x01) ∧
      decode .host [0x18, 0x48, 0x02, 0x12, 0x34] = .ok (.regWrite16Be 0x48 0x02 0x1234) ∧
      decode .host [0x19, 0x48, 0x02, 0x12, 0x34] = .ok (.regWrite16Le 0x48 0x02 0x1234) ∧
      decode .host [0x1A, 0x48, 0x03, 0x20, 0x20] = .ok (.updateMasked 0x48 0x03 0x20 0x20) := by decide

/-- T-EN-05, T-EN-08, T-EN-11 to T-EN-14: refused encodings. -/
theorem test_decode_refused :
    decode .host [0x10, 0x80] = .error .addressNot7Bit ∧ decode .message [0x08, 0x00] = .error .reservedFlag ∧
      decode .host [0x01, 0x48, 0x01, 0x00, 0x02, 0xAA] = .error .truncated ∧
      decode .host [0x01, 0x48, 0x01, 0x01, 0x02, 0xAA] = .error .trailing ∧
      decode .host [0x01, 0xC8, 0x01, 0x02, 0x00] = .error .addressNot7Bit ∧
      decode .host [0x00, 0x02] = .error .badMode ∧ decode .host [0x60] = .error .unknownCode ∧
      decode .host [] = .error .truncated ∧ decode .host [0x20, 0x02] = .error .badOperand := by decide

/-- Words of the opcode table as the host numbers them: the first byte is the least significant. -/
theorem test_table_words :
    decodeTableWord 16 0x0100 = some (.configure .fast400k) ∧ decodeTableWord 8 0x41 = some .evStop ∧
      decodeTableWord 16 0x902B = some (.sendByte 0x90) ∧ decodeTableWord 8 0x33 = some .pStop ∧
      decodeTableWord 8 0x91 = some (.addrR 0x48) ∧ decodeTableWord 16 0x0207 = some (.msgRead true true 2) := by decide

/-- A table word is what the next step from reset runs. -/
theorem test_table_word_runs :
    (next? (step (State.reset.withFetchWord 8 0x26))).map (fun s => s.eng.trace) = some [.start] ∧
      (next? (step (State.reset.withFetchWord 16 0x0100))).map (fun s => s.eng.configured) = some true := by decide

/-- T-EN-15 to T-EN-19. -/
theorem test_operands :
    wordBe 0xAB 0xCD = 0xABCD ∧ wordLe 0xAB 0xCD = 0xCDAB ∧ wordHi 0x1234 = 0x12 ∧ wordLo 0x1234 = 0x34 ∧
      effectiveFlags 0 ⟨true, true, .read 1⟩ = 7 ∧ effectiveFlags 4 ⟨false, true, .write []⟩ = 6 ∧
      clearRestart 6 = 2 ∧ recvAck 2 1 2 0 = true ∧ recvAck 2 1 2 1 = false ∧ recvAck 2 0 1 0 = true := by decide

/-- T-TM-01 to T-TM-06. -/
theorem test_ticks :
    (ticksHalf (cfg .bitBang) .standard100k, ticksQuarter (cfg .bitBang) .standard100k) = (240, 120) ∧
      (ticksHalf (cfg .bitBang) .fast400k, ticksQuarter (cfg .bitBang) .fast400k) = (60, 30) ∧
      ticksHalf { cfg .bitBang with ovhHalf := 10 } .fast400k = 50 ∧
      ticksQuarter { cfg .bitBang with ovhQuarter := 10 } .fast400k = 20 ∧
      ticksHalf { cfg .bitBang with fTick := 1000000 } .fast400k = 2 ∧
      ticksHalf { cfg .bitBang with fTick := 1000000, ovhHalf := 5 } .fast400k = 0 := by decide

/-! ## Single operations -/

/-- T-TM-10, T-TM-08; the trace is empty behind a condition too (R166). -/
theorem test_configure :
    (next? (exec (.configure .fast400k) (fresh .bitBang))).map (fun s => (s.eng.mode, s.line.drive, s.line.tHalf)) =
      some (.fast400k, .openDrain, 60) ∧
    (next? (exec (.configure .fast400k) (emit .start (fresh .bitBang)))).map (fun s => s.eng.trace) = some [] ∧
    (next? (exec (.configure .fast400k) (withEnv (List.replicate 5 [] ++ [[clockLow], [Ext.released]])
      (fresh .bitBang)))).map (fun s => (s.line.drive, s.line.sclOut)) = some (.pushPull, true) := by decide

/-- What a read of the clock behind the detection meets, the outside having made these moves before the last sample and
the final drive of the clock. -/
def readAfterDetection (lastSample finalDrive : Ext) : Option (Option Refusal) :=
  (next? (exec (.configure .fast400k)
    (withEnv (List.replicate 2 [] ++ [[clockLow]] ++ List.replicate 6 [] ++ [[lastSample], [finalDrive]])
      (fresh .bitBang)))).map fun s => refusal? (exec .readClock s)

/-- The final drive of the detection has an instant of its own (R164; log entry 25): only a device that pulls the clock
then is fought (U12). -/
theorem test_configure_final_drive :
    readAfterDetection clockLow Ext.released = some none ∧
      readAfterDetection clockLow clockLow = some (some .pushPullContention) ∧
      readAfterDetection Ext.released clockLow = some (some .pushPullContention) := by decide

/-- T-SR-01. -/
theorem test_configure_peripheral :
    (next? (exec (.configure .fast400k) (fresh .peripheral))).map
      (fun s => (s.srp.baud, s.srp.enable, s.srp.lctlOpen, s.eng.configured)) = some (400, true, false, true) := by decide

/-- T-PG-4. -/
theorem test_transfer_intermediate_stop :
    seen (exec (.transfer 0x48
        [⟨false, true, .write [0x04, 0xEE]⟩, ⟨true, false, .write [0x01]⟩, ⟨true, false, .read 2⟩]) (simAt 0)) =
      some ([.start, .tx 0x90 true, .tx 0x04 true, .tx 0xEE true, .stop, .start, .tx 0x90 true, .tx 0x01 true,
        .rstart, .tx 0x91 true, .rx 0xAB true, .rx 0xCD false, .stop], .ok) := by decide

/-- T-XF-15. -/
theorem test_transfer_turned_without_restart :
    seen (exec (.transfer 0x48 [⟨false, false, .write [0x01]⟩, ⟨false, false, .read 1⟩]) (simAt 0)) =
      some ([.start, .tx 0x90 true, .tx 0x01 true, .rx 0xFF false, .stop], .ok) := by decide

/-- PG-4, its first message: the call goes on at the next message with the flag word 02. -/
theorem test_msgWrite :
    (next? (exec (.msgWrite false true [0x04, 0xEE]) (inCall .preStop 4
        [⟨false, true, .write [0x04, 0xEE]⟩, ⟨true, false, .read 2⟩] (simAt 0)))).map
      (fun s => (s.eng.trace, s.eng.flg, s.eng.seq.phase, s.eng.seq.i)) =
    some ([.start, .tx 0x90 true, .tx 0x04 true, .tx 0xEE true], 2, .preStop, 1) := by decide

/-- The peripheral acknowledges the start, the address and the first data byte, not the second, and stops. -/
def secondRefused : State := shift [good, good, good, ⟨true, false, 0⟩, good]

/-- T-XF-18; T-XF-19: no later byte, no later message, nothing stored. -/
theorem test_transfer_data_refused :
    seen (exec (.transfer 0x48 [⟨false, false, .write [0x05, 0xAA]⟩]) secondRefused) =
      some ([.start, .tx 0x90 true, .tx 0x05 true, .tx 0xAA false, .stop], .err .nack) ∧
    seen (exec (.transfer 0x48 [⟨false, false, .write [0x05, 0xAA, 0xBB]⟩, ⟨true, false, .read 1⟩]) secondRefused) =
      some ([.start, .tx 0x90 true, .tx 0x05 true, .tx 0xAA false, .stop], .err .nack) ∧
    (next? (exec (.transfer 0x48 [⟨false, false, .write [0x05, 0xAA, 0xBB]⟩, ⟨true, false, .read 1⟩])
      secondRefused)).map (fun s => s.eng.buf) = some [] := by decide

/-- T-SR-04: the byte at which arbitration is lost stays stored, and no `P` stands behind it. -/
theorem test_transfer_read_lost :
    (next? (exec (.transfer 0x48 [⟨false, true, .read 2⟩]) (shift [good, good, ⟨false, true, 0x12⟩]))).map (fun s =>
      (s.eng.trace, s.host.result, s.eng.buf)) =
    some ([.start, .tx 0x91 true, .rx 0x12 true], .err .arbitrationLost, [⟨0, 0, 0x12⟩]) := by decide

/-- T-XF-16, its one message: the last byte is not acknowledged. -/
theorem test_msgRead :
    (next? (exec (.msgRead false true 3) (inCall .preStop 4 [⟨false, true, .read 3⟩] (simAt 0)))).map
      (fun s => (s.eng.trace, s.eng.seq.phase)) =
    some ([.start, .tx 0x91 true, .rx 0x10 true, .rx 0xAB true, .rx 0xCD false], .finalStop) := by decide

/-- R186: acknowledged on an addressed bus, a failure stop otherwise (here no start stands before it). -/
theorem test_addrW :
    (next? (exec (.addrW 0x48) (inCall .addr 4 [⟨false, false, .write []⟩]
        { simAt 0 with sim := { (simAt 0).sim with awaitAddr := true } }))).map
      (fun s => (s.eng.trace, s.eng.seq.phase, s.eng.flg)) = some ([.tx 0x90 true], .dataWr, 0) := by decide

theorem test_addrR :
    (next? (exec (.addrR 0x49) (inCall .addr 5 [⟨false, false, .read 1⟩]
        { simAt 0 with sim := { (simAt 0).sim with awaitAddr := true } }))).map
      (fun s => (s.eng.trace, s.host.result, s.eng.seq.phase)) =
    some ([.tx 0x93 false, .stop], .err .nack, .idle) := by decide

/-- T-WP-20: held low for two instants, then for ever. -/
theorem test_setClock_stretched :
    seen (exec (.setClock true) (withEnv [[clockLow], [], [Ext.released]]
      (wire false true .midTransaction))) = some ([], .ok) ∧
    (next? (exec (.setClock true) (withEnv [[clockLow]] (wire false true .midTransaction)))).map
      (fun s => (s.line.sclOut, s.host.result, s.eng.waiting)) = some (true, .none, some .sclRelease) := by decide

theorem test_setData :
    levels (exec (.setData false) (wire true true .idle)) =
      some (lv [(true, true), (true, false)], true, false) := by decide

/-- R133, R134: a target holds SDA low. -/
theorem test_readData :
    seen (exec .readData { wire true true .idle with
      line := { (wire true true .idle).line with ext := dataLow } }) = some ([], .okLevel false) := by decide

theorem test_readClock : seen (exec .readClock (wire false true .idle)) = some ([], .okLevel false) := by decide

theorem test_delayQ : seen (exec .delayQ (wire true true .idle)) = some ([], .ok) := by decide

theorem test_delayH : seen (exec .delayH (wire true true .idle)) = some ([], .ok) := by decide

/-- T-WP-01. -/
theorem test_start :
    levels (exec .start (wire true true .idle)) =
      some (lv [(true, true), (true, false), (false, false)], false, false) := by decide

/-- T-WP-02, T-WP-04. -/
theorem test_rstart :
    levels (exec .rstart (wire false false .midTransaction)) =
      some (lv [(false, false), (false, true), (true, true), (true, false), (false, false)], false, false) ∧
    seen (exec .rstart (wire true true .idle)) = some ([.start], .ok) := by decide

/-- T-WP-05, T-WP-07. -/
theorem test_stop :
    levels (exec .stop (wire false false .midTransaction)) =
      some (lv [(false, false), (true, false), (true, true)], true, true) ∧
    levels (exec .stop (wire true true .idle)) =
      some (lv [(true, true), (false, true), (false, false), (true, false), (true, true)], true, true) := by decide

/-- T-WP-09, T-WP-10. -/
theorem test_writeBit :
    levels (exec (.writeBit false) (wire false true .midTransaction)) =
      some (lv [(false, true), (false, false), (true, false), (false, false)], false, false) ∧
    levels (exec (.writeBit true) (wire false false .midTransaction)) =
      some (lv [(false, false), (false, true), (true, true), (false, true)], false, true) := by decide

/-- T-WP-13. -/
theorem test_readBit :
    levels (exec .readBit (withEnv [[dataLow]] (wire false true .midTransaction))) =
      some (lv [(false, true), (false, false), (true, false), (false, false)], false, true) ∧
    seen (exec .readBit (withEnv [[dataLow]] (wire false true .midTransaction))) =
      some ([], .okLevel false) := by decide

/-- T-WP-16: no target. -/
theorem test_sendByte :
    seen (exec (.sendByte 0x90) (wire false false .midTransaction)) =
      some ([.tx 0x90 false], .okLevel false) := by decide

/-- T-WP-17: the target supplies A5, each bit while the clock is low. -/
theorem test_recvByte :
    seen (exec (.recvByte true) (withEnv ([true, false, true, false, false, true, false, true].flatMap fun b =>
        [[{ Ext.released with sda := b }], [], [], [], []]) (wire false true .midTransaction))) =
      some ([.rx 0xA5 true], .okByte 0xA5) := by decide

/-- T-SR-02, command by command. -/
theorem test_pStart :
    (next? (exec .pStart (shift [good]))).map (fun s => (s.eng.trace, s.srp.lctlOpen, s.eng.bus, s.srp.cmds)) =
      some ([.start], true, .midTransaction, [.start]) := by decide

theorem test_pWrite :
    seen (exec (.pWrite 0x90) (shift [good])) = some ([.tx 0x90 true], .okLevel true) ∧
      seen (exec (.pWrite 0x90) (shift [])) = some ([], .none) := by decide

theorem test_pRead :
    seen (exec (.pRead false) (shift [⟨false, false, 0xCD⟩])) = some ([.rx 0xCD false], .okByte 0xCD) := by decide

theorem test_pStop :
    (next? (exec .pStop (shift [good]))).map (fun s => (s.eng.trace, s.srp.lctlOpen, s.eng.bus)) =
      some ([.stop], false, .idle) := by decide

/-- T-SR-03: arbitration loss before the acknowledge. -/
theorem test_arbitration :
    (next? (exec (.transfer 0x48 [⟨false, true, .write [1]⟩]) (shift [good, ⟨true, true, 0⟩]))).map
      (fun s => (s.eng.trace, s.host.result, s.srp.cmds)) =
    some ([.start, .tx 0x90 false], .err .arbitrationLost, [.start, .write 0x90, .stop]) := by decide

/-- T-TG-14: the pointer survives an address match in every state. -/
theorem test_evAddr :
    answer (exec (.evAddr .write) (resp .receivedData 0x03 regs)) = some (.newTransaction, 0x03, some .ack) := by decide

/-- T-TG-13. -/
theorem test_evStop : answer (exec .evStop (resp .idle 0x07 regs)) = some (.idle, 0x07, some .finish) := by decide

/-- T-TG-03: a write outside the file at FF is acknowledged and the pointer wraps. -/
theorem test_evRxByte :
    answer (exec (.evRxByte 2) (resp .receivedData 0xFF regs)) = some (.receivedData, 0x00, some .ack) ∧
      answer (exec (.evRxByte 5) (resp .newTransaction 0x33 regs)) = some (.receivedAddress, 0x05, some .ack) := by decide

/-- T-TG-05: a read-only entry. -/
theorem test_evRxByte_readOnly :
    (next? (exec (.evRxByte 0x22) (resp .receivedData 2 (fileOf [0, 0x11, 0x55, 0] [2])))).map
      (fun s => (s.tgt.file.peek 2, s.tgt.ptr, s.tgt.cb)) = some (0x55, 3, some .ok) := by decide

/-- T-TG-11, T-TG-09. -/
theorem test_evTxReq :
    answer (exec (.evTxReq .first) (resp .newTransaction 0xFF (fileOf [0xA0, 0xA1]))) =
      some (.sentData, 0x00, some (.send 0xFF)) ∧
    refusal? (exec (.evTxReq .first) (resp .receivedAddress 1 regs)) = some .eventOutOfState := by decide

/-- T-TG-06, T-TG-12. -/
theorem test_evBusErr :
    answer (exec .evBusErr (resp .receivedData 0x01 regs)) = some (.idle, 0x01, some .finish) := by decide

theorem test_evColl : answer (exec .evColl (resp .sentData 0x01 regs)) = some (.idle, 0x01, some .finish) := by decide

/-- T-TG-04. -/
theorem test_readRegister :
    (next? (exec (.readRegister 7) (resp .idle 0 (fileOf [1, 2, 3, 4, 5, 6, 7])))).map (fun s => s.tgt.cb) =
      some (some (.byte 0xFF)) := by decide

theorem test_writeRegister :
    (next? (exec (.writeRegister 6 0x09) (resp .idle 0 (fileOf [1, 2, 3, 4, 5, 6, 7])))).map
      (fun s => (s.tgt.file.peek 6, s.tgt.cb)) = some (0x09, some .ok) := by decide

/-- T-HP-01, T-HP-02. -/
theorem test_detect :
    seen (exec (.detect 0x48) (simAt 0)) = some ([.start, .tx 0x90 true, .stop], .ok) ∧
      seen (exec (.detect 0x49) (simAt 0)) = some ([.start, .tx 0x92 false, .stop], .err .nack) := by decide

/-- T-PG-5: `detect 0x48` on the wire. -/
theorem test_detect_wire :
    (next? (exec (.detect 0x48) (withEnv (List.replicate 34 [] ++ [[dataLow], [], [], [], [], [Ext.released]])
      (wire true true .idle)))).map (fun s => (s.eng.trace, s.host.result, decodeLines s.line.lines, s.host.irqEn)) =
    some ([.start, .tx 0x90 true, .stop], .ok, [.start, .byte 0x90 true, .stop], true) := by decide

/-- T-HP-03. -/
theorem test_write :
    stored (exec (.write 0x48 [0x03, 0x20]) (simAt 0)) 3 = some (some 0x20) ∧
      seen (exec (.write 0x48 [0x03, 0x20]) (simAt 0)) =
        some ([.start, .tx 0x90 true, .tx 0x03 true, .tx 0x20 true, .stop], .ok) := by decide

/-- T-HP-04. -/
theorem test_read :
    seen (exec (.read 0x48 2) (simAt 4)) =
      some ([.start, .tx 0x91 true, .rx 0x44 true, .rx 0x55 false, .stop], .okBytes [0x44, 0x55]) := by decide

/-- T-HP-05. -/
theorem test_writeThenRead :
    seen (exec (.writeThenRead 0x48 [0x01] 2) (simAt 0)) =
      some ([.start, .tx 0x90 true, .tx 0x01 true, .rstart, .tx 0x91 true, .rx 0xAB true, .rx 0xCD false, .stop],
        .okBytes [0xAB, 0xCD]) := by decide

/-- T-HP-06, T-HP-18. -/
theorem test_regRead8 :
    (seen (exec (.regRead8 0x48 0x04) (simAt 0))).map Prod.snd = some (.okByte 0x44) ∧
      seen (exec (.regRead8 0x48 0x04) (fresh .simulated)) = some ([], .err .notConfigured) := by decide

/-- T-HP-07. -/
theorem test_regWrite8 : stored (exec (.regWrite8 0x48 0x04 0x99) (simAt 0)) 4 = some (some 0x99) := by decide

/-- T-HP-08. -/
theorem test_regRead16Be :
    (seen (exec (.regRead16Be 0x48 0x01) (simAt 0))).map Prod.snd = some (.okWord 0xABCD) := by decide

/-- T-HP-09. -/
theorem test_regRead16Le :
    (seen (exec (.regRead16Le 0x48 0x01) (simAt 0))).map Prod.snd = some (.okWord 0xCDAB) := by decide

/-- T-HP-10. -/
theorem test_regWrite16Be :
    stored (exec (.regWrite16Be 0x48 0x02 0x1234) (simAt 0)) 2 = some (some 0x12) ∧
      stored (exec (.regWrite16Be 0x48 0x02 0x1234) (simAt 0)) 3 = some (some 0x34) := by decide

/-- T-HP-11. -/
theorem test_regWrite16Le :
    stored (exec (.regWrite16Le 0x48 0x02 0x1234) (simAt 0)) 2 = some (some 0x34) ∧
      stored (exec (.regWrite16Le 0x48 0x02 0x1234) (simAt 0)) 3 = some (some 0x12) := by decide

/-- T-HP-12, T-HP-17. -/
theorem test_updateMasked :
    (next? (exec (.updateMasked 0x48 0x03 0x20 0x20) (simAt 0))).map (fun s => (s.host.past, s.host.result)) =
      some ([[.start, .tx 0x90 true, .tx 0x03 true, .rstart, .tx 0x91 true, .rx 0x00 false, .stop],
        [.start, .tx 0x90 true, .tx 0x03 true, .tx 0x20 true, .stop]], .ok) ∧
    (next? (exec (.updateMasked 0x49 0x03 0x20 0x20) (simAt 0))).map (fun s => (s.host.past, s.host.result)) =
      some ([[.start, .tx 0x92 false, .stop]], .err .nack) := by decide

/-- T-HP-15. -/
theorem test_updateMasked_unchanged :
    (next? (exec (.updateMasked 0x48 0x07 0x00 0xFF) (simAt 0))).map (fun s => (s.host.past.length, s.host.result)) =
      some (1, .ok) := by decide

/-- A configured bus takes no second `CONFIGURE`, and the device's own address has no meaning (U1, U21). -/
theorem test_refusals :
    refusal? (exec (.configure .standard100k) (simAt 0)) = some .secondConfigure ∧
      refusal? (exec (.detect 0x2A) (simAt 0)) = some .ownAddress ∧
      refusal? (exec .start (simAt 0)) = some .otherTransport ∧
      refusal? (exec (.addrW 0x48) (simAt 0)) = some .outsideTransfer := by decide

/-- A second controller on the bit-banged bus (U15): named beforehand, also when it comes later in the script. -/
theorem test_second_controller :
    refusal? (exec .start (withEnv [[], [], [rival]] (wire true true .idle))) = some .secondController ∧
      refusal? (exec (.configure .standard100k) (withEnv [[rival]] (fresh .bitBang))) = some .secondController ∧
      refusal? (exec (.detect 0x48) (withEnv [[rival]] (wire true true .idle))) = some .secondController := by decide

/-- R195: a placed message word stands inside its call, the host's interrupts off and kept. -/
theorem test_placed_message :
    ((fresh .bitBang).withFetchWord 16 0x0207).host.irqEn = false ∧
      ((fresh .bitBang).withFetchWord 16 0x0207).eng.irqSaved = true ∧
      (next? (step ((fresh .bitBang).withFetchWord 16 0x0207))).isSome = true := by decide

/-- R350: another caller's write lands between the two transfers, and its update is lost. -/
theorem test_updateMasked_race :
    (next? (exec (.updateMasked 0x48 0x03 0x20 0x20) { simAt 0 with host := { (simAt 0).host with
        race := [[⟨0x48, [⟨false, true, .write [0x03, 0x01]⟩]⟩]] } })).map (fun s =>
          (s.host.past.length, s.host.result, s.sim.peek 0x48 3, s.host.race)) =
      some (3, .ok, some 0x20, []) := by decide

/-- R217: the address byte keeps a 1 of its start, a later byte is its own command's. -/
theorem test_arbitration_kept :
    (next? (exec (.pWrite 0x90) { shift [good] with srp :=
        { (shift [good]).srp with arbLost := true, afterStart := true } })).map (fun s => s.srp.arbLost) = some true ∧
    (next? (exec (.pWrite 0x90) { shift [good] with srp :=
        { (shift [good]).srp with arbLost := true, afterStart := false } })).map (fun s => s.srp.arbLost) =
      some false := by decide

/-- A machine that something reaches, interrupts enabled or masked, with events pending. -/
def reached (irq : Bool) (es : List Event) (input : List Arrival) : State :=
  { resp .newTransaction 0 regs with
    host := { (resp .newTransaction 0 regs).host with input := input, irqEn := irq }
    tgt := { (resp .newTransaction 0 regs).tgt with pending := es } }

/-- R255, R325: a critical section begins, an event in it is held, and its end lets the handler run. -/
theorem test_critical_section :
    (next? (step (reached true [] [.mask false]))).map (fun s => s.host.irqEn) = some false ∧
      (next? (step (reached false [] [.word [0x42, 0x05]]))).map (fun s => (s.tgt.ptr, s.tgt.pending)) =
        some (0, [.rxByte 5]) ∧
      (next? (step (reached true [.rxByte 5] []))).map (fun s => (s.tgt.ptr, s.tgt.pending)) = some (5, []) := by decide

/-- R253 (f), R255: while an event is held the front end raises no other, and a callback waits with it; the host's
operation behind them goes on. -/
theorem test_front_end_stalls :
    (next? (step (reached false [.rxByte 5] [.word [0x41], .word [0x51, 0x00, 0x01], .mask true]))).map (fun s =>
      (s.host.irqEn, s.tgt.pending, s.host.input, s.tgt.file.peek 0)) =
    some (true, [.rxByte 5], [.word [0x41], .word [0x51, 0x00, 0x01]], 0x10) := by decide

/-- R352: inside a critical section the host reads the entries of the register file while an event is held, and reads one
file; a read-only entry is the owner's to write. -/
theorem test_register_file_in_critical_section :
    (next? (step (reached false [.rxByte 5] [.readReg 1, .readReg 2]))).map (fun s =>
      (s.host.result, s.tgt.pending, s.host.input)) = some (.okByte 0xAB, [.rxByte 5], [.readReg 2]) ∧
    (next? (step (reached false [.rxByte 5] [.readReg 8]))).map (fun s => s.host.result) = some (.okByte 0xFF) ∧
    (next? (step { reached false [] [.writeReg 2 0x07] with
        tgt := { (reached false [] []).tgt with file := fileOf [1, 2, 3] [2] } })).map (fun s => s.tgt.file) =
      some (fileOf [1, 2, 7] [2]) := by decide

/-- The steps of a machine, one after another. -/
def stepsOf : Nat → State → Option State
  | 0, s => some s
  | n + 1, s => (next? (step s)).bind (stepsOf n)

/-- R352, its example: `REG[2..3]` hold 0x01FF, the host reads 0x01 from 2, an external controller writes 0x02 and 0x00 to
2 and 3, and the host reads 0x00 from 3: the torn value 0x0100. -/
theorem test_torn_read :
    let torn : State :=
      { reached true [] [.readReg 2, .word [0x42, 0x02], .word [0x42, 0x00], .readReg 3] with
        tgt := { (resp .receivedAddress 2 (fileOf [0, 0, 0x01, 0xFF])).tgt with action := none } }
    ((stepsOf 1 torn).map fun s => s.host.result, (stepsOf 4 torn).map fun s => s.host.result) =
      (some (.okByte 0x01), some (.okByte 0x00)) := by decide

/-- R326: events raised together. -/
theorem test_raised_together :
    (next? (step (reached false [] [.together [.stop, .busErr]]))).map (fun s => s.tgt.pending) =
      some [.busErr, .stop] := by decide

/-- The levels of bits on the lines: each is set while the clock is low. -/
def bitLevels (bs : List Bool) : List Level := bs.flatMap fun b => [⟨false, b⟩, ⟨true, b⟩, ⟨false, b⟩]

/-- A write of 05 to 2A, then two bits and a stop inside the third byte (R253 (e)). -/
theorem test_respond_bus_error :
    (respond (cfg .simulated) (wireIdle 0x2A) (Target.idleWith regs 0x33) ⟨true, true⟩
      ([⟨true, false⟩] ++
        bitLevels [false, true, false, true, false, true, false, false, false, false, false, false, false, false, true,
          false, true, false, true] ++ [⟨false, false⟩, ⟨true, false⟩, ⟨true, true⟩])).map
      (fun r => (r.1.tstate, r.1.ptr, r.2)) = some (.idle, 0x05, [.ack, .ack, .finish, .finish]) := by decide +kernel

/-- A read of 10 from 2A whose fourth bit, a 1, reads 0 (R253 (e)). -/
theorem test_respond_collision :
    (respond (cfg .simulated) (wireIdle 0x2A) (Target.idleWith regs 0x00) ⟨true, true⟩
      ([⟨true, false⟩] ++
        bitLevels [false, true, false, true, false, true, false, true, false, false, false, false, false])).map
      (fun r => (r.1.tstate, r.1.ptr, r.2)) = some (.idle, 0x01, [.ack, .send 0x10, .finish]) := by decide +kernel

/-! ## Witnesses: each obligation's hypotheses are met, every clause of them -/

/-- A machine with a transfer coming. -/
def coming : State := { simAt 0 with host := { (simAt 0).host with input := [.word [0x10, 0x48]] } }

/-- A machine inside an unbounded wait. -/
def stuck : State := { wire true true .midTransaction with eng :=
  { (wire true true .midTransaction).eng with waiting := some .sclRelease } }

/-- One write message. -/
def oneWrite : List Msg := [⟨false, false, .write [0x01]⟩]

/-- A call at its first message on a transport. -/
def atMsg (s : State) : State := inCall .preStop 4 oneWrite s

/-- A call at its address byte. -/
def atAddr (s : State) : State := inCall .addr 4 oneWrite s

theorem wireReady (scl sda : Bool) (b : BusState) : WireReady (wire scl sda b) :=
  ⟨rfl, ⟨rfl, rfl, rfl⟩, fun _ h => absurd h List.not_mem_nil⟩

theorem clockFree (s : State) (h : s.line.ext = Ext.released) (e : s.line.env = []) : ClockFree s := by
  refine ⟨?_, fun es hes => ?_⟩
  · rw [h]; exact ⟨rfl, rfl, rfl⟩
  · rw [e] at hes; cases hes

theorem quiet (scl sda : Bool) (b : BusState) : QuietLines (wire scl sda b) ∧
    (wire scl sda b).line.level (wire scl sda b).cfg = ⟨scl, sda⟩ := by
  cases scl <;> cases sda <;> exact ⟨⟨rfl, rfl, rfl⟩, rfl⟩

theorem quiescent_sim (p : Byte) : Quiescent (simAt p) := ⟨rfl, rfl⟩

theorem mayCall_sim (p : Byte) : MayCall 0x48 (simAt p) :=
  ⟨⟨rfl, rfl⟩, rfl, show (cfg .simulated).tgtAddr ≠ some 0x48 by decide⟩

theorem deviceAt_sim (p : Byte) : DeviceAt 0x48 regs p (simAt p) := ⟨⟨0x48, p, false, .file regs⟩, rfl, rfl, rfl⟩

theorem inv_coming : Inv coming :=
  ⟨by decide, by decide, rfl, by decide, rfl, fun _ => rfl, fun h => absurd h (by decide)⟩

/-- A legal state inside a bit-banged call. -/
theorem inv_atMsg_wire :
    Inv { atMsg (wire true true .idle) with host := { (atMsg (wire true true .idle)).host with irqEn := false } } :=
  ⟨by decide, rfl, rfl, by decide, rfl, fun _ => rfl, fun _ _ => rfl⟩

theorem witness_StepKeepsLegal : Inv coming ∧ ∃ t, step coming = .next t := ⟨inv_coming, _, rfl⟩

theorem witness_LegalStatesNeverFault : Inv coming := inv_coming

theorem witness_ConfiguredForLife : coming.eng.configured = true ∧ ∃ t, step coming = .next t := ⟨rfl, _, rfl⟩

theorem witness_DecodeOfEncode :
    (Instr.write 0x7F (List.replicate 255 0xFF)).wellFormed = true ∧
      (Instr.transfer 0x48 oneWrite).wellFormed = true := by decide +kernel

theorem witness_EncodeOfDecode : decode .message [0x06, 0x01, 0xAA] = .ok (.msgWrite true true [0xAA]) := by decide

theorem witness_ReservedEncodingsRefused :
    (0x08 : Byte).extractLsb' 3 5 ≠ 0 ∧ (0xFF : Byte).extractLsb' 3 5 ≠ 0 ∧ (0x80 : Byte).getLsbD 7 = true ∧
      ((0x10 : Byte) ≤ 0x10 ∧ (0x10 : Byte) ≤ 0x1A) ∧ ((0x10 : Byte) ≤ 0x1A ∧ (0x1A : Byte) ≤ 0x1A) ∧
      (0x02 : Byte) ≠ 0 ∧ (0x02 : Byte) ≠ 1 := by decide

theorem witness_OperationsWithoutMeaning :
    (simAt 0).cfg.backend ≠ .bitBang ∧ (simAt 0).cfg.backend ≠ .peripheral ∧ (simAt 0).eng.call = none ∧
      (atMsg (simAt 0)).eng.seq.phase ≠ .addr ∧ (atMsg (simAt 0)).eng.call = some ⟨0x48, oneWrite⟩ ∧
      (atAddr (simAt 0)).eng.seq.phase ≠ .preStop ∧ (atAddr (simAt 0)).eng.seq.phase ≠ .idle ∧
      (simAt 0).eng.seq.phase = .idle ∧ (simAt 0).eng.configured = true ∧
      (simAt 0).cfg.tgtAddr = some 0x2A ∧ callsTo 0x2A (.transfer 0x2A oneWrite) = true ∧
      callsTo 0x48 (.regRead8 0x48 0) = true := by decide

theorem witness_OperationsWithoutMeaning_controller :
    (withEnv [[rival]] (wire true true .idle)).cfg.backend = .bitBang ∧
      (withEnv [[rival]] (wire true true .idle)).line.foreign = true ∧
      (withEnv [[rival]] (fresh .bitBang)).eng.configured = false ∧
      (withEnv [[rival]] (fresh .bitBang)).line.foreign = true ∧
      actsOnLines .start = true ∧ MayCall 0x48 (withEnv [[rival]] (wire true true .idle)) :=
  ⟨rfl, rfl, rfl, rfl, rfl, ⟨rfl, rfl⟩, rfl, by decide⟩

/-- A push-pull clock driven to a level, and what the outside drives and will drive. -/
def pushPull (clock : Bool) (ext : Ext) (env : List (List Ext)) : State :=
  { conf .bitBang with line := { (conf .bitBang).line with sclOut := clock, ext := ext, env := env } }

/-- A clock driven high that a device holds low, one that it pulls low for a moment, and one driven low under a device
that pulls it low. -/
theorem witness_OperationsWithoutMeaning_contention :
    (OneController (pushPull true clockLow []) ∧ (pushPull true clockLow []).line.drive = .pushPull ∧
      (pushPull true clockLow []).line.ext.scl = false) ∧
    (OneController (pushPull true Ext.released [[clockLow, Ext.released]]) ∧
      ∃ e ∈ (pushPull true Ext.released [[clockLow, Ext.released]]).line.env.headD [], e.scl = false) ∧
    OneController (pushPull false clockLow []) ∧ ((pushPull false clockLow []).line.extAt 1).scl = false :=
  ⟨⟨rfl, rfl, rfl⟩, ⟨rfl, clockLow, List.mem_cons_self, rfl⟩, rfl, rfl⟩

theorem witness_StepRunsHostOperation :
    (deliverable coming = false ∧ coming.host.input = .word [0x10, 0x48] :: [] ∧
      decode .host [0x10, 0x48] = .ok (.detect 0x48) ∧ busy coming = false) ∧
    deliverable { stuck with host := { stuck.host with input := [.word [0x41]] } } = false ∧
      busy { stuck with host := { stuck.host with input := [.word [0x41]] } } = true ∧
      decode .host [0x41] = .ok .evStop ∧ Instr.evStop.isEvent = true ∧ stuck.tgt.pending = [] ∧
      decode .host [0x50, 0x00] = .ok (.readRegister 0) ∧ isCallback (.readRegister 0) = true ∧
      stuck.host.irqEn = true := by decide

theorem witness_StepRunsCallOperation :
    (deliverable (atMsg (simAt 0)) = false ∧ (atMsg (simAt 0)).host.input = [] ∧
      (atMsg (simAt 0)).eng.waiting = none ∧ (atMsg (simAt 0)).eng.call = some ⟨0x48, oneWrite⟩ ∧
      (atMsg (simAt 0)).eng.seq.phase = .preStop ∧
      oneWrite[(atMsg (simAt 0)).eng.seq.i]? = some ⟨false, false, .write [0x01]⟩) ∧
    (deliverable (atAddr (simAt 0)) = false ∧ (atAddr (simAt 0)).host.input = [] ∧
      (atAddr (simAt 0)).eng.waiting = none ∧ (atAddr (simAt 0)).eng.call = some ⟨0x48, oneWrite⟩ ∧
      (atAddr (simAt 0)).eng.seq.phase = .addr) := by decide

theorem witness_IdleMachineRests :
    Quiescent (simAt 0) ∧ (simAt 0).host.input = [] ∧ (simAt 0).tgt.pending = [] := ⟨quiescent_sim 0, rfl, rfl⟩

theorem witness_HangIsForEver : stuck.eng.waiting ≠ none ∧ ∃ t, step stuck = .next t := ⟨by decide, _, rfl⟩

/-- In open-drain drive, a clock that reads high at the first poll, and one that never does; a push-pull clock. -/
theorem witness_SetClock :
    ((wire false true .idle).cfg.backend = .bitBang ∧ OneController (wire false true .idle) ∧
      Unfought (wire false true .idle) ∧ (wire false true .idle).line.drive = .openDrain ∧
      ∃ k, ((wire false true .idle).line.extAt (k + 2)).scl = true ∧
        ((wire false true .idle).cfg.pullUp = true ∨ ((wire false true .idle).line.extAt (k + 2)).flt = true)) ∧
    (OneController (withEnv [[clockLow]] (wire false true .idle)) ∧
      Unfought (withEnv [[clockLow]] (wire false true .idle)) ∧
      ∀ k, ¬ (((withEnv [[clockLow]] (wire false true .idle)).line.extAt (k + 2)).scl = true ∧
        ((wire false true .idle).cfg.pullUp = true ∨
          ((withEnv [[clockLow]] (wire false true .idle)).line.extAt (k + 2)).flt = true))) ∧
    OneController (pushPull true Ext.released []) ∧ Unfought (pushPull true Ext.released []) ∧
      (pushPull true Ext.released []).line.drive = .pushPull ∧
      ((pushPull true Ext.released []).line.extAt 1).scl = true :=
  ⟨⟨rfl, rfl, fun h => absurd h (by decide), rfl, 0, rfl, .inl rfl⟩,
    ⟨rfl, fun h => absurd h (by decide), fun _ h => Bool.noConfusion h.1⟩,
    rfl, fun _ _ => ⟨rfl, fun _ h => absurd h List.not_mem_nil⟩, rfl, rfl⟩

/-- In open-drain drive, and in push-pull drive with the clock low under a device that pulls it low. -/
theorem witness_SetData :
    ((wire true true .idle).cfg.backend = .bitBang ∧ OneController (wire true true .idle) ∧
      Unfought (wire true true .idle)) ∧
    OneController (pushPull false clockLow []) ∧ Unfought (pushPull false clockLow []) :=
  ⟨⟨rfl, rfl, fun h => absurd h (by decide)⟩, rfl, fun _ h => absurd h (by decide)⟩

theorem witness_ReadData :
    (wire true true .idle).cfg.backend = .bitBang ∧ OneController (wire true true .idle) ∧
      Unfought (wire true true .idle) := witness_SetData.1

theorem witness_WireOperationsEnd :
    ((wire true true .idle).cfg.backend = .bitBang ∧ OneController (wire true true .idle) ∧
      Unfought (wire true true .idle) ∧ (wire true true .idle).eng.waiting = none ∧
      (wire true true .idle).line.drive = .openDrain ∧ actsOnLines .start = true) ∧
    (pushPull true Ext.released []).cfg.backend = .bitBang ∧ OneController (pushPull true Ext.released []) ∧
      (pushPull true Ext.released []).eng.waiting = none ∧ (pushPull true Ext.released []).line.drive = .pushPull :=
  ⟨⟨rfl, rfl, fun h => absurd h (by decide), rfl, rfl, rfl⟩, rfl, rfl, rfl, rfl⟩

/-- A stretched stop: the clock is held low for two instants, then let go. -/
theorem witness_WireEffects :
    ∃ t, exec .stop (withEnv [[clockLow], [], [], [], [Ext.released]] (wire false false .midTransaction)) =
      .next t ∧ t.eng.waiting = none := ⟨_, rfl, rfl⟩

theorem witness_Start :
    WireReady (wire true true .idle) ∧ QuietLines (wire true true .idle) ∧
      (wire true true .idle).line.level (wire true true .idle).cfg = ⟨true, true⟩ :=
  ⟨wireReady _ _ _, (quiet _ _ _).1, (quiet _ _ _).2⟩

theorem witness_RepeatedStart :
    (WireReady (wire false false .midTransaction) ∧ QuietLines (wire false false .midTransaction) ∧
      (wire false false .midTransaction).line.level (wire false false .midTransaction).cfg = ⟨false, false⟩) ∧
    WireReady (wire true true .idle) ∧ QuietLines (wire true true .idle) ∧
      (wire true true .idle).line.level (wire true true .idle).cfg = ⟨true, true⟩ :=
  ⟨⟨wireReady _ _ _, (quiet _ _ _).1, (quiet _ _ _).2⟩, wireReady _ _ _, (quiet _ _ _).1, (quiet _ _ _).2⟩

theorem witness_Stop :
    (WireReady (wire false true .midTransaction) ∧ QuietLines (wire false true .midTransaction) ∧
      (wire false true .midTransaction).line.level (wire false true .midTransaction).cfg = ⟨false, true⟩) ∧
    WireReady (wire true true .idle) ∧ QuietLines (wire true true .idle) ∧
      (wire true true .idle).line.level (wire true true .idle).cfg = ⟨true, true⟩ :=
  ⟨⟨wireReady _ _ _, (quiet _ _ _).1, (quiet _ _ _).2⟩, wireReady _ _ _, (quiet _ _ _).1, (quiet _ _ _).2⟩

theorem witness_BitSteps (b : Bool) :
    (WireReady (wire false (!b) .midTransaction) ∧ QuietLines (wire false (!b) .midTransaction) ∧
      (wire false (!b) .midTransaction).line.level (wire false (!b) .midTransaction).cfg = ⟨false, !b⟩) ∧
    QuietLines (wire false b .midTransaction) ∧
      (wire false b .midTransaction).line.level (wire false b .midTransaction).cfg = ⟨false, b⟩ ∧
      (wire false b .midTransaction).eng.waiting = none :=
  ⟨⟨wireReady _ _ _, (quiet _ _ _).1, (quiet _ _ _).2⟩, (quiet _ _ _).1, (quiet _ _ _).2, rfl⟩

theorem witness_SendByte :
    WireReady (wire false false .midTransaction) ∧ (wire false false .midTransaction).line.env = [] ∧
      (wire false false .midTransaction).eng.waiting = none := ⟨wireReady _ _ _, rfl, rfl⟩

theorem witness_RecvByte :
    WireReady (wire false true .midTransaction) ∧ (wire false true .midTransaction).line.env = [] ∧
      (wire false true .midTransaction).eng.waiting = none := ⟨wireReady _ _ _, rfl, rfl⟩

theorem witness_ByteOnTheLines :
    WireReady (wire false true .midTransaction) ∧ QuietLines (wire false true .midTransaction) ∧
      (wire false true .midTransaction).line.sclOut = false := ⟨wireReady _ _ _, (quiet _ _ _).1, rfl⟩

/-- All samples high, and the last of eight low (T-TM-07, T-TM-08). -/
theorem witness_ConfigureBitBang :
    ((fresh .bitBang).eng.configured = false ∧ (fresh .bitBang).cfg.backend = .bitBang ∧
      OneController (withEnv [[Ext.released]] (fresh .bitBang)) ∧
      ∀ k < (fresh .bitBang).cfg.nSamples,
        ((withEnv [[Ext.released]] (fresh .bitBang)).line.extAt (k + 3)).scl = true ∧
          ((fresh .bitBang).cfg.pullUp = true ∨
            ((withEnv [[Ext.released]] (fresh .bitBang)).line.extAt (k + 3)).flt = true)) ∧
    OneController (withEnv (List.replicate 9 [] ++ [[clockLow]]) (fresh .bitBang)) ∧ 7 < (fresh .bitBang).cfg.nSamples ∧
      ((withEnv (List.replicate 9 [] ++ [[clockLow]]) (fresh .bitBang)).line.extAt (7 + 3)).scl = false :=
  ⟨⟨rfl, rfl, rfl, fun _ _ => ⟨rfl, .inl rfl⟩⟩, rfl, by decide, rfl⟩

theorem witness_ConfigureOthers :
    ((fresh .peripheral).eng.configured = false ∧ (fresh .peripheral).cfg.backend ≠ .bitBang) ∧
      (fresh .simulated).eng.configured = false ∧ (fresh .simulated).cfg.backend ≠ .bitBang := by decide

theorem witness_ShiftCommands :
    (shift [good]).cfg.backend = .peripheral ∧ (shift [good]).srp.done = false ∧
      (shift [good]).srp.env = good :: [] := ⟨rfl, rfl, rfl⟩

theorem witness_ShiftHang :
    (shift []).cfg.backend = .peripheral ∧ (shift []).srp.done = false ∧ (shift []).srp.env = [] := ⟨rfl, rfl, rfl⟩

theorem witness_EntryChecks :
    ((fresh .bitBang).eng.seq.phase = .idle ∧ (fresh .bitBang).eng.configured = false ∧
      callsTo 0x48 (.updateMasked 0x48 0 0 0) = true ∧ callsTo 0x48 (.transfer 0x48 []) = true) ∧
      (simAt 0).eng.seq.phase = .idle ∧ (simAt 0).eng.configured = true := by decide

/-- On each transport. -/
theorem witness_TransferReturns :
    (MayCall 0x48 (simAt 0) ∧ Willing (callCommands oneWrite) (simAt 0)) ∧
    (MayCall 0x48 (wire true true .idle) ∧ Willing (callCommands oneWrite) (wire true true .idle)) ∧
    MayCall 0x48 (shift [good, good, good, good, good]) ∧
      Willing (callCommands oneWrite) (shift [good, good, good, good, good]) :=
  ⟨⟨mayCall_sim 0, trivial⟩, ⟨⟨⟨rfl, rfl⟩, rfl, by decide⟩, clockFree _ rfl rfl⟩,
    ⟨⟨rfl, rfl⟩, rfl, by decide⟩, show 5 ≤ 5 from Nat.le_refl 5⟩

/-- A failing transfer on the wire (T-ER-02). -/
theorem witness_CleanBusAfterEveryTransfer :
    CleanBus (wire true true .idle) ∧ (wire true true .idle).eng.waiting = none ∧
      ∃ t, exec (.transfer 0x48 oneWrite) (wire true true .idle) = .next t ∧ t.eng.waiting = none :=
  ⟨⟨rfl, fun _ => ⟨rfl, rfl⟩⟩, rfl, _, rfl, rfl⟩

/-- A bit-banged transfer that returns, one that hangs (T-ER-05), and one on another transport. -/
theorem witness_InterruptMasking :
    ((wire true true .idle).eng.waiting = none ∧
      ∃ t, exec (.transfer 0x48 oneWrite) (wire true true .idle) = .next t ∧ t.eng.waiting = none) ∧
    (∃ t, exec (.transfer 0x48 oneWrite)
      (withEnv (List.replicate 7 [] ++ [[clockLow]]) (wire true true .idle)) = .next t ∧
        t.eng.waiting ≠ none) ∧
    ∃ t, exec (.transfer 0x48 oneWrite) (simAt 0) = .next t :=
  ⟨⟨rfl, _, rfl, rfl⟩, ⟨_, rfl, by decide⟩, _, rfl⟩

/-- T-XF-13. -/
theorem witness_TraceShape :
    (simAt 0).eng.bus = .idle ∧ (simAt 0).srp.lctlOpen = false ∧
      (∀ x ∈ ([⟨false, false, .write [1]⟩, ⟨true, false, .read 2⟩, ⟨true, false, .write [5, 0x99]⟩] :
        List Msg).dropLast, x.stop = false) ∧
      ∃ t, exec (.transfer 0x48
        [⟨false, false, .write [1]⟩, ⟨true, false, .read 2⟩, ⟨true, false, .write [5, 0x99]⟩]) (simAt 0) = .next t ∧
        t.host.result = .ok := ⟨rfl, rfl, by decide, _, rfl, rfl⟩

/-- T-SR-03, T-SR-05. -/
theorem witness_ArbitrationLostAtAddress :
    MayCall 0x48 (shift [good, ⟨true, true, 0⟩]) ∧ (shift [good, ⟨true, true, 0⟩]).cfg.backend = .peripheral ∧
      (shift [good, ⟨true, true, 0⟩]).srp.done = false ∧
      (shift [good, ⟨true, true, 0⟩]).srp.env = good :: ⟨true, true, 0⟩ :: [] ∧
      (good.arbLost || true) = true := ⟨⟨⟨rfl, rfl⟩, rfl, by decide⟩, rfl, rfl, rfl, rfl⟩

/-- T-SR-04: the third byte of a write and the second of a read. -/
theorem witness_ArbitrationLostAtData :
    MayCall 0x48 (shift [good, good, good, good, ⟨true, true, 0⟩]) ∧
    (shift [good, good, good, good, ⟨true, true, 0⟩]).cfg.backend = .peripheral ∧
    (shift [good, good, good, good, ⟨true, true, 0⟩]).srp.done = false ∧
    (shift [good, good, good, good, ⟨true, true, 0⟩]).srp.env =
      good :: good :: ([good, good] ++ ⟨true, true, 0⟩ :: []) ∧
    (good.arbLost = false ∧ good.rxAck = false ∧ (∀ w ∈ [good, good], w.arbLost = false) ∧
      (∀ w ∈ [good, good], w.rxAck = false)) ∧
    [good, good].length < ([1, 2, 3] : List Byte).length ∧ [good, good].length < 3 :=
  ⟨⟨⟨rfl, rfl⟩, rfl, by decide⟩, rfl, rfl, rfl, by decide, by decide, by decide⟩

theorem witness_EngineErrors :
    ∃ t, exec (.detect 0x49) (simAt 0) = .next t ∧ t.host.result = .err .nack := ⟨_, rfl, rfl⟩

theorem witness_SmallStepsMakeTheTransfer : Quiescent (simAt 0) := quiescent_sim 0

/-- A call at its one message, on the peripheral that refuses the second data byte, or loses arbitration at a read
byte. -/
def atFailing (m : Msg) (as : List SrpAnswer) : State := inCall .preStop 4 [m] (shift as)

/-- On each transport; and on the peripheral a message that fails at a written byte, at its address byte, and at a read
byte. -/
theorem witness_MessagesRun :
    ((atMsg (simAt 0)).eng.call = some ⟨0x48, oneWrite⟩ ∧ (atMsg (simAt 0)).eng.seq.phase = .preStop ∧
      (atMsg (simAt 0)).eng.waiting = none ∧
      oneWrite[(atMsg (simAt 0)).eng.seq.i]? = some ⟨false, false, .write [0x01]⟩ ∧
      Willing (msgCommands ⟨false, false, .write [0x01]⟩ + 1) (atMsg (simAt 0))) ∧
    Willing (msgCommands ⟨false, false, .write [0x01]⟩ + 1) (atMsg (wire true true .idle)) ∧
    Willing (msgCommands ⟨false, false, .write [0x01]⟩ + 1) (atMsg (shift [good, good, good, good, good])) ∧
    (Willing (msgCommands ⟨false, false, .write [0x05, 0xAA]⟩ + 1)
        (atFailing ⟨false, false, .write [0x05, 0xAA]⟩ [good, good, good, ⟨true, false, 0⟩, good, good]) ∧
      seen (exec (.msgWrite false false [0x05, 0xAA])
          (atFailing ⟨false, false, .write [0x05, 0xAA]⟩ [good, good, good, ⟨true, false, 0⟩, good, good])) =
        some ([.start, .tx 0x90 true, .tx 0x05 true, .tx 0xAA false, .stop], .err .nack)) ∧
    seen (exec (.msgRead false false 1)
        (atFailing ⟨false, false, .read 1⟩ [good, ⟨true, false, 0⟩, good, good, good])) =
      some ([.start, .tx 0x91 false, .stop], .err .nack) ∧
    seen (exec (.msgRead false false 2)
        (atFailing ⟨false, false, .read 2⟩ [good, good, ⟨false, true, 0x12⟩, good, good, good])) =
      some ([.start, .tx 0x91 true, .rx 0x12 true], .err .arbitrationLost) :=
  ⟨⟨rfl, rfl, rfl, rfl, trivial⟩, clockFree _ rfl rfl, show 5 ≤ 5 from Nat.le_refl 5,
    ⟨show 6 ≤ 6 from Nat.le_refl 6, by decide⟩, by decide, by decide⟩

/-- On the simulated bus, and on the peripheral an address byte that is acknowledged, one that is not, and one that is
lost. -/
theorem witness_AddressBytes :
    ((atAddr (simAt 0)).eng.call = some ⟨0x48, oneWrite⟩ ∧ (atAddr (simAt 0)).eng.seq.phase = .addr ∧
      (atAddr (simAt 0)).eng.waiting = none ∧ Willing 2 (atAddr (simAt 0))) ∧
    ∀ x : SrpAnswer, (atAddr (shift [x, good])).eng.call = some ⟨0x48, oneWrite⟩ ∧
      (atAddr (shift [x, good])).eng.seq.phase = .addr ∧ (atAddr (shift [x, good])).eng.waiting = none ∧
      Willing 2 (atAddr (shift [x, good])) ∧ (atAddr (shift [x, good])).cfg.backend = .peripheral ∧
      (atAddr (shift [x, good])).srp.done = false :=
  ⟨⟨rfl, rfl, rfl, trivial⟩, fun _ => ⟨rfl, rfl, rfl, show 2 ≤ 2 from Nat.le_refl 2, rfl, rfl⟩⟩

theorem witness_BusOperationsFrame :
    (runsOnBus (.read 0x48 2) = true ∧ (∃ t, exec (.read 0x48 2) (simAt 0) = .next t) ∧
      readsOnly (.read 0x48 2) = true) ∧
    runsOnBus (.transfer 0x48 oneWrite) = true ∧ (∃ t, exec (.transfer 0x48 oneWrite) (simAt 0) = .next t) :=
  ⟨⟨rfl, ⟨_, rfl⟩, rfl⟩, rfl, _, rfl⟩

/-- A device at the address, and none. -/
theorem witness_Detect :
    (MayCall 0x48 (simAt 0) ∧ (simAt 0).cfg.backend = .simulated ∧ (simAt 0).eng.bus = .idle ∧
      ((simAt 0).sim.find 0x48).isSome = true) ∧
    MayCall 0x49 (simAt 0) ∧ ((simAt 0).sim.find 0x49).isSome = false :=
  ⟨⟨mayCall_sim 0, rfl, rfl, rfl⟩, ⟨⟨rfl, rfl⟩, rfl, by decide⟩, rfl⟩

/-- A store at the last index of the pointer's range: the pointer wraps. -/
theorem witness_RegisterWrites :
    MayCall 0x48 (simAt 0xFF) ∧ (simAt 0xFF).cfg.backend = .simulated ∧ (simAt 0xFF).eng.bus = .idle ∧
      DeviceAt 0x48 regs 0xFF (simAt 0xFF) ∧
      (Instr.regWrite8 0x48 0xFF 0x01 = .regWrite8 0x48 0xFF 0x01 ∧ ([0x01] : List Byte) = [0x01]) :=
  ⟨mayCall_sim _, rfl, rfl, deviceAt_sim _, rfl, rfl⟩

theorem witness_BlockReads :
    MayCall 0x48 (simAt 0xFF) ∧ (simAt 0xFF).cfg.backend = .simulated ∧ (simAt 0xFF).eng.bus = .idle ∧
      DeviceAt 0x48 regs 0xFF (simAt 0xFF) := ⟨mayCall_sim _, rfl, rfl, deviceAt_sim _⟩

theorem witness_RegisterReads :
    MayCall 0x48 (simAt 0) ∧ (simAt 0).cfg.backend = .simulated ∧ (simAt 0).eng.bus = .idle ∧
      DeviceAt 0x48 regs 0 (simAt 0) := ⟨mayCall_sim _, rfl, rfl, deviceAt_sim _⟩

/-- A device, with a value that changes and one that does not (T-HP-12, T-HP-15), no device (T-HP-17), and another
caller's write between the two transfers. -/
theorem witness_UpdateMasked :
    (MayCall 0x48 (simAt 0) ∧ (simAt 0).cfg.backend = .simulated ∧ (simAt 0).eng.bus = .idle ∧
      (simAt 0).host.race = [] ∧ DeviceAt 0x48 regs 0 (simAt 0)) ∧
    ((0x00 : Byte) &&& ~~~0x20) ||| ((0x20 : Byte) &&& 0x20) ≠ 0x00 ∧
    ((0x77 : Byte) &&& ~~~0x00) ||| ((0xFF : Byte) &&& 0x00) = 0x77 ∧
    MayCall 0x49 (simAt 0) ∧ (simAt 0).sim.find 0x49 = none :=
  ⟨⟨mayCall_sim _, rfl, rfl, rfl, deviceAt_sim _⟩, by decide, by decide, ⟨⟨rfl, rfl⟩, rfl, by decide⟩, rfl⟩

theorem witness_UpdateMasked_race :
    MayCall 0x48 { simAt 0 with host := { (simAt 0).host with race := [[⟨0x48, oneWrite⟩]] } } ∧
    ∃ t u rs, exec (.regRead8 0x48 3)
        { simAt 0 with host := { (simAt 0).host with race := [[⟨0x48, oneWrite⟩]] } } = .next t ∧
      t.host.result = .okByte 0x00 ∧
      runAll (([[⟨0x48, oneWrite⟩]] : List (List Call)).headD [] |>.map (fun c => .transfer c.addr c.msgs) |>.append
        [.regWrite8 0x48 3 0x20]) { t with host := { t.host with race := [] } } = some (u, rs) :=
  ⟨⟨⟨rfl, rfl⟩, rfl, by decide⟩, _, _, _, rfl, rfl, rfl⟩

theorem witness_HelpersReturn :
    MayCall 0x48 (wire true true .idle) ∧ Willing 15 (wire true true .idle) ∧ (wire true true .idle).host.race = [] ∧
      (Instr.updateMasked 0x48 0 0 0, 15) ∈ [(Instr.updateMasked 0x48 0 0 0, 15)] :=
  ⟨⟨⟨rfl, rfl⟩, rfl, by decide⟩, clockFree _ rfl rfl, rfl, List.mem_singleton.2 rfl⟩

theorem witness_EndingEvents :
    (resp .sentData 7 regs).host.irqEn = true ∧ (resp .sentData 7 regs).tgt.pending = [] := ⟨rfl, rfl⟩

/-- The three states with a transition, and a pointer at each edge of the file: inside, read-only, outside. -/
theorem witness_ByteReceived :
    (resp .newTransaction 0 regs).host.irqEn = true ∧ (resp .newTransaction 0 regs).tgt.pending = [] ∧
      (resp .newTransaction 0 regs).tgt.file.wf = true ∧ (resp .receivedAddress 7 regs).tgt.file.wf = true ∧
      (resp .receivedData 8 regs).tgt.file.wf = true ∧
      ((7 : Byte).toNat < regs.n ∧ (7 : Byte).toNat ∉ regs.ro) ∧ ¬ (8 : Byte).toNat < regs.n ∧
      (fileOf [0, 0x11, 0x55, 0] [2]).wf = true ∧ (2 : Byte).toNat ∈ (fileOf [0, 0x11, 0x55, 0] [2]).ro ∧
      (resp .idle 0 regs).tgt.tstate = .idle ∧ (resp .sentData 0 regs).tgt.tstate = .sentData := by decide

theorem witness_ByteRequested :
    (resp .newTransaction 0xFF regs).host.irqEn = true ∧ (resp .newTransaction 0xFF regs).tgt.pending = [] ∧
      (Prev.first = .first ∧ (resp .newTransaction 0xFF regs).tgt.tstate = .newTransaction) ∧
      (Prev.acked = .acked ∧ (resp .sentData 7 regs).tgt.tstate = .sentData) ∧
      (Prev.nacked = .nacked ∧ (resp .sentData 7 regs).tgt.tstate = .sentData) ∧
      ¬ ((Prev.acked = .first ∧ (resp .idle 7 regs).tgt.tstate = .newTransaction) ∨
        (Prev.acked ≠ .first ∧ (resp .idle 7 regs).tgt.tstate = .sentData)) := by decide

theorem witness_EventsOutOfState :
    (resp .idle 0 regs).host.irqEn = true ∧ (resp .idle 0 regs).tgt.pending = [] ∧
      eventOf (.evRxByte 5) = some (.rxByte 5) ∧ exec (.evRxByte 5) (resp .idle 0 regs) = .refused .eventOutOfState ∧
      ∃ t, exec (.evRxByte 5) (resp .newTransaction 0 regs) = .next t := ⟨rfl, rfl, rfl, rfl, _, rfl⟩

/-- Interrupts masked with an event raised, and with one pending while another is to come; interrupts enabled with one
pending; a host that keeps R43's rule while an event, a callback or no step of that path comes; the end of a critical
section; and inside one, with an event held, a read and a write of an entry at each edge of
the file. -/
theorem witness_EventDelivery :
    (eventOf .evStop = some .stop ∧ (reached false [] []).host.irqEn = false) ∧
    ((reached true [.stop] []).host.irqEn = true ∧ (reached true [.stop] []).tgt.pending = .stop :: []) ∧
    (KeepsFileRule (reached true [] [.word [0x51, 0x00, 0x01]]) ∧
      (next? (step (reached true [] [.word [0x51, 0x00, 0x01]]))).map (fun s => decide (s.tgt.file = regs)) = some false ∧
      KeepsFileRule (reached true [] [.readReg 1]) ∧
      (next? (step (reached true [] [.readReg 1]))).map (fun s => decide (s.tgt.file = regs)) = some true) ∧
    ((reached false [.stop] [.word [0x41]]).host.irqEn = false ∧
      (∃ t, step (reached false [.stop] [.word [0x41]]) = .next t) ∧
      (reached false [.stop] [.word [0x41]]).tgt.pending ≠ []) ∧
    deliverable (reached false [.stop] [.mask true]) = false ∧ busy (reached false [.stop] [.mask true]) = false ∧
      (reached false [.stop] [.mask true]).host.input = .mask true :: [] ∧
    (∀ a, deliverable (reached false [.stop] [a]) = false ∧ busy (reached false [.stop] [a]) = false ∧
      (reached false [.stop] [a]).host.input = a :: [] ∧ (reached false [.stop] [a]).tgt.file.wf = true) ∧
    7 < regs.n ∧ ¬ 8 < regs.n ∧ (reached false [.stop] []).tgt.file = regs :=
  ⟨⟨rfl, rfl⟩, ⟨rfl, rfl⟩, ⟨fun _ _ h => by simp [reached] at h, by decide, fun _ _ h => by simp [reached] at h, by decide⟩,
    ⟨rfl, ⟨_, rfl⟩, by decide⟩, rfl, rfl, rfl, fun _ => ⟨rfl, rfl, rfl, rfl⟩, by decide, by decide, rfl⟩

/-- Each class raised where all stand, and events raised together out of their order. -/
theorem witness_EventPriority :
    InOrder [.busErr, .stop, .rxByte 1] ∧
      insertEvent .coll [.busErr, .stop, .rxByte 1] = [.busErr, .coll, .stop, .rxByte 1] ∧
      insertEvent .stop [.busErr, .stop, .rxByte 1] = [.busErr, .stop, .stop, .rxByte 1] ∧
      insertEvent (.rxByte 2) [.busErr, .stop, .rxByte 1] = [.busErr, .stop, .rxByte 1, .rxByte 2] ∧
      (reached false [] []).tgt.pending = [] := by
  refine ⟨?_, by decide⟩
  unfold InOrder
  decide

/-- A front end inside a byte of a transaction addressed to it, receiving or sending. -/
def inside (d : Dir) (bits : List Bool) (b : Option Byte) : WireFront :=
  ⟨⟨0x2A, false, some d, true⟩, ⟨true, bits⟩, b⟩

/-- A stop and a start inside a byte, at the first place that counts; one clock before it; a lost bit at each edge of
the byte; a bit sent as 0. -/
theorem witness_FrontEndFindsErrors :
    (frontEdge (inside .write [true, false] none) ⟨true, false⟩ ⟨true, true⟩).2 = [.busErr, .stop] ∧
      (frontEdge (inside .write [true, true] none) ⟨true, true⟩ ⟨true, false⟩).2 = [.busErr] ∧
      (frontEdge (inside .write [false] none) ⟨true, false⟩ ⟨true, true⟩).2 = [.stop] ∧
      (frontEdge (inside .read [] (some 0x81)) ⟨false, false⟩ ⟨true, false⟩).2 = [.coll] ∧
      (frontEdge (inside .read (List.replicate 7 false) (some 0x81)) ⟨false, false⟩ ⟨true, false⟩).2 = [.coll] ∧
      (frontEdge (inside .read [true] (some 0x81)) ⟨false, false⟩ ⟨true, false⟩).2 = [] := by decide

/-- T-TG-02, from the controller's trace; and a byte read and one written behind the last one raise nothing. -/
theorem witness_TransactionsServed :
    ([0xAB, 0xCD] : List Byte) ≠ [] ∧
      (∀ y ∈ [Sym.rx 0xFF false, Sym.tx 0x01 false], ∃ b k, y = .tx b k ∨ y = .rx b k) ∧
      (handleAll (cfg .simulated) (Target.idleWith regs 7)
        (frontEvents (frontIdle 0x2A) [.start, .tx 0x54 true, .tx 0x01 true, .rstart, .tx 0x55 true,
          .rx 0xAB true, .rx 0xCD false, .rx 0xFF false, .tx 0x01 false, .stop])).map
            (fun r => (sentBytes r.2, r.1.tstate, r.1.ptr)) =
        some ([0xAB, 0xCD], .idle, 3) := by
  refine ⟨by decide, ?_, by decide⟩
  intro y hy
  simp only [List.mem_cons, List.not_mem_nil, or_false] at hy
  rcases hy with rfl | rfl
  · exact ⟨_, _, .inr rfl⟩
  · exact ⟨_, _, .inl rfl⟩

theorem witness_ResponderActsAsTheReferenceDevice :
    MayCall 0x48 (simAt 0) ∧ (simAt 0).cfg.backend = .simulated ∧ (simAt 0).eng.bus = .idle ∧
      DeviceAt 0x48 regs 0 (simAt 0) := ⟨mayCall_sim _, rfl, rfl, deviceAt_sim _⟩

/-- Inside the file, outside it, and at a read-only entry. -/
theorem witness_Callbacks :
    (simAt 0).tgt.file.wf = true ∧ (6 : Byte).toNat < (simAt 0).tgt.file.n ∧
      ¬ (7 : Byte).toNat < (simAt 0).tgt.file.n ∧
      (resp .idle 0 (fileOf [0, 0x11, 0x55, 0] [2])).tgt.file.wf = true ∧
      (2 : Byte).toNat ∈ (resp .idle 0 (fileOf [0, 0x11, 0x55, 0] [2])).tgt.file.ro := by decide

theorem witness_EngineIgnoresResponder :
    (Instr.detect 0x48).isEvent = false ∧ isCallback (.detect 0x48) = false ∧
      ∃ t, exec (.detect 0x48) (simAt 0) = .next t := ⟨rfl, rfl, _, rfl⟩

theorem witness_ResponderIgnoresEngine :
    ((Instr.evStop.isEvent || isCallback .evStop) = true ∧ ∃ t, exec .evStop (simAt 0) = .next t) ∧
      ((Instr.isEvent (.readRegister 0) || isCallback (.readRegister 0)) = true ∧
        ∃ t, exec (.readRegister 0) (simAt 0) = .next t) := ⟨⟨rfl, _, rfl⟩, rfl, _, rfl⟩

end Sys2Proof.Tests
end

/-! ## The entry of the input that a step takes (O10) -/

section

namespace Sys2Proof.Machine

open Sys2Proof

/-- The event-handling path is made of the events and of the register file's callbacks. -/
theorem onEventPath_eq_isEvent_or_isCallback (i : Instr) : i.onEventPath = (i.isEvent || isCallback i) := by
  cases i <;> rfl

/-- An event waits for the one before it, a callback for the interrupts, an operation of the host for the end of the
one that runs. -/
theorem Arrival.word_ready {s : State} {w : List Byte} {i : Instr} (hd : decode .host w = .ok i)
    (hevent : i.isEvent = true → s.tgt.pending = []) (hcallback : isCallback i = true → s.host.irqEn = true)
    (hhost : i.isEvent = false → isCallback i = false → busy s = false) : (Arrival.word w).ready s = true := by
  simp only [Arrival.ready, hd, onEventPath_eq_isEvent_or_isCallback]
  cases he : i.isEvent with
  | true => simp [hevent he]
  | false =>
    cases hc : isCallback i with
    | true => simp [hcallback hc]
    | false => simp [hhost he hc]

/-- An entry of the input that spells an operation runs it. -/
theorem arrive_word {w : List Byte} {i : Instr} (hd : decode .host w = .ok i) (s : State) :
    arrive (.word w) s = exec i s := by
  simp only [arrive, hd]

/-- Settles O10: the first entry is ready, so the step is its arrival, which runs what it spells. -/
theorem stepRunsHostOperation : Obligations.StepRunsHostOperation := by
  intro s w rest i hdue hinput hd hevent hcallback hhost
  calc step s
      _ = arrive (.word w) (withInput rest s) :=
        step_arrive hdue hinput (Arrival.word_ready hd hevent hcallback hhost)
      _ = exec i (withInput rest s) := arrive_word hd _

end Sys2Proof.Machine

end

/-! ## Reset, the step of a standing call, and the start of a transfer (O1, O11, O42) -/

section

namespace Sys2Proof.Machine

open Sys2Proof

theorem inv_reset : Inv State.reset where
  file := by simp [State.reset, Target.reset, RegFile.reset, RegFile.wf, Memory.wf]
  sim := rfl
  pending := rfl
  samples := Nat.le_add_left 1 _
  seq := rfl
  arb _ := rfl
  masked _ h := by cases h

/-- Settles O1: the cells are those of the reset state, and it is legal. -/
theorem resetState : Obligations.ResetState :=
  ⟨rfl, rfl, rfl, rfl, rfl, rfl, rfl, rfl, inv_reset⟩

/-- A call that does not wait goes on. -/
theorem engineStep_call {s : State} (hw : s.eng.waiting = none) (hp : s.eng.seq.phase ≠ .idle) :
    engineStep s = callStep s := by
  simp [engineStep, hw, hp]

theorem callStep_message {s : State} {c : Call} {m : Msg} (hc : s.eng.call = some c)
    (hp : s.eng.seq.phase = .preStop) (hm : c.msgs[s.eng.seq.i]? = some m) : callStep s = exec m.toInstr s := by
  simp only [callStep, hc, hp, hm]

theorem callStep_address {s : State} {c : Call} (hc : s.eng.call = some c) (hp : s.eng.seq.phase = .addr) :
    callStep s = exec (if hasRead s.eng.flg then .addrR c.addr else .addrW c.addr) s := by
  simp only [callStep, hc, hp]

/-- Settles O11: with no event and no input the engine goes on with the operation its call stands at. -/
theorem stepRunsCallOperation : Obligations.StepRunsCallOperation := by
  intro s c hd hi hw hc
  refine ⟨fun m hp hm => ?_, fun hp => ?_⟩
  · rw [step_engine hd hi, engineStep_call hw (by simp [hp]), callStep_message hc hp hm]
  · rw [step_engine hd hi, engineStep_call hw (by simp [hp]), callStep_address hc hp]

/-- Whether a transfer is refused depends on the phase, and all it does besides on the state its call begins in. -/
theorem transfer_congr {a : Addr} {msgs : List Msg} {s t : State} (hp : t.eng.seq.phase = s.eng.seq.phase)
    (hb : beginCall ⟨a, msgs⟩ t = beginCall ⟨a, msgs⟩ s) : transfer a msgs t = transfer a msgs s := by
  unfold transfer
  rw [hp, hb]

/-- Settles O42: `beginCall` writes every cell the call before it left. -/
theorem transfersStartClean : Obligations.TransfersStartClean := by
  intro a msgs s r f x y tr b i j k
  exact congrArg toOutcome (transfer_congr rfl rfl)

end Sys2Proof.Machine

end

/-! ## What a row of R193 and a step of the engine can be -/

section

namespace Sys2Proof.Machine

open Sys2Proof

/-- The row of R193 that a call `c` stands at, as a run of the engine. -/
inductive SeqRow (c : Call) (s : State) : Run Unit → Prop
  | rest : s.eng.seq.phase = .idle → SeqRow c s (.done () s)
  | check : s.eng.seq.phase = .check → SeqRow c s (rowCheck c s)
  | preStop : s.eng.seq.phase = .preStop → SeqRow c s (rowPreStop s)
  | loadFlags (m : Msg) : s.eng.seq.phase = .loadFlags → c.msgs[s.eng.seq.i]? = some m →
      SeqRow c s (.done () (rowLoadFlags m s))
  | cond : s.eng.seq.phase = .cond → SeqRow c s (rowCond s)
  | addr : s.eng.seq.phase = .addr → SeqRow c s (rowAddr (addrByte c.addr (hasRead s.eng.flg)) s)
  | send (b : Byte) : s.eng.seq.phase = .dataWr → SeqRow c s (rowSend b s)
  | recv (len : Nat) : s.eng.seq.phase = .dataRd → SeqRow c s (rowRecv len s)
  | endMsg : insideLoop s.eng.seq.phase = true → SeqRow c s (.done () (rowEndMsg s))
  | final : s.eng.seq.phase = .finalStop → SeqRow c s (rowFinal s)
  | fail (e : BusError) : s.eng.seq.phase = .failStop e → SeqRow c s (takeFailure e s)
  | ret : SeqRow c s (.done () (returnCall s))

/-- A move of the sequencer is a row of R193. -/
theorem seqMove_next {s t : State} (h : seqMove s = .next t) :
    ∃ c r, s.eng.call = some c ∧ SeqRow c s r ∧ toOutcome r = .next t := by
  unfold seqMove at h
  split at h
  · cases h
  next c hc =>
  split at h
  next hp => exact ⟨c, _, hc, .rest hp, h⟩
  next hp => exact ⟨c, _, hc, .check hp, h⟩
  next hp => exact ⟨c, _, hc, .preStop hp, h⟩
  next hp =>
    split at h
    · cases h
    next m hm => exact ⟨c, _, hc, .loadFlags m hp hm, h⟩
  next hp => exact ⟨c, _, hc, .cond hp, h⟩
  next hp => exact ⟨c, _, hc, .addr hp, h⟩
  next hp =>
    split at h
    · split at h
      next b _ => exact ⟨c, _, hc, .send b hp, h⟩
      · exact ⟨c, _, hc, .endMsg (by rw [hp]; rfl), h⟩
    · cases h
    · cases h
  next hp =>
    split at h
    next len _ =>
      split at h
      · exact ⟨c, _, hc, .recv len hp, h⟩
      · exact ⟨c, _, hc, .endMsg (by rw [hp]; rfl), h⟩
    · cases h
    · cases h
  next hp => exact ⟨c, _, hc, .final hp, h⟩
  next e hp => exact ⟨c, _, hc, .fail e hp, h⟩
  · exact ⟨c, _, hc, .ret, h⟩

/-- All that the engine going on can be: nothing, the message or the address byte its call stands at, or a row. -/
theorem engineStep_next {s t : State} (h : engineStep s = .next t) :
    t = s ∨ (∃ m, currentMsg s = some m ∧ exec m.toInstr s = .next t) ∨
      (∃ i : Instr, (∃ a, i = .addrR a ∨ i = .addrW a) ∧ exec i s = .next t) ∨ seqMove s = .next t := by
  unfold engineStep callStep at h
  split at h
  · cases h; exact .inl rfl
  split at h
  · cases h; exact .inl rfl
  split at h
  · cases h
  next c hc _ =>
    split at h
    next m hm => exact .inr (.inl ⟨m, by simp [currentMsg, hc, hm], h⟩)
    · cases h
  next c _ _ =>
    refine .inr (.inr (.inl ⟨_, ?_, h⟩))
    split
    · exact ⟨_, .inl rfl⟩
    · exact ⟨_, .inr rfl⟩
  all_goals exact .inr (.inr (.inr h))

/-- The transport's part of `CONFIGURE` touches the two transports only. -/
theorem configureTransport_eq (m : Mode) (s : State) :
    ∃ l r, configureTransport m s = { s with line := l, srp := r } := by
  unfold configureTransport
  split <;> exact ⟨_, _, rfl⟩

/-- All a `CONFIGURE` that is not refused can do. -/
theorem exec_configure_next {m : Mode} {s t : State} (h : exec (.configure m) s = .next t) :
    s.eng.configured = false ∧ ∃ l r, t = setResult .ok { s with
      line := l, srp := r, eng := { s.eng with mode := m, bus := .idle, configured := true, trace := [] } } := by
  obtain ⟨l, r, hl⟩ := configureTransport_eq m s
  simp only [exec, execConfigure, hl] at h
  split at h
  · cases h
  next hc =>
  split at h
  · cases h
  · cases h
    exact ⟨by simpa using hc, l, r, rfl⟩

/-- A message runs only where a call stands at one (R181). -/
theorem execMessage_next {m : Msg} {s t : State} (h : execMessage m s = .next t) :
    s.eng.seq.phase = .preStop ∧
      ∃ c, s.eng.call = some c ∧ toOutcome ((runMsg c.addr m s).andThen endInCall) = .next t := by
  unfold execMessage at h
  split at h
  · cases h
  next c hc =>
  split at h
  next hp => exact ⟨hp, c, hc, h⟩
  · cases h

/-- An address byte runs only where a call stands at its address byte (R181). -/
theorem execAddress_next {b : Byte} {s t : State} (h : execAddress b s = .next t) :
    s.eng.seq.phase = .addr ∧ s.eng.call.isSome = true ∧ toOutcome ((rowAddr b s).andThen endInCall) = .next t := by
  unfold execAddress at h
  split at h
  · cases h
  next c hc =>
  split at h
  next hp => exact ⟨hp, by simp [hc], h⟩
  · cases h

/-- The operations by what they can do: those of the event-handling path, the primitives of one transport, the calls,
`CONFIGURE`, and the messages and address bytes of a standing call. -/
inductive ExecKind (i : Instr) : Prop
  | responder (h : i.onEventPath = true)
  | primitive (h : isPrimitive i = true)
  | call (h : isCall i = true)
  | configure (m : Mode) (h : i = .configure m)
  | message (m : Msg) (h : ∀ s, exec i s = execMessage m s)
  | address (b : Byte) (h : ∀ s, exec i s = execAddress b s)

theorem exec_kind (i : Instr) : ExecKind i := by
  cases i
  case configure m => exact .configure m rfl
  case msgWrite rs st buf => exact .message ⟨rs, st, .write buf⟩ fun _ => rfl
  case msgRead rs st len => exact .message ⟨rs, st, .read len⟩ fun _ => rfl
  case addrW a => exact .address (addrByte a false) fun _ => rfl
  case addrR a => exact .address (addrByte a true) fun _ => rfl
  case evAddr | evStop | evRxByte | evTxReq | evBusErr | evColl | readRegister | writeRegister => exact .responder rfl
  case transfer | detect | write | read | writeThenRead | regRead8 | regWrite8 | regRead16Be | regRead16Le |
      regWrite16Be | regWrite16Le | updateMasked => exact .call rfl
  all_goals exact .primitive rfl

end Sys2Proof.Machine

end

/-! ## The settings of a configured bus (O4) -/

section

namespace Sys2Proof.Machine

open Sys2Proof

/-- The parameters and all that only `CONFIGURE` writes stand as they were (R21, R160, R180). -/
structure SettingsKept (s t : State) : Prop where
  cfg : t.cfg = s.cfg
  configured : t.eng.configured = s.eng.configured
  mode : t.eng.mode = s.eng.mode
  tHalf : t.line.tHalf = s.line.tHalf
  tQuarter : t.line.tQuarter = s.line.tQuarter
  drive : t.line.drive = s.line.drive
  baud : t.srp.baud = s.srp.baud
  enable : t.srp.enable = s.srp.enable

theorem SettingsKept.refl (s : State) : SettingsKept s s := ⟨rfl, rfl, rfl, rfl, rfl, rfl, rfl, rfl⟩

theorem SettingsKept.target (s : State) (g : Target) : SettingsKept s { s with tgt := g } :=
  ⟨rfl, rfl, rfl, rfl, rfl, rfl, rfl, rfl⟩

theorem BusFrame.settings {s t : State} (h : BusFrame s t) : SettingsKept s t :=
  ⟨h.cfg, h.configured, h.mode, h.tHalf, h.tQuarter, h.drive, h.baud, h.enable⟩

theorem PrimOpFrame.settings {s t : State} (h : PrimOpFrame s t) : SettingsKept s t :=
  ⟨h.cfg, h.configured, h.mode, h.tHalf, h.tQuarter, h.drive, h.baud, h.enable⟩

/-- The result, the interrupt enable and the sequencer's place are no settings. -/
theorem SettingsKept.stopped {s t : State} (h : SettingsKept s t) (r : Ret) :
    SettingsKept s (setPhase .done (setResult r (leave t))) :=
  have g := (leave_frame t).settings
  ⟨g.cfg.trans h.cfg, g.configured.trans h.configured, g.mode.trans h.mode, g.tHalf.trans h.tHalf,
    g.tQuarter.trans h.tQuarter, g.drive.trans h.drive, g.baud.trans h.baud, g.enable.trans h.enable⟩

theorem stopRow_settings (s : State) (r : Ret) :
    ((busStop s).andThen fun s => .done () (setPhase .done (setResult r (leave s)))).Post
      (fun _ t => SettingsKept s t) (SettingsKept s) :=
  (busStop_post s).andThen (fun _ h => h.1.frame.settings) fun _ h => h.1.1.frame.settings.stopped r

theorem takeFailure_settings (e : BusError) (s : State) :
    (takeFailure e s).Post (fun _ t => SettingsKept s t) (SettingsKept s) := by
  cases e with
  | arbitrationLost =>
    exact SettingsKept.stopped (s := s) (t := srpStopNoWait s) ⟨rfl, rfl, rfl, rfl, rfl, rfl, rfl, rfl⟩ _
  | _ => exact stopRow_settings s _

theorem rowCheck_settings (c : Call) (s : State) :
    (rowCheck c s).Post (fun _ t => SettingsKept s t) (SettingsKept s) := by
  unfold rowCheck
  split
  · exact ⟨rfl, rfl, rfl, rfl, rfl, rfl, rfl, rfl⟩
  split
  · exact ⟨rfl, rfl, rfl, rfl, rfl, rfl, rfl, rfl⟩
  split
  · trivial
  · have h := (enter_frame s).settings
    exact ⟨h.cfg, h.configured, h.mode, h.tHalf, h.tQuarter, h.drive, h.baud, h.enable⟩

theorem rowEndMsg_settings (s : State) : SettingsKept s (rowEndMsg s) := by
  unfold rowEndMsg
  split <;> exact ⟨rfl, rfl, rfl, rfl, rfl, rfl, rfl, rfl⟩

theorem SeqRow.settings {c : Call} {s : State} {r : Run Unit} (h : SeqRow c s r) :
    r.Post (fun _ t => SettingsKept s t) (SettingsKept s) := by
  cases h with
  | rest => exact SettingsKept.refl s
  | check => exact rowCheck_settings c s
  | preStop => exact (rowPreStop_post s).mono (fun _ _ h => h.1.frame.settings) fun _ h => h.loop.frame.settings
  | loadFlags m => exact ⟨rfl, rfl, rfl, rfl, rfl, rfl, rfl, rfl⟩
  | cond => exact (rowCond_post s).mono (fun _ _ h => h.1.frame.settings) fun _ h => h.loop.frame.settings
  | addr => exact (rowAddr_post _ s).mono (fun _ _ h => h.1.frame.settings) fun _ h => h.1.frame.settings
  | send b => exact (rowSend_post b s).mono (fun _ _ h => h.1.frame.settings) fun _ h => h.1.frame.settings
  | recv len => exact (rowRecv_post len s).mono (fun _ _ h => h.1.frame.settings) fun _ h => h.1.frame.settings
  | endMsg => exact rowEndMsg_settings s
  | final => exact stopRow_settings s .ok
  | fail e => exact takeFailure_settings e s
  | ret => exact ⟨rfl, rfl, rfl, rfl, rfl, rfl, rfl, rfl⟩

theorem seqMove_settings {s t : State} (h : seqMove s = .next t) : SettingsKept s t := by
  obtain ⟨c, r, -, hr, ht⟩ := seqMove_next h
  exact (toOutcome_next hr.settings ht).elim id id

/-- An operation on a configured bus writes no setting: the one that would, `CONFIGURE`, is refused. -/
theorem exec_settings {i : Instr} {s t : State} (hc : s.eng.configured = true) (h : exec i s = .next t) :
    SettingsKept s t := by
  cases exec_kind i with
  | responder hi =>
    obtain ⟨g, rfl⟩ := exec_target ((onEventPath_eq_isEvent_or_isCallback i).symm.trans hi) h
    exact SettingsKept.target s g
  | primitive hi =>
    obtain ⟨hop, hb⟩ := exec_primitive hi h
    exact (hop.frame hb).settings
  | call hi => exact (exec_call_next hi h).elim (fun h => h.frame.settings) fun h => h.frame.settings
  | configure m hi =>
    subst hi
    exact absurd ((exec_configure_next h).1.symm.trans hc) Bool.false_ne_true
  | message m hi =>
    exact (execMessage_step (hi s ▸ h)).elim (fun h => h.frame.settings) fun h => h.1.frame.settings
  | address b hi =>
    exact (execAddress_step (hi s ▸ h)).elim (fun h => h.frame.settings) fun h => h.1.frame.settings

theorem engineStep_settings {s t : State} (hc : s.eng.configured = true) (h : engineStep s = .next t) :
    SettingsKept s t := by
  rcases engineStep_next h with rfl | ⟨m, -, h⟩ | ⟨i, -, h⟩ | h
  · exact SettingsKept.refl t
  · exact exec_settings hc h
  · exact exec_settings hc h
  · exact seqMove_settings h

theorem arrive_settings {a : Arrival} {s t : State} (hc : s.eng.configured = true) (h : arrive a s = .next t) :
    SettingsKept s t := by
  cases a with
  | word w =>
    cases hd : decode .host w with
    | error e => simp [arrive, hd] at h
    | ok i => exact exec_settings hc ((arrive_word hd s).symm.trans h)
  | together es =>
    obtain ⟨g, rfl⟩ := raiseEvents_next h
    exact SettingsKept.target s g
  | mask en => cases h; exact ⟨rfl, rfl, rfl, rfl, rfl, rfl, rfl, rfl⟩
  | readReg i => cases h; exact ⟨rfl, rfl, rfl, rfl, rfl, rfl, rfl, rfl⟩
  | writeReg i v => cases h; exact ⟨rfl, rfl, rfl, rfl, rfl, rfl, rfl, rfl⟩

/-- Once configured, a step writes no setting. -/
theorem step_settings {s t : State} (hc : s.eng.configured = true) (h : step s = .next t) : SettingsKept s t := by
  rcases step_cases s with ⟨-, hs⟩ | ⟨-, -, hs⟩ | ⟨-, a, rest, -, -, hs⟩
  · obtain ⟨g, rfl⟩ := deliver_next (hs.symm.trans h)
    exact SettingsKept.target s g
  · exact engineStep_settings hc (hs.symm.trans h)
  · have hk := arrive_settings (s := withInput rest s) hc (hs.symm.trans h)
    exact ⟨hk.cfg, hk.configured, hk.mode, hk.tHalf, hk.tQuarter, hk.drive, hk.baud, hk.enable⟩

/-- Settles O4: `CONFIGURE` is refused, and every other operation keeps the settings. -/
theorem configuredForLife : Obligations.ConfiguredForLife := by
  intro s hc
  refine ⟨fun m => by simp only [exec, execConfigure, hc, if_true], fun t h => ?_⟩
  have hk := step_settings hc h
  exact ⟨hk.cfg, hk.configured.trans hc, hk.mode, hk.tHalf, hk.tQuarter, hk.drive, hk.baud, hk.enable⟩

end Sys2Proof.Machine

end

/-! ## The responder stays legal -/

section

namespace Sys2Proof.Machine

open Sys2Proof

theorem pendingSorted_cons {e : Event} {es : List Event} :
    pendingSorted (e :: es) = true ↔ (∀ d ∈ es, eventClass e ≤ eventClass d) ∧ pendingSorted es = true := by
  simp [pendingSorted]

theorem mem_insertEvent {e d : Event} {es : List Event} (h : d ∈ insertEvent e es) : d = e ∨ d ∈ es := by
  induction es with
  | nil => simpa [insertEvent] using h
  | cons c es ih =>
    rw [insertEvent] at h
    split at h
    · rcases List.mem_cons.1 h with rfl | h
      · simp
      · exact (ih h).imp_right (List.mem_cons_of_mem c)
    · exact List.mem_cons.1 h

theorem insertEvent_sorted (e : Event) {es : List Event} (h : pendingSorted es = true) :
    pendingSorted (insertEvent e es) = true := by
  induction es with
  | nil => rfl
  | cons c es ih =>
    obtain ⟨hc, hs⟩ := pendingSorted_cons.1 h
    rw [insertEvent]
    split
    next hle =>
      refine pendingSorted_cons.2 ⟨fun d hd => ?_, ih hs⟩
      rcases mem_insertEvent hd with rfl | hd
      · exact hle
      · exact hc d hd
    next hlt =>
      refine pendingSorted_cons.2 ⟨fun d hd => ?_, h⟩
      rcases List.mem_cons.1 hd with rfl | hd
      · omega
      · exact (Nat.le_of_not_le hlt).trans (hc d hd)

theorem foldl_insertEvent_sorted (es : List Event) {ps : List Event} (h : pendingSorted ps = true) :
    pendingSorted (es.foldl (fun ps e => insertEvent e ps) ps) = true := by
  induction es generalizing ps with
  | nil => exact h
  | cons e es ih => exact ih (insertEvent_sorted e h)

/-- The handler leaves the pending events alone and keeps the register file legal: a written byte alone reaches it. -/
theorem handle_keeps {cfg : Params} {g u : Target} {e : Event} (h : handle cfg g e = some u) (hf : g.file.wf = true) :
    u.file.wf = true ∧ u.pending = g.pending := by
  unfold handle at h
  split at h
  case h_2 b =>
    split at h <;> cases h
    · exact ⟨hf, rfl⟩
    · exact ⟨RegFile.write_wf _ b hf, rfl⟩
    · exact ⟨RegFile.write_wf _ b hf, rfl⟩
  case h_3 p => split at h <;> cases h <;> exact ⟨hf, rfl⟩
  all_goals cases h; exact ⟨hf, rfl⟩

/-- A legal state with another responder that is legal too. -/
theorem Inv.target {s : State} (h : Inv s) {g : Target} (hf : g.file.wf = true) (hp : pendingSorted g.pending = true) :
    Inv { s with tgt := g } :=
  ⟨hf, h.sim, hp, h.samples, h.seq, h.arb, h.masked⟩

theorem Inv.input {s : State} (h : Inv s) (rest : List Arrival) : Inv (withInput rest s) :=
  ⟨h.file, h.sim, h.pending, h.samples, h.seq, h.arb, h.masked⟩

theorem Inv.result {s : State} (h : Inv s) (r : Ret) : Inv (setResult r s) :=
  ⟨h.file, h.sim, h.pending, h.samples, h.seq, h.arb, h.masked⟩

theorem deliver_inv {s t : State} (hs : Inv s) (h : deliver s = .next t) : Inv t := by
  unfold deliver at h
  split at h
  · cases h; exact hs
  next e rest hp =>
    have hsorted := hs.pending
    rw [hp] at hsorted
    split at h
    next u hu =>
      cases h
      obtain ⟨hf, hpend⟩ := handle_keeps hu hs.file
      exact hs.target hf (hpend ▸ (pendingSorted_cons.1 hsorted).2)
    · cases h

theorem raiseEvents_inv {es : List Event} {s t : State} (hs : Inv s) (h : raiseEvents es s = .next t) : Inv t := by
  have hp : Inv (pend es s) := hs.target hs.file (foldl_insertEvent_sorted es hs.pending)
  unfold raiseEvents at h
  dsimp only at h
  split at h
  · exact deliver_inv hp h
  · cases h; exact hp

theorem exec_responder_inv {i : Instr} {s t : State} (hi : i.onEventPath = true) (hs : Inv s)
    (h : exec i s = .next t) : Inv t := by
  cases i
  case evAddr | evStop | evRxByte | evTxReq | evBusErr | evColl => exact raiseEvents_inv hs h
  case readRegister index => cases h; exact hs.target hs.file hs.pending
  case writeRegister index byte => cases h; exact hs.target (RegFile.write_wf _ byte hs.file) hs.pending
  all_goals cases hi

end Sys2Proof.Machine

end

/-! ## The engine stays legal (O2) -/

section

namespace Sys2Proof.Machine

open Sys2Proof

/-! ### Places of the sequencer -/

theorem currentMsg_of_call {s : State} {c : Call} (h : s.eng.call = some c) :
    currentMsg s = c.msgs[s.eng.seq.i]? := by
  simp [currentMsg, h]

theorem seqLegal_of_message {s : State} {m : Msg} (hm : currentMsg s = some m)
    (hp : s.eng.seq.phase = .preStop ∨ s.eng.seq.phase = .loadFlags) : seqLegal s = true := by
  rcases hp with hp | hp <;> simp [seqLegal, hp, hm]

theorem seqLegal_of_address {s : State} {m : Msg} (hm : currentMsg s = some m) (hr : hasRead s.eng.flg = m.isRead)
    (hp : s.eng.seq.phase = .cond ∨ s.eng.seq.phase = .addr) : seqLegal s = true := by
  rcases hp with hp | hp <;> simp [seqLegal, hp, hm, hr]

theorem seqLegal_of_end {s : State} (hc : s.eng.call.isSome = true)
    (hp : s.eng.seq.phase = .finalStop ∨ (∃ e, s.eng.seq.phase = .failStop e) ∨ s.eng.seq.phase = .done) :
    seqLegal s = true := by
  rcases hp with hp | ⟨e, hp⟩ | hp <;> simp [seqLegal, hp, hc]

theorem seqLegal_message {s : State} (h : seqLegal s = true) (hp : s.eng.seq.phase = .preStop) :
    ∃ m, currentMsg s = some m := by
  simpa [seqLegal, hp, Option.isSome_iff_exists] using h

theorem seqLegal_address {s : State} (h : seqLegal s = true)
    (hp : s.eng.seq.phase = .cond ∨ s.eng.seq.phase = .addr) :
    ∃ m, currentMsg s = some m ∧ hasRead s.eng.flg = m.isRead := by
  cases hm : currentMsg s with
  | none => rcases hp with hp | hp <;> simp [seqLegal, hp, hm] at h
  | some m => exact ⟨m, rfl, by rcases hp with hp | hp <;> simpa [seqLegal, hp, hm] using h⟩

/-- Behind its message a call stands at the next one, or at the final stop. -/
theorem AfterMsg.seqLegal {s t : State} {c : Call} (hc : t.eng.call = some c) (h : AfterMsg c.msgs.length s t) :
    seqLegal t = true := by
  unfold AfterMsg at h
  split at h
  next hi =>
    obtain ⟨hp, hi'⟩ := h
    exact seqLegal_of_message (m := c.msgs[s.eng.seq.i + 1])
      (by rw [currentMsg_of_call hc, hi', List.getElem?_eq_getElem hi]) (.inl hp)
  · exact seqLegal_of_end (by simp [hc]) (.inl h.1)

theorem msgCount_of_call {s : State} {c : Call} (h : s.eng.call = some c) : msgCount s = c.msgs.length := by
  simp [msgCount, h]

theorem rowEndMsg_afterMsg (s : State) : AfterMsg (msgCount s) s (rowEndMsg s) := by
  unfold AfterMsg rowEndMsg
  split <;> exact ⟨rfl, rfl⟩

theorem rowEndMsg_loop (s : State) : LoopStep s (rowEndMsg s) := by
  unfold rowEndMsg
  split
  · exact LoopStep.place _ _ { s.eng.seq with phase := _, i := _ } _
  · exact LoopStep.place _ _ { s.eng.seq with phase := _ } _

theorem rowEndMsg_sim (s : State) : (rowEndMsg s).sim = s.sim := by
  unfold rowEndMsg
  split <;> rfl

/-- Loading the flags of the message leads to a place that takes its direction. -/
theorem rowLoadFlags_seqLegal {m : Msg} {s : State} (hm : currentMsg s = some m) :
    seqLegal (rowLoadFlags m s) = true := by
  have hm' : currentMsg (rowLoadFlags m s) = some m := hm
  have hr : hasRead (rowLoadFlags m s).eng.flg = m.isRead := hasRead_effectiveFlags s.eng.flg m
  by_cases hs : hasRestart (effectiveFlags s.eng.flg m) = true
  · exact seqLegal_of_address hm' hr (.inl (if_pos hs))
  · exact seqLegal_data hm' ((if_neg hs).trans (dataPhase_eq _ _ hr))

/-! ### What keeps a state legal -/

/-- The parameters and the responder stand; then the simulated bus, the sequencer's place, `ARBLOST` and the interrupt
enable decide whether the state is legal. -/
theorem Inv.framed {s t : State} (hs : Inv s) (hcfg : t.cfg = s.cfg) (htgt : t.tgt = s.tgt) (hsim : t.sim.wf = true)
    (hq : seqLegal t = true) (harb : s.cfg.backend ≠ .peripheral → t.eng.arbLost = false)
    (hirq : s.cfg.backend = .bitBang → insideLoop t.eng.seq.phase = true → t.host.irqEn = false) : Inv t where
  file := htgt ▸ hs.file
  sim := hsim
  pending := htgt ▸ hs.pending
  samples := hcfg ▸ hs.samples
  seq := hq
  arb := hcfg ▸ harb
  masked := hcfg ▸ hirq

/-- A part of the loop keeps a legal state legal when it ends at a place of the call. -/
theorem Inv.loop {s t : State} (hs : Inv s) (hin : insideLoop s.eng.seq.phase = true) (hl : LoopStep s t)
    (hsim : t.sim.wf = true) (hq : seqLegal t = true) : Inv t :=
  hs.framed hl.frame.cfg hl.frame.tgt hsim hq (fun hb => (hl.arb hb).trans (hs.arb hb))
    fun hb _ => hl.host ▸ hs.masked hb hin

/-- What leaves the sequencer where it is keeps a legal state legal, in the loop or out of it. -/
theorem Inv.still {s t : State} (hs : Inv s) (hl : LoopStep s t) (hsim : t.sim.wf = true)
    (hp : t.eng.seq.phase = s.eng.seq.phase) (hi : t.eng.seq.i = s.eng.seq.i) (hf : t.eng.flg = s.eng.flg) : Inv t :=
  hs.framed hl.frame.cfg hl.frame.tgt hsim ((seqLegal_eq hl.call hi hp hf).trans hs.seq)
    (fun hb => (hl.arb hb).trans (hs.arb hb)) fun hb hin => hl.host ▸ hs.masked hb (hp ▸ hin)

theorem Inv.hangsAt {s t : State} (hs : Inv s) (h : HangsAt s t) (hsim : t.sim.wf = true) : Inv t :=
  hs.still h.loop hsim h.phase h.i h.flg

/-- A call has stopped, with its result and the interrupt enable back (R189, R320). -/
theorem Inv.stopped {s : State} (hs : Inv s) (hc : s.eng.call.isSome = true) (r : Ret) :
    Inv (setPhase .done (setResult r (leave s))) :=
  have heng := leave_eng s
  hs.framed (leave_frame s).cfg (leave_frame s).tgt (leave_keeps (P := fun m => m.wf = true) hs.sim)
    (seqLegal_of_end ((congrArg (·.call.isSome) heng).trans hc) (.inr (.inr rfl)))
    (fun hb => (congrArg Engine.arbLost heng).trans (hs.arb hb)) fun _ hin => by cases hin

theorem Inv.returned {s : State} (hs : Inv s) : Inv (returnCall s) :=
  ⟨hs.file, hs.sim, hs.pending, hs.samples, rfl, fun _ => rfl, fun _ hin => by cases hin⟩

/-! ### The rows of R193 -/

/-- A run whose outcomes are legal states. -/
abbrev Legal (r : Run Unit) : Prop := r.Post (fun _ t => Inv t) Inv

/-- A row of the loop that completes at a place of the call, or waits where it stands. -/
theorem Legal.ofRow {r : Run Unit} {s : State} {D : Unit → State → Prop} (hs : Inv s)
    (hin : insideLoop s.eng.seq.phase = true) (hk : Keeps (fun m => m.wf = true) r) (h : r.Post D (HangsAt s))
    (hD : ∀ t, D () t → LoopStep s t ∧ seqLegal t = true) : Legal r :=
  (h.and hk).mono (fun _ t ⟨ht, hsim⟩ => hs.loop hin (hD t ht).1 hsim (hD t ht).2)
    fun _ ⟨ht, hsim⟩ => hs.hangsAt ht hsim

/-- A failed call stands at its failure stop. -/
theorem FailedWith.seqLegal {s t : State} {e : BusError} (h : FailedWith s t e) (hc : t.eng.call.isSome = true) :
    seqLegal t = true := seqLegal_of_end hc (.inr (.inl ⟨e, h.1⟩))

theorem LoopStep.call_isSome {s t : State} (hl : LoopStep s t) (hc : s.eng.call.isSome = true) :
    t.eng.call.isSome = true := hl.call.symm ▸ hc

theorem enter_cells (s : State) : (enter s).sim = s.sim ∧ (enter s).eng.call = s.eng.call ∧
    (enter s).eng.arbLost = s.eng.arbLost ∧ (s.cfg.backend = .bitBang → (enter s).host.irqEn = false) := by
  unfold enter
  cases s.cfg.backend <;> exact ⟨rfl, rfl, rfl, by simp⟩

/-- The loop of a call of at least one message begins with the interrupts off (R183, R195). -/
theorem Inv.entered {s : State} {c : Call} (hs : Inv s) (hc : s.eng.call = some c) (hm : c.msgs ≠ []) :
    Inv (seqAt .preStop 0 (setFlg flagRestart (enter s))) := by
  obtain ⟨hsim, hcall, harb, hirq⟩ := enter_cells s
  have hmsg : currentMsg (seqAt .preStop 0 (setFlg flagRestart (enter s))) = some (c.msgs.head hm) :=
    calc currentMsg (seqAt .preStop 0 (setFlg flagRestart (enter s)))
      _ = c.msgs[0]? := currentMsg_of_call (hcall.trans hc)
      _ = some (c.msgs.head hm) := by rw [← List.head?_eq_getElem?, List.head?_eq_some_head hm]
  exact hs.framed (enter_frame s).cfg (enter_frame s).tgt (hsim.symm ▸ hs.sim) (seqLegal_of_message hmsg (.inl rfl))
    (fun hb => harb.trans (hs.arb hb)) fun hb _ => hirq hb

theorem rowCheck_legal {s : State} {c : Call} (hs : Inv s) (hc : s.eng.call = some c) : Legal (rowCheck c s) := by
  have done (r : Ret) : Inv (setPhase .done (setResult r s)) :=
    ⟨hs.file, hs.sim, hs.pending, hs.samples, seqLegal_of_end (by simp [hc]) (.inr (.inr rfl)), hs.arb,
      fun _ hin => by cases hin⟩
  unfold rowCheck
  split
  · exact done _
  split
  · exact done _
  next hne =>
  split
  · trivial
  · exact hs.entered hc (by simpa using hne)

theorem rowPreStop_legal {s : State} (hs : Inv s) (hp : s.eng.seq.phase = .preStop) : Legal (rowPreStop s) := by
  obtain ⟨m, hm⟩ := seqLegal_message hs.seq hp
  refine .ofRow hs (by rw [hp]; rfl) (rowPreStop_keeps Sim.wf_closed hs.sim) (rowPreStop_post s) fun t ht => ?_
  obtain ⟨hl, -, -, hi, -, hph, -⟩ := ht
  exact ⟨hl, seqLegal_of_message ((currentMsg_eq hl.call hi).trans hm) (.inr hph)⟩

theorem rowCond_legal {s : State} (hs : Inv s) (hp : s.eng.seq.phase = .cond) : Legal (rowCond s) := by
  obtain ⟨m, hm, hr⟩ := seqLegal_address hs.seq (.inl hp)
  refine .ofRow hs (by rw [hp]; rfl) (rowCond_keeps Sim.wf_closed hs.sim) (rowCond_post s) fun t ht => ?_
  obtain ⟨hl, -, hf, hi, -, -, hph, -⟩ := ht
  exact ⟨hl, seqLegal_of_address ((currentMsg_eq hl.call hi).trans hm) (hf ▸ hr) (.inr hph)⟩

/-- The address byte, whatever it is: an acknowledged one leads to the data of the message. -/
theorem rowAddr_legal (b : Byte) {s : State} (hs : Inv s) (hp : s.eng.seq.phase = .addr)
    (hc : s.eng.call.isSome = true) : Legal (rowAddr b s) := by
  obtain ⟨m, hm, hr⟩ := seqLegal_address hs.seq (.inr hp)
  refine .ofRow hs (by rw [hp]; rfl) (rowAddr_keeps Sim.wf_closed b hs.sim)
    ((rowAddr_post b s).mono (fun _ _ h => h) fun _ h => h.at) fun t ht => ?_
  obtain ⟨hl, -, hi, -, a, -, ⟨e, he, -⟩ | ⟨-, hph, -⟩⟩ := ht
  · exact ⟨hl, he.seqLegal (hl.call_isSome hc)⟩
  · exact ⟨hl, seqLegal_data ((currentMsg_eq hl.call hi).trans hm) (hph.trans (dataPhase_eq _ _ hr))⟩

theorem rowSend_legal (b : Byte) {s : State} (hs : Inv s) (hp : s.eng.seq.phase = .dataWr)
    (hc : s.eng.call.isSome = true) : Legal (rowSend b s) := by
  refine .ofRow hs (by rw [hp]; rfl) (rowSend_keeps Sim.wf_closed b hs.sim)
    ((rowSend_post b s).mono (fun _ _ h => h) fun _ h => h.at) fun t ht => ?_
  obtain ⟨hl, -, hi, -, hf, ⟨e, he, -⟩ | ⟨-, hph, -⟩⟩ := ht
  · exact ⟨hl, he.seqLegal (hl.call_isSome hc)⟩
  · exact ⟨hl, (seqLegal_eq hl.call hi hph hf).trans hs.seq⟩

theorem rowRecv_legal (len : Nat) {s : State} (hs : Inv s) (hp : s.eng.seq.phase = .dataRd)
    (hc : s.eng.call.isSome = true) : Legal (rowRecv len s) := by
  refine .ofRow hs (by rw [hp]; rfl) (rowRecv_keeps Sim.wf_closed len hs.sim)
    ((rowRecv_post len s).mono (fun _ _ h => h) fun _ h => h.at) fun t ht => ?_
  obtain ⟨hl, -, hi, hf, v, -, -, he | ⟨hph, -⟩⟩ := ht
  · exact ⟨hl, he.seqLegal (hl.call_isSome hc)⟩
  · exact ⟨hl, (seqLegal_eq hl.call hi hph hf).trans hs.seq⟩

theorem rowEndMsg_inv {s : State} {c : Call} (hs : Inv s) (hc : s.eng.call = some c)
    (hin : insideLoop s.eng.seq.phase = true) : Inv (rowEndMsg s) :=
  have hl := rowEndMsg_loop s
  hs.loop hin hl ((rowEndMsg_sim s).symm ▸ hs.sim)
    (AfterMsg.seqLegal (hl.call.trans hc) (msgCount_of_call hc ▸ rowEndMsg_afterMsg s))

/-- A stop condition and the end of the call with a result. -/
theorem stopRow_legal {s : State} (hs : Inv s) (hc : s.eng.call.isSome = true) (r : Ret) :
    Legal ((busStop s).andThen fun s => .done () (setPhase .done (setResult r (leave s)))) := by
  have still {t : State} (h : PrimStep s t) (hsim : t.sim.wf = true) : Inv t :=
    hs.still h.loop hsim h.phase h.i h.flg
  refine ((busStop_post s).and (busStop_keeps Sim.wf_closed hs.sim)).andThen (fun t ht => still ht.1.1 ht.2)
    fun t ht => ?_
  obtain ⟨⟨⟨hp, -⟩, -⟩, hsim⟩ := ht
  exact (still hp hsim).stopped (hp.loop.call_isSome hc) r

theorem takeFailure_legal (e : BusError) {s : State} (hs : Inv s) (hc : s.eng.call.isSome = true) :
    Legal (takeFailure e s) := by
  cases e with
  | arbitrationLost =>
    have h : Inv (srpStopNoWait s) :=
      ⟨hs.file, hs.sim, hs.pending, hs.samples, hs.seq, hs.arb, hs.masked⟩
    exact h.stopped hc _
  | _ => exact stopRow_legal hs hc _

theorem SeqRow.legal {c : Call} {s : State} {r : Run Unit} (h : SeqRow c s r) (hs : Inv s)
    (hc : s.eng.call = some c) : Legal r := by
  have hcs : s.eng.call.isSome = true := by rw [hc]; rfl
  cases h with
  | rest => exact hs
  | check => exact rowCheck_legal hs hc
  | preStop hp => exact rowPreStop_legal hs hp
  | loadFlags m hp hm =>
    exact hs.loop (by rw [hp]; rfl) (LoopStep.place _ _ { s.eng.seq with phase := _, j := _, k := _ } _) hs.sim
      (rowLoadFlags_seqLegal ((currentMsg_of_call hc).trans hm))
  | cond hp => exact rowCond_legal hs hp
  | addr hp => exact rowAddr_legal _ hs hp hcs
  | send b hp => exact rowSend_legal b hs hp hcs
  | recv len hp => exact rowRecv_legal len hs hp hcs
  | endMsg hin => exact rowEndMsg_inv hs hc hin
  | final => exact stopRow_legal hs hcs .ok
  | fail e => exact takeFailure_legal e hs hcs
  | ret => exact hs.returned

theorem Legal.next {r : Run Unit} {t : State} (hr : Legal r) (h : toOutcome r = .next t) : Inv t :=
  (toOutcome_next hr h).elim id id

theorem seqMove_inv {s t : State} (hs : Inv s) (h : seqMove s = .next t) : Inv t := by
  obtain ⟨c, r, hc, hr, ht⟩ := seqMove_next h
  exact (hr.legal hs hc).next ht

/-! ### Operations inside a call -/

theorem finishCall_legal {s : State} (hs : Inv s) (hc : s.eng.call.isSome = true) : Legal (finishCall s) := by
  unfold finishCall
  split
  · exact (takeFailure_legal _ hs hc).andThen (fun _ h => h) fun _ h => h.returned
  all_goals exact (stopRow_legal hs hc .ok).andThen (fun _ h => h) fun _ h => h.returned

theorem endInCall_legal {s : State} (hs : Inv s) (hc : s.eng.call.isSome = true) : Legal (endInCall s) := by
  unfold endInCall
  split
  · exact finishCall_legal hs hc
  · exact hs

/-- A message of the running call ends at a place of the call, or waits at one. -/
theorem runMsg_legal (a : Addr) {m : Msg} {c : Call} {s : State} (hs : Inv s) (hc : s.eng.call = some c)
    (hp : s.eng.seq.phase = .preStop) (hm : currentMsg s = some m) :
    (runMsg a m s).Post (fun _ t => Inv t ∧ t.eng.call = some c) Inv := by
  have hin : insideLoop s.eng.seq.phase = true := by rw [hp]; rfl
  refine ((runMsg_post a m s hm hp).and (runMsg_keeps Sim.wf_closed a m hs.sim)).mono (fun _ t ht => ?_)
    fun t ht => hs.loop hin ht.1.loop ht.2 ht.1.legal
  obtain ⟨⟨hl, -, hres⟩, hsim⟩ := ht
  have hct : t.eng.call = some c := hl.call.trans hc
  refine ⟨hs.loop hin hl hsim ?_, hct⟩
  rcases hres with ⟨e, syms, cells, he, -⟩ | ⟨hafter, -⟩
  · exact he.seqLegal (by simp [hct])
  · exact AfterMsg.seqLegal hct (msgCount_of_call hc ▸ hafter)

theorem execMessage_inv {m : Msg} {s t : State} (hs : Inv s) (hm : currentMsg s = some m)
    (h : execMessage m s = .next t) : Inv t := by
  obtain ⟨hp, c, hc, h⟩ := execMessage_next h
  refine Legal.next ((runMsg_legal c.addr hs hc hp hm).andThen (fun _ h => h) fun u hu => ?_) h
  exact endInCall_legal hu.1 (by simp [hu.2])

theorem execAddress_inv {b : Byte} {s t : State} (hs : Inv s) (h : execAddress b s = .next t) : Inv t := by
  obtain ⟨hp, hc, h⟩ := execAddress_next h
  have hk : (rowAddr b s).Post (fun _ u => Inv u ∧ u.eng.call.isSome = true) Inv :=
    ((rowAddr_legal b hs hp hc).and (rowAddr_post b s)).mono
      (fun _ u hu => ⟨hu.1, hu.2.1.call_isSome hc⟩) fun _ hu => hu.1
  exact Legal.next (hk.andThen (fun _ h => h) fun u hu => endInCall_legal hu.1 hu.2) h

/-! ### Operations of the host -/

theorem exec_call_inv {i : Instr} (hi : isCall i = true) {s t : State} (hs : Inv s) (h : exec i s = .next t) :
    Inv t := by
  rw [exec_call hi] at h
  have hrun := (callRun_step hi s).and (callRun_keeps Sim.wf_closed hi hs.sim)
  rcases toOutcome_next hrun h with ⟨hr, hsim⟩ | ⟨hr, hsim⟩
  · exact hs.framed hr.frame.cfg hr.frame.tgt hsim (by simp [seqLegal, hr.phase]) (fun _ => hr.arb)
      fun _ hin => by rw [hr.phase] at hin; cases hin
  · exact hs.framed hr.frame.cfg hr.frame.tgt hsim hr.legal hr.arb fun hb _ => hr.irq.trans (if_pos hb)

theorem exec_primitive_inv {i : Instr} (hi : isPrimitive i = true) {s t : State} (hs : Inv s)
    (h : exec i s = .next t) : Inv t := by
  obtain ⟨hop, hb⟩ := exec_primitive hi h
  have hf := hop.frame hb
  exact hs.framed hf.cfg hf.tgt (hf.sim ▸ hs.sim) ((seqLegal_eq hf.call hf.i hf.phase hf.flg).trans hs.seq)
    (fun hb => (hf.arb hb).trans (hs.arb hb)) fun hb hin => hf.irqEn.trans (hs.masked hb (hf.phase ▸ hin))

/-- An operation that comes from outside keeps a legal state legal: one of the host comes when no call runs. -/
theorem exec_inv {i : Instr} {s t : State} (hs : Inv s) (hp : i.onEventPath = false → s.eng.seq.phase = .idle)
    (h : exec i s = .next t) : Inv t := by
  cases he : i.onEventPath with
  | true => exact exec_responder_inv he hs h
  | false =>
    have hp := hp he
    cases exec_kind i with
    | responder hi => simp [he] at hi
    | primitive hi => exact exec_primitive_inv hi hs h
    | call hi => exact exec_call_inv hi hs h
    | configure m hi =>
      subst hi
      obtain ⟨-, l, r, rfl⟩ := exec_configure_next h
      exact ⟨hs.file, hs.sim, hs.pending, hs.samples, hs.seq, hs.arb, hs.masked⟩
    | message m hi => simp [(execMessage_next (hi s ▸ h)).1] at hp
    | address b hi => simp [(execAddress_next (hi s ▸ h)).1] at hp

/-! ### Steps -/

theorem phase_of_not_busy {s : State} (h : busy s = false) : s.eng.seq.phase = .idle := by
  simp only [busy, Bool.or_eq_false_iff, decide_eq_false_iff_not, not_not] at h
  exact h.2

/-- An entry of the host's own reaches the machine only when no call runs. -/
theorem Arrival.ready_idle {a : Arrival} {s : State} (h : a.ready s = true) (ha : a.onEventPath = false) :
    s.eng.seq.phase = .idle := by
  refine phase_of_not_busy ?_
  cases a with
  | word w =>
    cases hd : decode .host w with
    | error e => simpa [Arrival.ready, hd] using h
    | ok i =>
      rw [Arrival.word_onEventPath hd] at ha
      have hi : i.isEvent = false := by
        rw [onEventPath_eq_isEvent_or_isCallback, Bool.or_eq_false_iff] at ha
        exact ha.1
      simpa [Arrival.ready, hd, ha, hi] using h
  | together es => cases ha
  | mask en => simpa [Arrival.ready] using h
  | readReg i => simpa [Arrival.ready] using h
  | writeReg i v => simpa [Arrival.ready] using h

theorem arrive_inv {a : Arrival} {s t : State} (hs : Inv s) (hp : a.onEventPath = false → s.eng.seq.phase = .idle)
    (h : arrive a s = .next t) : Inv t := by
  cases a with
  | word w =>
    cases hd : decode .host w with
    | error e => simp [arrive, hd] at h
    | ok i =>
      exact exec_inv hs (fun hi => hp ((Arrival.word_onEventPath hd).trans hi)) ((arrive_word hd s).symm.trans h)
  | together es => exact raiseEvents_inv hs h
  | mask en =>
    cases h
    exact ⟨hs.file, hs.sim, hs.pending, hs.samples, hs.seq, hs.arb,
      fun _ (hin : insideLoop s.eng.seq.phase = true) => by rw [hp rfl] at hin; cases hin⟩
  | readReg i => cases h; exact hs.result _
  | writeReg i v =>
    cases h
    exact (hs.target (g := { s.tgt with file := _ }) (RegFile.put_wf i v hs.file) hs.pending).result _

theorem engineStep_inv {s t : State} (hs : Inv s) (h : engineStep s = .next t) : Inv t := by
  rcases engineStep_next h with rfl | ⟨m, hm, h⟩ | ⟨i, ⟨a, rfl | rfl⟩, h⟩ | h
  · exact hs
  · obtain ⟨rs, st, buf | len⟩ := m
    · exact execMessage_inv hs hm h
    · exact execMessage_inv hs hm h
  · exact execAddress_inv hs h
  · exact execAddress_inv hs h
  · exact seqMove_inv hs h

/-- Settles O2, by what a step can be: a delivery, the engine going on, or an entry of the input, of which those of the
host come when no call runs. -/
theorem stepKeepsLegal : Obligations.StepKeepsLegal := by
  intro s t hs h
  rcases step_cases s with ⟨-, hd⟩ | ⟨-, -, hd⟩ | ⟨-, a, rest, -, hr, hd⟩
  · exact deliver_inv hs (hd.symm.trans h)
  · exact engineStep_inv hs (hd.symm.trans h)
  · exact arrive_inv (hs.input rest) (Arrival.ready_idle hr) (hd.symm.trans h)

end Sys2Proof.Machine

end

/-! ## A byte on quiet lines -/

section

namespace Sys2Proof.Machine

open Sys2Proof

/-! ### The bits of a byte -/

/-- The bits `n-1` down to 0 of a byte, in the order they go on the wire (R65). -/
def msbFirst (b : Byte) (n : Nat) : List Bool := (List.range n).reverse.map b.getLsbD

theorem msbFirst_succ (b : Byte) (n : Nat) : msbFirst b (n + 1) = b.getLsbD n :: msbFirst b n := by
  simp [msbFirst, List.range_succ]

@[simp] theorem length_msbFirst (b : Byte) (n : Nat) : (msbFirst b n).length = n := by simp [msbFirst]

/-- Shifting bits in, the most significant one first, moves what stood before up and writes the bits below it. -/
theorem getLsbD_foldl_msbFirst (b v : Byte) (n : Nat) {i : Nat} (hi : i < 8) :
    ((msbFirst b n).foldl (fun (v : Byte) c => (v <<< 1) ||| (BitVec.ofBool c).setWidth 8) v).getLsbD i =
      if i < n then b.getLsbD i else v.getLsbD (i - n) := by
  induction n generalizing v with
  | zero => rfl
  | succ n ih =>
    rw [msbFirst_succ, List.foldl_cons, ih]
    rcases Nat.lt_trichotomy i n with h | rfl | h
    · simp [h, Nat.lt_succ_of_lt h]
    · simp
    · have hshift : i - n = i - (n + 1) + 1 := by omega
      have hlt : i - (n + 1) + 1 < 8 := by omega
      simp [Nat.not_lt_of_gt h, show ¬ i < n + 1 by omega, hshift, hlt, Nat.lt_of_succ_lt hlt]

/-- The decoder puts a byte together again from its bits (R150). -/
theorem bitsToByte_msbFirst (b : Byte) : bitsToByte (msbFirst b 8) = b := by
  refine BitVec.eq_of_getLsbD_eq fun i hi => ?_
  rw [bitsToByte, getLsbD_foldl_msbFirst b 0 8 hi, if_pos hi]

/-! ### What bits put on the lines -/

/-- The levels that clocking bits out records on quiet lines with the clock low and SDA at `u`: SDA moves where the bit
differs, then the clock goes up and down. -/
def clocked (u : Bool) : List Bool → List Level
  | [] => []
  | v :: vs => (if u = v then [] else [⟨false, v⟩]) ++ [⟨true, v⟩, ⟨false, v⟩] ++ clocked v vs

/-- Bits written one after another on quiet lines. -/
theorem Line.quiet_foldl_bit {cfg : Params} {l : Line} (h : l.quiet cfg) (hc : l.sclOut = false) (vs : List Bool) :
    (vs.foldl (fun l v => l.bit cfg v) l).lines = l.lines ++ clocked l.sdaOut vs := by
  induction vs generalizing l with
  | nil => simp [clocked]
  | cons v vs ih =>
    obtain ⟨hq, hl⟩ := Line.quiet_bit h v hc
    rw [List.foldl_cons, ih hq (Line.bit_sclOut cfg v l), hl, Line.bit_sdaOut, List.append_assoc]
    rfl

/-- The data bits of a byte, written one after another. -/
theorem Line.bits_eq_foldl (cfg : Params) (b : Byte) (n : Nat) (l : Line) :
    l.bits cfg b n = (msbFirst b n).foldl (fun l v => l.bit cfg v) l := by
  induction n generalizing l with
  | zero => rfl
  | succ n ih => rw [Line.bits, ih, msbFirst_succ, List.foldl_cons]

/-- On quiet lines `SEND_BYTE` records nine bits: those of the byte, and the released acknowledge bit (R140). -/
theorem Line.quiet_sendByte {cfg : Params} {l : Line} (h : l.quiet cfg) (hc : l.sclOut = false) (b : Byte) :
    ((l.bits cfg b 8).readbit cfg).lines = l.lines ++ clocked l.sdaOut (msbFirst b 8 ++ [true]) := by
  have henv : (l.bits cfg b 8).env = [] := (Line.still_bits h.1).1
  rw [Line.readbit_still henv, Line.bits_eq_foldl, ← Line.quiet_foldl_bit h hc, List.foldl_append,
    List.foldl_cons, List.foldl_nil]

/-! ### What the decoder makes of them -/

/-- While the clock stays low the decoder sees nothing (R150). -/
theorem decodeEdge_clock_low (d : LineDec) (u v : Bool) : decodeEdge d ⟨false, u⟩ ⟨false, v⟩ = (d, []) := by
  simp [decodeEdge]

/-- Nor as the clock falls over a steady SDA. -/
theorem decodeEdge_clock_falls (d : LineDec) (v : Bool) : decodeEdge d ⟨true, v⟩ ⟨false, v⟩ = (d, []) := by
  simp [decodeEdge]

/-- A clocked bit is its rising edge: SDA moves only while the clock is low. -/
theorem decodeFrom_clocked_cons (d : LineDec) (u v : Bool) (vs : List Bool) :
    decodeFrom d ⟨false, u⟩ (clocked u (v :: vs)) =
      (decodeEdge d ⟨false, v⟩ ⟨true, v⟩).2 ++
        decodeFrom (decodeEdge d ⟨false, v⟩ ⟨true, v⟩).1 ⟨false, v⟩ (clocked v vs) := by
  by_cases h : u = v
  · simp [clocked, decodeFrom, h, decodeEdge_clock_falls]
  · simp [clocked, decodeFrom, h, decodeEdge_clock_falls, decodeEdge_clock_low]

/-- The first eight bits go to the buffer (R150). -/
theorem decodeEdge_data_bit (m : Bool) {bs : List Bool} (v : Bool) (h : bs.length < 8) :
    decodeEdge ⟨m, bs⟩ ⟨false, v⟩ ⟨true, v⟩ = (⟨m, bs ++ [v]⟩, []) := by
  simp [decodeEdge, show bs.length ≠ 8 by omega]

/-- The ninth bit is the acknowledge of the eight before it (R150). -/
theorem decodeEdge_ack_bit (m : Bool) {bs : List Bool} (a : Bool) (h : bs.length = 8) :
    decodeEdge ⟨m, bs⟩ ⟨false, a⟩ ⟨true, a⟩ = (⟨m, []⟩, [.byte (bitsToByte bs) (!a)]) := by
  simp [decodeEdge, h, List.take_left' h]

/-- Nine clocked bits decode to one byte, whatever part of it stands in the buffer already. -/
theorem decodeFrom_clocked_byte (m u a : Bool) {bs vs : List Bool} (h : bs.length + vs.length = 8) :
    decodeFrom ⟨m, bs⟩ ⟨false, u⟩ (clocked u (vs ++ [a])) = [.byte (bitsToByte (bs ++ vs)) (!a)] := by
  induction vs generalizing bs u with
  | nil =>
    rw [List.nil_append, decodeFrom_clocked_cons, decodeEdge_ack_bit m a (by simpa using h), List.append_nil]
    rfl
  | cons v vs ih =>
    rw [List.length_cons] at h
    rw [List.cons_append, decodeFrom_clocked_cons, decodeEdge_data_bit m v (by omega), List.nil_append,
      ih v (by rw [List.length_append, List.length_singleton]; omega), List.append_assoc, List.singleton_append]

/-- Settles O25: on quiet lines the byte is nine clocked bits, and these decode to it with the released acknowledge
bit. -/
theorem byteOnTheLines : Obligations.ByteOnTheLines := by
  intro b m s hs hq hc
  have hlevel : s.line.level s.cfg = ⟨false, s.line.sdaOut⟩ := by rw [Line.level_released s.cfg hq.2.1, hc]
  refine ⟨_, _, exec_sendByte_ready hs b, Line.quiet_sendByte hq hc b, ?_⟩
  rw [hlevel, decodeFrom_clocked_byte m _ true (by simp), List.nil_append, bitsToByte_msbFirst]
  rfl

end Sys2Proof.Machine

end

/-! ## Decoder and encoder (O5, O6, O7, O8) -/

section

namespace Sys2Proof

/-! ### The encoding parses back -/

/-- A parser whose piece is there goes on behind it. -/
theorem parse_bind_eq {α β : Type} {p : Parse α} {a : α} {r : List Byte} (h : p = .ok (a, r))
    (f : α × List Byte → Parse β) : p.bind f = f (a, r) := by
  rw [h, parse_ok_bind]

/-- The operands behind the code of an operation of the host context parse back (R96, R101 to R104, R122). -/
theorem parseHost_encode {i : Instr} (hc : i.ctx = .host) (h : i.wellFormed = true) (r : List Byte) :
    ∃ code bs, encode i = code :: bs ∧ parseHost code.toNat (bs ++ r) = .ok (i, r) := by
  cases i
  case msgWrite | msgRead | addrW | addrR => cases hc
  case readData | readClock | delayQ | delayH | start | rstart | stop | readBit | pStart | pStop | evStop |
      evBusErr | evColl => exact ⟨_, _, rfl, rfl⟩
  case sendByte | pWrite | evRxByte | readRegister | writeRegister => exact ⟨_, _, rfl, rfl⟩
  case setClock v | setData v | writeBit v | recvByte v | pRead v =>
    exact ⟨_, _, rfl, parse_bind_eq (parseBool_boolByte v r) _⟩
  case configure m => exact ⟨_, _, rfl, parse_bind_eq (parseMode_encode m r) _⟩
  case evAddr d => exact ⟨_, _, rfl, parse_bind_eq (parseDir_encode d r) _⟩
  case evTxReq p => exact ⟨_, _, rfl, parse_bind_eq (parsePrev_encode p r) _⟩
  case transfer a ms =>
    obtain ⟨hl, hm⟩ : ms.length ≤ 255 ∧ ms.all Msg.wellFormed = true := by
      simpa only [Instr.wellFormed, Bool.and_eq_true, decide_eq_true_eq] using h
    exact ⟨_, _, rfl, parse_bind_eq (parseTpf_encode a hl hm r) _⟩
  case detect a => exact ⟨_, _, rfl, parse_bind_eq (parseAddr_operand a r) _⟩
  case write a bs =>
    exact ⟨_, _, rfl, (parse_bind_eq (parseAddr_operand a _) _).trans
      (parse_bind_eq (parseCounted_encode (of_decide_eq_true h) r) _)⟩
  case read a n =>
    refine ⟨_, _, rfl, (parse_bind_eq (parseAddr_operand a _) _).trans ?_⟩
    show Except.ok (Instr.read a (countByte n).toNat, r) = _
    rw [countByte_toNat (of_decide_eq_true h)]
  case writeThenRead a bs n =>
    obtain ⟨hl, hn⟩ : bs.length ≤ 255 ∧ n ≤ 255 := by
      simpa only [Instr.wellFormed, Bool.and_eq_true, decide_eq_true_eq] using h
    have hbs : parseCounted (encodeCounted bs ++ [countByte n] ++ r) = .ok (bs, countByte n :: r) := by
      rw [List.append_assoc]
      exact parseCounted_encode hl _
    refine ⟨_, _, rfl, (parse_bind_eq (parseAddr_operand a _) _).trans ((parse_bind_eq hbs _).trans ?_)⟩
    show Except.ok (Instr.writeThenRead a bs (countByte n).toNat, r) = _
    rw [countByte_toNat hn]
  case regRead8 a reg | regRead16Be a reg | regRead16Le a reg | regWrite8 a reg v | updateMasked a reg m v =>
    exact ⟨_, _, rfl, parse_bind_eq (parseAddrReg_encode a reg _) _⟩
  case regWrite16Be a reg w | regWrite16Le a reg w =>
    exact ⟨_, _, rfl, (parse_bind_eq (parseAddrReg_encode a reg _) _).trans (parse_bind_eq (parseHalf_encode w r) _)⟩

/-- The address byte of the wire parses back, with its direction (R97). -/
theorem parseAddrByte_wire (a : Addr) (rd : Bool) (r : List Byte) :
    parseAddrByte (wireAddrByte a rd :: r) = .ok (if rd then .addrR a else .addrW a, r) := by
  obtain ⟨haddr, hdir⟩ := wireAddrByte_bits a rd
  simp only [parseAddrByte, parseByte_cons, parse_ok_bind, haddr, hdir]

/-- The words of a well-formed operation are read back in its context, whatever follows them. -/
theorem decodePrefix_encode {i : Instr} (h : i.wellFormed = true) (r : List Byte) :
    decodePrefix i.ctx (encode i ++ r) = .ok (i, r) := by
  cases hc : i.ctx with
  | host =>
    obtain ⟨code, bs, he, hp⟩ := parseHost_encode hc h r
    rw [he]
    exact hp
  | message =>
    cases i
    case msgWrite rs st buf => exact parse_bind_eq (parseMsg_encode (m := ⟨rs, st, .write buf⟩) h r) _
    case msgRead rs st len => exact parse_bind_eq (parseMsg_encode (m := ⟨rs, st, .read len⟩) h r) _
    all_goals cases hc
  | address =>
    cases i
    case addrW a => exact parseAddrByte_wire a false r
    case addrR a => exact parseAddrByte_wire a true r
    all_goals cases hc

/-! ### What parses is the encoding -/

/-- The operands of the host context are the words of a well-formed operation, behind its code (R96, R101 to R104,
R122). -/
theorem parseHost_ok {n : Nat} {bs : List Byte} {i : Instr} {r : List Byte} (h : parseHost n bs = .ok (i, r)) :
    BitVec.ofNat 8 n :: bs = encode i ++ r ∧ i.ctx = .host ∧ i.wellFormed = true := by
  unfold parseHost at h
  split at h
  case h_39 => cases h
  -- `h_k` is the `k`-th line of `parseHost`. First the codes without an operand; then, pieces peeled off from the
  -- left, those with one, two and three.
  case h_16 | h_17 | h_18 | h_19 | h_20 | h_21 | h_22 | h_24 | h_27 | h_30 | h_32 | h_35 | h_36 =>
    cases h
    exact ⟨rfl, rfl, rfl⟩
  all_goals obtain ⟨x, s, hx, h⟩ := parse_bind_ok h
  case h_1 => cases h; rw [parseMode_ok hx]; exact ⟨rfl, rfl, rfl⟩
  case h_14 | h_15 | h_23 | h_26 | h_29 => cases h; rw [parseBool_ok hx]; exact ⟨rfl, rfl, rfl⟩
  case h_25 | h_28 | h_33 | h_37 => cases h; rw [parseByte_ok hx]; exact ⟨rfl, rfl, rfl⟩
  case h_31 => cases h; rw [parseDir_ok hx]; exact ⟨rfl, rfl, rfl⟩
  case h_34 => cases h; rw [parsePrev_ok hx]; exact ⟨rfl, rfl, rfl⟩
  case h_3 => cases h; rw [parseAddr_ok hx]; exact ⟨rfl, rfl, rfl⟩
  case h_7 | h_9 | h_10 => cases h; rw [parseAddrReg_ok hx]; exact ⟨rfl, rfl, rfl⟩
  case h_2 =>
    cases h
    obtain ⟨rfl, hl, hm⟩ := parseTpf_ok hx
    exact ⟨rfl, rfl, by simp only [Instr.wellFormed, hl, hm, decide_true, Bool.and_self]⟩
  all_goals obtain ⟨y, u, hy, h⟩ := parse_bind_ok h
  case h_4 =>
    cases h
    obtain ⟨rfl, hl⟩ := parseCounted_ok hy
    rw [parseAddr_ok hx]
    exact ⟨rfl, rfl, decide_eq_true hl⟩
  case h_5 =>
    cases h
    rw [parseAddr_ok hx, parseByte_ok hy]
    refine ⟨?_, rfl, decide_eq_true (Nat.le_of_lt_succ y.isLt)⟩
    simp [encode, countByte_of_toNat]
  case h_8 => cases h; rw [parseAddrReg_ok hx, parseByte_ok hy]; exact ⟨rfl, rfl, rfl⟩
  case h_11 | h_12 => cases h; rw [parseAddrReg_ok hx, parseHalf_ok hy]; exact ⟨rfl, rfl, rfl⟩
  case h_38 => cases h; rw [parseByte_ok hx, parseByte_ok hy]; exact ⟨rfl, rfl, rfl⟩
  all_goals obtain ⟨z, v, hz, h⟩ := parse_bind_ok h; cases h
  case h_6 =>
    obtain ⟨rfl, hl⟩ := parseCounted_ok hy
    rw [parseAddr_ok hx, parseByte_ok hz]
    have hn : z.toNat ≤ 255 := Nat.le_of_lt_succ z.isLt
    refine ⟨?_, rfl, by simp only [Instr.wellFormed, hl, hn, decide_true, Bool.and_self]⟩
    simp [encode, countByte_of_toNat]
  case h_13 => rw [parseAddrReg_ok hx, parseByte_ok hy, parseByte_ok hz]; exact ⟨rfl, rfl, rfl⟩

/-- A message as an operation: its words are its record. -/
theorem Msg.toInstr_encoding (m : Msg) :
    encode m.toInstr = encodeMsg m ∧ m.toInstr.ctx = .message ∧ m.toInstr.wellFormed = m.wellFormed := by
  obtain ⟨rs, st, buf | len⟩ := m
  · exact ⟨rfl, rfl, rfl⟩
  · exact ⟨rfl, rfl, rfl⟩

/-- A byte in the place of an address byte is the words of one of its two operations (R97). -/
theorem parseAddrByte_ok {bs : List Byte} {i : Instr} {r : List Byte} (h : parseAddrByte bs = .ok (i, r)) :
    bs = encode i ++ r ∧ i.ctx = .address ∧ i.wellFormed = true := by
  obtain ⟨b, s, hb, h⟩ := parse_bind_ok h
  cases h
  have hw := wireAddrByte_of b
  rw [parseByte_ok hb]
  cases hd : b.getLsbD 0 <;> rw [hd] at hw
  · exact ⟨congrArg (· :: r) hw.symm, rfl, rfl⟩
  · exact ⟨congrArg (· :: r) hw.symm, rfl, rfl⟩

/-- What is read at the head of a byte string are the words of a well-formed operation of the context. -/
theorem decodePrefix_ok {c : Ctx} {bs : List Byte} {i : Instr} {r : List Byte} (h : decodePrefix c bs = .ok (i, r)) :
    bs = encode i ++ r ∧ i.ctx = c ∧ i.wellFormed = true := by
  cases c with
  | host =>
    obtain ⟨code, s, hcode, h⟩ := parse_bind_ok h
    obtain ⟨hbs, hspec⟩ := parseHost_ok h
    refine ⟨?_, hspec⟩
    rw [parseByte_ok hcode, ← hbs, BitVec.ofNat_toNat, BitVec.setWidth_eq]
  | message =>
    obtain ⟨m, s, hm, h⟩ := parse_bind_ok h
    cases h
    obtain ⟨hbs, hwf⟩ := parseMsg_ok hm
    obtain ⟨henc, hctx, hwf'⟩ := m.toInstr_encoding
    exact ⟨henc ▸ hbs, hctx, hwf'.trans hwf⟩
  | address => exact parseAddrByte_ok h

/-! ### The whole string -/

/-- A string decodes when its head is read and nothing is left (R94). -/
theorem decode_ok_iff {c : Ctx} {bs : List Byte} {i : Instr} :
    decode c bs = .ok i ↔ decodePrefix c bs = .ok (i, []) := by
  unfold decode
  split
  next e he => simp [he]
  next j hj => simp [hj]
  next j b rest hj => simp [hj]

/-- Settles O5: the words are read back whole, and nothing is left. -/
theorem decodeOfEncode : Obligations.DecodeOfEncode := by
  intro i h
  rw [decode_ok_iff]
  simpa using decodePrefix_encode h []

/-- Settles O6: what is read at the head is an encoding, and a decoded string is its head. -/
theorem encodeOfDecode : Obligations.EncodeOfDecode := by
  intro c bs i h
  obtain ⟨hbs, hspec⟩ := decodePrefix_ok (decode_ok_iff.1 h)
  exact ⟨by simpa using hbs.symm, hspec⟩

/-! ### Reserved encodings -/

theorem parse_bind_error {α β : Type} {p : Parse α} {e : DecodeErr} (h : p = .error e)
    (f : α × List Byte → Parse β) : p.bind f = .error e := by
  rw [h]; rfl

theorem decode_error {c : Ctx} {bs : List Byte} {e : DecodeErr} (h : decodePrefix c bs = .error e) :
    decode c bs = .error e := by
  unfold decode
  rw [h]

/-- A flag byte with a reserved bit begins no message (R92). -/
theorem parseMsg_reservedFlag {b : Byte} (hb : b.extractLsb' 3 5 ≠ 0) (r : List Byte) :
    parseMsg (b :: r) = .error .reservedFlag := if_pos hb

/-- An address operand has bit 7 clear (R94). -/
theorem parseAddr_not7Bit {b : Byte} (hb : b.getLsbD 7 = true) (r : List Byte) :
    parseAddr (b :: r) = .error .addressNot7Bit := if_pos hb

/-- The only mode codes are 0 and 1 (R95). -/
theorem parseMode_badMode {b : Byte} (h0 : b ≠ 0) (h1 : b ≠ 1) (r : List Byte) :
    parseMode (b :: r) = .error .badMode := (if_neg h0).trans (if_neg h1)

/-- `TRANSFER` and the helpers begin with an address operand: alone, or, from 0x14 on, with a register behind it. -/
theorem parseHost_not7Bit {b : Byte} (hb : b.getLsbD 7 = true) {n : Nat} (hn : n = 0x01 ∨ 0x10 ≤ n ∧ n ≤ 0x1A)
    (r : List Byte) : parseHost n (b :: r) = .error .addressNot7Bit := by
  have haddr := parseAddr_not7Bit hb r
  obtain rfl | ⟨hlo, hhi⟩ := hn
  · exact parse_bind_error (parse_bind_error haddr _) _
  by_cases hreg : n < 0x14
  · interval_cases n <;> exact parse_bind_error haddr _
  · interval_cases n <;> exact parse_bind_error (parse_bind_error haddr _) _

/-- Settles O8: the parser of the piece that holds the reserved field answers the error. -/
theorem reservedEncodingsRefused : Obligations.ReservedEncodingsRefused := by
  intro b r
  refine ⟨fun hb => ?_, fun hb code hcode => ?_, fun h0 h1 => ?_⟩
  · exact decode_error (parse_bind_error (parseMsg_reservedFlag hb r) _)
  · refine decode_error (parseHost_not7Bit hb (n := code.toNat) ?_ r)
    bv_omega
  · exact decode_error (parse_bind_error (parseMode_badMode h0 h1 r) _)

/-! ### Sample words -/

/-- Settles O7: each string is the encoding of its operation. -/
theorem sampleWords : Obligations.SampleWords :=
  ⟨decodeOfEncode (.transfer 0x48 [⟨false, false, .write [0x01]⟩, ⟨true, true, .read 2⟩]) rfl,
    decodeOfEncode (.configure .fast400k) rfl,
    decodeOfEncode (.addrR 0x48) rfl,
    decodeOfEncode (.msgWrite true true [0xAA]) rfl,
    decodeOfEncode (.evRxByte 0x05) rfl,
    decodeOfEncode (.writeRegister 0x05 0xAA) rfl,
    decodeOfEncode (.pWrite 0x90) rfl,
    decodeOfEncode (.sendByte 0x90) rfl,
    decodeOfEncode (.updateMasked 0x48 0x03 0x20 0x20) rfl,
    fun a rw => ⟨Machine.addrByte_addr a rw, Machine.addrByte_dir a rw⟩⟩

end Sys2Proof

end

/-! ## The errors of the engine (O37) -/

section

namespace Sys2Proof.Machine

open Sys2Proof

/-- An error that a build with transport `b` produces: one of the engine's three, a loss of arbitration on the
peripheral alone (R99, R310, R313). -/
def OwnError (b : Backend) (e : BusError) : Prop :=
  engineError e = true ∧ (e = .arbitrationLost → b = .peripheral)

/-- An error that stands as the result is one of the engine's own. -/
def OwnResult (b : Backend) (t : State) : Prop := ∀ e, t.host.result = .err e → OwnError b e

theorem ownError_notConfigured (b : Backend) : OwnError b .notConfigured := ⟨rfl, fun h => by cases h⟩

theorem ownError_nack (b : Backend) : OwnError b .nack := ⟨rfl, fun h => by cases h⟩

theorem ownError_arbitrationLost {b : Backend} (h : b = .peripheral) : OwnError b .arbitrationLost :=
  ⟨rfl, fun _ => h⟩

theorem OwnResult.of_err {b : Backend} {t : State} {e : BusError} (h : t.host.result = .err e) (he : OwnError b e) :
    OwnResult b t := fun e' h' => by
  cases h.symm.trans h'
  exact he

/-- A result that is no error. -/
theorem OwnResult.of_ne {b : Backend} {t : State} (h : ∀ e, t.host.result ≠ .err e) : OwnResult b t :=
  fun e he => absurd he (h e)

theorem OwnResult.of_ok {b : Backend} {t : State} (h : t.host.result = .ok) : OwnResult b t := .of_ne (by simp [h])

theorem CallHangs.ownResult {b : Backend} {s t : State} (h : CallHangs s t) : OwnResult b t :=
  .of_ne (by simp [h.result])

/-! ### Primitives run as operations -/

/-- A primitive run as an operation gives its value, or no result while it waits: never an error. -/
theorem onBackend_ne_err {α : Type} {b : Backend} {s t : State} {f : State → Run α} {ret : α → State → Ret}
    {D : State → α → State → Prop} {H : State → State → Prop}
    (h : onBackend b s (fun s => finishWith ret (f s)) = .next t) (hret : ∀ a u e, ret a u ≠ .err e)
    (hf : ∀ u, u.cfg.backend = b → (f u).Post (D u) (H u)) (hH : ∀ u v, H u v → PrimStep u v) (e : BusError) :
    t.host.result ≠ .err e := by
  obtain ⟨hb, h⟩ := onBackend_next h
  rcases finishWith_next (hf (setResult .none s) hb) h with ⟨a, u, -, rfl⟩ | hu
  · exact hret a u e
  · rw [(hH _ t hu).host]
    simp

theorem exec_primitive_ne_err {i : Instr} (hi : isPrimitive i = true) {s t : State} (h : exec i s = .next t)
    (e : BusError) : t.host.result ≠ .err e := by
  cases i
  case setClock v => exact onBackend_ne_err h (by simp) (fun _ hb => setClock_post v hb) (fun _ _ h => h.1) e
  case setData v => exact onBackend_ne_err h (by simp) (fun _ hb => setData_post v hb) (fun _ _ h => False.elim h) e
  case readData => exact onBackend_ne_err h (by simp) (fun _ hb => readData_post hb) (fun _ _ h => False.elim h) e
  case readClock => exact onBackend_ne_err h (by simp) (fun _ hb => readClock_post hb) (fun _ _ h => False.elim h) e
  case delayQ | delayH =>
    exact onBackend_ne_err (D := fun _ _ _ => True) (H := fun _ _ => False) h (by simp) (fun _ _ => trivial)
      (fun _ _ h => h.elim) e
  case start => exact onBackend_ne_err h (by simp) (fun _ hb => wireStart_post hb) (fun _ _ h => h.1) e
  case rstart => exact onBackend_ne_err h (by simp) (fun _ hb => wireRstart_post hb) (fun _ _ h => h.1) e
  case stop => exact onBackend_ne_err h (by simp) (fun _ hb => wireStop_post hb) (fun _ _ h => h.1) e
  case writeBit b =>
    exact onBackend_ne_err h (by simp) (fun u hb => writeBit_lines b hb (LinesOnly.refl u)) (fun _ _ h => h.1) e
  case readBit =>
    exact onBackend_ne_err h (by simp) (fun u hb => readBit_lines hb (LinesOnly.refl u)) (fun _ _ h => h.1) e
  case sendByte b => exact onBackend_ne_err h (by simp) (fun _ hb => wireSendByte_post b hb) (fun _ _ h => h.1) e
  case recvByte a => exact onBackend_ne_err h (by simp) (fun _ hb => wireRecvByte_post a hb) (fun _ _ h => h.1) e
  case pStart => exact onBackend_ne_err h (by simp) (fun _ hb => srpStart_post hb) (fun _ _ h => h.1) e
  case pWrite b => exact onBackend_ne_err h (by simp) (fun _ hb => srpWrite_post b hb) (fun _ _ h => h.1) e
  case pRead a => exact onBackend_ne_err h (by simp) (fun _ hb => srpRead_post a hb) (fun _ _ h => h.1) e
  case pStop => exact onBackend_ne_err h (by simp) (fun _ hb => srpStop_post hb) (fun _ _ h => h.1) e
  all_goals cases hi

/-! ### Calls -/

/-- A transfer that ended with bus activity (R181). -/
theorem CallEnded.ownResult {a : Addr} {msgs : List Msg} {s t : State} (h : CallEnded a msgs s t) :
    OwnResult s.cfg.backend t := by
  rcases h.result with ⟨hr, -⟩ | ⟨hr, -⟩ | ⟨hr, hb⟩
  · exact .of_ok hr
  · exact .of_err hr (ownError_nack _)
  · exact .of_err hr (ownError_arbitrationLost hb)

/-- A call returns with one of the engine's own errors, if with any. -/
abbrev EndsOwn (s : State) (r : Run Unit) : Prop :=
  r.Post (fun _ t => OwnResult s.cfg.backend t) (OwnResult s.cfg.backend)

theorem transfer_ownResult (a : Addr) (msgs : List Msg) (s : State) : EndsOwn s (transfer a msgs s) := by
  by_cases hp : s.eng.seq.phase = .idle
  · rcases transfer_cases a msgs s hp with ⟨-, h⟩ | ⟨-, -, h⟩ | ⟨-, -, -, h⟩ | ⟨hc, hm, -, -⟩
    · rw [h]; exact .of_err rfl (ownError_notConfigured _)
    · rw [h]; exact .of_ok rfl
    · rw [h]; trivial
    · obtain ⟨m, ms, rfl⟩ := List.exists_cons_of_ne_nil hm
      exact (transfer_post a m ms s hp hc).mono (fun _ _ h => h.ownResult) fun _ h => h.1.ownResult
  · unfold transfer
    rw [if_pos hp]
    trivial

/-- A helper gives its value for `Ok` and returns an error unchanged (R283). -/
theorem helper_ownResult (a : Addr) (msgs : List Msg) {ret : State → Ret} (hret : ∀ u e, ret u ≠ .err e)
    (s : State) : EndsOwn s (helper a msgs ret s) := by
  refine (transfer_ownResult a msgs s).andThen (fun _ h => h) fun t ht => ?_
  show OwnResult _ (if _ then _ else _)
  split
  · exact .of_ne (hret t)
  · exact ht

/-- The errors of a read-modify-write are those of its read, of its write, or none (R282, R283): what other callers do
in between leaves the transport as it is. -/
theorem updateMasked_ownResult (a : Addr) (reg mask value : Byte) (s : State) :
    EndsOwn s (updateMasked a reg mask value s) := by
  have hread : EndsOwn s (regRead8 a reg s) := helper_ownResult a _ (by simp) s
  refine ((regRead8_step a reg s).and hread).andThen (fun _ h => h.2) fun t ⟨hset, ht⟩ => ?_
  split
  next old _ =>
    dsimp only
    split
    · exact .of_ok rfl
    · refine (raceCalls_step hset).andThen (fun _ h => h.ownResult) fun u hu => ?_
      have hwrite := transfer_ownResult a (writePattern [reg, maskedUpdate old mask value]) u
      rw [EndsOwn, hu.frame.cfg] at hwrite
      exact hwrite
  all_goals exact ht

theorem callRun_ownResult {i : Instr} (hi : isCall i = true) (s : State) : EndsOwn s (callRun i s) := by
  cases i
  case transfer | detect | write | regWrite8 | regWrite16Be | regWrite16Le => exact transfer_ownResult _ _ s
  case read | writeThenRead | regRead8 | regRead16Be | regRead16Le => exact helper_ownResult _ _ (by simp) s
  case updateMasked a reg mask v => exact updateMasked_ownResult a reg mask v s
  all_goals cases hi

theorem exec_call_ownResult {i : Instr} (hi : isCall i = true) {s t : State} (h : exec i s = .next t) :
    OwnResult s.cfg.backend t := by
  rw [exec_call hi] at h
  exact (toOutcome_next (callRun_ownResult hi s) h).elim id id

/-! ### Operations inside a call -/

/-- A part of a call leaves the result alone, or returns from the call with an error of its own. -/
theorem InCall.ownResult {s t : State} (h : InCall s t) :
    t.host.result = s.host.result ∨ OwnResult s.cfg.backend t := by
  rcases h with ⟨hl, -⟩ | ⟨-, -, -, -, -, -, -, e, hr, rfl | ⟨rfl, hb⟩⟩
  · exact .inl (congrArg HostSide.result hl.host)
  · exact .inr (.of_err hr (ownError_nack _))
  · exact .inr (.of_err hr (ownError_arbitrationLost hb))

theorem PartHangs.result {s t : State} (h : PartHangs s t) : t.host.result = s.host.result :=
  congrArg HostSide.result h.1.host

/-- Settles O37, by what an operation can be: those of the responder and those inside a call leave the result alone or
fail as the engine fails, and the others give a result of their own. -/
theorem engineErrors : Obligations.EngineErrors := by
  intro i s t e h he
  suffices t.host.result = s.host.result ∨ OwnResult s.cfg.backend t from this.imp_right fun ht => ht e he
  cases exec_kind i with
  | responder hi =>
    obtain ⟨g, rfl⟩ := exec_target ((onEventPath_eq_isEvent_or_isCallback i).symm.trans hi) h
    exact .inl rfl
  | primitive hi => exact .inr (.of_ne (exec_primitive_ne_err hi h))
  | call hi => exact .inr (exec_call_ownResult hi h)
  | configure m hi =>
    subst hi
    obtain ⟨-, l, r, rfl⟩ := exec_configure_next h
    exact .inr (.of_ok rfl)
  | message m hi => exact (execMessage_step (hi s ▸ h)).elim InCall.ownResult fun hw => .inl hw.result
  | address b hi => exact (execAddress_step (hi s ▸ h)).elim InCall.ownResult fun hw => .inl hw.result

end Sys2Proof.Machine

end

/-! ## The frame of an operation on the lines -/

section

namespace Sys2Proof.Machine

open Sys2Proof

variable {s t : State}

/-- An operation that moves the lines alone, within the drive discipline and the tick counts that stand. -/
theorem wireFrame_lineResult {l : Line} (r : Ret) (h1 : l.tHalf = s.line.tHalf := by simp)
    (h2 : l.tQuarter = s.line.tQuarter := by simp) (h3 : l.drive = s.line.drive := by simp) :
    WireFrame s (lineResult l r s) where
  cfg := rfl
  input := rfl
  irqEn := rfl
  past := rfl
  race := rfl
  srp := rfl
  sim := rfl
  tgt := rfl
  configured := rfl
  mode := rfl
  flg := rfl
  arbLost := rfl
  phase := rfl
  i := rfl
  j := rfl
  call := rfl
  buf := rfl
  irqSaved := rfl
  waiting := rfl
  tHalf := h1
  tQuarter := h2
  drive := h3

/-! The cells of the engine that a wire operation writes are none of its frame's. -/

theorem WireFrame.emit (h : WireFrame s t) (y : Sym) : WireFrame s (emit y t) := { h with }

theorem WireFrame.setBus (h : WireFrame s t) (b : BusState) : WireFrame s (setBus b t) := { h with }

theorem WireFrame.setAcked (h : WireFrame s t) (a : Bool) : WireFrame s (setAcked a t) := { h with }

theorem WireFrame.setSr (h : WireFrame s t) (b : Byte) : WireFrame s (setSr b t) := { h with }

theorem WireFrame.setSlot (h : WireFrame s t) (k : Slot) : WireFrame s (setSlot k t) := { h with }

@[simp] theorem lineResult_cfg (l : Line) (r : Ret) (s : State) : (lineResult l r s).cfg = s.cfg := rfl

@[simp] theorem lineResult_eng (l : Line) (r : Ret) (s : State) : (lineResult l r s).eng = s.eng := rfl

@[simp] theorem lineResult_result (l : Line) (r : Ret) (s : State) : (lineResult l r s).host.result = r := rfl

end Sys2Proof.Machine

end

/-! ## One action on the lines, with one controller and no contention (O14, O15, O16) -/

section

namespace Sys2Proof.Machine

open Sys2Proof

section

variable {s : State} (hb : s.cfg.backend = .bitBang) (h1 : OneController s) (hu : Unfought s)
include h1 hu

/-- With one controller and no contention the instant before an operation's first action passes. -/
theorem instant_setResult_passes (r : Ret) :
    instant (setResult r s) = .done () (withLine (Line.move s.cfg s.line) (setResult r s)) :=
  instant_passes h1 hu

include hb

theorem exec_setData_passes (v : Bool) : exec (.setData v) s = .next (lineResult (s.line.da s.cfg v) .ok s) := by
  simp only [exec, execSetData]
  rw [onBackend_eq _ hb, setData, instant_setResult_passes h1 hu]
  rfl

theorem exec_readData_passes :
    exec .readData s = .next (lineResult (Line.move s.cfg s.line) (.okLevel (Line.move s.cfg s.line).sda) s) := by
  simp only [exec, execReadData]
  rw [onBackend_eq _ hb, readData, instant_setResult_passes h1 hu]
  rfl

theorem exec_readClock_passes :
    exec .readClock s =
      .next (lineResult (Line.move s.cfg s.line) (.okLevel ((Line.move s.cfg s.line).scl s.cfg)) s) := by
  simp only [exec, execReadClock]
  rw [onBackend_eq _ hb, readClock, instant_setResult_passes h1 hu]
  rfl

/-- The clock driven low, or high in push-pull drive against no device. -/
theorem exec_setClock_drives {v : Bool}
    (hd : v = true → s.line.drive = .pushPull ∧ (s.line.extAt 1).scl = true) :
    exec (.setClock v) s = .next (lineResult (Line.driveClock s.cfg v (Line.move s.cfg s.line)) .ok s) := by
  simp only [exec, execSetClock]
  rw [onBackend_eq _ hb, setClock, instant_setResult_passes h1 hu]
  cases v with
  | false => simp [Line.fought, finishWith, lineResult, withLine]
  | true =>
    obtain ⟨hp, hx⟩ := hd rfl
    simp [Line.fought, Line.move_ext, hp, hx, finishWith, lineResult, withLine]

/-- A push-pull clock driven high against a device that pulls it low (U12). -/
theorem exec_setClock_contention (hd : s.line.drive = .pushPull) (hx : (s.line.extAt 1).scl = false) :
    exec (.setClock true) s = .refused .pushPullContention := by
  simp only [exec, execSetClock]
  rw [onBackend_eq _ hb, setClock, instant_setResult_passes h1 hu]
  simp [Line.fought, Line.move_ext, hd, hx, finishWith]

/-- The clock released in open-drain drive: the poll that follows decides whether the operation returns. -/
theorem exec_setClock_polls (hd : s.line.drive = .openDrain) {l m : Line} {high : Bool}
    (hl : Line.driveClock s.cfg true (Line.move s.cfg s.line) = l) (hp : Line.poll s.cfg l.env l = (m, high)) :
    exec (.setClock true) s = .next (if high then lineResult m .ok s
      else lineResult m .none { s with eng := { s.eng with waiting := some .sclRelease } }) := by
  have hod : l.drive = .openDrain := by simpa [← hl] using hd
  simp only [exec, execSetClock]
  rw [onBackend_eq _ hb, setClock, instant_setResult_passes h1 hu]
  simp only [Run.andThen_done, withLine_cfg, withLine_line, setResult_cfg, hl, Line.fought, hod, hp]
  cases high <;> rfl

/-- The clock released in open-drain drive (R131): the lines the poll leaves, whether it read the clock high, and that
it did exactly when the outside lets it be high at one of the instants to come. -/
theorem exec_setClock_release (hd : s.line.drive = .openDrain) :
    ∃ (m : Line) (high : Bool),
      exec (.setClock true) s = .next (if high then lineResult m .ok s
        else lineResult m .none { s with eng := { s.eng with waiting := some .sclRelease } }) ∧
      SameDrive { s.line with sclOut := true } m ∧ (high = true → m.scl s.cfg = true) ∧
      (high = true ↔ ∃ k, (s.line.extAt (k + 2)).scl = true ∧
        (s.cfg.pullUp = true ∨ (s.line.extAt (k + 2)).flt = true)) := by
  obtain ⟨l, hl⟩ : ∃ l, Line.driveClock s.cfg true (Line.move s.cfg s.line) = l := ⟨_, rfl⟩
  have hod : l.drive = .openDrain := by simpa [← hl] using hd
  have hdriven : SameDrive { s.line with sclOut := true } l := by
    constructor <;> simp [← hl]
  have hext (k : Nat) : l.extAt (k + 1) = s.line.extAt (k + 2) := by
    rw [← Line.extAt_move s.cfg s.line]
    exact Line.extAt_congr (by simp [← hl]) (by simp [← hl]) _
  have hiff := Line.poll_iff s.cfg hod hdriven.sclOut
  obtain ⟨hsame, hhigh⟩ := Line.poll_spec s.cfg l.env l
  simp only [hext] at hiff
  exact ⟨_, _, exec_setClock_polls hb h1 hu hd hl rfl, hdriven.trans hsame, hhigh, hiff⟩

end

end Sys2Proof.Machine

end

section

namespace Sys2Proof.WirePrimitives

open Sys2Proof Sys2Proof.Machine

/-- Settles O14: the clock is driven after its instant, and in open-drain drive the poll decides whether the operation
returns. -/
theorem setClock : Obligations.SetClock := by
  intro s hb h1 hu
  refine ⟨⟨rfl, rfl⟩, ?_, fun hd => ?_, fun hd hx => ?_⟩
  · exact ⟨_, exec_setClock_drives hb h1 hu (by simp), by simp, by simp, rfl, rfl, wireFrame_lineResult _⟩
  · obtain ⟨m, high, hexec, ⟨hscl, hsda, hdrive, hhalf, hquarter⟩, hhigh, hiff⟩ :=
      exec_setClock_release hb h1 hu hd
    refine ⟨_, hexec, ?_⟩
    cases high with
    | true =>
      exact ⟨hscl, hsda, wireFrame_lineResult _ hhalf hquarter hdrive, fun _ => ⟨rfl, rfl, hhigh rfl⟩,
        fun hlow => absurd (hiff.1 rfl) (not_exists.2 hlow)⟩
    | false =>
      exact ⟨hscl, hsda, wireFrame_lineResult _ hhalf hquarter hdrive,
        fun hhi => absurd (hiff.2 hhi) Bool.false_ne_true, fun _ => ⟨rfl, rfl⟩⟩
  · exact ⟨_, exec_setClock_drives hb h1 hu fun _ => ⟨hd, hx⟩, by simp, by simp, by simp [Line.scl, hd], rfl, rfl,
      wireFrame_lineResult _⟩

/-- Settles O15: an instant passes, then SDA is driven. -/
theorem setData : Obligations.SetData := by
  intro v s hb h1 hu
  exact ⟨rfl, _, exec_setData_passes hb h1 hu v, by simp, by simp, rfl, rfl, wireFrame_lineResult _⟩

/-- Settles O16: an instant passes, and SDA is read as it then stands. -/
theorem readData : Obligations.ReadData := by
  refine ⟨rfl, fun s hb h1 hu => ?_⟩
  exact ⟨_, exec_readData_passes hb h1 hu, by simp [Line.move_ext], by simp [Line.sda], by simp, by simp, rfl,
    wireFrame_lineResult _⟩

end Sys2Proof.WirePrimitives

end

/-! ## Conditions on the lines (O18, O19, O20) -/

section

namespace Sys2Proof.Machine

open Sys2Proof

variable {s : State}

/-- The levels recorded last on quiet lines are what the controller drives (R35). -/
theorem quietLines_outs (h : QuietLines s) {c d : Bool} (hl : s.line.level s.cfg = ⟨c, d⟩) :
    s.line.sclOut = c ∧ s.line.sdaOut = d := by
  rw [Line.level_released s.cfg h.2.1] at hl
  exact ⟨congrArg Level.scl hl, congrArg Level.sda hl⟩

/-- What `START` puts on quiet lines (R135). -/
theorem Line.quiet_start {cfg : Params} {l : Line} (h : l.quiet cfg) :
    ((l.da cfg false).ck cfg false).lines = l.lines ++ ((if l.sdaOut = false then [] else [⟨l.sclOut, false⟩]) ++
      (if l.sclOut = false then [] else [⟨false, false⟩])) := by
  obtain ⟨q1, e1⟩ := Line.quiet_da h false
  obtain ⟨-, e2⟩ := Line.quiet_ck q1 false
  simp [e1, e2]

/-- What releasing both lines puts on quiet lines, SDA first (R136). -/
theorem Line.quiet_release {cfg : Params} {l : Line} (h : l.quiet cfg) :
    ((l.da cfg true).ck cfg true).quiet cfg ∧ ((l.da cfg true).ck cfg true).lines =
      l.lines ++ ((if l.sdaOut = true then [] else [⟨l.sclOut, true⟩]) ++
        (if l.sclOut = true then [] else [⟨true, true⟩])) := by
  obtain ⟨q1, e1⟩ := Line.quiet_da h true
  obtain ⟨q2, e2⟩ := Line.quiet_ck q1 true
  exact ⟨q2, by simp [e1, e2]⟩

/-- What `STOP` puts on quiet lines (R137). -/
theorem Line.quiet_stop {cfg : Params} {l : Line} (h : l.quiet cfg) :
    ((((l.ck cfg false).da cfg false).ck cfg true).da cfg true).lines =
      l.lines ++ ((if l.sclOut = false then [] else [⟨false, l.sdaOut⟩]) ++
        (if l.sdaOut = false then [] else [⟨false, false⟩]) ++ [⟨true, false⟩, ⟨true, true⟩]) := by
  obtain ⟨q1, e1⟩ := Line.quiet_ck h false
  obtain ⟨q2, e2⟩ := Line.quiet_da q1 false
  obtain ⟨q3, e3⟩ := Line.quiet_ck q2 true
  obtain ⟨-, e4⟩ := Line.quiet_da q3 true
  simp [e1, e2, e3, e4]

theorem restartSym_ite (b : BusState) : restartSym b = if b = .midTransaction then .rstart else .start := by
  cases b <;> rfl

end Sys2Proof.Machine

end

section

namespace Sys2Proof.WirePrimitives

open Sys2Proof Sys2Proof.Machine

/-- Settles O18: where nothing holds the clock low every step of the rule completes. -/
theorem start : Obligations.Start := by
  intro s h
  refine ⟨_, exec_start_ready h, by simp, by simp, rfl, rfl, rfl, rfl, rfl, rfl,
    ((wireFrame_lineResult _).setBus _).emit _, fun hq hl => ?_⟩
  obtain ⟨hc, hd⟩ := quietLines_outs hq hl
  simpa [hc, hd] using Line.quiet_start (cfg := s.cfg) hq

/-- Settles O19: on quiet lines both lines are released, and then it is as `START`. -/
theorem repeatedStart : Obligations.RepeatedStart := by
  intro s h
  refine ⟨_, exec_rstart_ready h, by simp, by simp, rfl, by rw [← restartSym_ite]; rfl, rfl, rfl, rfl, rfl,
    ((wireFrame_lineResult _).emit _).setBus _, fun hq hl => ?_, fun hq hl => ?_⟩
  all_goals
    obtain ⟨hc, hd⟩ := quietLines_outs hq hl
    obtain ⟨hreleased, hlines⟩ := Line.quiet_release (cfg := s.cfg) hq
    simpa [hc, hd, hlines] using Line.quiet_start hreleased

/-- Settles O20: where nothing holds the clock low every step of the rule completes. -/
theorem stop : Obligations.Stop := by
  intro s h
  refine ⟨_, exec_stop_ready h, by simp, by simp, rfl, rfl, rfl, rfl, rfl, rfl,
    ((wireFrame_lineResult _).setBus _).emit _, fun hq hl => ?_, fun hq hl => ?_⟩
  all_goals
    obtain ⟨hc, hd⟩ := quietLines_outs hq hl
    simpa [hc, hd] using Line.quiet_stop (cfg := s.cfg) hq

end Sys2Proof.WirePrimitives

end

/-! ## Bits and bytes (O21, O22, O23) -/

section

namespace Sys2Proof.Machine

open Sys2Proof

theorem exec_delayQ {s : State} (hb : s.cfg.backend = .bitBang) : exec .delayQ s = .next (setResult .ok s) := by
  simp only [exec, execDelayQ]
  rw [onBackend_eq _ hb]
  rfl

theorem exec_delayH {s : State} (hb : s.cfg.backend = .bitBang) : exec .delayH s = .next (setResult .ok s) := by
  simp only [exec, execDelayH]
  rw [onBackend_eq _ hb]
  rfl

/-! ### Operations run one after another -/

theorem runAll_cons {i : Instr} {is : List Instr} {s t u : State} {rs : List Ret} (h : exec i s = .next t)
    (hw : t.eng.waiting = none) (hr : runAll is t = some (u, rs)) :
    runAll (i :: is) s = some (u, t.host.result :: rs) := by
  simp [runAll, h, hw, hr]

theorem runAll_append {is js : List Instr} {s t u : State} {rs qs : List Ret} (h : runAll is s = some (t, rs))
    (g : runAll js t = some (u, qs)) : runAll (is ++ js) s = some (u, rs ++ qs) := by
  induction is generalizing s rs with
  | nil => cases h; exact g
  | cons i is ih =>
    cases he : exec i s with
    | next v =>
      simp only [runAll, he] at h
      split at h
      · cases h
      next hw =>
        obtain ⟨⟨t', rs'⟩, hr, heq⟩ := Option.map_eq_some_iff.1 h
        cases heq
        exact runAll_cons he (by simpa using hw) (ih hr)
    | fault f => simp [runAll, he] at h
    | refused r => simp [runAll, he] at h

/-! ### Where operations on the lines lead -/

/-- Operations that each return lead the lines of `s` from `l` to `m`, touch nothing else, and return `rs`. -/
def LeadsTo (s : State) (is : List Instr) (l m : Line) (rs : List Ret) : Prop :=
  ∀ r, ∃ q, runAll is (lineResult l r s) = some (lineResult m q s, rs)

theorem LeadsTo.refl (s : State) (l : Line) : LeadsTo s [] l l [] := fun r => ⟨r, rfl⟩

theorem LeadsTo.trans {s : State} {is js : List Instr} {l m n : Line} {rs qs : List Ret} (h : LeadsTo s is l m rs)
    (g : LeadsTo s js m n qs) : LeadsTo s (is ++ js) l n (rs ++ qs) := fun r =>
  have ⟨q, hq⟩ := h r
  have ⟨p, hp⟩ := g q
  ⟨p, runAll_append hq hp⟩

theorem LeadsTo.runs {s : State} {is : List Instr} {m : Line} {rs : List Ret} (h : LeadsTo s is s.line m rs) :
    ∃ u, runAll is s = some (u, rs) ∧ u.line = m :=
  have ⟨_, hq⟩ := h s.host.result
  ⟨_, hq, rfl⟩

section

variable {s : State} (hb : s.cfg.backend = .bitBang) (hw : s.eng.waiting = none)
include hw

theorem LeadsTo.single {i : Instr} {l m : Line} {q : Ret}
    (h : ∀ r, exec i (lineResult l r s) = .next (lineResult m q s)) : LeadsTo s [i] l m [q] := fun r =>
  ⟨q, runAll_cons (h r) hw rfl⟩

include hb

theorem delayQ_leads (l : Line) : LeadsTo s [.delayQ] l l [.ok] :=
  .single hw fun r => exec_delayQ (s := lineResult l r s) hb

theorem delayH_leads (l : Line) : LeadsTo s [.delayH] l l [.ok] :=
  .single hw fun r => exec_delayH (s := lineResult l r s) hb

variable {l : Line} (hl : l.free)
include hl

theorem setData_leads (v : Bool) : LeadsTo s [.setData v] l (l.da s.cfg v) [.ok] :=
  .single hw fun r => exec_setData_ready (s := lineResult l r s) ⟨hb, hl⟩ v

theorem setClock_leads (v : Bool) : LeadsTo s [.setClock v] l (l.ck s.cfg v) [.ok] :=
  .single hw fun r => exec_setClock_ready (s := lineResult l r s) ⟨hb, hl⟩ v

theorem readData_leads :
    LeadsTo s [.readData] l (Line.move s.cfg l) [.okLevel (Line.move s.cfg l).sda] :=
  .single hw fun r => exec_readData_ready (s := lineResult l r s) ⟨hb, hl⟩

theorem writeBit_leads (b : Bool) : LeadsTo s [.writeBit b] l (l.bit s.cfg b) [.ok] :=
  .single hw fun r => exec_writeBit_ready (s := lineResult l r s) ⟨hb, hl⟩ b

theorem readBit_leads : LeadsTo s [.readBit] l (l.readbit s.cfg) [.okLevel (l.sample s.cfg)] :=
  .single hw fun r => exec_readBit_ready (s := lineResult l r s) ⟨hb, hl⟩

/-- The six steps of R138. -/
theorem writeBit_steps_lead (b : Bool) :
    LeadsTo s [.setData b, .delayQ, .setClock true, .delayH, .setClock false, .delayQ] l (l.bit s.cfg b)
      [.ok, .ok, .ok, .ok, .ok, .ok] :=
  have h1 := Line.da_free s.cfg b hl
  have h2 := Line.ck_free s.cfg true h1
  (setData_leads hb hw hl b).trans <| (delayQ_leads hb hw _).trans <| (setClock_leads hb hw h1 true).trans <|
    (delayH_leads hb hw _).trans <| (setClock_leads hb hw h2 false).trans <| delayQ_leads hb hw _

/-- The seven steps of R139: the fifth returns the sample. -/
theorem readBit_steps_lead :
    LeadsTo s [.setData true, .delayQ, .setClock true, .delayH, .readData, .setClock false, .delayQ] l
      (l.readbit s.cfg) [.ok, .ok, .ok, .ok, .okLevel (l.sample s.cfg), .ok, .ok] :=
  have h1 := Line.da_free s.cfg true hl
  have h2 := Line.ck_free s.cfg true h1
  have h3 := Line.move_free s.cfg h2
  (setData_leads hb hw hl true).trans <| (delayQ_leads hb hw _).trans <| (setClock_leads hb hw h1 true).trans <|
    (delayH_leads hb hw _).trans <| (readData_leads hb hw h2).trans <| (setClock_leads hb hw h3 false).trans <|
    delayQ_leads hb hw _

theorem writeBits_lead (vs : List Bool) :
    LeadsTo s (vs.map .writeBit) l (vs.foldl (fun l v => l.bit s.cfg v) l) (List.replicate vs.length .ok) := by
  induction vs generalizing l with
  | nil => exact .refl s l
  | cons v vs ih => exact (writeBit_leads hb hw hl v).trans (ih (Line.bit_free _ _ hl))

theorem readBits_lead (n : Nat) :
    LeadsTo s (List.replicate n .readBit) l ((Line.readbit s.cfg)^[n] l)
      ((List.range n).map fun k => .okLevel (((Line.readbit s.cfg)^[k] l).sample s.cfg)) := by
  induction n generalizing l with
  | zero => exact .refl s l
  | succ n ih =>
    rw [List.range_succ_eq_map, List.map_cons, List.map_map]
    exact (readBit_leads hb hw hl).trans (ih (Line.readbit_free _ hl))

end

/-- Reading bits moves the lines as `READ_BIT`s do. -/
theorem Line.receive_snd (cfg : Params) (n : Nat) (v : Byte) (l : Line) :
    (l.receive cfg n v).2 = (Line.readbit cfg)^[n] l := by
  induction n generalizing v l with
  | zero => rfl
  | succ n ih => rw [Line.receive, ih, Function.iterate_succ_apply]

theorem Line.receive_getLsbD (cfg : Params) (l : Line) {k : Nat} (hk : k < 8) :
    (l.receive cfg 8 0).1.getLsbD (7 - k) = ((Line.readbit cfg)^[k] l).sample cfg :=
  Line.receive_bit cfg 8 0 l le_rfl (by simp) hk

theorem Line.still_readbits {cfg : Params} {l : Line} (h : l.env = []) (n : Nat) :
    l.still ((Line.readbit cfg)^[n] l) := by
  induction n generalizing l with
  | zero => exact ⟨h, rfl⟩
  | succ n ih =>
    obtain ⟨henv, hext⟩ := Line.still_bit (cfg := cfg) h true
    rw [← Line.readbit_still h] at henv hext
    obtain ⟨henv', hext'⟩ := ih henv
    exact ⟨henv', hext'.trans hext⟩

/-- A byte received over a still outside has every bit at the level the outside leaves SDA at. -/
theorem Line.receive_still {cfg : Params} {l : Line} (h : l.env = []) :
    (l.receive cfg 8 0).1 = if l.ext.sda then 0xFF else 0x00 := by
  refine BitVec.eq_of_getLsbD_eq fun i hi => ?_
  obtain ⟨henv, hext⟩ := Line.still_readbits (cfg := cfg) h (7 - i)
  have hbit := Line.receive_getLsbD cfg l (k := 7 - i) (by omega)
  rw [Line.sample_still henv, hext, show 7 - (7 - i) = i by omega] at hbit
  rw [hbit]
  have hones : ∀ i < 8, (0xFF : Byte).getLsbD i = true := by decide
  cases l.ext.sda with
  | false => exact BitVec.getLsbD_zero.symm
  | true => exact (hones i hi).symm

end Sys2Proof.Machine

end

section

namespace Sys2Proof.WirePrimitives

open Sys2Proof Sys2Proof.Machine

/-- Settles O21: the steps of each rule lead the lines where the bit leads them. -/
theorem bitSteps : Obligations.BitSteps := by
  intro s h
  refine ⟨fun b => ?_, ?_⟩
  · refine ⟨_, exec_writeBit_ready h b, by simp, by simp, rfl, rfl, wireFrame_lineResult _,
      fun hw => ?_, fun hq hl => ?_, fun hq hl => ?_⟩
    · obtain ⟨u, hrun, hline⟩ := (writeBit_steps_lead h.1 hw h.2 b).runs
      exact ⟨u, _, hrun, hline.symm⟩
    all_goals
      obtain ⟨hc, hd⟩ := quietLines_outs hq hl
      simpa [hc, hd] using (Line.quiet_bit (cfg := s.cfg) hq b hc).2
  · refine ⟨_, exec_readBit_ready h, by simp, by simp, rfl, wireFrame_lineResult _, ⟨_, rfl⟩,
      fun hw => ?_⟩
    obtain ⟨u, hrun, hline⟩ := (readBit_steps_lead h.1 hw h.2).runs
    exact ⟨u, _, hrun, hline.symm, rfl⟩

/-- Settles O22: the byte is its eight bits and the sample of the ninth clock. -/
theorem sendByte : Obligations.SendByte := by
  intro b s h
  have hfree : (s.line.bits s.cfg b 8).free := Line.bits_free _ _ _ h.2
  obtain ⟨hd, hh, hq⟩ := Line.bits_keeps s.cfg b 8 s.line
  refine ⟨_, exec_sendByte_ready h b, by simp, by simp, by simp, by simp, by simp, by simp, by simp,
    (((wireFrame_lineResult _ (by simpa using hh) (by simpa using hq) (by simpa using hd)).setSr _).setSlot _
      |>.setAcked _).emit _, fun hw => ?_, fun henv => ?_⟩
  · have hbits := writeBits_lead h.1 hw h.2 (msbFirst b 8)
    rw [← Line.bits_eq_foldl] at hbits
    obtain ⟨u, hrun, hline⟩ := (hbits.trans (readBit_leads h.1 hw hfree)).runs
    exact ⟨u, _, hrun, by simpa using hline.symm, by simp⟩
  · obtain ⟨hstill, hext⟩ := Line.still_bits (cfg := s.cfg) (b := b) (n := 8) henv
    simp [Line.sample_still hstill, hext]

/-- Settles O23: the byte is its eight samples, and the ninth bit the acknowledge asked for. -/
theorem recvByte : Obligations.RecvByte := by
  intro ack s h
  have hfree : (s.line.receive s.cfg 8 0).2.free := Line.receive_free _ _ _ h.2
  obtain ⟨hd, hh, hq⟩ := Line.receive_keeps s.cfg 8 0 s.line
  refine ⟨_, _, exec_recvByte_ready h ack, rfl, rfl, by simp, by simp, rfl, rfl, rfl, rfl,
    (((wireFrame_lineResult _ (by simpa using hh) (by simpa using hq) (by simpa using hd)).setSr _).setSlot _).emit _,
    fun hw => ?_, Line.receive_still⟩
  have hbits := readBits_lead h.1 hw h.2 8
  rw [← Line.receive_snd s.cfg 8 0] at hbits
  obtain ⟨u, hrun, hline⟩ := (hbits.trans (writeBit_leads h.1 hw hfree (!ack))).runs
  refine ⟨u, _, hrun, by simpa using hline.symm, fun k hk => ?_⟩
  rw [Line.receive_getLsbD s.cfg s.line hk]
  simp [List.getElem?_append_left, hk]

end Sys2Proof.WirePrimitives

end

/-! ## What a wire operation has done when it returns (O24) -/

section

namespace Sys2Proof.Machine

open Sys2Proof

theorem LinesOnly.completes {s t : State} (h : LinesOnly s t) : Completes s t := ⟨h.1, congrArg Engine.waiting h.2⟩

/-- What a condition that returned has left: SCL driven to `c` and SDA to `d`, the bus state, its symbol, and the rest
as it was (R135 to R137). -/
def ConditionMade (c d : Bool) (b : BusState) (y : Sym) (s t : State) : Prop :=
  t.line.sclOut = c ∧ t.line.sdaOut = d ∧ t.eng.bus = b ∧ t.eng.trace = s.eng.trace ++ [y] ∧ t.host.result = .ok ∧
    t.eng.acked = s.eng.acked ∧ t.eng.sr = s.eng.sr ∧ t.eng.seq = s.eng.seq ∧ WireFrame s t

/-- A condition is made when its primitive completes. -/
theorem conditionMade {s u : State} {c d : Bool} {b : BusState} {y : Sym} (hb : s.cfg.backend = .bitBang)
    (hc : Completes (setResult .none s) u) (houts : Outs c d u) (hbus : u.eng.bus = b)
    (htrace : u.eng.trace = (setResult .none s).eng.trace ++ [y]) (hcells : ByteCells (setResult .none s) u) :
    ConditionMade c d b y s (setResult .ok u) :=
  ⟨houts.1, houts.2, hbus, htrace, rfl, hcells.1, hcells.2.1, hcells.2.2, hc.wireFrame hb⟩

section

variable {s t : State} (hb : s.cfg.backend = .bitBang) (hw : t.eng.waiting = none)
include hb hw

theorem exec_start_effects (h : exec .start s = .next t) : ConditionMade false false .midTransaction .start s t := by
  have hb' : (setResult .none s).cfg.backend = .bitBang := hb
  obtain ⟨_, u, ⟨⟨hc, hbus, -, htrace⟩, hcells, houts⟩, rfl⟩ := onBackend_returns h hw
    ((wireStart_post hb').and ((wireStart_cells hb').and (wireStart_outs hb'))) fun _ hu => hu.1.2
  exact conditionMade hb hc houts hbus htrace hcells

theorem exec_rstart_effects (h : exec .rstart s = .next t) :
    ConditionMade false false .midTransaction (restartSym s.eng.bus) s t := by
  have hb' : (setResult .none s).cfg.backend = .bitBang := hb
  obtain ⟨_, u, ⟨⟨hc, hbus, -, htrace⟩, hcells, houts⟩, rfl⟩ := onBackend_returns h hw
    ((wireRstart_post hb').and ((wireRstart_cells hb').and (wireRstart_outs hb'))) fun _ hu => hu.1.2
  exact conditionMade hb hc houts hbus htrace hcells

theorem exec_stop_effects (h : exec .stop s = .next t) : ConditionMade true true .idle .stop s t := by
  have hb' : (setResult .none s).cfg.backend = .bitBang := hb
  obtain ⟨_, u, ⟨⟨hc, hbus, -, htrace, houts⟩, hcells⟩, rfl⟩ := onBackend_returns h hw
    ((wireStop_post hb').and (wireStop_cells hb')) fun _ hu => hu.1.2
  exact conditionMade hb hc houts hbus htrace hcells

theorem exec_writeBit_effects {b : Bool} (h : exec (.writeBit b) s = .next t) :
    t.line.sclOut = false ∧ t.line.sdaOut = b ∧ t.host.result = .ok ∧ t.eng = s.eng ∧ WireFrame s t := by
  obtain ⟨_, u, ⟨hl, hscl, hsda⟩, rfl⟩ := onBackend_returns h hw
    (writeBit_lines b (s := setResult .none s) hb (LinesOnly.refl _)) fun _ hu => hu.2
  exact ⟨hscl, hsda, rfl, hl.2, hl.completes.wireFrame hb⟩

theorem exec_readBit_effects (h : exec .readBit s = .next t) :
    t.line.sclOut = false ∧ t.line.sdaOut = true ∧ (∃ v, t.host.result = .okLevel v) ∧ t.eng = s.eng ∧
      WireFrame s t := by
  obtain ⟨v, u, ⟨hl, hscl, hsda⟩, rfl⟩ := onBackend_returns h hw
    (readBit_lines (s := setResult .none s) hb (LinesOnly.refl _)) fun _ hu => hu.2
  exact ⟨hscl, hsda, ⟨v, rfl⟩, hl.2, hl.completes.wireFrame hb⟩

theorem exec_sendByte_effects {b : Byte} (h : exec (.sendByte b) s = .next t) :
    t.line.sclOut = false ∧ t.line.sdaOut = true ∧ t.eng.sr = b ∧ t.eng.bus = s.eng.bus ∧
      t.eng.trace = s.eng.trace ++ [.tx b t.eng.acked] ∧ t.host.result = .okLevel t.eng.acked ∧
      t.eng.seq.k = .ack ∧ WireFrame s t := by
  have hb' : (setResult .none s).cfg.backend = .bitBang := hb
  obtain ⟨_, u, ⟨⟨hc, hbus, htrace⟩, ⟨hscl, hsda⟩, hsr, hk⟩, rfl⟩ := onBackend_returns h hw
    ((wireSendByte_post b hb').and (wireSendByte_outs hb' b)) fun _ hu => hu.1.2
  exact ⟨hscl, hsda, hsr, hbus, htrace, rfl, hk, hc.wireFrame hb⟩

theorem exec_recvByte_effects {ack : Bool} (h : exec (.recvByte ack) s = .next t) :
    t.line.sclOut = false ∧ t.line.sdaOut = (!ack) ∧ t.eng.bus = s.eng.bus ∧
      t.eng.acked = s.eng.acked ∧ t.eng.trace = s.eng.trace ++ [.rx t.eng.sr ack] ∧
      t.host.result = .okByte t.eng.sr ∧ t.eng.seq.k = .ack ∧ WireFrame s t := by
  have hb' : (setResult .none s).cfg.backend = .bitBang := hb
  obtain ⟨v, u, ⟨⟨hc, hbus, hacked, htrace⟩, ⟨hscl, hsda⟩, rfl, hk⟩, rfl⟩ := onBackend_returns h hw
    ((wireRecvByte_post ack hb').and (wireRecvByte_outs hb' ack)) fun _ hu => hu.1.2
  exact ⟨hscl, hsda, hbus, hacked, htrace, rfl, hk, hc.wireFrame hb⟩

end

end Sys2Proof.Machine

end

section

namespace Sys2Proof.WirePrimitives

open Sys2Proof Sys2Proof.Machine

/-- Settles O24, operation by operation. -/
theorem wireEffects : Obligations.WireEffects := by
  intro i s t hb h hw
  refine ⟨?_, ?_, ?_, ?_, ?_, ?_, ?_⟩
  · rintro rfl; exact exec_start_effects hb hw h
  · rintro rfl; exact restartSym_ite s.eng.bus ▸ exec_rstart_effects hb hw h
  · rintro rfl; exact exec_stop_effects hb hw h
  · rintro b rfl; exact exec_writeBit_effects hb hw h
  · rintro rfl; exact exec_readBit_effects hb hw h
  · rintro b rfl; exact exec_sendByte_effects hb hw h
  · rintro ack rfl; exact exec_recvByte_effects hb hw h

end Sys2Proof.WirePrimitives

end

/-! ## How an operation on the lines ends (O17) -/

section

namespace Sys2Proof.Machine

open Sys2Proof

/-- Why an action on the lines has no meaning before it is made (U15, U12). -/
def Line.refusal (l : Line) : Option Refusal :=
  if l.foreign then some .secondController
  else if (l.ext :: l.env.headD []).any l.fought then some .pushPullContention
  else none

/-- A run that begins with the instant before an action (log entry 25). -/
def BeginsWithInstant {α : Type} (f : State → Run α) : Prop :=
  ∀ s x, s.line.refusal = some x → f s = .refuse x

theorem instant_refused {s : State} {x : Refusal} (h : s.line.refusal = some x) : instant s = .refuse x := by
  unfold Line.refusal at h
  unfold instant
  split at h
  next hf => cases h; rw [if_pos hf]
  next hf =>
    split at h
    next hc => cases h; rw [if_neg hf, if_pos hc]
    · cases h

/-- What comes after the first action does not matter. -/
theorem BeginsWithInstant.bind {α β : Type} {f : State → Run α} (h : BeginsWithInstant f)
    (g : α → State → Run β) : BeginsWithInstant fun s => (f s).bind g := fun s x hx => by
  show (f s).bind g = _
  rw [h s x hx]
  rfl

theorem BeginsWithInstant.andThen {β : Type} {f : State → Run Unit} (h : BeginsWithInstant f)
    (g : State → Run β) : BeginsWithInstant fun s => (f s).andThen g := h.bind fun _ => g

theorem instant_begins : BeginsWithInstant instant := fun _ _ => instant_refused

theorem setData_begins (v : Bool) : BeginsWithInstant (setData v) := instant_begins.andThen _

theorem setClock_begins (v : Bool) : BeginsWithInstant (setClock v) := instant_begins.andThen _

theorem writeBit_begins (b : Bool) : BeginsWithInstant (writeBit b) := (setData_begins b).andThen _

theorem readBit_begins : BeginsWithInstant readBit := (setData_begins true).andThen _

theorem wireSendByte_begins (b : Byte) : BeginsWithInstant (wireSendByte b) := fun s x hx => by
  rw [wireSendByte, writeBits, writeBit_begins _ _ x (by exact hx)]
  rfl

theorem wireRecvByte_begins (ack : Bool) : BeginsWithInstant (wireRecvByte ack) := fun s x hx => by
  rw [wireRecvByte, readBits, readBit_begins _ x (by exact hx)]
  rfl

/-- An operation on the lines: a run on the bit-banged transport that begins with the instant before an action, and
that completes, waits for the clock or meets the contention. -/
inductive LineOperation (i : Instr) : Prop
  | mk {α : Type} (f : State → Run α) (ret : α → State → Ret)
    (exec_eq : ∀ s, exec i s = onBackend .bitBang s fun s => finishWith ret (f s))
    (begins : BeginsWithInstant f) (ends : ∀ c d s, AtWork c d s → (f s).WireEnds c d)

theorem lineOperation {i : Instr} (h : actsOnLines i = true) : LineOperation i := by
  cases i
  case setClock v => exact ⟨_, _, fun _ => rfl, setClock_begins v, fun _ _ _ => setClock_ends v⟩
  case setData v => exact ⟨_, _, fun _ => rfl, setData_begins v, fun _ _ _ => setData_ends v⟩
  case readData => exact ⟨_, _, fun _ => rfl, instant_begins.andThen _, fun _ _ _ => readData_ends⟩
  case readClock => exact ⟨_, _, fun _ => rfl, instant_begins.andThen _, fun _ _ _ => readClock_ends⟩
  case start => exact ⟨_, _, fun _ => rfl, (setData_begins _).andThen _, fun _ _ _ => wireStart_ends⟩
  case rstart => exact ⟨_, _, fun _ => rfl, (setData_begins _).andThen _, fun _ _ _ => wireRstart_ends⟩
  case stop => exact ⟨_, _, fun _ => rfl, (setClock_begins _).andThen _, fun _ _ _ => wireStop_ends⟩
  case writeBit b => exact ⟨_, _, fun _ => rfl, writeBit_begins b, fun _ _ _ => writeBit_ends b⟩
  case readBit => exact ⟨_, _, fun _ => rfl, readBit_begins, fun _ _ _ => readBit_ends⟩
  case sendByte b => exact ⟨_, _, fun _ => rfl, wireSendByte_begins b, fun _ _ _ => wireSendByte_ends b⟩
  case recvByte ack => exact ⟨_, _, fun _ => rfl, wireRecvByte_begins ack, fun _ _ _ => wireRecvByte_ends ack⟩
  all_goals cases h

/-- An operation on the lines that may not begin is refused (U12, U15). -/
theorem exec_line_refused {i : Instr} (hi : actsOnLines i = true) {s : State} {x : Refusal}
    (hb : s.cfg.backend = .bitBang) (hx : s.line.refusal = some x) : exec i s = .refused x := by
  obtain ⟨f, ret, hexec, hbegins, -⟩ := lineOperation hi
  rw [hexec, onBackend_eq _ hb, hbegins (setResult .none s) x hx]
  rfl

/-- A read never waits (R145). -/
theorem readData_low {c : Params} {d : Drive} {s : State} (h : AtWork c d s) :
    (readData s).Post (fun _ t => AtWork c d t) fun _ => False :=
  (instant_low h).andThen (fun _ h => h) fun _ h => h

theorem readClock_low {c : Params} {d : Drive} {s : State} (h : AtWork c d s) :
    (readClock s).Post (fun _ t => AtWork c d t) fun _ => False :=
  (instant_low h).andThen (fun _ h => h) fun _ h => h

/-- The operations on the lines that never wait (R145). -/
theorem exec_line_prompt {i : Instr}
    (hi : i ∈ [Instr.setClock false, .start, .readData, .readClock] ∨ ∃ v, i = .setData v) {s t : State}
    (hb : s.cfg.backend = .bitBang) (h1 : OneController s) (hw : s.eng.waiting = none) (h : exec i s = .next t) :
    t.eng.waiting = none := by
  have hs : AtWork s.cfg s.line.drive (setResult .none s) := ⟨rfl, rfl, hw, rfl, (Line.alone_iff _).1 h1⟩
  have returns {α : Type} {r : Run α} (hr : r.Post (fun _ t => AtWork s.cfg s.line.drive t) fun _ => False) :
      r.Post (fun _ t => t.eng.waiting = none) fun _ => False := hr.mono (fun _ _ ht => ht.2.2.1) fun _ hf => hf
  simp only [List.mem_cons, List.not_mem_nil, or_false] at hi
  rcases hi with (rfl | rfl | rfl | rfl) | ⟨v, rfl⟩
  · exact onBackend_low _ hb (returns (setClock_low hs)) h
  · exact onBackend_low _ hb (returns (wireStart_low hs)) h
  · exact onBackend_low _ hb (returns (readData_low hs)) h
  · exact onBackend_low _ hb (returns (readClock_low hs)) h
  · exact onBackend_low _ hb (returns (setData_low v hs)) h

/-- The level of the clock (R35): what is driven in push-pull; in open-drain a released line that nothing pulls low and
that is held or floats high (R164, U22; log entry 24). -/
theorem Line.scl_eq (cfg : Params) (l : Line) :
    l.scl cfg = match l.drive with
      | .pushPull => l.sclOut
      | .openDrain => l.sclOut && l.ext.scl && (cfg.pullUp || l.ext.flt) := by
  unfold Line.scl Line.released
  cases l.drive
  · rfl
  · exact (Bool.and_assoc _ _ _).symm

end Sys2Proof.Machine

end

section

namespace Sys2Proof.WirePrimitives

open Sys2Proof Sys2Proof.Machine

/-- Settles O17: an operation on the lines completes, waits for the clock or meets the contention, and those without a
rising clock edge do not wait. -/
theorem wireOperationsEnd : Obligations.WireOperationsEnd := by
  intro i s hb h1 hw
  refine ⟨⟨exec_delayQ hb, exec_delayH hb⟩, fun hu => ?_, fun hi => ?_⟩
  · refine ⟨_, exec_readClock_passes hb h1 hu, Line.move_ext _ _, by simp, by simp, rfl,
      wireFrame_lineResult _, ?_⟩
    rw [lineResult_result, Line.scl_eq, Line.move_drive, Line.move_sclOut]
    rfl
  · obtain ⟨f, ret, hexec, -, hends⟩ := lineOperation hi
    have hs : AtWork s.cfg s.line.drive (setResult .none s) := ⟨rfl, rfl, hw, rfl, (Line.alone_iff _).1 h1⟩
    obtain ⟨hopenDrain, hpushPull⟩ := onBackend_ends ret hb (hends _ _ _ hs)
    rw [← hexec] at hpushPull
    simp only [← hexec] at hopenDrain
    refine ⟨fun hd => ?_, hpushPull⟩
    obtain ⟨t, ht, hend⟩ := hopenDrain hd
    exact ⟨t, ht, hend, fun hp => exec_line_prompt hp hb h1 hw ht⟩

end Sys2Proof.WirePrimitives

end

/-! ## What is refused where it stands (O9) -/

section

namespace Sys2Proof.Machine

open Sys2Proof

/-- A primitive exists only in a build of its transport (R2, R130; log entry 22). -/
theorem exec_otherTransport {i : Instr} (hi : isPrimitive i = true) {s : State}
    (hb : s.cfg.backend ≠ buildFor i .simulated) : exec i s = .refused .otherTransport := by
  cases i
  case setClock | setData | readData | readClock | delayQ | delayH | start | rstart | stop | writeBit | readBit |
      sendByte | recvByte | pStart | pWrite | pRead | pStop => exact if_neg hb
  all_goals cases hi

theorem exec_toInstr (m : Msg) (s : State) : exec m.toInstr s = execMessage m s := by
  obtain ⟨_, _, _ | _⟩ := m <;> rfl

theorem execMessage_outside (m : Msg) {s : State} (h : s.eng.call = none ∨ s.eng.seq.phase ≠ .preStop) :
    execMessage m s = .refused .outsideTransfer := by
  unfold execMessage
  split
  · rfl
  next c hc => rw [if_neg (h.resolve_left (by simp [hc]))]

theorem execAddress_outside (b : Byte) {s : State} (h : s.eng.call = none ∨ s.eng.seq.phase ≠ .addr) :
    execAddress b s = .refused .outsideTransfer := by
  unfold execAddress
  split
  · rfl
  next c hc => rw [if_neg (h.resolve_left (by simp [hc]))]

/-- A helper is refused as its transfer is (R283). -/
theorem helper_refused {a : Addr} {msgs : List Msg} (ret : State → Ret) {s : State} {x : Refusal}
    (h : transfer a msgs s = .refuse x) : helper a msgs ret s = .refuse x := by
  rw [helper, h]
  rfl

/-- A read-modify-write begins with its read (R282). -/
theorem updateMasked_refused {a : Addr} {reg : Byte} (mask value : Byte) {s : State} {x : Refusal}
    (h : transfer a (writeReadPattern [reg] 1) s = .refuse x) : updateMasked a reg mask value s = .refuse x := by
  rw [updateMasked, regRead8, helper_refused _ h]
  rfl

/-- A call is refused as its first transfer is: one with at least one message, but for the empty `TRANSFER`. -/
theorem exec_call_refused {a : Addr} {i : Instr} (hi : callsTo a i = true) {s : State} {x : Refusal}
    (hcons : ∀ m ms, transfer a (m :: ms) s = .refuse x)
    (hnil : i = .transfer a [] → transfer a [] s = .refuse x) : exec i s = .refused x := by
  cases i
  case transfer b msgs =>
    obtain rfl : b = a := of_decide_eq_true hi
    cases msgs with
    | nil => exact congrArg toOutcome (hnil rfl)
    | cons m ms => exact congrArg toOutcome (hcons m ms)
  case detect | write | regWrite8 | regWrite16Be | regWrite16Le =>
    obtain rfl := of_decide_eq_true hi
    exact congrArg toOutcome (hcons _ _)
  case read | writeThenRead | regRead8 | regRead16Be | regRead16Le =>
    obtain rfl := of_decide_eq_true hi
    exact congrArg toOutcome (helper_refused _ (hcons _ _))
  case updateMasked =>
    obtain rfl := of_decide_eq_true hi
    exact congrArg toOutcome (updateMasked_refused _ _ (hcons _ _))
  all_goals cases hi

theorem transfer_concurrent {a : Addr} {msgs : List Msg} {s : State} (h : s.eng.seq.phase ≠ .idle) :
    transfer a msgs s = .refuse .concurrentCall := by
  unfold transfer
  rw [if_pos h]

theorem transfer_ownAddress {a : Addr} {msgs : List Msg} {s : State} (hp : s.eng.seq.phase = .idle)
    (hc : s.eng.configured = true) (ha : s.cfg.tgtAddr = some a) (hm : msgs ≠ []) :
    transfer a msgs s = .refuse .ownAddress := by
  rcases transfer_cases a msgs s hp with ⟨h, -⟩ | ⟨-, h, -⟩ | ⟨-, -, -, h⟩ | ⟨-, -, h, -⟩
  · rw [hc] at h; cases h
  · exact absurd h hm
  · exact h
  · exact absurd ha h

theorem Line.refusal_of_foreign {l : Line} (h : l.foreign = true) : l.refusal = some .secondController := if_pos h

/-- A clock driven high in push-pull drive that a device pulls low is found by the next action (U12). -/
theorem Line.refusal_of_fought {s : State} (h1 : OneController s) (hu : ¬ Unfought s) :
    s.line.refusal = some .pushPullContention := by
  have hf : s.line.foreign = false := h1
  have hany : (s.line.ext :: s.line.env.headD []).any s.line.fought = true := by
    by_contra hn
    refine hu fun hd ho => ?_
    simpa [Line.fought, hd, ho] using hn
  rw [Line.refusal, hf, hany]
  rfl

/-- The first condition of a call is a start, whose first action is on the lines (R186, R135). -/
theorem rowCond_refused {s : State} {x : Refusal} (hb : s.cfg.backend = .bitBang) (hi : s.eng.seq.i = 0)
    (hx : s.line.refusal = some x) : rowCond s = .refuse x := by
  have hstart : wireStart s = .refuse x := (setData_begins false).andThen _ s x hx
  rw [rowCond, if_pos hi, busStart, hb]
  exact congrArg (Run.andThen · _) hstart

/-- A call's first message begins with its condition (R183, R185). -/
theorem runMsg_loopStart_refused (a : Addr) (m : Msg) {c : Call} {s : State} {x : Refusal}
    (hb : s.cfg.backend = .bitBang) (hx : (loopStart c s).line.refusal = some x) :
    runMsg a m (loopStart c s) = .refuse x := by
  obtain ⟨heng, -⟩ := loopStart_cells c s
  have hflg : (loopStart c s).eng.flg = flagRestart := by rw [heng]
  have hi : (loopStart c s).eng.seq.i = 0 := by rw [heng]
  have hcfg := (loopStart_frame c s).cfg
  have hrestart : hasRestart (rowLoadFlags m (setPhase .loadFlags (loopStart c s))).eng.flg = true := by
    show hasRestart (effectiveFlags (loopStart c s).eng.flg m) = true
    rw [hasRestart_effectiveFlags, hflg, hasRestart_flagRestart, Bool.true_or]
  have hcond : rowCond (rowLoadFlags m (setPhase .loadFlags (loopStart c s))) = .refuse x :=
    rowCond_refused (by rw [← hb, ← hcfg]; rfl) hi hx
  rw [runMsg_noStop (by rw [hflg, hasStop_flagRestart]), runAddr, if_pos hrestart, hcond]
  rfl

/-- A call that would run finds what makes an action on the lines refused. -/
theorem transfer_line_refused {a : Addr} (m : Msg) (ms : List Msg) {s : State} {x : Refusal} (h : MayCall a s)
    (hb : s.cfg.backend = .bitBang)
    (hx : (loopStart ⟨a, m :: ms⟩ s).line.refusal = some x) : transfer a (m :: ms) s = .refuse x := by
  obtain ⟨⟨hp, -⟩, hc, ha⟩ := h
  rcases transfer_cases a (m :: ms) s hp with ⟨hc', -⟩ | ⟨-, hm, -⟩ | ⟨-, -, ha', -⟩ | ⟨-, -, -, ht⟩
  · rw [hc] at hc'; cases hc'
  · cases hm
  · exact absurd ha' ha
  · rw [ht, runMsgs, runMsg_loopStart_refused a m hb hx]
    rfl

end Sys2Proof.Machine

end

section

namespace Sys2Proof.WirePrimitives

open Sys2Proof Sys2Proof.Machine

/-- Settles O9: a call is refused as its first transfer is, and an operation on the lines at the instant before its
first action. -/
theorem operationsWithoutMeaning : Obligations.OperationsWithoutMeaning := by
  intro v b a m ms s
  refine ⟨fun hb i hi => ?_, fun hb i hi => ?_, fun h => ?_, fun h => ⟨?_, ?_⟩, fun i hi => ⟨fun hp => ?_, ?_⟩,
    fun hb hf => ⟨fun i hi => ?_, fun x hc => ?_, fun hm => ?_⟩, fun hb h1 hd => ⟨fun ho hx i hi => ?_, fun hx => ?_⟩⟩
  · obtain ⟨hprim, hbuild⟩ : isPrimitive i = true ∧ buildFor i .simulated = .bitBang := by
      simp only [List.mem_cons, List.not_mem_nil, or_false] at hi
      rcases hi with rfl | rfl | rfl | rfl | rfl | rfl | rfl | rfl | rfl | rfl | rfl | rfl | rfl <;> exact ⟨rfl, rfl⟩
    exact exec_otherTransport hprim (hbuild ▸ hb)
  · obtain ⟨hprim, hbuild⟩ : isPrimitive i = true ∧ buildFor i .simulated = .peripheral := by
      simp only [List.mem_cons, List.not_mem_nil, or_false] at hi
      rcases hi with rfl | rfl | rfl | rfl <;> exact ⟨rfl, rfl⟩
    exact exec_otherTransport hprim (hbuild ▸ hb)
  · rw [exec_toInstr]; exact execMessage_outside m h
  · exact execAddress_outside _ h
  · exact execAddress_outside _ h
  · exact exec_call_refused hi (fun _ _ => transfer_concurrent hp) fun _ => transfer_concurrent hp
  · intro hp hc ha hne
    exact exec_call_refused hi (fun _ _ => transfer_ownAddress hp hc ha (List.cons_ne_nil _ _)) fun h => absurd h hne
  · exact exec_line_refused hi hb (Line.refusal_of_foreign hf)
  · simp [exec, execConfigure, hc, hb, hf]
  · have hline : (loopStart ⟨a, m :: ms⟩ s).line.foreign = true := by
      obtain ⟨-, -, -, -, -, hl⟩ := loopStart_cells ⟨a, m :: ms⟩ s
      rw [hl]
      exact hf
    exact congrArg toOutcome (transfer_line_refused m ms hm hb (Line.refusal_of_foreign hline))
  · refine exec_line_refused hi hb (Line.refusal_of_fought h1 fun hu => ?_)
    obtain ⟨hext, henv⟩ := hu hd ho
    rcases hx with hx | ⟨e, he, hx⟩
    · rw [hext] at hx; cases hx
    · rw [henv e he] at hx; cases hx
  · by_cases hu : Unfought s
    · exact exec_setClock_contention hb h1 hu hd hx
    · exact exec_line_refused rfl hb (Line.refusal_of_fought h1 hu)

end Sys2Proof.WirePrimitives

end

/-! ## All a transfer can do (O32, O33) -/

section

namespace Sys2Proof.Machine

open Sys2Proof

/-- All a transfer can do: turn back at its entry checks, end with a clean bus, or wait for ever inside its loop. -/
theorem exec_transfer_next {a : Addr} {msgs : List Msg} {s t : State} (h : exec (.transfer a msgs) s = .next t) :
    (∃ r, (r = .err .notConfigured ∨ msgs = []) ∧ t = turnedBack ⟨a, msgs⟩ r s) ∨
      (msgs ≠ [] ∧ CallEnded a msgs s t) ∨ CallStuck s t := by
  change toOutcome (transfer a msgs s) = .next t at h
  by_cases hp : s.eng.seq.phase = .idle
  · rcases transfer_cases a msgs s hp with ⟨-, he⟩ | ⟨-, hm, he⟩ | ⟨-, -, -, he⟩ | ⟨hc, hm, -⟩
    · rw [he] at h; cases h
      exact .inl ⟨_, .inl rfl, rfl⟩
    · rw [he] at h; cases h
      exact .inl ⟨_, .inr hm, rfl⟩
    · rw [he] at h; cases h
    · obtain ⟨m, ms, rfl⟩ := List.exists_cons_of_ne_nil hm
      exact .inr ((toOutcome_next (transfer_post a m ms s hp hc) h).imp_left fun he => ⟨hm, he⟩)
  · rw [transfer_concurrent hp] at h
    cases h

/-- Settles O32: a transfer that turns back leaves the bus alone, and one that ends has put out its stop. -/
theorem cleanBusAfterEveryTransfer : Obligations.CleanBusAfterEveryTransfer := by
  intro a msgs s t hclean _ h hret
  rcases exec_transfer_next h with ⟨r, -, rfl⟩ | ⟨-, he⟩ | ⟨hs, -⟩
  · exact hclean
  · exact ⟨he.bus, fun hb => he.lines (he.ret.frame.cfg ▸ hb)⟩
  · exact absurd hret hs.waiting

/-- Settles O33: only a call that waits for ever has not given the interrupt enable back. -/
theorem interruptMasking : Obligations.InterruptMasking := by
  intro a msgs s t hw h
  rcases exec_transfer_next h with ⟨r, -, rfl⟩ | ⟨-, he⟩ | ⟨hs, -⟩
  · exact ⟨fun _ => rfl, fun _ hn => absurd hw hn, fun _ => rfl⟩
  · exact ⟨fun _ => he.ret.irq, fun _ hn => absurd (he.ret.waiting.trans hw) hn, fun _ => he.ret.irq⟩
  · exact ⟨fun hn => absurd hn hs.waiting, fun hb _ => ⟨by rw [hs.irq, if_pos hb], hs.saved hb⟩,
      fun hb => by rw [hs.irq, if_neg hb]⟩

end Sys2Proof.Machine

end

/-! ## The trace of a successful transfer (O34) -/

section

namespace Sys2Proof.Machine

open Sys2Proof

/-! ### The read buffers of a call -/

theorem bufOf_append (xs ys : List BufCell) (i : Nat) : bufOf (xs ++ ys) i = bufOf xs i ++ bufOf ys i := by
  simp [bufOf]

theorem bufOf_eq_nil {cells : List BufCell} {i : Nat} (h : ∀ c ∈ cells, c.msg ≠ i) : bufOf cells i = [] := by
  simpa [bufOf] using h

theorem bufOf_cellsAt (i j : Nat) (vs : List Byte) : bufOf (cellsAt i j vs) i = vs := by
  induction vs generalizing j with
  | nil => rfl
  | cons v vs ih => simpa [bufOf, cellsAt] using ih (j + 1)

theorem msg_of_mem_cellsAt {i j : Nat} {vs : List Byte} {c : BufCell} (h : c ∈ cellsAt i j vs) : c.msg = i := by
  rw [cellsAt_mapIdx, List.mem_mapIdx] at h
  obtain ⟨k, hk, rfl⟩ := h
  rfl

/-- The cells of a message are its own. -/
theorem MsgData.msg_of_mem {n i : Nat} {m : Msg} {vs : List Byte} {sy : List Sym} {ce : List BufCell}
    (h : MsgData n i m vs sy ce) {c : BufCell} (hc : c ∈ ce) : c.msg = i := by
  unfold MsgData at h
  split at h
  · obtain ⟨-, -, rfl⟩ := h
    cases hc
  · obtain ⟨-, -, rfl⟩ := h
    exact msg_of_mem_cellsAt hc

/-- Among cells of which the others are of other messages, a message's buffer is whole and its symbols are those R192
gives it. -/
theorem MsgData.dataSyms {n i : Nat} {m : Msg} {vs : List Byte} {sy : List Sym} {ce : List BufCell}
    (h : MsgData n i m vs sy ce) {cells : List BufCell} (hc : bufOf cells i = bufOf ce i) :
    sy = dataSyms cells n i m ∧ (bufOf cells i).length = if m.isRead then m.len else 0 := by
  obtain ⟨restart, stop, body⟩ := m
  cases body with
  | write buf =>
    obtain ⟨-, rfl, rfl⟩ := h
    exact ⟨rfl, congrArg List.length hc⟩
  | read len =>
    obtain ⟨hlen, rfl, rfl⟩ := h
    simp [Machine.dataSyms, Msg.isRead, Msg.len, hc, bufOf_cellsAt, hlen, recvSyms_rx n i len 0 vs (by omega)]

/-- The messages from index `i` on store in their own buffers. -/
theorem RunSyms.le_of_mem {b : Backend} {a : Addr} {n i : Nat} {f : BitVec 3} {o : Bool} {ms : List Msg}
    {syms : List Sym} {cells : List BufCell} (h : RunSyms b a n i f o ms syms cells) {c : BufCell} (hc : c ∈ cells) :
    i ≤ c.msg := by
  induction ms generalizing i f o syms cells with
  | nil =>
    obtain ⟨-, rfl⟩ := h
    cases hc
  | cons m ms ih =>
    obtain ⟨vs, sy, ce, sy', ce', hd, hr, -, rfl⟩ := h
    rcases List.mem_append.1 hc with hc | hc
    · exact (hd.msg_of_mem hc).ge
    · exact Nat.le_of_succ_le (ih hr hc)

/-- In a call's cells, the buffer of message `i` holds what that message stored. -/
theorem bufOf_message {b : Backend} {a : Addr} {n i : Nat} {f : BitVec 3} {o : Bool} {ms : List Msg} {syms : List Sym}
    {pre ce ce' : List BufCell} (hpre : ∀ c ∈ pre, c.msg < i) (hr : RunSyms b a n (i + 1) f o ms syms ce') :
    bufOf (pre ++ (ce ++ ce')) i = bufOf ce i := by
  rw [bufOf_append, bufOf_append, bufOf_eq_nil fun c hc => (hpre c hc).ne,
    bufOf_eq_nil fun c hc => (Nat.lt_of_succ_le (hr.le_of_mem hc)).ne', List.nil_append, List.append_nil]

/-! ### The symbols of a call -/

/-- No message of a list but the last carries `STOP`: neither does its head, when there is another, nor one but the last
of its tail. -/
theorem stop_of_dropLast {m : Msg} {ms : List Msg} (h : ∀ x ∈ (m :: ms).dropLast, x.stop = false) :
    (ms ≠ [] → m.stop = false) ∧ ∀ x ∈ ms.dropLast, x.stop = false := by
  cases ms with
  | nil => simp
  | cons m' ms => exact ⟨fun _ => h m List.mem_cons_self, fun x hx => h x (List.mem_cons_of_mem _ hx)⟩

/-- The messages behind the first of a call without an inner stop, in an open transaction: the trace R192 gives them, and
every read buffer whole, whatever cells the messages before have stored. -/
theorem RunSyms.laterSyms {b : Backend} {a : Addr} {n i : Nat} {f : BitVec 3} {ms : List Msg} {syms : List Sym}
    {cells pre : List BufCell} (h : RunSyms b a n i f true ms syms cells) (hi : i ≠ 0) (hf : hasRestart f = false)
    (hs : ms ≠ [] → hasStop f = false) (hstop : ∀ x ∈ ms.dropLast, x.stop = false) (hpre : ∀ c ∈ pre, c.msg < i) :
    syms = laterSyms (pre ++ cells) a n i ms ∧
      ∀ k x, ms[k]? = some x → (bufOf (pre ++ cells) (i + k)).length = if x.isRead then x.len else 0 := by
  induction ms generalizing i f syms cells pre with
  | nil =>
    obtain ⟨rfl, rfl⟩ := h
    exact ⟨rfl, by simp⟩
  | cons m ms ih =>
    obtain ⟨vs, sy, ce, sy', ce', hd, hr, rfl, rfl⟩ := h
    have hs' := hs (by simp)
    obtain ⟨hm, hms⟩ := stop_of_dropLast hstop
    have hpre' : ∀ c ∈ pre ++ ce, c.msg < i + 1 := fun c hc => by
      rcases List.mem_append.1 hc with hc | hc
      · exact Nat.lt_succ_of_lt (hpre c hc)
      · exact Nat.lt_succ_of_le (hd.msg_of_mem hc).le
    obtain ⟨hsy, hlen⟩ := hd.dataSyms (bufOf_message hpre hr)
    rw [hs', Bool.not_false, Bool.and_true, Bool.or_true] at hr
    obtain ⟨hlater, hlens⟩ := ih hr (by omega) (hasRestart_clearRestart _)
      (fun hne => by rw [hasStop_clearRestart, hasStop_effectiveFlags, hm hne]) hms hpre'
    rw [List.append_assoc] at hlater hlens
    refine ⟨?_, fun k x hx => ?_⟩
    · rw [Machine.laterSyms, ← hsy, ← hlater]
      simp [hs', hf, hasRestart_effectiveFlags, condSym, hi]
    · cases k with
      | zero => cases hx; exact hlen
      | succ k =>
        rw [show i + (k + 1) = i + 1 + k by omega]
        exact hlens k x hx

/-- A whole call without an inner stop, from an idle bus: the trace R192 gives it up to its stop, and every read buffer
whole. -/
theorem RunSyms.callSyms {b : Backend} {a : Addr} {m : Msg} {ms : List Msg} {syms : List Sym} {cells : List BufCell}
    (h : RunSyms b a (m :: ms).length 0 flagRestart false (m :: ms) syms cells)
    (hstop : ∀ x ∈ (m :: ms).dropLast, x.stop = false) :
    syms ++ [.stop] = callSyms cells a m ms ∧
      ∀ i x, (m :: ms)[i]? = some x → (bufOf cells i).length = if x.isRead then x.len else 0 := by
  obtain ⟨vs, sy, ce, sy', ce', hd, hr, rfl, rfl⟩ := h
  obtain ⟨hm, hms⟩ := stop_of_dropLast hstop
  have hrestart : hasRestart (effectiveFlags flagRestart m) = true := by
    rw [hasRestart_effectiveFlags, hasRestart_flagRestart, Bool.true_or]
  obtain ⟨hsy, hlen⟩ := hd.dataSyms (bufOf_message (pre := []) (by simp) hr)
  rw [hrestart, Bool.true_or] at hr
  obtain ⟨hlater, hlens⟩ := hr.laterSyms one_ne_zero (hasRestart_clearRestart _)
    (fun hne => by rw [hasStop_clearRestart, hasStop_effectiveFlags, hm hne]) hms
    fun c hc => Nat.lt_succ_of_le (hd.msg_of_mem hc).le
  refine ⟨?_, fun i x hx => ?_⟩
  · rw [hrestart, hsy, hlater]
    simp [Machine.callSyms, hasStop_flagRestart, condSym]
  · cases i with
    | zero => cases hx; exact hlen
    | succ k =>
      rw [Nat.add_comm k 1]
      exact hlens k x hx

/-- Settles O34: on an idle bus with no transaction open at the peripheral either, `Ok` comes from the messages' symbols
and the final stop. -/
theorem traceShape : Obligations.TraceShape := by
  intro a m ms s t hbus hlctl hstop h hok
  rcases exec_transfer_next h with ⟨r, rfl | hn, rfl⟩ | ⟨-, he⟩ | ⟨hs, -⟩
  · cases hok
  · cases hn
  · obtain ⟨-, syms, hsyms, htrace⟩ | ⟨herr, -⟩ | ⟨herr, -⟩ := he.result
    · rw [busOpen_idle rfl hbus fun _ => hlctl] at hsyms
      rw [htrace]
      exact hsyms.callSyms hstop
    · rw [hok] at herr; cases herr
    · rw [hok] at herr; cases herr
  · rw [hs.result] at hok; cases hok

end Sys2Proof.Machine

end

/-! ## The small-step table (O38) -/

section

namespace Sys2Proof.Machine

open Sys2Proof

/-- Where `CHECK` leads a call (R182): to its return, or to its first message with the loop's entry made. -/
theorem rowCheck_stands {c : Call} {s : State} (h : StandsAt c .check s) :
    (rowCheck c s).Post
      (fun _ t => StandsAt c .done t ∨ (c.msgs ≠ [] ∧ StandsAt c .preStop t ∧ t.eng.seq.i = 0))
      fun t => t.eng.waiting ≠ none := by
  have hcall : (enter s).eng.call = some c := (enter_cells s).2.1.trans h.call
  unfold rowCheck
  split
  · exact .inl ⟨h.call, rfl, h.waiting⟩
  split
  · exact .inl ⟨h.call, rfl, h.waiting⟩
  next hm =>
  split
  · trivial
  · refine .inr ⟨by simpa using hm, ⟨hcall, rfl, ?_⟩, rfl⟩
    show (enter s).eng.waiting = none
    unfold enter
    cases s.cfg.backend <;> exact h.waiting

/-- Settles O38: `CHECK` is the first row, and behind it stand the return or the rows of the messages. -/
theorem smallStepsMakeTheTransfer : Obligations.SmallStepsMakeTheTransfer := by
  intro a msgs s ⟨hp, hw⟩
  have hs : StandsAt ⟨a, msgs⟩ .check (beginCall ⟨a, msgs⟩ s) := ⟨rfl, rfl, hw⟩
  show Ends _ (toOutcome (transfer a msgs s))
  rw [transfer, if_neg (by simp [hp])]
  refine Ends.run (by rw [hs.phase]; decide) hs.waiting rfl (rowCheck_stands hs) fun t ht => ?_
  rcases ht with ht | ⟨hm, ht, hi⟩
  · rw [if_pos ht.phase]
    exact Ends.next (by rw [ht.phase]; decide) ht.waiting (by rw [seqMove, ht.call, ht.phase]) (Ends.halt (.inl rfl))
  · rw [if_neg (by rw [ht.phase]; decide)]
    exact ends_runMsgs (c := ⟨a, msgs⟩) msgs t hm ht (by rw [hi]; rfl)

end Sys2Proof.Machine

end

/-! ## `CONFIGURE` (O26, O27) -/

section

namespace Sys2Proof.Machine

open Sys2Proof

/-- The ceiling of R161's reference formula. -/
theorem ceilDiv_eq (a : Nat) {b : Nat} (hb : 1 ≤ b) : ceilDiv a b = (a + (b - 1)) / b := by
  rw [ceilDiv, Nat.add_sub_assoc hb]

/-- A write of SDA takes one instant of the outside's script. -/
theorem Line.extAt_da (cfg : Params) (v : Bool) (l : Line) (n : Nat) : (l.da cfg v).extAt n = l.extAt (n + 1) :=
  (Line.extAt_congr (driveData_env cfg v _) (driveData_ext cfg v _) n).trans (Line.extAt_move cfg l n)

/-- The lines when the drive detection begins to sample: the clock released, an instant on (R164). -/
def Line.toSample (cfg : Params) (l : Line) : Line :=
  Line.record cfg { Line.move cfg l with drive := .openDrain, sclOut := true }

theorem detectDrive_eq (cfg : Params) (l : Line) :
    detectDrive cfg l =
      let r := sampleClock cfg cfg.nSamples (l.toSample cfg)
      if r.2 then r.1 else Line.record cfg { Line.move cfg r.1 with drive := .pushPull } := rfl

theorem Line.extAt_toSample (cfg : Params) (l : Line) (n : Nat) : (l.toSample cfg).extAt n = l.extAt (n + 1) :=
  (Line.extAt_congr (l := Line.move cfg l) (by simp [toSample]) (by simp [toSample]) n).trans (Line.extAt_move cfg l n)

/-- All the drive detection does (R164): a clock asked high, and open-drain drive exactly when every sample was high, the
first of them two instants on. -/
theorem detectDrive_spec (cfg : Params) (l : Line) :
    (detectDrive cfg l).sclOut = true ∧ (detectDrive cfg l).sdaOut = l.sdaOut ∧
      (detectDrive cfg l).tHalf = l.tHalf ∧ (detectDrive cfg l).tQuarter = l.tQuarter ∧
      ((detectDrive cfg l).drive = .openDrain ↔ ∀ k < cfg.nSamples, (l.extAt (k + 2)).scl = true ∧
        (cfg.pullUp = true ∨ (l.extAt (k + 2)).flt = true)) := by
  obtain ⟨hsame, hhigh⟩ := sampleClock_spec cfg cfg.nSamples (l.toSample cfg)
  have hscl := hsame.sclOut.trans (show (l.toSample cfg).sclOut = true by simp [Line.toSample])
  have hsda := hsame.sdaOut.trans (show (l.toSample cfg).sdaOut = l.sdaOut by simp [Line.toSample])
  have hdrive := hsame.drive.trans (show (l.toSample cfg).drive = .openDrain by simp [Line.toSample])
  have hhalf := hsame.tHalf.trans (show (l.toSample cfg).tHalf = l.tHalf by simp [Line.toSample])
  have hquarter := hsame.tQuarter.trans (show (l.toSample cfg).tQuarter = l.tQuarter by simp [Line.toSample])
  simp only [Line.extAt_toSample] at hhigh
  rw [detectDrive_eq]
  dsimp only
  split
  next h => exact ⟨hscl, hsda, hhalf, hquarter, iff_of_true hdrive (hhigh.1 h)⟩
  next h =>
    exact ⟨by simp [hscl], by simp [hsda], by simp [hhalf], by simp [hquarter],
      iff_of_false (by simp) fun hall => h (hhigh.2 hall)⟩

/-- The lines after `CONFIGURE` on the bit-banged transport (R180). -/
theorem configureTransport_bitBang (m : Mode) {s : State} (hb : s.cfg.backend = .bitBang) :
    configureTransport m s = { s with line := detectDrive s.cfg (Line.da s.cfg true
      { s.line with tHalf := ticksHalf s.cfg m, tQuarter := ticksQuarter s.cfg m }) } := by
  unfold configureTransport
  rw [hb]
  rfl

/-- Settles O26: SDA is released an instant on, and the detection begins there. -/
theorem configureBitBang : Obligations.ConfigureBitBang := by
  intro m s hc hb ho f
  obtain ⟨hscl, hsda, hhalf, hquarter, hdrive⟩ := detectDrive_spec s.cfg
    (Line.da s.cfg true { s.line with tHalf := ticksHalf s.cfg m, tQuarter := ticksQuarter s.cfg m })
  rw [Line.da_sdaOut] at hsda
  rw [Line.da_tHalf] at hhalf
  rw [Line.da_tQuarter] at hquarter
  simp only [Line.extAt_da] at hdrive
  obtain ⟨hf, hpos⟩ : modeHz m = f ∧ 1 ≤ f := by cases m <;> decide
  refine ⟨_, exec_configure_fresh m hc fun _ => ho, rfl, rfl, rfl, ?_⟩
  rw [configureTransport_bitBang m hb, ← ceilDiv_eq _ (by omega), ← ceilDiv_eq _ (by omega), ← hf]
  exact ⟨hhalf, hquarter, hscl, hsda, hdrive, rfl, rfl, rfl, rfl, rfl, rfl, rfl, rfl, rfl, rfl, rfl, rfl, rfl, rfl, rfl⟩

/-- Settles O27: the peripheral's baud, enable and open transaction are written, the simulated bus has nothing to set. -/
theorem configureOthers : Obligations.ConfigureOthers := by
  intro m s hc hb
  refine ⟨_, exec_configure_fresh m hc fun h => absurd h hb, rfl, rfl, rfl, ?_⟩
  unfold configureTransport
  cases hbk : s.cfg.backend with
  | bitBang => exact absurd hbk hb
  | peripheral => cases m <;> simp [baudOf, setResult]
  | simulated => simp [setResult]

end Sys2Proof.Machine

end

/-! ## Before the bus is touched, and when the environment is willing (O30, O31) -/

section

namespace Sys2Proof.Machine

open Sys2Proof

/-! ### Calls that turn back (R182, R283, R311) -/

theorem transfer_notConfigured (a : Addr) (msgs : List Msg) {s : State} (hp : s.eng.seq.phase = .idle)
    (hc : s.eng.configured = false) :
    transfer a msgs s = .done () (turnedBack ⟨a, msgs⟩ (.err .notConfigured) s) := by
  rcases transfer_cases a msgs s hp with ⟨-, h⟩ | ⟨hc', -⟩ | ⟨hc', -⟩ | ⟨hc', -⟩
  · exact h
  all_goals rw [hc] at hc'; cases hc'

theorem transfer_empty (a : Addr) {s : State} (hp : s.eng.seq.phase = .idle) (hc : s.eng.configured = true) :
    transfer a [] s = .done () (turnedBack ⟨a, []⟩ .ok s) := by
  rcases transfer_cases a [] s hp with ⟨hc', -⟩ | ⟨-, -, h⟩ | ⟨-, hm, -⟩ | ⟨-, hm, -⟩
  · rw [hc] at hc'; cases hc'
  · exact h
  · exact absurd rfl hm
  · exact absurd rfl hm

/-- A helper returns its transfer's error unchanged (R283). -/
theorem helper_error {a : Addr} {msgs : List Msg} (ret : State → Ret) {s t : State} {e : BusError}
    (h : transfer a msgs s = .done () t) (he : t.host.result = .err e) : helper a msgs ret s = .done () t := by
  rw [helper, h]
  simp [he]

/-- A read-modify-write returns its read's error unchanged (R283). -/
theorem updateMasked_error {a : Addr} {reg : Byte} (mask value : Byte) {s t : State} {e : BusError}
    (h : transfer a (writeReadPattern [reg] 1) s = .done () t) (he : t.host.result = .err e) :
    updateMasked a reg mask value s = .done () t := by
  rw [updateMasked, regRead8, helper_error _ h he]
  simp [he]

/-- Every call on an unconfigured bus turns back, and so does an empty transfer on a configured one. -/
theorem exec_call_turnedBack {a : Addr} {i : Instr} {s : State} (hi : callsTo a i = true)
    (hp : s.eng.seq.phase = .idle) (h : s.eng.configured = false ∨ i = .transfer a []) :
    ∃ c, exec i s = .next (turnedBack c (if s.eng.configured then .ok else .err .notConfigured) s) := by
  cases hc : s.eng.configured with
  | true =>
    obtain rfl := h.resolve_left (by simp [hc])
    exact ⟨_, congrArg toOutcome (transfer_empty a hp hc)⟩
  | false =>
    cases i
    case transfer | detect | write | regWrite8 | regWrite16Be | regWrite16Le =>
      exact ⟨_, congrArg toOutcome (transfer_notConfigured _ _ hp hc)⟩
    case read | writeThenRead | regRead8 | regRead16Be | regRead16Le =>
      exact ⟨_, congrArg toOutcome (helper_error _ (transfer_notConfigured _ _ hp hc) rfl)⟩
    case updateMasked =>
      exact ⟨_, congrArg toOutcome (updateMasked_error _ _ (transfer_notConfigured _ _ hp hc) rfl)⟩
    all_goals cases hi

/-- Settles O30: a call that turns back leaves its result and an empty trace, and no bus activity. -/
theorem entryChecks : Obligations.EntryChecks := by
  intro a i s hp hi h
  obtain ⟨c, hexec⟩ := exec_call_turnedBack hi hp h
  exact ⟨_, hexec, rfl, rfl, rfl, rfl, rfl, rfl, rfl, rfl, rfl, rfl, rfl, rfl, rfl, turnedBack_frame c _ s⟩

/-! ### A willing environment -/

/-- A run that is known to complete does what it can do. -/
theorem Run.Post.of_done {α : Type} {r : Run α} {D : α → State → Prop} {H : State → Prop} {a : α} {t : State}
    (h : r.Post D H) (hr : r = .done a t) : D a t := by
  rw [hr] at h
  exact h

/-- Settles O31: a willing environment lets the transfer complete, and a transfer that completes has ended cleanly. -/
theorem transferReturns : Obligations.TransferReturns := by
  intro a m ms s hmay hw
  obtain ⟨t, ht, -⟩ := transfer_done a (m :: ms) (k := 0) hmay (by simpa using hw)
  obtain ⟨⟨hp, hwait⟩, hc, -⟩ := hmay
  have he := (transfer_post a m ms s hp hc).of_done ht
  refine ⟨t, congrArg toOutcome ht, ⟨he.ret.phase, he.ret.waiting.trans hwait⟩, he.bus, ?_, fun hne => ?_, he.ret.past⟩
  · rcases he.result with ⟨hr, -⟩ | ⟨hr, -⟩ | ⟨hr, hb⟩
    · exact .inl hr
    · exact .inr (.inl hr)
    · exact .inr (.inr ⟨hb, hr⟩)
  · rcases he.result with ⟨-, syms, -, htrace⟩ | ⟨-, hlast⟩ | ⟨hr, -⟩
    · rw [htrace, List.getLast?_concat]
    · exact hlast
    · exact absurd hr hne

end Sys2Proof.Machine

end

/-! ## A call that the peripheral answers (O35, O36) -/

section

namespace Sys2Proof.Machine

open Sys2Proof

/-- What a completed command leaves of the peripheral: the command recorded, its answer used up, the arbitration flag
and the mark that no byte has gone out since the start (R211, R217). -/
structure Replied (c : SrpCmd) (rest : List SrpAnswer) (lost after : Bool) (r q : Srp) : Prop where
  cmds : q.cmds = r.cmds ++ [c]
  env : q.env = rest
  done : q.done = false
  arbLost : q.arbLost = lost
  afterStart : q.afterStart = after

/-- The state after a byte that the peripheral has sent (R213). -/
def sentByte (b : Byte) (a : SrpAnswer) (rest : List SrpAnswer) (s : State) : State :=
  emit (.tx b (!a.rxAck)) (setAcked (!a.rxAck) (setArbLost (arbAfterByte a s.srp) (answered (.write b)
    (fun r => { r with data := b, arbLost := arbAfterByte a s.srp, rxAck := a.rxAck, afterStart := false }) rest s)))

/-- The state after a byte that the peripheral has received (R214). -/
def receivedByte (ack : Bool) (a : SrpAnswer) (rest : List SrpAnswer) (s : State) : State :=
  emit (.rx a.data ack) (setArbLost (arbAfterByte a s.srp) (answered (.read ack)
    (fun r => { r with ackNext := ack, arbLost := arbAfterByte a s.srp, data := a.data, afterStart := false }) rest s))

theorem sentByte_replied (b : Byte) (a : SrpAnswer) (rest : List SrpAnswer) (s : State) :
    Replied (.write b) rest (arbAfterByte a s.srp) false s.srp (sentByte b a rest s).srp := ⟨rfl, rfl, rfl, rfl, rfl⟩

theorem receivedByte_replied (ack : Bool) (a : SrpAnswer) (rest : List SrpAnswer) (s : State) :
    Replied (.read ack) rest (arbAfterByte a s.srp) false s.srp (receivedByte ack a rest s).srp := ⟨rfl, rfl, rfl, rfl, rfl⟩

theorem arbLostRead_sentByte (b : Byte) (a : SrpAnswer) (rest : List SrpAnswer) {s : State}
    (hb : s.cfg.backend = .peripheral) : arbLostRead (sentByte b a rest s) = arbAfterByte a s.srp := by
  unfold arbLostRead sentByte
  simp [answered, hb]

theorem arbLostRead_receivedByte (ack : Bool) (a : SrpAnswer) (rest : List SrpAnswer) (c : List BufCell) {s : State}
    (hb : s.cfg.backend = .peripheral) :
    arbLostRead { receivedByte ack a rest s with eng := { (receivedByte ack a rest s).eng with buf := c } } =
      arbAfterByte a s.srp := by
  unfold arbLostRead receivedByte
  simp [answered, hb]

/-- What follows a byte of a call, once the arbitration flag and the acknowledge are looked at (R190, R322). -/
def phaseAfterByte (lost nacked : Bool) (p : Phase) : Phase :=
  if lost then .failStop .arbitrationLost else if nacked then .failStop .nack else p

section
variable {s : State} {a : SrpAnswer} {rest : List SrpAnswer} (hb : s.cfg.backend = .peripheral)
  (hd : s.srp.done = false) (he : s.srp.env = a :: rest)
include hb hd he

theorem busSendByte_answer (b : Byte) : busSendByte b s = .done () (sentByte b a rest s) := by
  unfold busSendByte srpWrite
  rw [hb]
  dsimp only
  rw [waitDone_answer (s := srpCommand (.write b) { s with srp := { s.srp with data := b } }) hd he]
  rfl

theorem busRecvByte_answer (ack : Bool) : busRecvByte ack s = .done a.data (receivedByte ack a rest s) := by
  unfold busRecvByte srpRead
  rw [hb]
  dsimp only
  rw [waitDone_answer (s := srpCommand (.read ack) { s with srp := { s.srp with ackNext := ack } }) hd he]
  rfl

/-- The condition of a call: a start at the peripheral, whichever message it stands before (R212). -/
theorem rowCond_answer : ∃ t, rowCond s = .done () t ∧ Replied .start rest a.arbLost true s.srp t.srp := by
  have hstart : rowCond s = (srpStart s).andThen fun s => .done () (setPhase .addr s) := by
    unfold rowCond busStart busRstart
    rw [hb]
    exact congrArg (Run.andThen · _) (ite_self _)
  rw [hstart, srpStart, waitDone_answer (s := srpCommand .start s) hd he]
  exact ⟨_, rfl, rfl, rfl, rfl, rfl, rfl⟩

theorem rowAddr_answer (b : Byte) :
    ∃ t, rowAddr b s = .done () t ∧ Replied (.write b) rest (arbAfterByte a s.srp) false s.srp t.srp ∧
      t.eng.trace = s.eng.trace ++ [.tx b (!a.rxAck)] ∧
      t.eng.seq.phase = phaseAfterByte (arbAfterByte a s.srp) a.rxAck (dataPhase s.eng.flg) := by
  have hack : (!(sentByte b a rest s).eng.acked) = a.rxAck := Bool.not_not _
  rw [rowAddr, busSendByte_answer hb hd he, Run.andThen_done, arbLostRead_sentByte b a rest hb, hack, phaseAfterByte]
  split
  · exact ⟨_, rfl, sentByte_replied b a rest s, rfl, rfl⟩
  split
  · exact ⟨_, rfl, sentByte_replied b a rest s, rfl, rfl⟩
  · exact ⟨_, rfl, sentByte_replied b a rest s, rfl, rfl⟩

theorem rowSend_answer (b : Byte) :
    ∃ t, rowSend b s = .done () t ∧ Replied (.write b) rest (arbAfterByte a s.srp) false s.srp t.srp ∧
      t.eng.trace = s.eng.trace ++ [.tx b (!a.rxAck)] ∧
      t.eng.seq.phase = phaseAfterByte (arbAfterByte a s.srp) a.rxAck s.eng.seq.phase := by
  have hack : (!(sentByte b a rest s).eng.acked) = a.rxAck := Bool.not_not _
  rw [rowSend, busSendByte_answer hb hd he, Run.andThen_done, arbLostRead_sentByte b a rest hb, hack, phaseAfterByte]
  split
  · exact ⟨_, rfl, sentByte_replied b a rest s, rfl, rfl⟩
  split
  · exact ⟨_, rfl, sentByte_replied b a rest s, rfl, rfl⟩
  · exact ⟨_, rfl, sentByte_replied b a rest s, rfl, rfl⟩

/-- A received byte needs no acknowledge: only a loss of arbitration ends the data (R188, R190). -/
theorem rowRecv_answer (len : Nat) :
    ∃ t, rowRecv len s = .done () t ∧
      Replied (.read (recvAck (msgCount s) s.eng.seq.i len s.eng.seq.j)) rest (arbAfterByte a s.srp) false s.srp t.srp ∧
      t.eng.trace = s.eng.trace ++ [.rx a.data (recvAck (msgCount s) s.eng.seq.i len s.eng.seq.j)] ∧
      t.eng.buf = s.eng.buf ++ [⟨s.eng.seq.i, s.eng.seq.j, a.data⟩] ∧ t.eng.seq.i = s.eng.seq.i ∧
      t.eng.seq.j = s.eng.seq.j + 1 ∧
      t.eng.seq.phase = phaseAfterByte (arbAfterByte a s.srp) false s.eng.seq.phase := by
  rw [rowRecv, busRecvByte_answer hb hd he, Run.bind_done]
  dsimp only
  rw [arbLostRead_receivedByte _ a rest _ hb, phaseAfterByte]
  split
  · exact ⟨_, rfl, receivedByte_replied _ a rest s, rfl, rfl, rfl, rfl, rfl⟩
  · exact ⟨_, rfl, receivedByte_replied _ a rest s, rfl, rfl, rfl, rfl, rfl⟩

end

/-! ### The first message of a call up to its data -/

/-- The state with the flags of a call's first message loaded (R183, R185). -/
def firstLoaded (c : Call) (m : Msg) (s : State) : State := rowLoadFlags m (setPhase .loadFlags (loopStart c s))

theorem firstLoaded_flg (c : Call) (m : Msg) (s : State) :
    (firstLoaded c m s).eng.flg = effectiveFlags flagRestart m := by
  show effectiveFlags (loopStart c s).eng.flg m = _
  rw [(loopStart_cells c s).1]

theorem hasRestart_firstLoaded (c : Call) (m : Msg) (s : State) : hasRestart (firstLoaded c m s).eng.flg = true := by
  rw [firstLoaded_flg, hasRestart_effectiveFlags, hasRestart_flagRestart, Bool.true_or]

theorem firstLoaded_cells (c : Call) (m : Msg) (s : State) :
    (firstLoaded c m s).cfg = s.cfg ∧ (firstLoaded c m s).srp = s.srp ∧ (firstLoaded c m s).eng.call = some c ∧
      (firstLoaded c m s).eng.seq.i = 0 ∧ (firstLoaded c m s).eng.buf = [] ∧ (firstLoaded c m s).eng.trace = [] := by
  obtain ⟨heng, -, hsrp, -⟩ := loopStart_cells c s
  refine ⟨(loopStart_frame c s).cfg, hsrp, ?_⟩
  show (loopStart c s).eng.call = _ ∧ (loopStart c s).eng.seq.i = _ ∧ (loopStart c s).eng.buf = _ ∧
    (loopStart c s).eng.trace = _
  rw [heng]
  exact ⟨rfl, rfl, rfl, rfl⟩

/-- A call's first message begins with its condition and its address byte (R183, R186). -/
theorem runMsg_first (a : Addr) (c : Call) (m : Msg) (s : State) :
    runMsg a m (loopStart c s) = (rowCond (firstLoaded c m s)).andThen fun t =>
      (rowAddr (addrByte a (hasRead t.eng.flg)) t).andThen fun u =>
        if failed u then .done () u
        else (runData m u).andThen fun v => if failed v then .done () v else .done () (rowEndMsg v) := by
  have hstop : hasStop (loopStart c s).eng.flg = false := by rw [(loopStart_cells c s).1, hasStop_flagRestart]
  rw [runMsg_noStop hstop, ← firstLoaded, runAddr, if_pos (hasRestart_firstLoaded c m s), Run.andThen_assoc]

/-- Where the first message of a call stands once the peripheral has answered its start with `x` and its address byte
with `y` (R186, R190, R217). -/
structure FirstAddressed (c : Call) (m : Msg) (x y : SrpAnswer) (rest : List SrpAnswer) (s t : State) : Prop where
  cfg : t.cfg = s.cfg
  call : t.eng.call = some c
  i : t.eng.seq.i = 0
  j : failed t = false → t.eng.seq.j = 0
  buf : t.eng.buf = []
  cmds : t.srp.cmds = s.srp.cmds ++ [.start, .write (addrByte c.addr m.isRead)]
  env : t.srp.env = rest
  done : t.srp.done = false
  afterStart : t.srp.afterStart = false
  trace : t.eng.trace = [if s.srp.lctlOpen then .rstart else .start, .tx (addrByte c.addr m.isRead) (!y.rxAck)]
  phase : t.eng.seq.phase =
    phaseAfterByte (y.arbLost || x.arbLost) y.rxAck (if m.isRead then .dataRd else .dataWr)

/-- On the peripheral the first message of a call gives a start and its address byte; their answers decide what follows. -/
theorem runMsg_first_answer {c : Call} {s : State} {x y : SrpAnswer} {rest : List SrpAnswer} (m : Msg)
    (hb : s.cfg.backend = .peripheral) (hd : s.srp.done = false) (he : s.srp.env = x :: y :: rest) :
    ∃ t, FirstAddressed c m x y rest s t ∧ runMsg c.addr m (loopStart c s) =
        if failed t then .done () t
        else (runData m t).andThen fun u => if failed u then .done () u else .done () (rowEndMsg u) := by
  obtain ⟨hcfg, hsrp, hcall, hi, hbuf, htr⟩ := firstLoaded_cells c m s
  obtain ⟨t, ht, rt⟩ := rowCond_answer (s := firstLoaded c m s) (hcfg ▸ hb) (hsrp ▸ hd) (hsrp ▸ he)
  obtain ⟨tl, -, tf, ti, tj, tb, -, ttr, -⟩ := (rowCond_post _).of_done ht
  have tread : hasRead t.eng.flg = m.isRead := by rw [tf, firstLoaded_flg, hasRead_effectiveFlags]
  have tcfg : t.cfg = s.cfg := tl.frame.cfg.trans hcfg
  obtain ⟨u, hu, ru, utr, uph⟩ := rowAddr_answer (tcfg ▸ hb) rt.done rt.env (addrByte c.addr m.isRead)
  obtain ⟨ul, -, ui, ub, _, -, hres⟩ := (rowAddr_post _ t).of_done hu
  have hlost : arbAfterByte y t.srp = (y.arbLost || x.arbLost) := by
    rw [arbAfterByte, rt.arbLost, rt.afterStart, Bool.true_and]
  refine ⟨u, ⟨ul.frame.cfg.trans tcfg, ul.call.trans (tl.call.trans hcall), ui.trans (ti.trans hi), fun hf => ?_,
    ub.trans (tb.trans hbuf), ?_, ru.env, ru.done, ru.afterStart, ?_, ?_⟩, ?_⟩
  · rcases hres with ⟨e, he, -⟩ | ⟨-, -, hj, -⟩
    · rw [he.failed] at hf; cases hf
    · exact hj.trans tj
  · rw [ru.cmds, rt.cmds, hsrp]
    simp
  · rw [utr, ttr, htr, hcfg, hb, hi]
    simp [condSym, busOpen, hcfg, hb, hsrp]
  · rw [uph, hlost, dataPhase_eq _ m tread]
  · rw [runMsg_first, ht, Run.andThen_done, tread, hu, Run.andThen_done]

/-! ### A call whose first message loses arbitration -/

/-- A call whose first message loses arbitration requests a stop, does not wait for it, records no symbol for it, and
returns (R190, R216, R320). -/
theorem exec_transfer_lost {a : Addr} {m : Msg} {ms : List Msg} {s u : State} (h : MayCall a s)
    (hb : s.cfg.backend = .peripheral) (hu : runMsg a m (loopStart ⟨a, m :: ms⟩ s) = .done () u)
    (hp : u.eng.seq.phase = .failStop .arbitrationLost) :
    ∃ t, exec (.transfer a (m :: ms)) s = .next t ∧ t.host.result = .err .arbitrationLost ∧ t.eng.bus = .idle ∧
      t.srp.lctlOpen = false ∧ t.srp.env = u.srp.env ∧ t.srp.cmds = u.srp.cmds ++ [.stop] ∧ t.eng.buf = u.eng.buf ∧
      t.eng.trace = u.eng.trace := by
  obtain ⟨⟨hidle, -⟩, hc, ha⟩ := h
  have hf : failed u = true := by rw [failed, hp]
  have hcfg : u.cfg = s.cfg :=
    ((runMsg_part a m _).of_done hu).1.frame.cfg.trans (loopStart_frame ⟨a, m :: ms⟩ s).cfg
  rcases transfer_cases a (m :: ms) s hidle with ⟨hc', -⟩ | ⟨-, hm, -⟩ | ⟨-, -, ha', -⟩ | ⟨-, -, -, ht⟩
  · rw [hc] at hc'; cases hc'
  · cases hm
  · exact absurd ha' ha
  · obtain ⟨hret, -, hbus, hlctl, hres, htr⟩ := finishCall_arb_spec (s := u) (hcfg ▸ hb) rfl
    obtain ⟨-, hsrp, -⟩ := leave_line (srpStopNoWait u)
    have hrun : transfer a (m :: ms) s = .done () (returnCall (setPhase .done (setResult (.err .arbitrationLost)
        (leave (srpStopNoWait u))))) := by
      rw [ht, runMsgs, hu, Run.andThen_done, if_pos hf, Run.andThen_done, finishCall_arb u hp]
    refine ⟨_, congrArg toOutcome hrun, hres, hbus, hlctl, ?_, ?_, hret.buf, htr⟩
    · show (leave (srpStopNoWait u)).srp.env = _
      rw [hsrp]
      rfl
    · exact congrArg Srp.cmds hsrp

/-- Settles O35: the flag of either answer makes the address byte fail, before its acknowledge is looked at. -/
theorem arbitrationLostAtAddress : Obligations.ArbitrationLostAtAddress := by
  intro a m ms s x y rest hmay hb hd he hlost
  obtain ⟨u, hu, hrun⟩ := runMsg_first_answer (c := ⟨a, m :: ms⟩) m hb hd he
  have hp : u.eng.seq.phase = .failStop .arbitrationLost := by
    rw [hu.phase, Bool.or_comm, hlost, phaseAfterByte, if_pos rfl]
  rw [if_pos (by rw [failed, hp])] at hrun
  obtain ⟨t, ht, hres, hbus, hlctl, henv, hcmds, -, htr⟩ := exec_transfer_lost hmay hb hrun hp
  refine ⟨t, ht, hres, hbus, hlctl, henv.trans hu.env, ?_, htr.trans hu.trace⟩
  rw [hcmds, hu.cmds, List.append_assoc]
  rfl

/-! ### Data that loses arbitration (R187, R188, R190, R194) -/

/-- Behind the first byte after a start the arbitration flag is the answer's alone (R217). -/
theorem arbAfterByte_later (a : SrpAnswer) {r : Srp} (h : r.afterStart = false) : arbAfterByte a r = a.arbLost := by
  simp [arbAfterByte, h]

/-- Bytes of a write message that are answered with acknowledges and without the flag, until one is answered with it: they
and the lost one stand recorded, and nothing behind them goes out. -/
theorem sendAll_lost {zs rest : List SrpAnswer} {z : SrpAnswer} {buf : List Byte} {s : State}
    (hb : s.cfg.backend = .peripheral) (hd : s.srp.done = false) (he : s.srp.env = zs ++ z :: rest)
    (hs : s.srp.afterStart = false) (hzs : ∀ w ∈ zs, w.arbLost = false ∧ w.rxAck = false) (hz : z.arbLost = true)
    (hlen : zs.length < buf.length) (hp : s.eng.seq.phase = .dataWr) :
    ∃ t, sendAll buf s = .done () t ∧ t.eng.seq.phase = .failStop .arbitrationLost ∧ t.srp.env = rest ∧
      t.srp.cmds = s.srp.cmds ++ (buf.take (zs.length + 1)).map .write ∧
      t.eng.trace = s.eng.trace ++ (txSyms (buf.take zs.length) ++
        buf[zs.length]?.toList.map fun b => .tx b (!z.rxAck)) := by
  induction zs generalizing buf s with
  | nil =>
    obtain ⟨b, bs, rfl⟩ := List.exists_cons_of_length_pos hlen
    obtain ⟨t, ht, rt, tr, tp⟩ := rowSend_answer hb hd he b
    rw [arbAfterByte_later z hs, hz, phaseAfterByte, if_pos rfl] at tp
    refine ⟨t, ?_, tp, rt.env, rt.cmds, tr⟩
    rw [sendAll, ht, Run.andThen_done, if_pos (by rw [failed, tp])]
  | cons w zs ih =>
    obtain ⟨b, bs, rfl⟩ := List.exists_cons_of_length_pos (Nat.zero_lt_of_lt hlen)
    obtain ⟨hw, hzs⟩ := List.forall_mem_cons.1 hzs
    obtain ⟨t, ht, rt, tr, tp⟩ := rowSend_answer hb hd he b
    rw [arbAfterByte_later w hs, hw.1, hw.2, phaseAfterByte, hp] at tp
    have tl := ((rowSend_post b s).of_done ht).1
    obtain ⟨u, hu, up, ue, uc, ur⟩ := ih (buf := bs) (by rw [tl.frame.cfg, hb]) rt.done rt.env rt.afterStart hzs
      (by simpa using hlen) tp
    refine ⟨u, ?_, up, ue, ?_, ?_⟩
    · rw [sendAll, ht, Run.andThen_done, if_neg (by simp [failed, tp]), hu]
    · rw [uc, rt.cmds]
      simp
    · rw [ur, tr, hw.2]
      simp [txSyms]

/-- The same for the bytes of a read message, which need no acknowledge and are stored, the lost one too. -/
theorem recvAll_lost {zs rest : List SrpAnswer} {z : SrpAnswer} {len n : Nat} {s : State}
    (hb : s.cfg.backend = .peripheral) (hd : s.srp.done = false) (he : s.srp.env = zs ++ z :: rest)
    (hs : s.srp.afterStart = false) (hzs : ∀ w ∈ zs, w.arbLost = false) (hz : z.arbLost = true)
    (hlen : zs.length < n) (hp : s.eng.seq.phase = .dataRd) :
    ∃ t, recvAll len n s = .done () t ∧ t.eng.seq.phase = .failStop .arbitrationLost ∧ t.srp.env = rest ∧
      t.srp.cmds = s.srp.cmds ++
        (zs ++ [z]).mapIdx (fun k _ => .read (recvAck (msgCount s) s.eng.seq.i len (s.eng.seq.j + k))) ∧
      t.eng.buf = s.eng.buf ++ (zs ++ [z]).mapIdx (fun k w => ⟨s.eng.seq.i, s.eng.seq.j + k, w.data⟩) ∧
      t.eng.trace = s.eng.trace ++
        (zs ++ [z]).mapIdx fun k w => .rx w.data (recvAck (msgCount s) s.eng.seq.i len (s.eng.seq.j + k)) := by
  induction zs generalizing n s with
  | nil =>
    obtain ⟨n, rfl⟩ := Nat.exists_eq_add_one.2 hlen
    obtain ⟨t, ht, rt, tr, tb, -, -, tp⟩ := rowRecv_answer hb hd he len
    rw [arbAfterByte_later z hs, hz, phaseAfterByte, if_pos rfl] at tp
    refine ⟨t, ?_, tp, rt.env, rt.cmds, tb, tr⟩
    rw [recvAll, ht, Run.andThen_done, if_pos (by rw [failed, tp])]
  | cons w zs ih =>
    obtain ⟨n, rfl⟩ := Nat.exists_eq_add_one.2 (Nat.zero_lt_of_lt hlen)
    obtain ⟨hw, hzs⟩ := List.forall_mem_cons.1 hzs
    obtain ⟨t, ht, rt, tr, tb, ti, tj, tp⟩ := rowRecv_answer hb hd he len
    rw [arbAfterByte_later w hs, hw, phaseAfterByte, hp] at tp
    have tl := ((rowRecv_post len s).of_done ht).1
    obtain ⟨u, hu, up, ue, uc, ub, ur⟩ := ih (by rw [tl.frame.cfg, hb]) rt.done rt.env rt.afterStart hzs
      (Nat.lt_of_succ_lt_succ hlen) tp
    rw [msgCount_loop tl, ti, tj] at uc ur
    rw [ti, tj] at ub
    refine ⟨u, ?_, up, ue, ?_, ?_, ?_⟩
    · rw [recvAll, ht, Run.andThen_done, if_neg (by simp [failed, tp]), hu]
    · simp [uc, rt.cmds, List.mapIdx_cons, Nat.add_assoc, Nat.add_comm 1]
    · simp [ub, tb, List.mapIdx_cons, Nat.add_assoc, Nat.add_comm 1]
    · simp [ur, tr, List.mapIdx_cons, Nat.add_assoc, Nat.add_comm 1]

/-- A call whose first message is addressed without a loss and loses arbitration in its data. -/
theorem exec_transfer_dataLost {a : Addr} {m : Msg} {ms : List Msg} {s u v : State} (h : MayCall a s)
    (hb : s.cfg.backend = .peripheral)
    (hrun : runMsg a m (loopStart ⟨a, m :: ms⟩ s) = if failed u then .done () u
      else (runData m u).andThen fun v => if failed v then .done () v else .done () (rowEndMsg v))
    (hp : u.eng.seq.phase = if m.isRead then .dataRd else .dataWr) (hv : runData m u = .done () v)
    (hvp : v.eng.seq.phase = .failStop .arbitrationLost) :
    ∃ t, exec (.transfer a (m :: ms)) s = .next t ∧ t.host.result = .err .arbitrationLost ∧ t.eng.bus = .idle ∧
      t.srp.lctlOpen = false ∧ t.srp.env = v.srp.env ∧ t.srp.cmds = v.srp.cmds ++ [.stop] ∧ t.eng.buf = v.eng.buf ∧
      t.eng.trace = v.eng.trace := by
  have hf : failed u = false := failed_false (by rw [hp]; cases m.isRead <;> simp)
  rw [hf, if_neg Bool.false_ne_true, hv, Run.andThen_done, if_pos (by rw [failed, hvp])] at hrun
  exact exec_transfer_lost h hb hrun hvp

/-- Settles O36: the start and the address byte are answered well, and a data byte loses arbitration. -/
theorem arbitrationLostAtData : Obligations.ArbitrationLostAtData := by
  intro a rs st ms s x y z zs rest hmay hb hd he hx hy hyk hzs hz first
  have hphase (p : Phase) : phaseAfterByte (y.arbLost || x.arbLost) y.rxAck p = p := by
    simp [phaseAfterByte, hx, hy, hyk]
  refine ⟨fun buf hack hlen => ?_, fun len hlen => ?_⟩
  · obtain ⟨u, hu, hrun⟩ := runMsg_first_answer (c := ⟨a, ⟨rs, st, .write buf⟩ :: ms⟩) ⟨rs, st, .write buf⟩ hb hd he
    have hp := hu.phase.trans (hphase _)
    obtain ⟨v, hv, vp, ve, vc, vr⟩ := sendAll_lost (hu.cfg ▸ hb) hu.done hu.env hu.afterStart
      (fun w hw => ⟨hzs w hw, hack w hw⟩) hz hlen hp
    obtain ⟨t, ht, hres, hbus, hlctl, henv, hcmds, -, htr⟩ := exec_transfer_dataLost hmay hb hrun hp hv vp
    refine ⟨t, ht, hres, hbus, hlctl, henv.trans ve, ?_, ?_⟩
    · rw [hcmds, vc, hu.cmds]
      rfl
    · rw [htr, vr, hu.trace, hyk, List.append_assoc]
      rfl
  · obtain ⟨u, hu, hrun⟩ := runMsg_first_answer (c := ⟨a, ⟨rs, st, .read len⟩ :: ms⟩) ⟨rs, st, .read len⟩ hb hd he
    have hp := hu.phase.trans (hphase _)
    obtain ⟨v, hv, vp, ve, vc, vb, vr⟩ := recvAll_lost (hu.cfg ▸ hb) hu.done hu.env hu.afterStart hzs hz hlen hp
    obtain ⟨t, ht, hres, hbus, hlctl, henv, hcmds, hbuf, htr⟩ := exec_transfer_dataLost hmay hb hrun hp hv vp
    have hj : u.eng.seq.j = 0 := hu.j (failed_false (by simp [hp, Msg.isRead]))
    have hack (k : Nat) : recvAck (msgCount u) u.eng.seq.i len (u.eng.seq.j + k) =
        !(decide (ms = []) && decide (k + 1 = len)) := by
      simp [recvAck, msgCount_of_call hu.call, hu.i, hj]
    simp only [hack] at vc vr
    refine ⟨t, ht, hres, hbus, hlctl, henv.trans ve, ?_, ?_, ?_⟩
    · rw [hcmds, vc, hu.cmds]
      rfl
    · rw [hbuf, vb, hu.buf, hu.i, hj]
      simp only [Nat.zero_add, List.nil_append]
    · rw [htr, vr, hu.trace, hyk]
      rfl

end Sys2Proof.Machine

end

/-! ## The address byte of a call (O40) -/

section

namespace Sys2Proof.Machine

open Sys2Proof

/-! ### The arbitration flag of the engine and of the peripheral (R190, R217) -/

theorem Run.post_true {α : Type} (r : Run α) : r.Post (fun _ _ => True) fun _ => True := by
  cases r <;> trivial

theorem arbLostRead_iff {s : State} : arbLostRead s = true ↔ s.cfg.backend = .peripheral ∧ s.eng.arbLost = true := by
  unfold arbLostRead
  cases s.cfg.backend <;> simp

/-- On the peripheral a sent byte leaves the engine the status flag, whether the wait was for an answer or not. -/
theorem busSendByte_arbLost (b : Byte) {s : State} (hb : s.cfg.backend = .peripheral) :
    (busSendByte b s).Post (fun _ t => t.eng.arbLost = t.srp.arbLost) fun _ => True := by
  unfold busSendByte
  rw [hb]
  exact (Run.post_true _).andThen (fun _ _ => trivial) fun _ _ => rfl

/-- A stop condition leaves the status flag alone (R217). -/
theorem busStop_arbLost (s : State) :
    (busStop s).Post (fun _ t => t.srp.arbLost = s.srp.arbLost) fun _ => True := by
  by_cases hb : s.cfg.backend = .peripheral
  · unfold busStop srpStop
    rw [hb]
    have hwait : (waitDone (fun _ r => r) (srpCommand .stop s)).Post
        (fun _ t => t.srp.arbLost = s.srp.arbLost) fun _ => True := by
      unfold waitDone
      split
      · rfl
      split
      · trivial
      · rfl
    exact hwait.andThen (fun _ h => h) fun _ h => h
  · exact (busStop_post s).mono (fun _ t ht => by rw [ht.1.1.srp hb]) fun _ _ => trivial

theorem finishCall_arbLost (s : State) :
    (finishCall s).Post (fun _ t => t.srp.arbLost = s.srp.arbLost) fun _ => True := by
  have hstop (r : Ret) : ((busStop s).andThen fun s => .done () (setPhase .done (setResult r (leave s)))).Post
      (fun _ t => t.srp.arbLost = s.srp.arbLost) fun _ => True :=
    (busStop_arbLost s).andThen (fun _ h => h) fun t ht => by
      show (leave t).srp.arbLost = _
      rw [(leave_line t).2.1, ht]
  unfold finishCall
  refine Run.Post.andThen (D := fun _ t => t.srp.arbLost = s.srp.arbLost) (H := fun _ => True) ?_ (fun _ h => h)
    fun _ h => h
  split
  next e _ =>
    cases e
    case arbitrationLost =>
      show (leave (srpStopNoWait s)).srp.arbLost = _
      rw [(leave_line _).2.1]
      rfl
    all_goals exact hstop _
  all_goals exact hstop _

theorem dataPhase_ne_failStop (f : BitVec 3) (e : BusError) : dataPhase f ≠ .failStop e := by
  unfold dataPhase
  split <;> simp

/-- An address byte fails with a loss of arbitration exactly when the peripheral's flag stands (R190). -/
theorem rowAddr_arbLost (b : Byte) (s : State) :
    (rowAddr b s).Post
      (fun _ t => t.eng.seq.phase = .failStop .arbitrationLost ↔
        s.cfg.backend = .peripheral ∧ t.srp.arbLost = true) fun _ => True := by
  have hsend : (busSendByte b s).Post
      (fun _ t => arbLostRead t = true ↔ s.cfg.backend = .peripheral ∧ t.srp.arbLost = true) fun _ => True := by
    by_cases hb : s.cfg.backend = .peripheral
    · refine ((busSendByte_post b s).and (busSendByte_arbLost b hb)).mono (fun _ t ht => ?_) fun _ _ => trivial
      rw [arbLostRead_iff, ht.1.1.1.cfg, ht.2]
    · refine (busSendByte_post b s).mono (fun _ t ht => ?_) fun _ _ => trivial
      rw [arbLostRead_iff, ht.1.1.cfg]
      simp [hb]
  refine hsend.andThen (fun _ h => h) fun t ht => ?_
  split
  next h => exact iff_of_true rfl (ht.1 h)
  next h =>
  have hn := mt ht.2 h
  split
  · exact iff_of_false (by simp) hn
  · exact iff_of_false (by simp [dataPhase_ne_failStop]) hn

/-- What the peripheral's next answer says of the address byte (R213, R217). -/
theorem rowAddr_reply {b : Byte} {k : Bool} {s u : State} (hb : s.cfg.backend = .peripheral) (hd : s.srp.done = false)
    (hw : 1 ≤ s.srp.env.length) (hu : rowAddr b s = .done () u) (htr : u.eng.trace = s.eng.trace ++ [.tx b k]) :
    ∃ x rest, s.srp.env = x :: rest ∧ k = (!x.rxAck) ∧
      u.srp.arbLost = (x.arbLost || (s.srp.afterStart && s.srp.arbLost)) := by
  obtain ⟨x, rest, he⟩ := List.exists_cons_of_length_pos hw
  obtain ⟨v, hv, rv, vtr, -⟩ := rowAddr_answer hb hd he b
  obtain rfl : u = v := by rw [hu] at hv; cases hv; rfl
  rw [htr] at vtr
  simp only [List.append_cancel_left_eq, List.cons.injEq, Sym.tx.injEq, and_true, true_and] at vtr
  exact ⟨x, rest, he, vtr, rv.arbLost⟩

/-! ### The operation -/

theorem exec_address {c : Call} {s : State} (a : Addr) (rd : Bool) (hc : s.eng.call = some c)
    (hp : s.eng.seq.phase = .addr) :
    exec (if rd then .addrR a else .addrW a) s = toOutcome ((rowAddr (addrByte a rd) s).andThen endInCall) := by
  cases rd <;> simp [exec, execAddrR, execAddrW, execAddress, hc, hp]

/-- Settles O40: the byte goes out, and then the call fails and returns, or stands at its data. -/
theorem addressBytes : Obligations.AddressBytes := by
  intro a rd c s hc hp hw hwill
  obtain ⟨u, hu, uwill⟩ := rowAddr_done (addrByte a rd) hwill
  obtain ⟨ul, uw, -, -, k, utr, hres⟩ := (rowAddr_post _ s).of_done hu
  have uarb := (rowAddr_arbLost _ s).of_done hu
  have hreply (hb : s.cfg.backend = .peripheral) (hd : s.srp.done = false) :=
    rowAddr_reply hb hd (Nat.le_of_succ_le ((willing_peripheral hb).1 hwill)) hu utr
  rw [exec_address a rd hc hp, hu, Run.andThen_done]
  rcases hres with ⟨e, he, hk⟩ | ⟨hk, uph, -, uflg, -⟩
  · obtain ⟨t, ht, -⟩ := finishCall_done uwill
    obtain ⟨tret, tw, tbus, -, tres, ttr⟩ := (finishCall_failed ul he).of_done ht
    have tarb := (finishCall_arbLost u).of_done ht
    rw [he.1, ← tarb] at uarb
    refine ⟨t, k, by rw [endInCall, if_pos he.failed, ht]; rfl, tw.trans (uw.trans hw), ?_, fun hb hl => ?_,
      fun hl => ⟨fun hk' => ?_, fun _ => ?_⟩, fun hb hd => ?_⟩
    · rw [ttr, utr]
      exact ⟨_, rfl⟩
    · obtain rfl : e = .arbitrationLost := by simpa using uarb.2 ⟨hb, hl⟩
      exact ⟨tret.phase, tbus, tres⟩
    · obtain rfl : e = .nack := he.2.resolve_right fun h => hl (uarb.1 (by rw [h.1]))
      rw [hk rfl] at hk'; cases hk'
    · obtain rfl : e = .nack := he.2.resolve_right fun h => hl (uarb.1 (by rw [h.1]))
      exact ⟨tret.phase, tbus, tres⟩
    · rw [tarb]
      exact hreply hb hd
  · have hf : failed u = false := failed_false (by rw [uph]; exact dataPhase_ne_failStop _)
    refine ⟨u, k, by rw [endInCall, hf]; rfl, uw.trans hw, by rw [utr], fun hb hl => ?_,
      fun _ => ⟨fun _ => ⟨uph, ?_, ?_, ?_, by rw [ul.host]⟩, fun hk' => ?_⟩, hreply⟩
    · exact absurd (uarb.2 ⟨hb, hl⟩) (by rw [uph]; exact dataPhase_ne_failStop _ _)
    · rw [uflg]; exact hasRead_clearRestart _
    · rw [uflg]; exact hasStop_clearRestart _
    · rw [uflg]; exact hasRestart_clearRestart _
    · rw [hk] at hk'; cases hk'

end Sys2Proof.Machine

end

/-! ## One message of a call (O39) -/

section

namespace Sys2Proof.Machine

open Sys2Proof

/-- A message as an operation, where a call stands at it (R181). -/
theorem exec_message {c : Call} {m : Msg} {s : State} (hc : s.eng.call = some c) (hp : s.eng.seq.phase = .preStop) :
    exec m.toInstr s = toOutcome ((runMsg c.addr m s).andThen endInCall) := by
  rw [exec_toInstr]
  simp only [execMessage, hc, hp, if_true]

/-- Whether a message finds a transaction open behind the deferred stop of the message before: on the bit-banged
transport the first message of a call never does (R135, R136, R184, R212, R225). -/
def openedBefore (s : State) : Bool :=
  !s.eng.flg.getLsbD 1 &&
    match s.cfg.backend with
    | .bitBang => decide (s.eng.bus = .midTransaction) && decide (s.eng.seq.i ≠ 0)
    | .peripheral => s.srp.lctlOpen
    | .simulated => decide (s.eng.bus = .midTransaction)

theorem condSym_openedBefore (s : State) :
    condSym s.cfg.backend s.eng.seq.i (busOpen s && !hasStop s.eng.flg) =
      if openedBefore s then .rstart else .start := by
  unfold condSym busOpen openedBefore hasStop
  cases s.cfg.backend <;> cases s.eng.flg.getLsbD 1 <;> by_cases hi : s.eng.seq.i = 0 <;> simp [hi]

/-- The condition and the address byte of a message, where a restart is due (R185, R186). -/
def addressSyms (a : Addr) (m : Msg) (s : State) (k : Bool) : List Sym :=
  if s.eng.flg.getLsbD 2 || m.restart then
    [if openedBefore s then .rstart else .start, .tx (addrByte a m.isRead) k]
  else []

theorem addressSyms_eq (a : Addr) (m : Msg) (s : State) (k : Bool) :
    addressSyms a m s k = if hasRestart (effectiveFlags s.eng.flg m) then
      [condSym s.cfg.backend s.eng.seq.i (busOpen s && !hasStop s.eng.flg), .tx (addrByte a m.isRead) k] else [] := by
  rw [hasRestart_effectiveFlags, condSym_openedBefore]
  rfl

/-- Whether a restart is due before a message (R185, R186). -/
theorem hasRestart_due {m : Msg} {s : State} (h : hasRestart (effectiveFlags s.eng.flg m) = true) :
    (s.eng.flg.getLsbD 2 || m.restart) = true := by
  rwa [hasRestart_effectiveFlags] at h

section
variable {n : Nat} {a : Addr} {m : Msg} {s : State} {syms : List Sym} {cells : List BufCell}

/-- A message that is not acknowledged fails at its address byte or at a written one (R76, R312). -/
theorem MsgFailure.nack (h : MsgFailure n a m s .nack syms cells) :
    cells = [] ∧
      (((s.eng.flg.getLsbD 2 || m.restart) = true ∧ syms = addressSyms a m s false) ∨
        ∃ pre b post, m.body = .write (pre ++ b :: post) ∧
          syms = addressSyms a m s true ++ (txSyms pre ++ [.tx b false])) := by
  rcases h with ⟨hdue, hcells, k, hsyms, hk⟩ | ⟨sy, hd, hsyms⟩
  · refine ⟨hcells, .inl ⟨hasRestart_due hdue, ?_⟩⟩
    rw [hsyms, addressSyms_eq, if_pos hdue, hk rfl]
  · rw [← addressSyms_eq] at hsyms
    unfold DataFailure at hd
    split at hd
    next buf hbody =>
      obtain ⟨hcells, pre, b, post, k, rfl, rfl, hk⟩ := hd
      exact ⟨hcells, .inr ⟨pre, b, post, hbody, by rw [hsyms, hk rfl]⟩⟩
    next => cases hd.1

/-- A message that loses arbitration loses it at its address byte, at a written byte, or at a received one, which is
stored (R190, R194). -/
theorem MsgFailure.arbitrationLost (h : MsgFailure n a m s .arbitrationLost syms cells) :
    ((s.eng.flg.getLsbD 2 || m.restart) = true ∧ cells = [] ∧ ∃ k, syms = addressSyms a m s k) ∨
      (∃ pre b post k, m.body = .write (pre ++ b :: post) ∧ cells = [] ∧
        syms = addressSyms a m s true ++ (txSyms pre ++ [.tx b k])) ∨
      ∃ vs len, m.body = .read len ∧ vs ≠ [] ∧ vs.length ≤ len ∧
        cells = vs.mapIdx (fun k v => ⟨s.eng.seq.i, k, v⟩) ∧
        syms = addressSyms a m s true ++ vs.mapIdx fun k v => .rx v (recvAck n s.eng.seq.i len k) := by
  rcases h with ⟨hdue, hcells, k, hsyms, -⟩ | ⟨sy, hd, hsyms⟩
  · refine .inl ⟨hasRestart_due hdue, hcells, k, ?_⟩
    rw [hsyms, addressSyms_eq, if_pos hdue]
  · rw [← addressSyms_eq] at hsyms
    unfold DataFailure at hd
    split at hd
    next buf hbody =>
      obtain ⟨hcells, pre, b, post, k, rfl, rfl, -⟩ := hd
      exact .inr (.inl ⟨pre, b, post, k, hbody, hcells, hsyms⟩)
    next len hbody =>
      obtain ⟨-, vs, hne, hlen, rfl, rfl⟩ := hd
      refine .inr (.inr ⟨vs, len, hbody, hne, hlen, ?_, ?_⟩)
      · rw [cellsAt_mapIdx]
        simp only [Nat.zero_add]
      · rw [hsyms, recvSyms_mapIdx]
        simp only [Nat.zero_add]

/-- A message that completes has moved all its bytes (R187, R188). -/
theorem MsgData.whole {i : Nat} {vs : List Byte} (h : MsgData n i m vs syms cells) :
    vs.length = (if m.isRead then m.len else 0) ∧ cells = vs.mapIdx (fun k v => ⟨i, k, v⟩) ∧
      syms = match m.body with
        | .write buf => txSyms buf
        | .read _ => rxSyms vs (!decide (i + 1 = n)) := by
  obtain ⟨restart, stop, body⟩ := m
  cases body with
  | write buf =>
    obtain ⟨rfl, rfl, rfl⟩ := h
    simp [Msg.isRead]
  | read len =>
    obtain ⟨hlen, rfl, rfl⟩ := h
    simp [Msg.isRead, Msg.len, hlen, cellsAt_mapIdx, recvSyms_rx n i len 0 vs (by omega)]

end

theorem AfterMsg.failed {n : Nat} {s t : State} (h : AfterMsg n s t) : failed t = false := by
  unfold AfterMsg at h
  refine failed_false fun e => ?_
  split at h <;> simp [h.1]

/-- Settles O39: the message fails and the call returns, or it completes and the call stands at its next place. -/
theorem messagesRun : Obligations.MessagesRun := by
  intro c m s hc hp hw hm hwill opened due head addr
  obtain ⟨u, hu, uwill⟩ := runMsg_done c.addr m (k := 1) (s := s) (by rwa [Nat.add_comm])
  obtain ⟨ul, uw, hres⟩ := (runMsg_post c.addr m s (by rw [currentMsg_of_call hc, hm]) hp).of_done hu
  rw [msgCount_of_call hc] at hres
  rw [exec_message hc hp, hu, Run.andThen_done, endInCall]
  have haddr : addr = addressSyms c.addr m s := rfl
  have hhead : head = s.eng.trace ++ (if hasStop s.eng.flg then [.stop] else []) := rfl
  rcases hres with ⟨e, syms, cells, he, hfail, utr, ubuf⟩ | ⟨hafter, uflg, -, vs, syms, cells, hdata, ubuf, utr⟩
  · obtain ⟨t, ht, -⟩ := finishCall_done uwill
    obtain ⟨tret, tw, tbus, -, tres, ttr⟩ := (finishCall_failed ul he).of_done ht
    rw [utr, ← List.append_assoc, ← hhead] at ttr
    have tbuf := tret.buf.trans ubuf
    rw [if_pos he.failed, ht]
    refine ⟨t, rfl, tw.trans (uw.trans hw), .inl ⟨tret.phase, tret.call, tbus, ?_⟩⟩
    obtain rfl | ⟨rfl, hb⟩ := he.2
    · obtain ⟨rfl, hsyms⟩ := hfail.nack
      refine .inl ⟨tres, by rw [tbuf, List.append_nil], ?_⟩
      rcases hsyms with ⟨hdue, rfl⟩ | ⟨pre, b, post, hbody, rfl⟩
      · exact .inl ⟨hdue, ttr⟩
      · exact .inr ⟨pre, b, post, hbody, by simpa [haddr] using ttr⟩
    · refine .inr ⟨tres, hb, ?_⟩
      rcases hfail.arbitrationLost with ⟨hdue, rfl, k, rfl⟩ | ⟨pre, b, post, k, hbody, rfl, rfl⟩ |
        ⟨vs, len, hbody, hne, hlen, rfl, rfl⟩
      · exact .inl ⟨hdue, by rw [tbuf, List.append_nil], k, by simpa [haddr] using ttr⟩
      · exact .inr (.inl ⟨pre, b, post, k, hbody, by rw [tbuf, List.append_nil], by simpa [haddr] using ttr⟩)
      · exact .inr (.inr ⟨vs, len, hbody, hne, hlen, tbuf, by simpa [haddr, recvAck] using ttr⟩)
  · obtain ⟨hlen, rfl, rfl⟩ := hdata.whole
    rw [if_neg (by rw [hafter.failed]; exact Bool.false_ne_true)]
    refine ⟨u, rfl, uw.trans hw, .inr ⟨ul.call.trans hc, by rw [ul.host], ?_, ?_, ?_, hafter, vs, hlen, ubuf, ?_⟩⟩
    · rw [uflg]
      exact (hasRead_clearRestart _).trans (hasRead_effectiveFlags _ _)
    · rw [uflg]
      exact (hasStop_clearRestart _).trans (hasStop_effectiveFlags _ _)
    · rw [uflg]
      exact hasRestart_clearRestart _
    · rw [← addressSyms_eq, ← haddr, ← List.append_assoc, ← List.append_assoc, ← hhead] at utr
      exact utr

end Sys2Proof.Machine

end

/-! ## The delivery of events, and the accesses to the register file (O53) -/

section

namespace Sys2Proof.Machine

open Sys2Proof

/-! ### Raising and delivering -/

theorem exec_event {i : Instr} {e : Event} (h : eventOf i = some e) (s : State) : exec i s = raiseEvents [e] s := by
  cases i
  case evAddr | evStop | evRxByte | evTxReq | evBusErr | evColl => cases h; rfl
  all_goals cases h

theorem eventOf_of_isEvent {i : Instr} (h : i.isEvent = true) : ∃ e, eventOf i = some e := by
  cases i
  case evAddr | evStop | evRxByte | evTxReq | evBusErr | evColl => exact ⟨_, rfl⟩
  all_goals cases h

/-- Masked events are only held (R195, R325). -/
theorem raiseEvents_masked {es : List Event} {s : State} (h : s.host.irqEn = false) :
    raiseEvents es s = .next (pend es s) := by
  have hpend : (pend es s).host.irqEn = false := h
  simp only [raiseEvents, hpend]
  rfl

/-- With interrupts enabled the step handles the first pending event (R330). -/
theorem step_delivers {s : State} {e : Event} {rest : List Event} (hen : s.host.irqEn = true)
    (hpend : s.tgt.pending = e :: rest) :
    step s = match handle s.cfg { s.tgt with pending := rest } e with
      | some g => .next { s with tgt := g }
      | none => .refused .eventOutOfState := by
  have hdue : deliverable s = true := by simp [deliverable, hen, hpend]
  cases hh : handle s.cfg { s.tgt with pending := rest } e with
  | none => simp [step, machineStep, hdue, deliver, hpend, hh]
  | some g => simp [step, machineStep, hdue, deliver, hpend, hh]

/-! ### What reaches the machine -/

/-- Where the entry taken from the input stood: the entries before it are held, and none is lost. -/
theorem nextArrival_split {s : State} {a : Arrival} {rest : List Arrival}
    (h : nextArrival s true true s.host.input = some (a, rest)) :
    ∃ held later, s.host.input = held ++ a :: later ∧ rest = held ++ later := (nextArrival_some h).2

theorem nextArrival_mem {s : State} {a : Arrival} {rest : List Arrival}
    (h : nextArrival s true true s.host.input = some (a, rest)) : a ∈ s.host.input ∧ rest ⊆ s.host.input := by
  obtain ⟨held, later, hinput, rfl⟩ := nextArrival_split h
  rw [hinput]
  exact ⟨by simp, fun b hb => by simp at hb ⊢; tauto⟩

/-- Taking an entry of the host's side leaves those of the event-handling path as they stand. -/
theorem nextArrival_filter {s : State} {a : Arrival} {rest : List Arrival}
    (h : nextArrival s true true s.host.input = some (a, rest)) (ha : a.onEventPath = false) :
    rest.filter Arrival.onEventPath = s.host.input.filter Arrival.onEventPath := by
  obtain ⟨held, later, hinput, rfl⟩ := nextArrival_split h
  simp [hinput, ha]

/-- An entry of the event-handling path touches the responder only. -/
theorem arrive_responder {a : Arrival} (ha : a.onEventPath = true) {s t : State} (h : arrive a s = .next t) :
    ∃ g, t = { s with tgt := g } := by
  cases a with
  | word w =>
    cases hd : decode .host w with
    | error x => simp [Arrival.onEventPath, hd] at ha
    | ok i =>
      rw [arrive_word hd] at h
      rw [Arrival.word_onEventPath hd, onEventPath_eq_isEvent_or_isCallback] at ha
      exact exec_target ha h
  | together es => exact raiseEvents_next h
  | mask | readReg | writeReg => cases ha

/-- An entry of the event-handling path that reaches the machine while interrupts are masked is an event, with none held
before it, and it is held (R250, R253, R325). -/
theorem arrive_masked {a : Arrival} (ha : a.onEventPath = true) {s t : State} {rest : List Arrival}
    (hr : a.ready s = true) (hmask : s.host.irqEn = false) (h : arrive a (withInput rest s) = .next t) :
    s.tgt.pending = [] ∧ ∃ ps, t = { withInput rest s with tgt := { s.tgt with pending := ps } } := by
  cases a with
  | word w =>
    cases hd : decode .host w with
    | error x => simp [Arrival.onEventPath, hd] at ha
    | ok i =>
      rw [arrive_word hd] at h
      rw [Arrival.word_onEventPath hd] at ha
      simp only [Arrival.ready, hd, ha, hmask] at hr
      cases he : i.isEvent with
      | false => simp [he] at hr
      | true =>
        obtain ⟨e, hev⟩ := eventOf_of_isEvent he
        rw [exec_event hev, raiseEvents_masked (s := withInput rest s) hmask] at h
        cases h
        exact ⟨by simpa [he] using hr, _, rfl⟩
  | together es =>
    rw [arrive, raiseEvents_masked (s := withInput rest s) hmask] at h
    cases h
    exact ⟨by simpa [Arrival.ready] using hr, _, rfl⟩
  | mask | readReg | writeReg => cases ha

/-! ### The rule of R43 -/

/-- Where the host keeps the rule, a step keeps it, and only one of the event-handling path changes the register file. -/
theorem step_keepsFileRule {s t : State} (hk : KeepsFileRule s) (h : step s = .next t) :
    KeepsFileRule t ∧ (t.tgt.file ≠ s.tgt.file → EventPathStep s) := by
  have keeps {u : State} (hsub : u.host.input ⊆ s.host.input) : KeepsFileRule u := fun i v hm => hk i v (hsub hm)
  rcases step_cases s with ⟨hdue, hstep⟩ | ⟨-, -, hstep⟩ | ⟨-, a, rest, hn, -, hstep⟩ <;> rw [hstep] at h
  · obtain ⟨g, rfl⟩ := deliver_next h
    exact ⟨hk, fun _ => .inl hdue⟩
  · have hl := engineStep_leaves h
    exact ⟨keeps (by rw [hl.input]; exact List.Subset.refl _), fun hne => absurd (by rw [hl.tgt]) hne⟩
  · obtain ⟨hmem, hrest⟩ := nextArrival_mem hn
    cases ha : a.onEventPath with
    | true =>
      obtain ⟨g, rfl⟩ := arrive_responder ha h
      exact ⟨keeps hrest, fun _ => .inr ⟨a, rest, hn, ha⟩⟩
    | false =>
      rcases arrive_leaves ha h with hl | ⟨i, v, rfl, -⟩
      · exact ⟨keeps (by rw [hl.input]; exact hrest), fun hne => absurd (by rw [hl.tgt]; rfl) hne⟩
      · exact absurd hmem (hk i v)

/-! ### Masked steps -/

/-- While interrupts are masked a step changes nothing of the responder but what it holds, and the entry that the host
writes; and while an event is held, nothing of the event-handling path is taken (R195, R253, R255, R325). -/
theorem step_masked {s t : State} (hmask : s.host.irqEn = false) (h : step s = .next t) :
    (∃ file, t.tgt = { s.tgt with pending := t.tgt.pending, file := file } ∧
      (file = s.tgt.file ∨ ∃ i v, Arrival.writeReg i v ∈ s.host.input ∧ file = s.tgt.file.put i v)) ∧
      (s.tgt.pending ≠ [] → t.tgt.pending = s.tgt.pending ∧
        t.host.input.filter Arrival.onEventPath = s.host.input.filter Arrival.onEventPath) := by
  rcases step_cases s with ⟨hdue, -⟩ | ⟨-, -, hstep⟩ | ⟨-, a, rest, hn, hr, hstep⟩
  · simp [deliverable, hmask] at hdue
  · rw [hstep] at h
    have hl := engineStep_leaves h
    exact ⟨⟨s.tgt.file, by rw [hl.tgt], .inl rfl⟩, fun _ => by rw [hl.tgt, hl.input]; exact ⟨rfl, rfl⟩⟩
  · rw [hstep] at h
    cases ha : a.onEventPath with
    | true =>
      obtain ⟨hnone, ps, rfl⟩ := arrive_masked ha hr hmask h
      exact ⟨⟨s.tgt.file, rfl, .inl rfl⟩, fun hne => absurd hnone hne⟩
    | false =>
      have hfilter := nextArrival_filter hn ha
      rcases arrive_leaves ha h with hl | ⟨i, v, rfl, rfl⟩
      · exact ⟨⟨s.tgt.file, by rw [hl.tgt]; rfl, .inl rfl⟩, fun _ => by rw [hl.tgt, hl.input]; exact ⟨rfl, hfilter⟩⟩
      · exact ⟨⟨_, rfl, .inr ⟨i, v, (nextArrival_mem hn).1, rfl⟩⟩, fun _ => ⟨rfl, hfilter⟩⟩

/-- Settles O53: masked events are held, an enabled one is handled first, and the host's own entries are taken one a step. -/
theorem eventDelivery : Obligations.EventDelivery := by
  intro s
  refine ⟨fun i e he hmask => ?_, fun e rest hen hpend => step_delivers hen hpend, fun hk t h => step_keepsFileRule hk h,
    fun t hmask h => step_masked hmask h, fun rest hdue hidle => ⟨fun en hin => ?_, fun i v hin hv => ?_,
      fun i v hin hwf => ?_⟩⟩
  · rw [exec_event he, raiseEvents_masked hmask]
    rfl
  · exact step_arrive hdue hin (by simp [Arrival.ready, hidle])
  · rw [step_arrive hdue hin (by simp [Arrival.ready, hidle]), hv]
    rfl
  · exact ⟨s.tgt.file.put i v, step_arrive hdue hin (by simp [Arrival.ready, hidle]), RegFile.put_n _ _ _,
      RegFile.put_ro _ _ _, RegFile.peek_put_same i v hwf, fun k hk => RegFile.peek_put_other _ v hk⟩

end Sys2Proof.Machine

end

/-! ## The peripheral's commands (O28, O29) -/

section

namespace Sys2Proof.Machine

open Sys2Proof

/-! ### A peripheral that answers (R212 to R215, R217) -/

/-- Settles O28: the state each command leaves is known, and every cell is read off it. -/
theorem shiftCommands : Obligations.ShiftCommands := by
  intro s a rest hb hd he lost
  refine ⟨⟨_, exec_pStart_answer hb hd he, ?_⟩, fun b => ⟨_, exec_pWrite_answer hb hd he b, ?_⟩,
    fun ack => ⟨_, exec_pRead_answer hb hd he ack, ?_⟩, ⟨_, exec_pStop_answer hb hd he, ?_⟩⟩
  all_goals
    refine ⟨rfl, rfl, rfl, rfl, rfl, rfl, rfl, rfl, rfl, rfl, rfl, rfl, rfl, rfl, ?_⟩
    constructor <;> rfl

/-! ### A peripheral that never answers (R211, R315) -/

/-- The state in which the engine polls for ever for the end of a command. -/
def polling (c : SrpCmd) (s : State) : State :=
  { srpCommand c s with eng := { s.eng with waiting := some .peripheralDone } }

section
variable {s : State} (hd : s.srp.done = false) (he : s.srp.env = [])
include hd he

/-- What comes after the wait of a command that is never answered is not reached, whatever it is. -/
theorem command_silent {α : Type} (c : SrpCmd) (latch : SrpAnswer → Srp → Srp) (k : State → Run α) :
    (waitDone latch (srpCommand c s)).andThen k = .hang (polling c s) := by
  rw [waitDone_silent (s := srpCommand c s) hd he]
  rfl

theorem srpStart_silent : srpStart s = .hang (polling .start s) := command_silent hd he _ _ _

/-- The byte stands in the data register before the command is issued (R213). -/
theorem srpWrite_silent (b : Byte) :
    srpWrite b s = .hang (polling (.write b) { s with srp := { s.srp with data := b } }) :=
  command_silent (s := { s with srp := { s.srp with data := b } }) hd he _ _ _

/-- The acknowledge to give is set before the command is issued (R214). -/
theorem srpRead_silent (ack : Bool) :
    srpRead ack s = .hang (polling (.read ack) { s with srp := { s.srp with ackNext := ack } }) :=
  command_silent (s := { s with srp := { s.srp with ackNext := ack } }) hd he _ _ _

theorem srpStop_silent : srpStop s = .hang (polling .stop s) := command_silent hd he _ _ _

end

/-- An operation of one transport that waits for ever is issued and leaves no result. -/
theorem onBackend_hang {α : Type} {b : Backend} {s t : State} {f : State → Run α} (ret : α → State → Ret)
    (hb : s.cfg.backend = b) (h : f (setResult .none s) = .hang t) :
    onBackend b s (fun s => finishWith ret (f s)) = .next t := by
  rw [onBackend_eq _ hb, h]
  rfl

/-- Settles O29: each command stands among those issued, and the engine polls for its end. -/
theorem shiftHang : Obligations.ShiftHang := by
  intro b ack s hb hd he i c hmem
  simp only [List.mem_cons, Prod.mk.injEq, List.not_mem_nil, or_false] at hmem
  obtain ⟨rfl, rfl⟩ | ⟨rfl, rfl⟩ | ⟨rfl, rfl⟩ | ⟨rfl, rfl⟩ := hmem
  · exact ⟨_, onBackend_hang _ hb (srpStart_silent (s := setResult .none s) hd he), rfl, rfl, rfl, rfl, rfl⟩
  · exact ⟨_, onBackend_hang _ hb (srpWrite_silent (s := setResult .none s) hd he b), rfl, rfl, rfl, rfl, rfl⟩
  · exact ⟨_, onBackend_hang _ hb (srpRead_silent (s := setResult .none s) hd he ack), rfl, rfl, rfl, rfl, rfl⟩
  · exact ⟨_, onBackend_hang _ hb (srpStop_silent (s := setResult .none s) hd he), rfl, rfl, rfl, rfl, rfl⟩

end Sys2Proof.Machine

end

/-! ## The handler, an event at a time (R240 to R249) -/

section

namespace Sys2Proof.Machine

open Sys2Proof

/-! ### The rows of the table that have a transition -/

section
variable (cfg : Params) {g : Target}

/-- The first byte after an address match is the pointer. -/
theorem handle_pointer (b : Byte) (h : g.tstate = .newTransaction) :
    handle cfg g (.rxByte b) = some { g with ptr := b, tstate := .receivedAddress, action := some .ack } := by
  simp [handle, h]

/-- A byte behind the pointer is stored. -/
theorem handle_data (b : Byte) (h : g.tstate = .receivedAddress ∨ g.tstate = .receivedData) :
    handle cfg g (.rxByte b) = some (storeByte cfg b g) := by
  rcases h with h | h <;> simp [handle, h]

/-- The first read request of a transaction, and one behind an acknowledged byte, fetch the byte at the pointer. -/
theorem handle_fetch {p : Prev}
    (h : (p = .first ∧ g.tstate = .newTransaction) ∨ (p = .acked ∧ g.tstate = .sentData)) :
    handle cfg g (.txReq p) = some (fetchByte cfg g) := by
  rcases h with ⟨rfl, h⟩ | ⟨rfl, h⟩ <;> simp [handle, h]

/-- The controller does not acknowledge the last byte it reads. -/
theorem handle_nacked (h : g.tstate = .sentData) : handle cfg g (.txReq .nacked) = some (endTransaction g) := by
  simp [handle, h]

/-- A stop and the errors end the transaction in every state. -/
theorem handle_ending (g : Target) {e : Event} (h : e = .stop ∨ e = .busErr ∨ e = .coll) :
    handle cfg g e = some (endTransaction g) := by
  rcases h with rfl | rfl | rfl <;> rfl

end

/-! ### The rows without one -/

theorem handle_rxByte_eq_none_iff {cfg : Params} {g : Target} {b : Byte} :
    handle cfg g (.rxByte b) = none ↔ g.tstate = .idle ∨ g.tstate = .sentData := by
  cases h : g.tstate <;> simp [handle, h]

theorem handle_txReq_eq_none_iff {cfg : Params} {g : Target} {p : Prev} :
    handle cfg g (.txReq p) = none ↔
      ¬ ((p = .first ∧ g.tstate = .newTransaction) ∨ (p ≠ .first ∧ g.tstate = .sentData)) := by
  cases p <;> cases h : g.tstate <;> simp [handle, h]

/-! ### What an event leaves of the register file -/

/-- The handler reaches the register file only with a byte to store at the pointer. -/
theorem handle_file {cfg : Params} {g u : Target} {e : Event} (h : handle cfg g e = some u) :
    u.file = g.file ∨ ∃ b, u.file = (g.file.write g.ptr.toNat b).1 := by
  unfold handle at h
  split at h
  case h_2 b =>
    split at h <;> cases h
    · exact .inl rfl
    · exact .inr ⟨b, rfl⟩
    · exact .inr ⟨b, rfl⟩
  case h_3 p => split at h <;> cases h <;> exact .inl rfl
  all_goals cases h; exact .inl rfl

/-- A handled event touches the responder only, and keeps the shape of its file. -/
theorem TargetFrame.handled {s : State} {g : Target} {e : Event} (h : handle s.cfg s.tgt e = some g) :
    TargetFrame s { s with tgt := g } := by
  have hshape : g.file.n = s.tgt.file.n ∧ g.file.ro = s.tgt.file.ro := by
    rcases handle_file h with hf | ⟨b, hf⟩ <;> simp [hf]
  exact ⟨rfl, rfl, rfl, rfl, rfl, rfl, hshape.1, hshape.2⟩

/-- The answer to a stored byte (R243): an error of the owner is not acknowledged where the parameter asks for it. -/
theorem storeByte_action (cfg : Params) (b : Byte) (g : Target) :
    (storeByte cfg b g).action =
      if cfg.nackOnWriteErr = true ∧ g.file.n ≤ g.ptr.toNat then some .nack else some .ack := by
  have hret := g.file.write_ret g.ptr.toNat b
  by_cases hout : g.file.n ≤ g.ptr.toNat
  · rw [if_pos hout] at hret
    cases hp : cfg.nackOnWriteErr <;> simp [storeByte, hret, ackFor, hp, hout]
  · rw [if_neg hout] at hret
    simp [storeByte, hret, ackFor, hout]

end Sys2Proof.Machine

end

/-! ## Transactions served (O56) -/

section

namespace Sys2Proof.Machine

open Sys2Proof

/-! ### The handler over the events of a transaction -/

/-- The handler takes the events to the end of the transaction; it leaves this pointer and file, and has sent these
bytes. -/
def Serves (cfg : Params) (g : Target) (es : List Event) (p : Byte) (f : RegFile) (sent : List Byte) : Prop :=
  ∃ u acts, handleAll cfg g es = some (u, acts) ∧ u.tstate = .idle ∧ u.ptr = p ∧ u.file = f ∧ sentBytes acts = sent

theorem sentBytes_toList_append (a : Option Action) (as : List Action) :
    sentBytes (a.toList ++ as) = (a.bind Action.sends).toList ++ sentBytes as := by
  cases a with
  | none => rfl
  | some a => cases a <;> rfl

section
variable {cfg : Params} {g u : Target} {e : Event} {es : List Event} {p : Byte} {f : RegFile} {sent : List Byte}

theorem Serves.nil (h : g.tstate = .idle) : Serves cfg g [] g.ptr g.file [] := ⟨g, [], rfl, h, rfl, rfl, rfl⟩

/-- The byte that the first event's action sends goes before those of the others. -/
theorem Serves.cons (h : handle cfg g e = some u) (hs : Serves cfg u es p f sent) :
    Serves cfg g (e :: es) p f ((u.action.bind Action.sends).toList ++ sent) := by
  obtain ⟨w, acts, hall, hidle, hptr, hfile, rfl⟩ := hs
  exact ⟨w, u.action.toList ++ acts, by simp only [handleAll, h, hall], hidle, hptr, hfile, sentBytes_toList_append _ _⟩

/-- An event whose action sends nothing. -/
theorem Serves.silent (h : handle cfg g e = some u) (hu : u.action.bind Action.sends = none)
    (hs : Serves cfg u es p f sent) : Serves cfg g (e :: es) p f sent := by
  simpa [hu] using hs.cons h

/-- The pointer and the file stay as they are at the end of a transaction (R246 to R248). -/
theorem Serves.ending (he : e = .stop ∨ e = .busErr ∨ e = .coll) (hs : Serves cfg (endTransaction g) es p f sent) :
    Serves cfg g (e :: es) p f sent := hs.silent (handle_ending cfg g he) rfl

/-- An address match acknowledges and keeps the pointer (R241). -/
theorem Serves.addressed (d : Dir)
    (hs : Serves cfg { g with tstate := .newTransaction, action := some .ack } es p f sent) :
    Serves cfg g (.addr d :: es) p f sent := hs.silent rfl rfl

/-- The first byte behind it sets the pointer (R242). -/
theorem Serves.pointer {b : Byte} (h : g.tstate = .newTransaction)
    (hs : Serves cfg { g with ptr := b, tstate := .receivedAddress, action := some .ack } es p f sent) :
    Serves cfg g (.rxByte b :: es) p f sent := hs.silent (handle_pointer cfg b h) rfl

/-- A read request sends the byte at the pointer (R244). -/
theorem Serves.fetch {q : Prev} (h : (q = .first ∧ g.tstate = .newTransaction) ∨ (q = .acked ∧ g.tstate = .sentData))
    (hs : Serves cfg (fetchByte cfg g) es p f sent) :
    Serves cfg g (.txReq q :: es) p f (g.file.read cfg.oobReadByte g.ptr.toNat :: sent) :=
  hs.cons (handle_fetch cfg h)

theorem Serves.stop : Serves cfg g [.stop] g.ptr g.file [] := .ending (.inl rfl) (.nil rfl)

end

/-- Bytes behind the pointer go to the registers from it on, whatever the owner answers. -/
theorem serves_data (cfg : Params) (data : List Byte) {g : Target}
    (h : g.tstate = .receivedAddress ∨ g.tstate = .receivedData) :
    Serves cfg g (data.map .rxByte ++ [.stop]) (ptrAfter g.ptr data.length) (g.file.writeFrom g.ptr data) [] := by
  induction data generalizing g with
  | nil => simpa [ptrAfter, RegFile.writeFrom] using Serves.stop
  | cons b data ih =>
    have hsilent : (storeByte cfg b g).action.bind Action.sends = none := by
      rw [storeByte_action]
      split <;> rfl
    have htail := ih (g := storeByte cfg b g) (.inr rfl)
    rw [show (storeByte cfg b g).ptr = g.ptr + 1 from rfl, ptrAfter_succ] at htail
    exact htail.silent (handle_data cfg b h) hsilent

/-- Each acknowledged byte asks for the next one at the pointer, and the last one for none. -/
theorem serves_requests (cfg : Params) (n : Nat) {g : Target} (h : g.tstate = .sentData) :
    Serves cfg g (List.replicate n (.txReq .acked) ++ [.txReq .nacked, .stop]) (ptrAfter g.ptr n) g.file
      (g.file.readFrom cfg.oobReadByte g.ptr n) := by
  induction n generalizing g with
  | zero =>
    have hlast := Serves.stop.silent (handle_nacked cfg h) rfl
    simpa [ptrAfter, RegFile.readFrom, endTransaction] using hlast
  | succ n ih =>
    have htail := ih (g := fetchByte cfg g) rfl
    rw [show (fetchByte cfg g).ptr = g.ptr + 1 from rfl, ptrAfter_succ] at htail
    exact htail.fetch (.inr ⟨rfl, h⟩)

/-- An address match for reading, and the requests for `n + 1` bytes. -/
theorem serves_read (cfg : Params) (n : Nat) (g : Target) :
    Serves cfg g (.addr .read :: .txReq .first :: (List.replicate n (.txReq .acked) ++ [.txReq .nacked, .stop]))
      (ptrAfter g.ptr (n + 1)) g.file (g.file.readFrom cfg.oobReadByte g.ptr (n + 1)) := by
  rw [← ptrAfter_succ]
  exact ((serves_requests cfg n rfl).fetch (.inl ⟨rfl, rfl⟩)).addressed .read

/-! ### The front end over the trace of a transaction -/

/-- The front end of a device that takes part in a transaction. -/
def frontIn (own : Addr) (d : Dir) : Front := ⟨own, false, some d, true⟩

/-- The device's own address selects it, for the direction the byte asks for (R253 (a)). -/
theorem frontSymbol_addressed {f : Front} (h : f.awaiting = true) (rd k : Bool) :
    frontSymbol f (.tx (addrByte f.own rd) k) =
      (frontIn f.own (if rd then .read else .write), if rd then [.addr .read, .txReq .first] else [.addr .write]) := by
  have hdir : byteDir (addrByte f.own rd) = if rd then .read else .write := by rw [byteDir, addrByte_dir]
  cases rd <;> simp_all [frontSymbol, addrByte_addr, frontIn]

/-- A device that is written to receives every byte (R253 (b)). -/
theorem frontEvents_written (own : Addr) (bs : List Byte) (ys : List Sym) :
    frontEvents (frontIn own .write) (txSyms bs ++ ys) = bs.map .rxByte ++ frontEvents (frontIn own .write) ys := by
  induction bs with
  | nil => rfl
  | cons b bs ih => exact congrArg (Event.rxByte b :: ·) ih

/-- A device that is read is asked for the next byte behind each acknowledged one, and takes no part behind the last
(R253 (c)). -/
theorem frontEvents_read (own : Addr) (v : Byte) (vs : List Byte) (ys : List Sym) :
    frontEvents (frontIn own .read) (rxSyms (v :: vs) false ++ ys) =
      List.replicate vs.length (.txReq .acked) ++ .txReq .nacked :: frontEvents ⟨own, false, none, true⟩ ys := by
  induction vs generalizing v with
  | nil => rfl
  | cons w vs ih => exact congrArg (Event.txReq .acked :: ·) (ih w)

/-- The events of a write transaction. -/
theorem frontEvents_write (own : Addr) (p : Byte) (data : List Byte) :
    frontEvents (frontIdle own) (.start :: txSyms (addrByte own false :: p :: data) ++ [.stop]) =
      .addr .write :: .rxByte p :: (data.map .rxByte ++ [.stop]) := by
  have haddr := frontSymbol_addressed (f := ⟨own, true, none, false⟩) rfl false true
  have hdata := frontEvents_written own (p :: data) [.stop]
  calc _
    _ = frontEvents ⟨own, true, none, false⟩ (.tx (addrByte own false) true :: (txSyms (p :: data) ++ [.stop])) := rfl
    _ = .addr .write :: frontEvents (frontIn own .write) (txSyms (p :: data) ++ [.stop]) := by
      rw [frontEvents, haddr]
      rfl
    _ = _ := by
      rw [hdata]
      rfl

/-- The events of a pointer write and a read behind a repeated start, whatever bytes are clocked behind the last. -/
theorem frontEvents_writeRead (own : Addr) (p v : Byte) (vs : List Byte) {more : List Sym}
    (hmore : ∀ y ∈ more, ∃ b k, y = .tx b k ∨ y = .rx b k) :
    frontEvents (frontIdle own)
        ([.start, .tx (addrByte own false) true, .tx p true, .rstart, .tx (addrByte own true) true] ++
          rxSyms (v :: vs) false ++ more ++ [.stop]) =
      [.addr .write, .rxByte p, .addr .read, .txReq .first] ++
        (List.replicate vs.length (.txReq .acked) ++ [.txReq .nacked, .stop]) := by
  have hwrite := frontSymbol_addressed (f := ⟨own, true, none, false⟩) rfl false true
  have hread := frontSymbol_addressed (f := ⟨own, true, none, true⟩) rfl true true
  have hapart : frontEvents ⟨own, false, none, true⟩ (more ++ [.stop]) = [.stop] :=
    frontEvents_apart more _ rfl rfl hmore
  calc _
    _ = frontEvents ⟨own, true, none, false⟩ (.tx (addrByte own false) true :: .tx p true :: .rstart ::
          .tx (addrByte own true) true :: (rxSyms (v :: vs) false ++ (more ++ [.stop]))) := by
      simp only [List.append_assoc]
      rfl
    _ = .addr .write :: .rxByte p :: frontEvents ⟨own, true, none, true⟩
          (.tx (addrByte own true) true :: (rxSyms (v :: vs) false ++ (more ++ [.stop]))) := by
      rw [frontEvents, hwrite]
      rfl
    _ = [.addr .write, .rxByte p, .addr .read, .txReq .first] ++
          frontEvents (frontIn own .read) (rxSyms (v :: vs) false ++ (more ++ [.stop])) := by
      rw [frontEvents, hread]
      rfl
    _ = _ := by rw [frontEvents_read, hapart]

/-- Settles O56: the front end's events of each transaction are known, and the handler serves them one by one. -/
theorem transactionsServed : Obligations.TransactionsServed := by
  intro own p data vs cfg g
  refine ⟨?_, fun more hvs hmore => ?_⟩
  · rw [frontEvents_write]
    exact ((serves_data cfg data (.inl rfl)).pointer rfl).addressed .write
  · obtain ⟨v, vs, rfl⟩ := List.exists_cons_of_ne_nil hvs
    rw [frontEvents_writeRead own p v vs hmore]
    obtain ⟨u, acts, hall, hidle, hptr, hfile, hsent⟩ :=
      ((serves_read cfg vs.length _).pointer rfl).addressed (g := g) .write
    exact ⟨u, acts, hall, hsent, hidle, hptr, hfile⟩

end Sys2Proof.Machine

end

/-! ## What an event does (O49 to O52), and the callbacks (O58) -/

section

namespace Sys2Proof.Machine

open Sys2Proof

/-! ### An event that finds the handler free -/

section
variable {i : Instr} {e : Event} {s : State}

/-- An event that meets no other one is handled at once (R330), as the table has it (R249). -/
theorem exec_event_alone (he : eventOf i = some e) (hen : s.host.irqEn = true) (hp : s.tgt.pending = []) :
    exec i s = (handle s.cfg s.tgt e).elim (.refused .eventOutOfState) fun g => .next { s with tgt := g } := by
  have hdeliver : raiseEvents [e] s = deliver (pend [e] s) := if_pos hen
  have hpend : pend [e] s = { s with tgt := { s.tgt with pending := [e] } } := by simp [pend, hp, insertEvent]
  have hrest : { s.tgt with pending := [] } = s.tgt := by rw [← hp]
  rw [exec_event he, hdeliver, hpend]
  cases hh : handle s.cfg s.tgt e <;> simp [deliver, hrest, hh]

theorem exec_event_handled {g : Target} (he : eventOf i = some e) (hen : s.host.irqEn = true)
    (hp : s.tgt.pending = []) (h : handle s.cfg s.tgt e = some g) : exec i s = .next { s with tgt := g } := by
  rw [exec_event_alone he hen hp, h]
  rfl

theorem exec_event_refused_iff (he : eventOf i = some e) (hen : s.host.irqEn = true) (hp : s.tgt.pending = []) :
    exec i s = .refused .eventOutOfState ↔ handle s.cfg s.tgt e = none := by
  rw [exec_event_alone he hen hp]
  cases handle s.cfg s.tgt e <;> simp

end

/-- The table's empty places (R249): a byte received in `Idle` or `SentData`, and a request out of its order. -/
theorem handle_eq_none_iff {cfg : Params} {g : Target} {e : Event} :
    handle cfg g e = none ↔
      (∃ b, e = .rxByte b ∧ (g.tstate = .idle ∨ g.tstate = .sentData)) ∨
        (∃ p, e = .txReq p ∧
          ¬ ((p = .first ∧ g.tstate = .newTransaction) ∨ (p ≠ .first ∧ g.tstate = .sentData))) := by
  cases e with
  | rxByte b => simp [handle_rxByte_eq_none_iff]
  | txReq p => simp [handle_txReq_eq_none_iff]
  | addr | stop | busErr | coll => simp [handle]

/-! ### The statements -/

/-- Settles O49: each of the three ends the transaction, whatever the state. -/
theorem endingEvents : Obligations.EndingEvents := by
  refine ⟨⟨rfl, rfl, rfl⟩, fun s hen hp i hi => ?_⟩
  obtain ⟨e, he, hend⟩ : ∃ e, eventOf i = some e ∧ (e = .stop ∨ e = .busErr ∨ e = .coll) := by
    simp only [List.mem_cons, List.not_mem_nil, or_false] at hi
    obtain rfl | rfl | rfl := hi
    · exact ⟨.stop, rfl, .inl rfl⟩
    · exact ⟨.busErr, rfl, .inr (.inl rfl)⟩
    · exact ⟨.coll, rfl, .inr (.inr rfl)⟩
  exact exec_event_handled he hen hp (handle_ending s.cfg s.tgt hend)

/-- Settles O50: a byte is the pointer, a store at the pointer, or refused, by the state it meets. -/
theorem byteReceived : Obligations.ByteReceived := by
  intro b s hen hp hwf
  refine ⟨rfl, fun d => exec_event_handled rfl hen hp rfl,
    fun hs => exec_event_handled rfl hen hp (handle_pointer s.cfg b hs), fun hs => ?_,
    fun hs => (exec_event_refused_iff rfl hen hp).2 (handle_rxByte_eq_none_iff.2 hs)⟩
  have hstore := handle_data s.cfg b hs
  exact ⟨_, exec_event_handled rfl hen hp hstore, rfl, rfl, storeByte_action s.cfg b s.tgt, hp,
    TargetFrame.handled hstore, RegFile.peek_write_same _ b hwf, fun k hk => RegFile.peek_write_other _ b hk⟩

/-- Settles O51: a request fetches the byte at the pointer, ends the transaction, or is refused. -/
theorem byteRequested : Obligations.ByteRequested := by
  intro p s hen hp
  refine ⟨rfl, fun hs => ?_, ?_, fun hs => (exec_event_refused_iff rfl hen hp).2 (handle_txReq_eq_none_iff.2 hs)⟩
  · have hfetch := handle_fetch s.cfg hs
    exact ⟨_, exec_event_handled rfl hen hp hfetch, rfl, rfl, rfl, rfl, hp, TargetFrame.handled hfetch⟩
  · rintro rfl hs
    exact exec_event_handled rfl hen hp (handle_nacked s.cfg hs)

/-- Settles O52: an event is refused where the handler has no transition, and completes everywhere else. -/
theorem eventsOutOfState : Obligations.EventsOutOfState := by
  intro i e s he hen hp
  refine ⟨(exec_event_refused_iff he hen hp).trans handle_eq_none_iff, fun hne => ?_⟩
  obtain ⟨g, hg⟩ := Option.ne_none_iff_exists'.1 (mt (exec_event_refused_iff he hen hp).2 hne)
  exact ⟨_, exec_event_handled he hen hp hg, TargetFrame.handled hg⟩

/-- Settles O58: the callbacks are the register file's own, at their index, and touch nothing but it and `tgt.cb`. -/
theorem callbacks : Obligations.Callbacks := by
  intro i b s hwf
  refine ⟨rfl, rfl, fun v hv => hv ▸ rfl, _, rfl, ?_, rfl, rfl, rfl, rfl, ?_, RegFile.peek_write_same _ b hwf,
    fun k hk => RegFile.peek_write_other _ b hk⟩
  · exact ⟨rfl, rfl, rfl, rfl, rfl, rfl, RegFile.write_n _ _ _, RegFile.write_ro _ _ _⟩
  · exact congrArg some (RegFile.write_ret _ _ _)

end Sys2Proof.Machine

end

/-! ## Bus errors and collisions on the lines (O55) -/

section

namespace Sys2Proof.Machine

open Sys2Proof

/-! ### What the decoder shows -/

/-- An edge of SDA while SCL stays high. -/
def DataEdge (p q : Level) : Prop := p.scl = true ∧ q.scl = true ∧ p.sda ≠ q.sda

/-- Such an edge is a condition: a stop when SDA rises, a start when it falls (R150). -/
theorem decodeEdge_condition (d : LineDec) {p q : Level} (h : DataEdge p q) :
    (decodeEdge d p q).2 = [if q.sda then .stop else if d.opened then .rstart else .start] := by
  obtain ⟨hp, hq, hsda⟩ := h
  cases hd : q.sda <;> simp_all [decodeEdge]

/-- A change of the levels shows at most one symbol, and a condition only by an edge of SDA. -/
theorem decodeEdge_symbols (d : LineDec) (p q : Level) :
    (decodeEdge d p q).2 = [] ∨ ∃ y, (decodeEdge d p q).2 = [y] ∧
      (y.isCondition = true → DataEdge p q) := by
  by_cases hc : DataEdge p q
  · exact .inr ⟨_, decodeEdge_condition d hc, fun _ => hc⟩
  · have hfall : ¬ (p.scl && q.scl && p.sda && !q.sda) = true := fun h => hc (by simp_all [DataEdge])
    have hrise : ¬ (p.scl && q.scl && !p.sda && q.sda) = true := fun h => hc (by simp_all [DataEdge])
    rw [decodeEdge, if_neg hfall, if_neg hrise]
    split
    · dsimp only
      split
      · exact .inr ⟨_, rfl, nofun⟩
      · exact .inl rfl
    · exact .inl rfl

/-! ### What the front end makes of it -/

/-- A symbol by itself is no error: it raises the events of the data and the stop (R253 (a) to (d)). -/
theorem frontSymbol_no_error (f : Front) (y : Sym) :
    Event.busErr ∉ (frontSymbol f y).2 ∧ Event.coll ∉ (frontSymbol f y).2 := by
  cases y with
  | start | rstart => simp [frontSymbol]
  | stop => cases h : f.addressed <;> simp [frontSymbol, h]
  | tx b k =>
    by_cases ha : f.awaiting = true
    · by_cases hown : b.extractLsb' 1 7 = f.own
      · cases hd : byteDir b <;> simp [frontSymbol, ha, hown, hd]
      · simp [frontSymbol, ha, hown]
    · rcases hs : f.sel with _ | _ | _ <;> simp [frontSymbol, ha, hs]
  | rx b k => rcases hs : f.sel with _ | _ | _ <;> simp [frontSymbol, hs]

section
variable {f : WireFront} {p q : Level}

/-- The device releases SDA for a bit of its byte, and finds it low as the clock rises (R253 (e)). -/
theorem overridden_iff :
    overridden f p q = true ↔ p.scl = false ∧ q.scl = true ∧ q.sda = false ∧
      ∃ b, f.sending = some b ∧ f.dec.bits.length < 8 ∧ b.getLsbD (7 - f.dec.bits.length) = true := by
  cases hs : f.sending with
  | none => simp [overridden, hs]
  | some b =>
    simp [overridden, hs]
    tauto

theorem illegalCondition_iff {y : LineSym} :
    illegalCondition f y = true ↔ f.front.sel ≠ none ∧ 2 ≤ f.dec.bits.length ∧ y.isCondition = true := by
  simp [illegalCondition, Option.isSome_iff_ne_none, and_assoc]

theorem frontEdge_overridden (h : overridden f p q = true) :
    frontEdge f p q = (⟨{ f.front with sel := none }, (decodeEdge f.dec p q).1, none⟩, [.coll]) := if_pos h

theorem frontEdge_quiet (h : ¬ overridden f p q = true) (hy : (decodeEdge f.dec p q).2 = []) :
    (frontEdge f p q).2 = [] := by
  simp [frontEdge, h, hy]

theorem frontEdge_symbol {y : LineSym} (h : ¬ overridden f p q = true) (hy : (decodeEdge f.dec p q).2 = [y]) :
    (frontEdge f p q).2 =
      (if illegalCondition f y then [.busErr] else []) ++ (frontSymbol f.front (frontSym f.front y)).2 := by
  simp [frontEdge, h, hy]

/-- An illegal condition is raised before the stop that it may be (R326). -/
theorem frontEdge_illegal (hc : DataEdge p q) (hsel : f.front.sel ≠ none)
    (hbits : 2 ≤ f.dec.bits.length) :
    (frontEdge f p q).2 = .busErr :: (if q.sda && f.front.addressed then [.stop] else []) := by
  have hclock : ¬ overridden f p q = true := fun h => Bool.false_ne_true ((overridden_iff.1 h).1.symm.trans hc.1)
  have hill {y : LineSym} (hy : y.isCondition = true) : illegalCondition f y = true :=
    illegalCondition_iff.2 ⟨hsel, hbits, hy⟩
  rw [frontEdge_symbol hclock (decodeEdge_condition f.dec hc)]
  cases q.sda with
  | true => exact congrArg (· ++ _) (if_pos (hill rfl))
  | false => cases f.dec.opened <;> exact congrArg (· ++ _) (if_pos (hill rfl))

/-- A bus error comes of an illegal condition only. -/
theorem illegal_of_busErr_mem (h : Event.busErr ∈ (frontEdge f p q).2) :
    DataEdge p q ∧ f.front.sel ≠ none ∧ 2 ≤ f.dec.bits.length := by
  by_cases hlost : overridden f p q = true
  · simp [frontEdge_overridden hlost] at h
  · obtain hy | ⟨y, hy, hcond⟩ := decodeEdge_symbols f.dec p q
    · simp [frontEdge_quiet hlost hy] at h
    · rw [frontEdge_symbol hlost hy, List.mem_append] at h
      obtain h | h := h
      · split at h
        next hill =>
          obtain ⟨hsel, hbits, hyc⟩ := illegalCondition_iff.1 hill
          exact ⟨hcond hyc, hsel, hbits⟩
        · simp at h
      · exact absurd h (frontSymbol_no_error _ _).1

/-- A collision comes of a lost bit only. -/
theorem overridden_of_coll_mem (h : Event.coll ∈ (frontEdge f p q).2) : overridden f p q = true := by
  by_contra hlost
  obtain hy | ⟨y, hy, -⟩ := decodeEdge_symbols f.dec p q
  · simp [frontEdge_quiet hlost hy] at h
  · rw [frontEdge_symbol hlost hy, List.mem_append] at h
    obtain h | h := h
    · split at h <;> simp at h
    · exact absurd h (frontSymbol_no_error _ _).2

end

/-- Settles O55: the errors and their events are known, and the handler ends the transaction at the first. -/
theorem frontEndFindsErrors : Obligations.FrontEndFindsErrors := by
  intro f p q cfg g condition illegal lost
  have hillegal : illegal → (frontEdge f p q).2 = .busErr :: (if q.sda && f.front.addressed then [.stop] else []) :=
    fun ⟨hc, hsel, hbits⟩ => frontEdge_illegal hc hsel hbits
  have hlost (h : lost) := frontEdge_overridden (overridden_iff.2 h)
  refine ⟨hillegal, fun h => by simp [hlost h], mt illegal_of_busErr_mem,
    mt fun h => overridden_iff.1 (overridden_of_coll_mem h), ?_⟩
  rintro (h | h)
  · rw [hillegal h]
    refine Serves.ending (.inr (.inl rfl)) ?_
    split
    · exact Serves.stop
    · exact Serves.nil rfl
  · rw [hlost h]
    exact Serves.ending (.inr (.inr rfl)) (Serves.nil rfl)

end Sys2Proof.Machine

end

/-! ## Calls to a reference device -/

section

namespace Sys2Proof.Machine

open Sys2Proof

/-! ### Which device stands where -/

section
variable {a : Addr} {f g : RegFile} {p q : Byte} {s t : State} {r : Ret} {ys : List Sym} {vs : List Byte}
  {d : Option SimDev}

/-- A device of the reference kind shows the bytes of its file. -/
theorem DeviceAt.peek (h : DeviceAt a f p s) (k : Nat) : s.sim.peek a k = some (f.peek k) := by
  obtain ⟨d, hd, -, hb⟩ := h
  simp only [Sim.peek, hd, hb]

/-- The bytes a call to one address leaves as they were: those of the other devices, and at its own address those the
two files agree on. -/
theorem Called.peek_eq (h : Called a s t r ys vs d) (hs : DeviceAt a f p s) (ht : DeviceAt a g q t) {b : Addr} {k : Nat}
    (hk : b ≠ a ∨ g.peek k = f.peek k) : t.sim.peek b k = s.sim.peek b k := by
  by_cases hb : b = a
  · subst hb
    rw [ht.peek, hs.peek, hk.resolve_left (not_not_intro rfl)]
  · exact Sim.peek_congr (h.others b hb) k

/-- A call that leaves the device's file alone stores nothing anywhere. -/
theorem Called.peek_same_file (h : Called a s t r ys vs d) (hs : DeviceAt a f p s) (ht : DeviceAt a f q t) (b : Addr)
    (k : Nat) : t.sim.peek b k = s.sim.peek b k := h.peek_eq hs ht (.inr rfl)

end

/-! ### What the helpers' calls do -/

/-- A call to a reference device that has returned with a result, a trace and the bytes it read, and has left the device
with a file and a pointer. -/
structure Served (a : Addr) (s t : State) (r : Ret) (ys : List Sym) (vs : List Byte) (g : RegFile) (q : Byte) :
    Prop where
  called : Called a s t r ys vs (t.sim.find a)
  device : DeviceAt a g q t

theorem Called.served {a : Addr} {s t : State} {r : Ret} {ys : List Sym} {vs : List Byte} {d : SimDev}
    (h : Called a s t r ys vs (some d)) {g : RegFile} {q : Byte} (hb : d.body = .file g) (hp : d.ptr = q) :
    Served a s t r ys vs g q :=
  ⟨h.dev.symm ▸ h, d, h.dev, hp, hb⟩

/-- The file and the pointer behind bytes written in one message: the first byte is the pointer, the others are stored
from it on (R242, R225). -/
def RegFile.afterMessage (f : RegFile) (p : Byte) : List Byte → RegFile × Byte
  | [] => (f, p)
  | reg :: data => (f.writeFrom reg data, ptrAfter reg data.length)

/-- A register byte alone stores nothing. -/
theorem RegFile.afterMessage_pointer (f : RegFile) (p reg : Byte) : f.afterMessage p [reg] = (f, reg) := by
  simp [RegFile.afterMessage, RegFile.writeFrom, ptrAfter]

/-- A reference device takes a written message so. -/
theorem SimDev.takeAll_message {d : SimDev} {f : RegFile} (h : d.body = .file f) (bs : List Byte) :
    ({ d with first := true }.takeAll bs).body = .file (f.afterMessage d.ptr bs).1 ∧
      ({ d with first := true }.takeAll bs).ptr = (f.afterMessage d.ptr bs).2 := by
  cases bs with
  | nil => exact ⟨h, rfl⟩
  | cons reg data => exact SimDev.takeAll_pointer h reg data

/-- A helper whose transfer returns `Ok` leaves its value instead (R283). -/
theorem helper_ok {a : Addr} {msgs : List Msg} (ret : State → Ret) {s t : State} (h : transfer a msgs s = .done () t)
    (hr : t.host.result = .ok) : helper a msgs ret s = .done () (setResult (ret t) t) := by
  rw [helper, h, Run.andThen_done, if_pos hr]

section
variable {a : Addr} {f : RegFile} {p : Byte} {s : State} (hs : CanCall a s) (hd : DeviceAt a f p s)
include hs hd

/-- The write transfer (R271). -/
theorem transfer_write_served (bs : List Byte) :
    ∃ t, transfer a (writePattern bs) s = .done () t ∧
      Served a s t .ok (.start :: txSyms (addrByte a false :: bs) ++ [.stop]) [] (f.afterMessage p bs).1
        (f.afterMessage p bs).2 := by
  obtain ⟨d, hfind, rfl, hb⟩ := hd
  obtain ⟨t, ht, hcalled⟩ := transfer_write hs hfind bs
  obtain ⟨hb', hp'⟩ := SimDev.takeAll_message hb bs
  exact ⟨t, ht, hcalled.served hb' hp'⟩

/-- The read, for a helper that makes its value of the bytes read (R272). -/
theorem helper_read_served (n : Nat) (val : List Byte → Ret) :
    ∃ t, helper a (readPattern n) (fun s => val (readBytes s)) s = .done () t ∧
      Served a s t (val (f.readFrom s.cfg.oobReadByte p n))
        ([.start, .tx (addrByte a true) true] ++ rxSyms (f.readFrom s.cfg.oobReadByte p n) false ++ [.stop])
        (f.readFrom s.cfg.oobReadByte p n) f (ptrAfter p n) := by
  obtain ⟨d, hfind, rfl, hb⟩ := hd
  obtain ⟨t, d', ht, hbody, hptr, hcalled⟩ := transfer_read hs hfind hb n
  refine ⟨_, helper_ok _ ht hcalled.result, ?_⟩
  rw [hcalled.bytes]
  exact (hcalled.setResult _).served hbody hptr

/-- The write with a read behind a repeated start, for a helper that makes its value of the bytes read (R274): the read
begins where the written message left the device. -/
theorem helper_writeRead_served (bs : List Byte) (n : Nat) (val : List Byte → Ret) {g : RegFile} {q : Byte}
    (hg : f.afterMessage p bs = (g, q)) :
    ∃ t, helper a (writeReadPattern bs n) (fun s => val (readBytes s)) s = .done () t ∧
      Served a s t (val (g.readFrom s.cfg.oobReadByte q n))
        (.start :: txSyms (addrByte a false :: bs) ++ [.rstart, .tx (addrByte a true) true] ++
          rxSyms (g.readFrom s.cfg.oobReadByte q n) false ++ [.stop])
        (g.readFrom s.cfg.oobReadByte q n) g (ptrAfter q n) := by
  obtain ⟨d, hfind, rfl, hb⟩ := hd
  obtain ⟨hb', hp'⟩ := SimDev.takeAll_message hb bs
  rw [hg] at hb' hp'
  obtain ⟨t, d', ht, hbody, hptr, hcalled⟩ := transfer_writeRead hs hfind bs hb' n
  rw [hp'] at hptr hcalled
  refine ⟨_, helper_ok _ ht hcalled.result, ?_⟩
  rw [hcalled.bytes]
  exact (hcalled.setResult _).served hbody hptr

end

/-! ### Words -/

/-- A big-endian word is its bytes in order (R68). -/
theorem wordBe_eq_append (b0 b1 : Byte) : wordBe b0 b1 = b0 ++ b1 := by
  apply BitVec.eq_of_getLsbD_eq
  intro i hi
  by_cases h : i < 8
  · rw [append_low _ _ h]
    simp [wordBe, h, hi]
  · rw [append_high _ _ h]
    simp [wordBe, h, hi, BitVec.getLsbD_of_ge b1 i (not_lt.1 h)]

/-- A little-endian word is its bytes in the other order (R68). -/
theorem wordLe_eq_append (b0 b1 : Byte) : wordLe b0 b1 = b1 ++ b0 := wordBe_eq_append b1 b0

end Sys2Proof.Machine

end

/-! ## The responder against the reference device (O57) -/

section

namespace Sys2Proof.Machine

open Sys2Proof

/-- Data bytes behind the pointer byte, whatever comes behind them: the rest is served with the bytes stored. -/
theorem Serves.data {cfg : Params} {es : List Event} {p : Byte} {f : RegFile} {sent : List Byte} (data : List Byte)
    {g : Target} (h : g.tstate = .receivedAddress ∨ g.tstate = .receivedData)
    (hs : ∀ u : Target, u.ptr = ptrAfter g.ptr data.length → u.file = g.file.writeFrom g.ptr data →
      Serves cfg u es p f sent) :
    Serves cfg g (data.map .rxByte ++ es) p f sent := by
  induction data generalizing g with
  | nil => exact hs g (by simp [ptrAfter]) rfl
  | cons b data ih =>
    have hsilent : (storeByte cfg b g).action.bind Action.sends = none := by
      rw [storeByte_action]
      split <;> rfl
    refine (ih (g := storeByte cfg b g) (.inr rfl) fun u hp hf => hs u ?_ hf).silent (handle_data cfg b h) hsilent
    exact hp.trans (ptrAfter_succ g.ptr data.length)

/-- A written message, whatever comes behind it: the rest is served as the message leaves the file and the pointer. -/
theorem Serves.message {cfg : Params} {es : List Event} {p : Byte} {f : RegFile} {sent : List Byte} (bs : List Byte)
    {g : Target}
    (hs : ∀ u : Target, (u.file, u.ptr) = g.file.afterMessage g.ptr bs → Serves cfg u es p f sent) :
    Serves cfg g (.addr .write :: (bs.map .rxByte ++ es)) p f sent := by
  refine Serves.addressed .write ?_
  cases bs with
  | nil => exact hs _ rfl
  | cons reg data =>
    refine Serves.pointer rfl (Serves.data data (.inl rfl) fun u hptr hfile => hs u ?_)
    rw [hptr, hfile]
    rfl

/-- The events of a written message and a read behind a repeated start. -/
theorem frontEvents_messageRead (own : Addr) (bs : List Byte) (v : Byte) (vs : List Byte) :
    frontEvents (frontIdle own)
        (.start :: txSyms (addrByte own false :: bs) ++ [.rstart, .tx (addrByte own true) true] ++
          rxSyms (v :: vs) false ++ [.stop]) =
      .addr .write :: (bs.map .rxByte ++ .addr .read :: .txReq .first ::
        (List.replicate vs.length (.txReq .acked) ++ [.txReq .nacked, .stop])) := by
  have hwrite := frontSymbol_addressed (f := ⟨own, true, none, false⟩) rfl false true
  have hread := frontSymbol_addressed (f := ⟨own, true, none, true⟩) rfl true true
  calc _
    _ = frontEvents ⟨own, true, none, false⟩ (.tx (addrByte own false) true :: (txSyms bs ++
          .rstart :: .tx (addrByte own true) true :: (rxSyms (v :: vs) false ++ [.stop]))) := by
      simp only [List.append_assoc]
      rfl
    _ = .addr .write :: frontEvents (frontIn own .write) (txSyms bs ++
          .rstart :: .tx (addrByte own true) true :: (rxSyms (v :: vs) false ++ [.stop])) := by
      rw [frontEvents, hwrite]
      rfl
    _ = .addr .write :: (bs.map .rxByte ++ frontEvents ⟨own, true, none, true⟩
          (.tx (addrByte own true) true :: (rxSyms (v :: vs) false ++ [.stop]))) := by
      rw [frontEvents_written]
      rfl
    _ = .addr .write :: (bs.map .rxByte ++ .addr .read :: .txReq .first ::
          frontEvents (frontIn own .read) (rxSyms (v :: vs) false ++ [.stop])) := by
      rw [frontEvents, hread]
      rfl
    _ = _ := by
      rw [frontEvents_read]
      rfl

/-- Settles O57: responder and device take the written message alike, and answer the read from where it leaves them. -/
theorem responderActsAsTheReferenceDevice : Obligations.ResponderActsAsTheReferenceDevice := by
  intro a f p bytes n s hmay hb hidle hdev
  obtain ⟨g, q, hmsg⟩ : ∃ g q, f.afterMessage p bytes = (g, q) := ⟨_, _, rfl⟩
  obtain ⟨t, ht, hcalled, hdevice⟩ :=
    helper_writeRead_served (canCall_of hmay hb hidle) hdev bytes (n + 1) .okBytes hmsg
  have hserves : Serves s.cfg (Target.idleWith f p) (frontEvents (frontIdle a) t.eng.trace) (ptrAfter q (n + 1)) g
      (g.readFrom s.cfg.oobReadByte q (n + 1)) := by
    rw [hcalled.trace, RegFile.readFrom, frontEvents_messageRead, readFrom_length]
    refine Serves.message bytes fun u hu => ?_
    obtain ⟨rfl, rfl⟩ := Prod.mk.inj (hu.trans hmsg)
    exact serves_read s.cfg n u
  obtain ⟨u, acts, hall, hstate, hptr, hfile, hsent⟩ := hserves
  refine ⟨t, u, acts, congrArg toOutcome ht, hall, ?_, ?_, hstate⟩
  · rw [hsent]
    exact hcalled.result
  · rw [hptr, hfile]
    exact hdevice

end Sys2Proof.Machine

end

/-! ## DETECT, and the writes and reads of a reference device (O43 to O46) -/

section

namespace Sys2Proof.Machine

open Sys2Proof

/-- Settles O43: a device at the address acknowledges the one byte, which changes none of its registers; without
one the call ends at that byte. -/
theorem detect : Obligations.Detect := by
  intro a s hmay hb hidle
  have hs := canCall_of hmay hb hidle
  cases hd : s.sim.find a with
  | none =>
    obtain ⟨t, ht, hdev, hcalled⟩ := transfer_absent hs hd ⟨false, true, .write []⟩ []
    exact ⟨t, congrArg toOutcome ht, hcalled.result, hcalled.trace,
      fun b k => Sim.peek_congr (by rw [Sim.find, hdev]; rfl) k⟩
  | some d =>
    obtain ⟨t, ht, hcalled⟩ := transfer_write hs hd []
    refine ⟨t, congrArg toOutcome ht, hcalled.result, hcalled.trace, fun b k => ?_⟩
    by_cases hba : b = a
    · subst hba
      simp only [Sim.peek, hcalled.dev, hd]
      rfl
    · exact Sim.peek_congr (hcalled.others b hba) k

/-- Settles O44: each of the helpers is the write transfer of the register byte and its data. -/
theorem registerWrites : Obligations.RegisterWrites := by
  intro a f p reg data w s hmay hb hidle hdev i hi
  have hexec : exec i s = toOutcome (transfer a (writePattern (reg :: data)) s) := by
    obtain rfl | ⟨v, rfl, rfl⟩ | ⟨rfl, rfl⟩ | ⟨rfl, rfl⟩ := hi <;> rfl
  obtain ⟨t, ht, hcalled, hdevice⟩ := transfer_write_served (canCall_of hmay hb hidle) hdev (reg :: data)
  exact ⟨t, hexec.trans (congrArg toOutcome ht), hcalled.result, hcalled.trace, hdevice, fun b k hk =>
    hcalled.peek_eq hdev hdevice (hk.imp_right (RegFile.peek_writeFrom f reg data k))⟩

/-- Settles O45: both helpers return the bytes of their transfer. -/
theorem blockReads : Obligations.BlockReads := by
  intro a f p reg n s hmay hb hidle hdev
  have hs := canCall_of hmay hb hidle
  refine ⟨?_, ?_⟩
  · obtain ⟨t, ht, hcalled, hdevice⟩ := helper_read_served hs hdev n .okBytes
    exact ⟨t, congrArg toOutcome ht, hcalled.result, hcalled.trace, hdevice, hcalled.peek_same_file hdev hdevice⟩
  · obtain ⟨t, ht, hcalled, hdevice⟩ :=
      helper_writeRead_served hs hdev [reg] n .okBytes (RegFile.afterMessage_pointer f p reg)
    exact ⟨t, congrArg toOutcome ht, hcalled.result, hcalled.trace, hdevice, hcalled.peek_same_file hdev hdevice⟩

/-- Settles O46: each helper makes its value of the one or two bytes that its transfer read from the register on. -/
theorem registerReads : Obligations.RegisterReads := by
  intro a f p reg s hmay hb hidle hdev b0 b1
  have hread := fun n val => helper_writeRead_served (canCall_of hmay hb hidle) hdev [reg] n val
    (RegFile.afterMessage_pointer f p reg)
  refine ⟨?_, ?_, ?_⟩
  · obtain ⟨t, ht, hcalled, hdevice⟩ := hread 1 fun vs => .okByte (vs.getD 0 0)
    exact ⟨t, congrArg toOutcome ht, hcalled.result, hdevice, hcalled.peek_same_file hdev hdevice⟩
  · obtain ⟨t, ht, hcalled, hdevice⟩ := hread 2 fun vs => .okWord (wordBe (vs.getD 0 0) (vs.getD 1 0))
    exact ⟨t, congrArg toOutcome ht, hcalled.result.trans (congrArg Ret.okWord (wordBe_eq_append b0 b1)), hdevice,
      hcalled.peek_same_file hdev hdevice⟩
  · obtain ⟨t, ht, hcalled, hdevice⟩ := hread 2 fun vs => .okWord (wordLe (vs.getD 0 0) (vs.getD 1 0))
    exact ⟨t, congrArg toOutcome ht, hcalled.result.trans (congrArg Ret.okWord (wordLe_eq_append b0 b1)), hdevice,
      hcalled.peek_same_file hdev hdevice⟩

end Sys2Proof.Machine

end

/-! ## The read-modify-write (O47) -/

section

namespace Sys2Proof.Machine

open Sys2Proof

/-! ### One read, and a write when the value changes -/

section
variable {a : Addr} {reg old : Byte} {s t : State} (ht : regRead8 a reg s = .done () t)
  (hr : t.host.result = .okByte old) (mask value : Byte)
include ht hr

/-- A value that would not change is not written (R282). -/
theorem updateMasked_unchanged (h : maskedUpdate old mask value = old) :
    updateMasked a reg mask value s = .done () (setResult .ok t) := by
  simp [updateMasked, ht, hr, h]

/-- A value that changes is written behind the calls of the other callers (R282, R350). -/
theorem updateMasked_changed (h : maskedUpdate old mask value ≠ old) :
    updateMasked a reg mask value s = (raceCalls t).andThen (regWrite8 a reg (maskedUpdate old mask value)) := by
  simp only [updateMasked, ht, Run.andThen_done, hr, if_neg h]

end

/-- A read that fails is the end of it, whatever the transfer met (R283). -/
theorem updateMasked_failed {a : Addr} {reg : Byte} {s t : State} {e : BusError} (ht : regRead8 a reg s = .done () t)
    (he : t.host.result = .err e) (mask value : Byte) : updateMasked a reg mask value s = .done () t := by
  simp only [updateMasked, ht, Run.andThen_done, he]

/-- The register read leaves the host's script of other callers alone. -/
theorem regRead8_race {a : Addr} {reg : Byte} {s t : State} (h : regRead8 a reg s = .done () t) :
    t.host.race = s.host.race :=
  (callRun_race (i := .regRead8 a reg) rfl (fun _ _ _ _ h => by cases h) s).of_done h

/-- The calls of other callers are those of the next entry of the host's script, when it has one (log entry 30). -/
theorem raceCalls_eq (s : State) : raceCalls s =
    otherCalls (s.host.race.headD []) { s with host := { s.host with race := s.host.race.tail } } := by
  obtain ⟨cfg, ⟨input, irqEn, result, past, race⟩, eng, line, srp, sim, tgt⟩ := s
  cases race <;> rfl

theorem raceCalls_none {s : State} (h : s.host.race = []) : raceCalls s = .done () s := by
  simp only [raceCalls, h]

/-! ### Calls run as operations -/

/-- A run that answers a next state in which it does not wait has completed. -/
theorem Run.Post.done_of_next {r : Run Unit} {D : Unit → State → Prop} {H : State → Prop} {t : State} (h : r.Post D H)
    (ht : toOutcome r = .next t) (hH : ¬ H t) : r = .done () t := by
  cases r with
  | done a s => cases ht; rfl
  | hang s => cases ht; exact absurd h hH
  | refuse x => cases ht

/-- Operations in a row complete one by one. -/
theorem runAll_cons_inv {i : Instr} {is : List Instr} {s u : State} {rs : List Ret}
    (h : runAll (i :: is) s = some (u, rs)) :
    ∃ t qs, exec i s = .next t ∧ t.eng.waiting = none ∧ runAll is t = some (u, qs) := by
  simp only [runAll] at h
  split at h
  next t ht =>
    split at h
    · cases h
    next hw =>
      obtain ⟨⟨v, qs⟩, hrun, heq⟩ := Option.map_eq_some_iff.1 h
      cases heq
      exact ⟨t, qs, ht, by simpa using hw, hrun⟩
  all_goals cases h

/-- Transfers in a row are the calls of other callers, each to its end. -/
theorem otherCalls_of_runAll {cs : List Call} {i : Instr} {s u : State} {rs : List Ret}
    (h : runAll (cs.map (fun c => .transfer c.addr c.msgs) ++ [i]) s = some (u, rs)) :
    ∃ t, otherCalls cs s = .done () t ∧ exec i t = .next u := by
  induction cs generalizing s rs with
  | nil =>
    obtain ⟨t, qs, ht, -, hrun⟩ := runAll_cons_inv h
    cases hrun
    exact ⟨s, rfl, ht⟩
  | cons c cs ih =>
    obtain ⟨t, qs, ht, hw, hrun⟩ := runAll_cons_inv h
    have hdone : transfer c.addr c.msgs s = .done () t :=
      (transfer_step c.addr c.msgs s).done_of_next ht fun hstuck => hstuck.1.waiting hw
    rw [otherCalls, hdone]
    exact ih hrun

end Sys2Proof.Machine

end

section

namespace Sys2Proof.RegisterHelpers

open Sys2Proof Sys2Proof.Machine

/-- Settles O47: with no other caller the calls are the two of R282; on every transport the run is cut at the end of its
read, which has completed since it has a value. -/
theorem updateMasked : Obligations.UpdateMasked := by
  intro a reg mask value s hmay
  refine ⟨fun hb hidle hrace => ⟨?_, fun habsent => ?_⟩, ?_⟩
  · intro f p hdev old new readTrace
    have hs := canCall_of hmay hb hidle
    obtain ⟨t, ht, hcalled, hdevice⟩ := helper_writeRead_served hs hdev [reg] 1 (fun vs => .okByte (vs.getD 0 0))
      (RegFile.afterMessage_pointer f p reg)
    by_cases hnew : new = old
    · exact ⟨_, congrArg toOutcome (updateMasked_unchanged ht hcalled.result mask value hnew), rfl,
        fun _ => ⟨hcalled.past, hdevice, hcalled.peek_same_file hdev hdevice⟩, fun h => absurd hnew h⟩
    · obtain ⟨u, hu, hcalled', hdevice'⟩ := transfer_write_served (hcalled.canCall hs) hdevice [reg, new]
      have hrun : Machine.updateMasked a reg mask value s = .done () u := by
        rw [updateMasked_changed ht hcalled.result mask value hnew, raceCalls_none ((regRead8_race ht).trans hrace)]
        exact hu
      refine ⟨u, congrArg toOutcome hrun, hcalled'.result, fun h => absurd h hnew, fun _ => ⟨?_, hdevice', ?_⟩⟩
      · rw [hcalled'.past, hcalled.past, List.append_assoc]
        rfl
      · intro b k hk
        have hwritten := hcalled'.peek_eq hdevice hdevice' (hk.imp_right (RegFile.peek_write_other f new))
        exact hwritten.trans (hcalled.peek_same_file hdev hdevice b k)
  · obtain ⟨t, ht, hdevs, hcalled⟩ := transfer_absent (canCall_of hmay hb hidle) habsent ⟨false, false, .write [reg]⟩
      [⟨true, true, .read 1⟩]
    exact ⟨t, congrArg toOutcome (updateMasked_error mask value ht hcalled.result), hcalled.result, hcalled.past, hdevs⟩
  · intro t u old rs ht hr new hnew hall
    have hdone : regRead8 a reg s = .done () t :=
      (regRead8_step a reg s).done_of_next ht fun hhangs => by rw [hhangs.result] at hr; cases hr
    rw [← regRead8_race hdone] at hall
    obtain ⟨v, hcalls, hwrite⟩ := otherCalls_of_runAll hall
    calc exec (.updateMasked a reg mask value) s
      _ = toOutcome ((raceCalls t).andThen (regWrite8 a reg new)) :=
        congrArg toOutcome (updateMasked_changed hdone hr mask value hnew)
      _ = toOutcome (regWrite8 a reg new v) := by rw [raceCalls_eq, hcalls, Run.andThen_done]
      _ = .next u := hwrite

end Sys2Proof.RegisterHelpers

end

/-! ## Every helper returns (O48) -/

section

namespace Sys2Proof.Machine

open Sys2Proof

/-- A call to `a` that has returned with the bus closed, in an environment willing for `k` more commands: the next call
may begin, and the host's script of other callers is as it was. -/
structure Closed (k : Nat) (a : Addr) (s t : State) : Prop where
  may : MayCall a t
  bus : t.eng.bus = .idle
  willing : Willing k t
  race : t.host.race = s.host.race

theorem Closed.result {k : Nat} {a : Addr} {s t : State} (h : Closed k a s t) (r : Ret) :
    Closed k a s (setResult r t) := ⟨h.may, h.bus, h.willing, h.race⟩

/-- An error that a transfer brings back from the bus. -/
def BusFailure (r : Ret) : Prop := ∃ e, r = .err e ∧ (e = .nack ∨ e = .arbitrationLost)

/-- The run returns as a step, with the bus closed and a result of the bus. -/
def ReturnsClosed (r : Run Unit) : Prop :=
  ∃ t, toOutcome r = .next t ∧ Quiescent t ∧ t.eng.bus = .idle ∧
    (resultCode t.host.result = some 0 ∨ t.host.result = .err .nack ∨ t.host.result = .err .arbitrationLost)

theorem Closed.returns {k : Nat} {a : Addr} {s t : State} {r : Run Unit} (h : Closed k a s t) (hr : r = .done () t)
    (hres : resultCode t.host.result = some 0 ∨ BusFailure t.host.result) : ReturnsClosed r := by
  refine ⟨t, congrArg toOutcome hr, h.may.1, h.bus, hres.imp_right ?_⟩
  rintro ⟨e, he, rfl | rfl⟩
  · exact .inl he
  · exact .inr he

/-! ### One transfer -/

/-- A transfer returns in a willing environment (R181, R283). -/
theorem transfer_closed {a : Addr} {s : State} {k : Nat} (hmay : MayCall a s) (m : Msg) (ms : List Msg)
    (hw : Willing (k + callCommands (m :: ms)) s) :
    ∃ t, transfer a (m :: ms) s = .done () t ∧ Closed k a s t ∧
      (t.host.result = .ok ∨ BusFailure t.host.result) := by
  obtain ⟨t, ht, hwt⟩ := transfer_done a (m :: ms) hmay hw
  obtain ⟨⟨hp, hwait⟩, hc, hown⟩ := hmay
  have hend := (transfer_post a m ms s hp hc).of_done ht
  have hframe := hend.ret.frame
  refine ⟨t, ht, ⟨⟨⟨hend.ret.phase, hend.ret.waiting.trans hwait⟩, hframe.configured.trans hc, ?_⟩, hend.bus, hwt,
    hend.ret.race⟩, ?_⟩
  · rw [hframe.cfg]
    exact hown
  · obtain ⟨hok, -⟩ | ⟨hnack, -⟩ | ⟨hlost, -⟩ := hend.result
    · exact .inl hok
    · exact .inr ⟨_, hnack, .inl rfl⟩
    · exact .inr ⟨_, hlost, .inr rfl⟩

/-- A helper that makes a value returns it, or its transfer's error (R283). -/
theorem helper_closed {a : Addr} {s : State} {k : Nat} (hmay : MayCall a s) (m : Msg) (ms : List Msg)
    (ret : State → Ret) (hw : Willing (k + callCommands (m :: ms)) s) :
    ∃ t, helper a (m :: ms) ret s = .done () t ∧ Closed k a s t ∧
      ((∃ u, t.host.result = ret u) ∨ BusFailure t.host.result) := by
  obtain ⟨t, ht, hclosed, hok | ⟨e, he, hcase⟩⟩ := transfer_closed hmay m ms hw
  · exact ⟨_, helper_ok ret ht hok, hclosed.result _, .inl ⟨t, rfl⟩⟩
  · exact ⟨t, helper_error ret ht he, hclosed, .inr ⟨e, he, hcase⟩⟩

/-! ### The kinds of helper -/

section
variable {a : Addr} {s : State} {k : Nat} (hmay : MayCall a s) (hw : Willing k s)
include hmay hw

theorem transfer_returns (m : Msg) (ms : List Msg) (hk : callCommands (m :: ms) ≤ k) :
    ReturnsClosed (transfer a (m :: ms) s) := by
  obtain ⟨t, ht, hclosed, hres⟩ := transfer_closed (k := 0) hmay m ms (hw.mono (by omega))
  exact hclosed.returns ht (hres.imp_left fun hok => by rw [hok]; rfl)

theorem helper_returns (m : Msg) (ms : List Msg) (ret : State → Ret) (hret : ∀ u, resultCode (ret u) = some 0)
    (hk : callCommands (m :: ms) ≤ k) : ReturnsClosed (helper a (m :: ms) ret s) := by
  obtain ⟨t, ht, hclosed, hres⟩ := helper_closed (k := 0) hmay m ms ret (hw.mono (by omega))
  exact hclosed.returns ht (hres.imp_left fun ⟨u, hu⟩ => by rw [hu]; exact hret u)

/-- The read-modify-write returns when no other caller comes between its transfers (R282): nine commands of the read,
six of the write. -/
theorem updateMasked_returns (reg mask value : Byte) (hk : 15 ≤ k) (hrace : s.host.race = []) :
    ReturnsClosed (updateMasked a reg mask value s) := by
  obtain ⟨t, ht, hclosed, ⟨u, hu⟩ | ⟨e, he, hcase⟩⟩ := helper_closed (k := 6) hmay ⟨false, false, .write [reg]⟩
    [⟨true, true, .read 1⟩] (fun s => .okByte (byteRead s 0)) (hw.mono hk)
  · by_cases hnew : maskedUpdate (byteRead u 0) mask value = byteRead u 0
    · exact (hclosed.result .ok).returns (updateMasked_unchanged ht hu mask value hnew) (.inl rfl)
    · rw [updateMasked_changed ht hu mask value hnew, raceCalls_none (hclosed.race.trans hrace)]
      exact transfer_returns hclosed.may hclosed.willing _ _ le_rfl
  · exact hclosed.returns (updateMasked_failed ht he mask value) (.inr ⟨e, he, hcase⟩)

end

/-! ### The statement -/

/-- Settles O48: each helper is one transfer, with or without a value, or the read-modify-write's two. -/
theorem helpersReturn : Obligations.HelpersReturn := by
  intro a bytes n reg v mask w s hmay i k hmem hw hrace
  have hone := fun m hk => transfer_returns hmay hw m [] hk
  have hvalue := fun m ms ret hret hk => helper_returns hmay hw m ms ret hret hk
  simp only [List.mem_cons, Prod.mk.injEq, List.not_mem_nil, or_false] at hmem
  obtain ⟨rfl, rfl⟩ | ⟨rfl, rfl⟩ | ⟨rfl, rfl⟩ | ⟨rfl, rfl⟩ | ⟨rfl, rfl⟩ | ⟨rfl, rfl⟩ | ⟨rfl, rfl⟩ | ⟨rfl, rfl⟩ |
    ⟨rfl, rfl⟩ | ⟨rfl, rfl⟩ | ⟨rfl, rfl⟩ := hmem
  · exact hone _ le_rfl
  · exact hone _ le_rfl
  · exact hvalue _ _ _ (fun _ => rfl) le_rfl
  · refine hvalue _ _ _ (fun _ => rfl) ?_
    show bytes.length + 3 + (n + 3 + 1) ≤ _
    omega
  · exact hvalue _ _ _ (fun _ => rfl) le_rfl
  · exact hone _ le_rfl
  · exact hvalue _ _ _ (fun _ => rfl) le_rfl
  · exact hvalue _ _ _ (fun _ => rfl) le_rfl
  · exact hone _ le_rfl
  · exact hone _ le_rfl
  · exact updateMasked_returns hmay hw reg mask v le_rfl (hrace ⟨_, _, _, _, rfl⟩)

end Sys2Proof.Machine

end

/-! ## What no operation on the bus touches (O41) -/

section

namespace Sys2Proof.Machine

open Sys2Proof

theorem endInCall_stores (s : State) :
    (endInCall s).Post (fun _ t => NothingStored s t) (NothingStored s) := by
  unfold endInCall
  split
  · exact (finishCall_reach 0 s).mono (fun _ _ h => h.2) fun _ h => h.2
  · exact NothingStored.refl s

/-- A read message of a standing call stores nothing, nor does the end of the call when it fails. -/
theorem execMessage_stores {m : Msg} (hm : m.isRead = true) {s t : State} (h : execMessage m s = .next t) :
    NothingStored s t := by
  obtain ⟨-, c, -, h⟩ := execMessage_next h
  have hrun : ((runMsg c.addr m s).andThen endInCall).Post (fun _ t => NothingStored s t) (NothingStored s) :=
    (runMsg_stores c.addr m hm s).andThen (fun _ h => h) fun u hu =>
      (endInCall_stores u).mono (fun _ _ h => hu.trans h) fun _ h => hu.trans h
  exact (toOutcome_next hrun h).elim id id

/-- A helper whose messages all read stores nothing. -/
theorem helper_stores (a : Addr) {msgs : List Msg} (hm : ∀ m ∈ msgs, m.isRead = true) (ret : State → Ret) (s : State) :
    (helper a msgs ret s).Post (fun _ t => NothingStored s t) (NothingStored s) := by
  refine (transfer_reach a msgs s).andThen (fun _ h => h.2 hm) fun t ht => ?_
  show NothingStored s (if _ then _ else _)
  split <;> exact ht.2 hm

/-- An operation on the bus that only reads is a transfer, a message or the helper `READ`. -/
theorem exec_stores {i : Instr} (hi : readsOnly i = true) {s t : State} (h : exec i s = .next t) :
    NothingStored s t := by
  cases i
  case transfer a msgs =>
    exact (toOutcome_next (transfer_reach a msgs s) h).elim (fun h => h.2 (List.all_eq_true.1 hi))
      fun h => h.2 (List.all_eq_true.1 hi)
  case msgRead restart stop len => exact execMessage_stores (m := ⟨restart, stop, .read len⟩) rfl h
  case read a n =>
    have hread : ∀ m ∈ readPattern n, m.isRead = true := by simp [readPattern, Msg.isRead]
    exact (toOutcome_next (helper_stores a hread _ s) h).elim id id
  all_goals cases hi

/-- Settles O41: the frame of every operation on the bus, the reach of a transfer, and what reading stores. -/
theorem busOperationsFrame : Obligations.BusOperationsFrame := by
  intro i s t hi h
  refine ⟨exec_bus_frame hi h, ?_, fun hr => (exec_stores hr h).2, fun hu => exec_bus_race hi hu h⟩
  rintro a msgs rfl b hb
  exact (toOutcome_next (transfer_reach a msgs s) h).elim (fun h => h.1.2 b hb) fun h => h.1.2 b hb

end Sys2Proof.Machine

end

/-! ## No operation of the engine sees the responder (O59) -/

section

namespace Sys2Proof.Machine

open Sys2Proof

/-- Every operation of one transport runs alike whatever stands in the responder. -/
theorem exec_primitive_blind {i : Instr} (hi : isPrimitive i = true) (g : Target) (s : State) :
    exec i (s.withTarget g) = outcomeWithTarget g (exec i s) := by
  cases i
  case setClock v => exact (setClock_blind v).primitive .bitBang (fun _ _ _ => rfl) g s
  case setData v => exact (setData_blind v).primitive .bitBang (fun _ _ _ => rfl) g s
  case readData => exact readData_blind.primitive .bitBang (fun _ _ _ => rfl) g s
  case readClock => exact readClock_blind.primitive .bitBang (fun _ _ _ => rfl) g s
  case delayQ => exact delay_blind.primitive .bitBang (fun _ _ _ => rfl) g s
  case delayH => exact delayH_blind.primitive .bitBang (fun _ _ _ => rfl) g s
  case start => exact wireStart_blind.primitive .bitBang (fun _ _ _ => rfl) g s
  case rstart => exact wireRstart_blind.primitive .bitBang (fun _ _ _ => rfl) g s
  case stop => exact wireStop_blind.primitive .bitBang (fun _ _ _ => rfl) g s
  case writeBit b => exact (writeBit_blind b).primitive .bitBang (fun _ _ _ => rfl) g s
  case readBit => exact readBit_blind.primitive .bitBang (fun _ _ _ => rfl) g s
  case sendByte b => exact (wireSendByte_blind b).primitive .bitBang (fun _ _ _ => rfl) g s
  case recvByte ack => exact (wireRecvByte_blind ack).primitive .bitBang (fun _ _ _ => rfl) g s
  case pStart => exact srpStart_blind.primitive .peripheral (fun _ _ _ => rfl) g s
  case pWrite b => exact (srpWrite_blind b).primitive .peripheral (fun _ _ _ => rfl) g s
  case pRead ack => exact (srpRead_blind ack).primitive .peripheral (fun _ _ _ => rfl) g s
  case pStop => exact srpStop_blind.primitive .peripheral (fun _ _ _ => rfl) g s
  all_goals cases hi

/-- So does every operation that is no event and no callback. -/
theorem exec_blind {i : Instr} (hi : i.onEventPath = false) (g : Target) (s : State) :
    exec i (s.withTarget g) = outcomeWithTarget g (exec i s) := by
  cases exec_kind i with
  | responder h => rw [hi] at h; cases h
  | primitive h => exact exec_primitive_blind h g s
  | call h => rw [exec_call h, exec_call h]; exact (callRun_blind i).outcome g s
  | configure m h => subst h; exact execConfigure_blind m g s
  | message m h => rw [h, h]; exact execMessage_blind m g s
  | address b h => rw [h, h]; exact execAddress_blind b g s

/-- Settles O59: such an operation leaves the responder, and runs alike with another one in its place. -/
theorem engineIgnoresResponder : Obligations.EngineIgnoresResponder := by
  intro i s t g he hc h
  have hi : i.onEventPath = false := by rw [onEventPath_eq_isEvent_or_isCallback, he, hc]; rfl
  refine ⟨(exec_leaves hi h).tgt, ?_⟩
  calc exec i (s.withTarget g)
      _ = outcomeWithTarget g (exec i s) := exec_blind hi g s
      _ = .next (t.withTarget g) := by rw [h]; rfl

end Sys2Proof.Machine

end

/-! ## No legal state faults (O3) -/

section

namespace Sys2Proof.Machine

open Sys2Proof

/-! ### Operations -/

theorem toOutcome_ne_fault (r : Run Unit) (f : Fault) : toOutcome r ≠ .fault f := by
  cases r <;> simp [toOutcome]

theorem finishWith_ne_fault {α : Type} (ret : α → State → Ret) (r : Run α) (f : Fault) :
    finishWith ret r ≠ .fault f := by
  cases r <;> simp [finishWith]

theorem primitive_ne_fault {α : Type} (b : Backend) (p : State → Run α) (ret : α → State → Ret) (s : State)
    (f : Fault) : (onBackend b s fun s => finishWith ret (p s)) ≠ .fault f := by
  unfold onBackend
  split
  · exact finishWith_ne_fault ret _ f
  · simp

theorem deliver_ne_fault (s : State) (f : Fault) : deliver s ≠ .fault f := by
  unfold deliver
  split
  · simp
  · split <;> simp

theorem raiseEvents_ne_fault (es : List Event) (s : State) (f : Fault) : raiseEvents es s ≠ .fault f := by
  unfold raiseEvents
  dsimp only
  split
  · exact deliver_ne_fault _ f
  · simp

theorem execMessage_ne_fault (m : Msg) (s : State) (f : Fault) : execMessage m s ≠ .fault f := by
  unfold execMessage
  split
  · simp
  · split
    · exact toOutcome_ne_fault _ f
    · simp

theorem execAddress_ne_fault (b : Byte) (s : State) (f : Fault) : execAddress b s ≠ .fault f := by
  unfold execAddress
  split
  · simp
  · split
    · exact toOutcome_ne_fault _ f
    · simp

/-- No operation faults: the one fault is the sequencer's, off its call (log entry 33). -/
theorem exec_ne_fault (i : Instr) (s : State) (f : Fault) : exec i s ≠ .fault f := by
  cases exec_kind i with
  | responder h =>
    cases i
    case evAddr | evStop | evRxByte | evTxReq | evBusErr | evColl => exact raiseEvents_ne_fault _ s f
    case readRegister | writeRegister => exact nofun
    all_goals cases h
  | primitive h =>
    cases i
    case setClock | setData | readData | readClock | delayQ | delayH | start | rstart | stop | writeBit | readBit |
        sendByte | recvByte | pStart | pWrite | pRead | pStop => exact primitive_ne_fault _ _ _ s f
    all_goals cases h
  | call h => rw [exec_call h]; exact toOutcome_ne_fault _ f
  | configure m h =>
    subst h
    simp only [exec, execConfigure]
    split
    · simp
    · split <;> simp
  | message m h => rw [h]; exact execMessage_ne_fault m s f
  | address b h => rw [h]; exact execAddress_ne_fault b s f

/-! ### Places of the sequencer -/

/-- Outside `IDLE` a legal sequencer has its call (R30). -/
theorem seqLegal_call {s : State} (h : seqLegal s = true) (hp : s.eng.seq.phase ≠ .idle) :
    ∃ c, s.eng.call = some c := by
  cases hc : s.eng.call with
  | some c => exact ⟨c, rfl⟩
  | none =>
    have hm : currentMsg s = none := by simp [currentMsg, hc]
    cases hph : s.eng.seq.phase with
    | idle => exact absurd hph hp
    | check | finalStop | failStop | done => simp [seqLegal, hph, hc] at h
    | preStop | loadFlags | cond | addr | dataWr | dataRd => simp [seqLegal, hph, hm] at h

theorem seqLegal_loadFlags {s : State} (h : seqLegal s = true) (hp : s.eng.seq.phase = .loadFlags) :
    ∃ m, currentMsg s = some m := by
  simpa [seqLegal, hp, Option.isSome_iff_exists] using h

theorem seqLegal_dataWr {s : State} (h : seqLegal s = true) (hp : s.eng.seq.phase = .dataWr) :
    ∃ restart stop buf, currentMsg s = some ⟨restart, stop, .write buf⟩ := by
  cases hm : currentMsg s with
  | none => simp [seqLegal, hp, hm] at h
  | some m =>
    obtain ⟨restart, stop, buf | len⟩ := m
    · exact ⟨restart, stop, buf, rfl⟩
    · simp [seqLegal, hp, hm, Msg.isRead] at h

theorem seqLegal_dataRd {s : State} (h : seqLegal s = true) (hp : s.eng.seq.phase = .dataRd) :
    ∃ restart stop len, currentMsg s = some ⟨restart, stop, .read len⟩ := by
  cases hm : currentMsg s with
  | none => simp [seqLegal, hp, hm] at h
  | some m =>
    obtain ⟨restart, stop, buf | len⟩ := m
    · simp [seqLegal, hp, hm, Msg.isRead] at h
    · exact ⟨restart, stop, len, rfl⟩

/-- No row of R193 faults at a legal place: the rows that need a message of the call find it, with its direction. -/
theorem seqMove_ne_fault {s : State} (h : seqLegal s = true) (hp : s.eng.seq.phase ≠ .idle) (f : Fault) :
    seqMove s ≠ .fault f := by
  obtain ⟨c, hc⟩ := seqLegal_call h hp
  cases hph : s.eng.seq.phase with
  | idle => exact absurd hph hp
  | check | preStop | cond | addr | finalStop | failStop => simp [seqMove, hc, hph, toOutcome_ne_fault]
  | done => simp [seqMove, hc, hph]
  | loadFlags =>
    obtain ⟨m, hm⟩ := seqLegal_loadFlags h hph
    rw [currentMsg_of_call hc] at hm
    simp [seqMove, hc, hph, hm]
  | dataWr =>
    obtain ⟨restart, stop, buf, hm⟩ := seqLegal_dataWr h hph
    rw [currentMsg_of_call hc] at hm
    simp only [seqMove, hc, hph, hm]
    split
    · exact toOutcome_ne_fault _ f
    · simp
  | dataRd =>
    obtain ⟨restart, stop, len, hm⟩ := seqLegal_dataRd h hph
    rw [currentMsg_of_call hc] at hm
    simp only [seqMove, hc, hph, hm]
    split
    · exact toOutcome_ne_fault _ f
    · simp

theorem callStep_ne_fault {s : State} (h : seqLegal s = true) (hp : s.eng.seq.phase ≠ .idle) (f : Fault) :
    callStep s ≠ .fault f := by
  obtain ⟨c, hc⟩ := seqLegal_call h hp
  cases hph : s.eng.seq.phase with
  | preStop =>
    obtain ⟨m, hm⟩ := seqLegal_message h hph
    rw [callStep_message hc hph ((currentMsg_of_call hc).symm.trans hm)]
    exact exec_ne_fault _ s f
  | addr =>
    rw [callStep_address hc hph]
    exact exec_ne_fault _ s f
  | idle | check | loadFlags | cond | dataWr | dataRd | finalStop | failStop e | done =>
    have hrow : callStep s = seqMove s := by simp only [callStep, hc, hph]
    rw [hrow]
    exact seqMove_ne_fault h hp f

/-! ### Steps -/

theorem engineStep_ne_fault {s : State} (h : seqLegal s = true) (f : Fault) : engineStep s ≠ .fault f := by
  unfold engineStep
  split
  · simp
  · split
    · simp
    next hp => exact callStep_ne_fault h hp f

theorem arrive_ne_fault (a : Arrival) (s : State) (f : Fault) : arrive a s ≠ .fault f := by
  cases a with
  | word w =>
    cases hd : decode .host w with
    | error e => simp [arrive, hd]
    | ok i => rw [arrive_word hd]; exact exec_ne_fault i s f
  | together es => exact raiseEvents_ne_fault es s f
  | mask | readReg | writeReg => exact nofun

/-- Settles O3: of all a step can be, the engine going on alone could fault, and a legal sequencer stands at a place of
its call. -/
theorem legalStatesNeverFault : Obligations.LegalStatesNeverFault := by
  intro s f hs
  obtain ⟨-, hstep⟩ | ⟨-, -, hstep⟩ | ⟨-, a, rest, -, -, hstep⟩ := step_cases s <;> rw [hstep]
  · exact deliver_ne_fault s f
  · exact engineStep_ne_fault hs.seq f
  · exact arrive_ne_fault a _ f

end Sys2Proof.Machine

end

/-! ## An operation that waits for ever (O13) -/

section

namespace Sys2Proof.Machine

open Sys2Proof

/-- While an operation of the host runs, what reaches the machine is of the event-handling path (R30, R315). -/
theorem Arrival.onEventPath_of_busy {a : Arrival} {s : State} (hb : busy s = true) (hr : a.ready s = true) :
    a.onEventPath = true := by
  cases a with
  | word w =>
    cases hd : decode .host w with
    | error e => simp [Arrival.ready, hd, hb] at hr
    | ok i =>
      rw [Arrival.word_onEventPath hd]
      cases he : i.isEvent with
      | true => simp [onEventPath_eq_isEvent_or_isCallback, he]
      | false =>
        by_contra hi
        simp [Arrival.ready, hd, hb, he, hi] at hr
  | together es => rfl
  | mask | readReg | writeReg => simp [Arrival.ready, hb] at hr

/-- Settles O13: the engine rests, and what can still come is of the event-handling path, which touches the responder
only. -/
theorem hangIsForEver : Obligations.HangIsForEver := by
  intro s t hw h
  have hwait : s.eng.waiting.isSome = true := Option.isSome_iff_ne_none.2 hw
  obtain ⟨-, hstep⟩ | ⟨-, -, hstep⟩ | ⟨-, a, rest, -, hr, hstep⟩ := step_cases s <;> rw [hstep] at h
  · obtain ⟨g, rfl⟩ := deliver_next h
    exact ⟨rfl, rfl, rfl, rfl, rfl, rfl⟩
  · rw [engineStep, if_pos hwait] at h
    cases h
    exact ⟨rfl, rfl, rfl, rfl, rfl, rfl⟩
  · obtain ⟨g, rfl⟩ := arrive_responder (Arrival.onEventPath_of_busy (by simp [busy, hwait]) hr) h
    exact ⟨rfl, rfl, rfl, rfl, rfl, rfl⟩

end Sys2Proof.Machine

end

/-! ## The order of events raised together (O54) -/

section

namespace Sys2Proof.Machine

open Sys2Proof

/-! ### The three classes of R326 -/

theorem eventClass_eq_zero {e : Event} : eventClass e = 0 ↔ e = .busErr ∨ e = .coll := by
  cases e <;> simp [eventClass]

theorem eventClass_eq_one {e : Event} : eventClass e = 1 ↔ e = .stop := by
  cases e <;> simp [eventClass]

theorem eventClass_eq_two {e : Event} : eventClass e = 2 ↔ e ≠ .busErr ∧ e ≠ .coll ∧ e ≠ .stop := by
  cases e <;> simp [eventClass]

theorem eventClass_le_two (e : Event) : eventClass e ≤ 2 := by
  cases e <;> simp [eventClass]

/-- One event may stand before another in the order of R326 when its class is no later. -/
theorem eventClass_le_iff (d e : Event) : eventClass d ≤ eventClass e ↔
    ((e = .busErr ∨ e = .coll) → d = .busErr ∨ d = .coll) ∧ (e = .stop → d = .busErr ∨ d = .coll ∨ d = .stop) := by
  rw [← or_assoc, ← eventClass_eq_zero, ← eventClass_eq_zero, ← eventClass_eq_one, ← eventClass_eq_one]
  have := eventClass_le_two d
  omega

theorem inOrder_iff_pendingSorted (es : List Event) : InOrder es ↔ pendingSorted es = true := by
  simp only [InOrder, ← eventClass_le_iff]
  induction es with
  | nil => simp [pendingSorted]
  | cons e es ih => exact (List.pairwise_cons.trans (and_congr_right fun _ => ih)).trans pendingSorted_cons.symm

/-! ### Taking a place among the pending events -/

/-- No event is lost or doubled. -/
theorem insertEvent_perm (e : Event) (es : List Event) : (insertEvent e es).Perm (e :: es) := by
  induction es with
  | nil => exact .refl _
  | cons d es ih =>
    rw [insertEvent]
    split
    · exact (ih.cons d).trans (.swap e d es)
    · exact .refl _

theorem foldl_insertEvent_perm (es ps : List Event) :
    (es.foldl (fun ps e => insertEvent e ps) ps).Perm (es ++ ps) := by
  induction es generalizing ps with
  | nil => exact .refl _
  | cons e es ih => exact (ih _).trans (((insertEvent_perm e ps).append_left es).trans List.perm_middle)

/-- A raised event goes behind the pending ones of its own class, and the other classes stay as they are: all that it
passes over at its place is of a later class. -/
theorem insertEvent_filter_class (c : Nat) (e : Event) {es : List Event} (h : pendingSorted es = true) :
    (insertEvent e es).filter (fun d => decide (eventClass d = c)) =
      es.filter (fun d => decide (eventClass d = c)) ++ if eventClass e = c then [e] else [] := by
  induction es with
  | nil => by_cases he : eventClass e = c <;> simp [insertEvent, he]
  | cons d es ih =>
    obtain ⟨hd, hs⟩ := pendingSorted_cons.1 h
    rw [insertEvent]
    split
    · rw [List.filter_cons, ih hs, List.filter_cons]
      split <;> rfl
    next hlt =>
      by_cases he : eventClass e = c
      · have hnone : (d :: es).filter (fun d => decide (eventClass d = c)) = [] := by
          simp only [List.filter_eq_nil_iff, List.mem_cons, decide_eq_true_eq]
          rintro x (rfl | hx) hc
          · omega
          · have := hd x hx
            omega
        rw [List.filter_cons, hnone]
        simp [he]
      · rw [List.filter_cons]
        simp [he]

/-- Settles O54: pending events stand by class, and a raised one goes behind those of its class. -/
theorem eventPriority : Obligations.EventPriority := by
  intro e es s
  refine ⟨fun h => ?_, fun hp => ?_⟩
  · have hs := (inOrder_iff_pendingSorted es).1 h
    simp only [← eventClass_eq_zero, ← eventClass_eq_one, ← eventClass_eq_two]
    exact ⟨(inOrder_iff_pendingSorted _).2 (insertEvent_sorted e hs), insertEvent_perm e es,
      insertEvent_filter_class 0 e hs, insertEvent_filter_class 1 e hs, insertEvent_filter_class 2 e hs⟩
  · have hpend : (pend es s).tgt.pending = es.foldl (fun ps e => insertEvent e ps) [] := by rw [← hp]; rfl
    rw [hpend]
    exact ⟨(inOrder_iff_pendingSorted _).2 (foldl_insertEvent_sorted es rfl),
      by simpa using foldl_insertEvent_perm es []⟩

end Sys2Proof.Machine

end

/-! ## No event and no callback sees the engine (O60) -/

section

namespace Sys2Proof.Machine

open Sys2Proof

/-! ### What they touch -/

/-- All a delivery can be: nothing is pending, or the handler has a transition for the first event. -/
theorem deliver_cases {s t : State} (h : deliver s = .next t) :
    (s.tgt.pending = [] ∧ t = s) ∨
      ∃ e rest g, s.tgt.pending = e :: rest ∧ handle s.cfg { s.tgt with pending := rest } e = some g ∧
        t = { s with tgt := g } := by
  unfold deliver at h
  split at h
  next hp => cases h; exact .inl ⟨hp, rfl⟩
  next e rest hp =>
    split at h
    next g hg => cases h; exact .inr ⟨e, rest, g, hp, hg, rfl⟩
    · cases h

/-- The machine with another responder, whose register file has the same shape. -/
theorem TargetFrame.ofShape (s : State) {g : Target} (hn : g.file.n = s.tgt.file.n) (hro : g.file.ro = s.tgt.file.ro) :
    TargetFrame s { s with tgt := g } := ⟨rfl, rfl, rfl, rfl, rfl, rfl, hn, hro⟩

theorem deliver_targetFrame {s t : State} (h : deliver s = .next t) : TargetFrame s t := by
  obtain ⟨-, rfl⟩ | ⟨e, rest, g, -, hg, rfl⟩ := deliver_cases h
  · exact TargetFrame.ofShape t rfl rfl
  · have hf := TargetFrame.handled (s := { s with tgt := { s.tgt with pending := rest } }) hg
    exact TargetFrame.ofShape s hf.n hf.ro

theorem raiseEvents_targetFrame {es : List Event} {s t : State} (h : raiseEvents es s = .next t) :
    TargetFrame s t := by
  unfold raiseEvents at h
  dsimp only at h
  split at h
  · have hf := deliver_targetFrame h
    exact ⟨hf.cfg, hf.host, hf.eng, hf.line, hf.srp, hf.sim, hf.n, hf.ro⟩
  · cases h
    exact TargetFrame.ofShape s rfl rfl

/-! ### With another engine and other transports -/

/-- The machine with another engine, other lines, another peripheral and another simulated bus. -/
def State.withEngine (e : Engine) (l : Line) (r : Srp) (m : Sim) (s : State) : State :=
  { s with eng := e, line := l, srp := r, sim := m }

section
variable (e : Engine) (l : Line) (r : Srp) (m : Sim) {s t : State}

theorem deliver_withEngine (h : deliver s = .next t) :
    deliver (s.withEngine e l r m) = .next (t.withEngine e l r m) := by
  obtain ⟨hp, rfl⟩ | ⟨d, rest, g, hp, hg, rfl⟩ := deliver_cases h
  · simp [deliver, State.withEngine, hp]
  · simp [deliver, State.withEngine, hp, hg]

theorem raiseEvents_withEngine {es : List Event} (h : raiseEvents es s = .next t) :
    raiseEvents es (s.withEngine e l r m) = .next (t.withEngine e l r m) := by
  cases hen : s.host.irqEn with
  | true =>
    have hdeliver : raiseEvents es s = deliver (pend es s) := if_pos hen
    have hdeliver' : raiseEvents es (s.withEngine e l r m) = deliver ((pend es s).withEngine e l r m) := if_pos hen
    rw [hdeliver']
    exact deliver_withEngine e l r m (hdeliver ▸ h)
  | false =>
    rw [raiseEvents_masked hen] at h
    rw [raiseEvents_masked (s := s.withEngine e l r m) hen]
    cases h
    rfl

end

/-- Settles O60: an event is raised and handled, a callback is the register file's own, and neither asks for anything
but the parameters, the interrupt enable and the responder. -/
theorem responderIgnoresEngine : Obligations.ResponderIgnoresEngine := by
  intro i s t e l r m hi h
  cases i
  case evAddr | evStop | evRxByte | evTxReq | evBusErr | evColl =>
    exact ⟨raiseEvents_targetFrame h, raiseEvents_withEngine e l r m h⟩
  case readRegister index =>
    cases h
    exact ⟨TargetFrame.ofShape s rfl rfl, rfl⟩
  case writeRegister index byte =>
    cases h
    exact ⟨TargetFrame.ofShape s (RegFile.write_n _ _ _) (RegFile.write_ro _ _ _), rfl⟩
  all_goals cases hi

end Sys2Proof.Machine

end

/-! ## The machine at rest (O12) -/

section

namespace Sys2Proof.Machine

open Sys2Proof

theorem deliverable_of_pending_nil {s : State} (hp : s.tgt.pending = []) : deliverable s = false := by
  simp [deliverable, hp]

theorem engineStep_of_quiescent {s : State} (hq : Quiescent s) : engineStep s = .next s := by
  obtain ⟨hidle, hwait⟩ := hq
  simp [engineStep, hidle, hwait]

/-- Settles O12: no event is due and no entry of the input stands, so the step is the engine's, and the engine rests. -/
theorem idleMachineRests : Obligations.IdleMachineRests := by
  intro s hq hinput hpending
  calc step s
      _ = engineStep s := step_engine (deliverable_of_pending_nil hpending) hinput
      _ = .next s := engineStep_of_quiescent hq

end Sys2Proof.Machine

end
